-- ==== Sys2Proof/Word.lean ====
section
/-!
DEFINITION. The word types of the Lazimet FX-4 and their plainest arithmetic.
-/

namespace Sys2Proof

/-- A 32-bit word: header words, registers, sequence numbers, times, byte addresses (R119, R186). -/
abbrev Word := BitVec 32

/-- A 16-bit value: tags, timer limits, dividers, LOST_COUNT (R3, R9, R177). -/
abbrev Half := BitVec 16

/-- A byte, as it travels on SPI or on a requester link (R119, R154). -/
abbrev Byte := BitVec 8

/-- The largest 32-bit value: the counts that stop there (R26, R51, R71) and the last sequence number (R17). -/
def Word.top : Word := 0xFFFFFFFF#32

/-- A sum that stops at 0xFFFFFFFF (R26, R51, R71). -/
def Word.satAdd (a : Word) (n : Nat) : Word :=
  if a.toNat + n ≤ 0xFFFFFFFF then BitVec.ofNat 32 (a.toNat + n) else Word.top

end Sys2Proof
end

