-- ==== Sys2Proof/Syntax.lean ====
section
/-!
DEFINITION. The commands of the FX-4: one constructor of `Instr` for each row of spec/opcode_table.json, with
the operands that the event of the row brings with it.
-/

namespace Sys2Proof

/-- The four requester ports (00_scope.md, Names; R134). -/
inductive Port where
  | A | B | C | D
  deriving DecidableEq, Repr

/-- The ports in port order (R164). -/
def Port.all : List Port := [.A, .B, .C, .D]

/-- The eight windows (R8, R79). -/
inductive Window where
  | W0 | W1 | W2 | W3 | W4 | W5 | W6 | W7
  deriving DecidableEq, Repr

/-- The windows in order of their numbers. -/
def Window.all : List Window := [.W0, .W1, .W2, .W3, .W4, .W5, .W6, .W7]

/-- The size of a request: BYTE, HALF, WORD or a BURST of words (R119). -/
inductive Size where
  | byte
  | half
  | word
  | burst (words : Nat)
  deriving DecidableEq, Repr

/-- Data on a requester link or on the memory link, as words, a half or a byte: the manual fixes no byte order on the
link, so none is chosen (R119; notes/assumptions/9.md). -/
inductive Data where
  | byte (value : Byte)
  | half (value : Half)
  | word (value : Word)
  | burst (values : List Word)
  deriving DecidableEq, Repr

/-- Operation and size of a request; a WRITE carries its data, and with it its size (R119). -/
inductive Access where
  | read (size : Size)
  | write (data : Data)
  deriving DecidableEq, Repr

/-- A GML request: a 32-bit byte address (of the first byte) and what is asked there (R119). -/
structure Request where
  addr : Word
  access : Access
  deriving DecidableEq, Repr

/-- A GML response: OKAY, with data for a READ, or ERROR (R119, R141). -/
inductive Response where
  | okay (data : Option Data)
  | error
  deriving DecidableEq, Repr

/-- The locked registers of a window, in address order (R116, R186). -/
inductive LockedReg where
  | lbase | flen | sbase | geom
  deriving DecidableEq, Repr

/-- The staged registers of a window, in address order (R117, R186). -/
inductive StagedReg where
  | policy | fillPattern | timersA | timersB
  deriving DecidableEq, Repr

/-- The events of an SPI frame but for its end: CS_N falls; the first bit of the next byte goes out on MISO, which is when a
register (R158) or a record (R166) is latched; a byte has arrived on MOSI, and the last bit of a byte has gone out on MISO
(R154, R155, R165, R166). -/
inductive FrameStep where
  | edge
  | firstBit
  | byte (mosi : Byte)
  deriving DecidableEq, Repr

/-- The events of a READ REGISTERS frame: it is taken at its count byte, and then each register is latched as its first
byte goes out (R158). -/
inductive ReadStep where
  | taken (addr count : Byte)
  | nextRegister
  deriving DecidableEq, Repr

/-- The bytes of a WRITE REGISTERS frame: starting address, count, and the data bytes as far as they arrive (R155, R159). -/
structure WriteFrame where
  addr : Byte
  count : Byte
  data : List Byte
  deriving DecidableEq, Repr

/-- The commands, one constructor for each row of spec/opcode_table.json in the table's order. -/
inductive Instr where
  /-- PIN_RESET: RESET_N is asserted (R115). -/
  | pinReset
  /-- PIN_RESET_RELEASE: RESET_N is deasserted (R140). -/
  | pinResetRelease
  /-- TICK: a tick boundary (R1). -/
  | tick
  /-- PORT_RESET: PRST of the port is asserted (R135). -/
  | portReset (p : Port)
  /-- PORT_RESET_RELEASE: PRST of the port is deasserted (R138). -/
  | portResetRelease (p : Port)
  /-- PASS_THROUGH: a request arrives on the port (R131). -/
  | passThrough (p : Port) (r : Request)
  /-- WRITER_PAYLOAD_ACCESS: a request arrives on the port (R25). -/
  | writerPayloadAccess (p : Port) (r : Request)
  /-- WRITER_HEADER_READ: a WORD READ of a header word arrives (R40; for a reader port R61). -/
  | writerHeaderRead (p : Port) (addr : Word)
  /-- EXPLICIT_COMMIT: a WORD WRITE, to CONTROL, arrives (R28). -/
  | explicitCommit (p : Port) (addr value : Word)
  /-- EXPLICIT_ABANDON: a WORD WRITE, to FRAME_SEQ, arrives (R36). -/
  | explicitAbandon (p : Port) (addr value : Word)
  /-- EXPLICIT_ACQUIRE: a WORD READ, of FRAME_SEQ, arrives (R42). -/
  | explicitAcquire (p : Port) (addr : Word)
  /-- EXPLICIT_RELEASE: a WORD READ, of CONTROL, arrives (R54). -/
  | explicitRelease (p : Port) (addr : Word)
  /-- READER_PAYLOAD_READ: a READ arrives (R50). -/
  | readerPayloadRead (p : Port) (addr : Word) (size : Size)
  /-- ARBITER_GRANT: the arbiter takes a grant (R144, R150). -/
  | arbiterGrant
  /-- MEMORY_RESPONSE: a response arrives from memory (R147). -/
  | memoryResponse (resp : Response)
  /-- RESPONSE_TIMER_EXPIRY: the timer of the outstanding entry at that place of the list, 0 the oldest (R149). -/
  | responseTimerExpiry (place : Fin 4)
  /-- RECOVERY_PULSE_EXPIRY (R151). -/
  | recoveryPulseExpiry
  /-- FILL_TIMER_EXPIRY of the window's writer binding (R37). -/
  | fillTimerExpiry (w : Window)
  /-- HOLD_TIMER_EXPIRY of the port's reader binding in the window (R57). -/
  | holdTimerExpiry (w : Window) (p : Port)
  /-- STALL_TIMER_EXPIRY of the port's held access (R69). -/
  | stallTimerExpiry (p : Port)
  /-- SPI_FRAME_END: CS_N rises (R154). -/
  | spiFrameEnd
  /-- READ_REGISTERS, code 0x01 (R158). -/
  | readRegisters (e : ReadStep)
  /-- WRITE_REGISTERS, code 0x02 (R159, R160). -/
  | writeRegisters (e : WriteFrame)
  /-- REGISTER_WRITE: the fourth data byte for the register at that address arrives (R159). -/
  | registerWrite (addr : Byte) (value : Word)
  /-- LOCKED_REGISTER_WRITE: the fourth data byte for a locked register arrives (R116). -/
  | lockedRegisterWrite (w : Window) (reg : LockedReg) (value : Word)
  /-- STAGED_REGISTER_WRITE: the fourth data byte for a staged register arrives (R117). -/
  | stagedRegisterWrite (w : Window) (reg : StagedReg) (value : Word)
  /-- TB_DIV_WRITE: the fourth data byte for TB_DIV arrives (R1, R161). -/
  | tbDivWrite (value : Word)
  /-- MEM_TIMEOUT_WRITE: the fourth data byte for MEM_TIMEOUT arrives (R146, R161). -/
  | memTimeoutWrite (value : Word)
  /-- EVENT_ENABLE_WRITE: the fourth data byte for EVENT_ENABLE arrives (R161, R175). -/
  | eventEnableWrite (value : Word)
  /-- ENABLE, code 0x10 (R101). -/
  | enable (window mode : Byte)
  /-- DRAIN, code 0x11 (R108). -/
  | drain (window : Byte)
  /-- DISABLE, code 0x12 (R111). -/
  | disable (window : Byte)
  /-- SNAPSHOT, code 0x18 (R163). -/
  | snapshot (window : Byte)
  /-- READ SNAPSHOT, code 0x19 (R165). -/
  | readSnapshot
  /-- DISCARD SNAPSHOT, code 0x1A (R165). -/
  | discardSnapshot
  /-- READ EVENTS, code 0x20 (R166). -/
  | readEvents (maximum : Byte)
  /-- CLEAR COUNTERS, code 0x28 (R168). -/
  | clearCounters (window : Byte)
  /-- RESTART, code 0x30 (R114, R169). -/
  | restart
  /-- RECOVER MEMORY PORT, code 0x31 (R151, R170). -/
  | recoverMemoryPort
  /-- READ TIME, code 0x38 (R170). -/
  | readTime
  /-- UNKNOWN_COMMAND: byte 0 holds a code that is not in the command table (R155). -/
  | unknownCommand (code : Byte)
  /-- SNAPSHOT_CONSUMED: the last bit of snapshot byte 127 has gone out (R165). -/
  | snapshotConsumed
  /-- EVENT_RECORD_REMOVAL: the last bit of the head record's sixteenth byte has gone out (R166, R178). -/
  | eventRecordRemoval
  /-- CLASSIFIER_REFUSAL: a request arrives on the port (R130). -/
  | classifierRefusal (p : Port) (r : Request)
  /-- SPI_FRAME_START: CS_N falls, and then the bytes of the frame go by; the edge where no event is named (R154). -/
  | spiFrameStart (e : FrameStep := .edge)
  deriving DecidableEq, Repr

end Sys2Proof
end

