-- ==== Sys2Proof/Decode.lean ====
section
/-!
DEFINITION. Decoding by the bits of spec/opcode_table.json.
-/

namespace Sys2Proof

/-- The command a word spells by the table's bits. No row of spec/opcode_table.json gives bits (the table's "fields" are
empty and it has no "fixed"), so no word spells a command (notes/assumptions/22.md). -/
def decodeTableWord (_nbits _w : Nat) : Option Instr := none

end Sys2Proof
end

