-- ==== Sys2Proof/Config.lean ====
section
/-!
DEFINITION. What the part fixes as a number, and the one free value of the model.
-/

namespace Sys2Proof.Config

/-- The memory port has at most four requests outstanding (R144, R146). -/
def maxOutstanding : Nat := 4

/-- The event queue holds at most 32 records (R176). -/
def eventCapacity : Nat := 32

/-- A demand list holds at most four entries (R79, R87). -/
def demandRoom : Nat := 4

/-- Bytes of one block (R7). -/
def blockBytes : Nat := 32

/-- Bytes of the exchange header (R6). -/
def headerBytes : Nat := 32

/-- TB_DIV after pin reset (R1, R161). -/
def tbDivReset : Half := 24#16

/-- MEM_TIMEOUT after pin reset (R146, R161). -/
def memTimeoutReset : Half := 1000#16

/-- EVENT_ENABLE after pin reset: every class except FRAME (R161, R186). -/
def eventEnableReset : Byte := 0xFE#8

/-- The fixed limit of the recovery pulse, in ticks (R3, R151). -/
def recoveryTicks : Half := 4#16

/-- The choices the manual leaves open: in which order the records of one event stand (R176), in which order
the windows of one port reset are treated (R137) and in which order several ports take the requests waiting on
their links (R120). Nothing constrains it: a fresh index gives a fresh choice.
Marked DESIGN CHOICE in notes/assumptions/5.md, 6.md and 7.md; safe. -/
opaque freeChoice : Nat → Nat

end Sys2Proof.Config
end

