-- ==== Sys2Proof/Machine/State.lean ====
section
/-!
DEFINITION. Everything the FX-4 holds, as plain data, and the state right after reset.
-/

namespace Sys2Proof.Machine

/-! ### Tables with one entry for each port, window or slot -/

/-- One value for each requester port. -/
structure PerPort (α : Type) where
  a : α
  b : α
  c : α
  d : α
  deriving DecidableEq, Repr

def PerPort.get {α : Type} (t : PerPort α) : Port → α
  | .A => t.a
  | .B => t.b
  | .C => t.c
  | .D => t.d

def PerPort.set {α : Type} (t : PerPort α) (p : Port) (x : α) : PerPort α :=
  match p with
  | .A => { t with a := x }
  | .B => { t with b := x }
  | .C => { t with c := x }
  | .D => { t with d := x }

def PerPort.modify {α : Type} (t : PerPort α) (p : Port) (f : α → α) : PerPort α := t.set p (f (t.get p))

def PerPort.map {α β : Type} (t : PerPort α) (f : α → β) : PerPort β := ⟨f t.a, f t.b, f t.c, f t.d⟩

def PerPort.ofFn {α : Type} (f : Port → α) : PerPort α := ⟨f .A, f .B, f .C, f .D⟩

/-- One value for each window. -/
structure PerWindow (α : Type) where
  w0 : α
  w1 : α
  w2 : α
  w3 : α
  w4 : α
  w5 : α
  w6 : α
  w7 : α
  deriving DecidableEq, Repr

def PerWindow.get {α : Type} (t : PerWindow α) : Window → α
  | .W0 => t.w0
  | .W1 => t.w1
  | .W2 => t.w2
  | .W3 => t.w3
  | .W4 => t.w4
  | .W5 => t.w5
  | .W6 => t.w6
  | .W7 => t.w7

def PerWindow.set {α : Type} (t : PerWindow α) (w : Window) (x : α) : PerWindow α :=
  match w with
  | .W0 => { t with w0 := x }
  | .W1 => { t with w1 := x }
  | .W2 => { t with w2 := x }
  | .W3 => { t with w3 := x }
  | .W4 => { t with w4 := x }
  | .W5 => { t with w5 := x }
  | .W6 => { t with w6 := x }
  | .W7 => { t with w7 := x }

def PerWindow.map {α β : Type} (t : PerWindow α) (f : α → β) : PerWindow β :=
  ⟨f t.w0, f t.w1, f t.w2, f t.w3, f t.w4, f t.w5, f t.w6, f t.w7⟩

/-- The slots of a window, numbered from 0 (R9). -/
inductive SlotId where
  | s0 | s1 | s2 | s3
  deriving DecidableEq, Repr

def SlotId.all : List SlotId := [.s0, .s1, .s2, .s3]

/-- One value for each slot index. -/
structure PerSlot (α : Type) where
  s0 : α
  s1 : α
  s2 : α
  s3 : α
  deriving DecidableEq, Repr

def PerSlot.get {α : Type} (t : PerSlot α) : SlotId → α
  | .s0 => t.s0
  | .s1 => t.s1
  | .s2 => t.s2
  | .s3 => t.s3

def PerSlot.set {α : Type} (t : PerSlot α) (k : SlotId) (x : α) : PerSlot α :=
  match k with
  | .s0 => { t with s0 := x }
  | .s1 => { t with s1 := x }
  | .s2 => { t with s2 := x }
  | .s3 => { t with s3 := x }

/-- A set of ports: READERS, holders, pending readers (R4, R9). -/
abbrev PortSet := PerPort Bool

/-- The empty set of ports. -/
def noPorts : PortSet := ⟨false, false, false, false⟩

/-! ### Time -/

/-- A timer: stopped, or running with the tick boundaries still to come before it expires; at 0 its expiry is due (R3). -/
inductive Timer where
  | stopped
  | running (left : Nat)
  deriving DecidableEq, Repr

/-- The time base (R1). -/
structure TimeBase where
  /-- TB_DIV. -/
  tbDiv : Half
  /-- The divider of the tick in progress: a write of TB_DIV takes effect at the next tick boundary. -/
  tickDiv : Half
  /-- The tick counter. -/
  ticks : Word
  /-- REFCLK periods of the ticks that have ended since RESET_N was deasserted (the model's own count). -/
  refclk : Nat
  deriving DecidableEq, Repr

/-! ### The descriptor (R4, R5) -/

inductive Delivery where
  | stream | latest
  deriving DecidableEq, Repr

inductive CarryMode where
  | none | copy | fill
  deriving DecidableEq, Repr

inductive Overflow where
  | hold | drop | refuse
  deriving DecidableEq, Repr

inductive EmptyRead where
  | wait | fail
  deriving DecidableEq, Repr

/-- The locked part of a descriptor (R4). -/
structure Geometry where
  lbase : Word
  flen : Word
  sbase : Word
  slots : BitVec 3
  writer : Port
  readers : PortSet
  delivery : Delivery
  carry : CarryMode
  implicitAcquire : Bool
  deriving DecidableEq, Repr

/-- The fields of register POLICY (R187). -/
structure Policy where
  overflow : Overflow
  emptyRead : EmptyRead
  autoCommit : Bool
  autoRelease : Bool
  deriving DecidableEq, Repr

/-- The fields of register TIMERS_A (R186). -/
structure TimersA where
  tFill : Half
  tHold : Half
  deriving DecidableEq, Repr

/-- The staged part of a descriptor: the values in effect (R5). -/
structure Effective where
  policy : Policy
  fillPattern : Word
  timersA : TimersA
  tStall : Half
  deriving DecidableEq, Repr

/-- The staged values held for each staged register; the staged-pending flag is set exactly while one is present (R5, R117). -/
structure Staged where
  policy : Option Policy
  fillPattern : Option Word
  timersA : Option TimersA
  tStall : Option Half
  deriving DecidableEq, Repr

/-- The six counters of a window (R182). -/
structure Counters where
  committed : Word
  acquired : Word
  dropped : Word
  abandoned : Word
  waited : Word
  expired : Word
  deriving DecidableEq, Repr

/-! ### The window context (R8) -/

/-- The states of a slot (R11). -/
inductive SlotState where
  | free | filling | ready | retired | releasing
  deriving DecidableEq, Repr

/-- The flags of a frame (R9). -/
structure FrameFlags where
  fault : Bool
  carried : Bool
  filled : Bool
  auto : Bool
  deriving DecidableEq, Repr

/-- A slot record (R9). -/
structure Slot where
  state : SlotState
  /-- Absent until the frame's commit. -/
  seq : Option Word
  tag : Half
  flags : FrameFlags
  /-- The open time while FILLING, the commit time from commit on. -/
  time : Word
  holders : PortSet
  pending : PortSet
  carryRef : Bool
  inFlight : Nat
  deriving DecidableEq, Repr

/-- The state of a writer binding; its FILLING slot is present exactly in state FILLING (R15). -/
inductive WriterState where
  | noSlot
  | filling (k : SlotId)
  | waiting
  deriving DecidableEq, Repr

/-- The writer binding (R15). -/
structure WriterBinding where
  state : WriterState
  bytesWritten : Word
  /-- Dropped since commit. -/
  dropped : Word
  fillTimer : Timer
  commitPending : Bool
  deriving DecidableEq, Repr

/-- The state of a reader binding; its held slot is present exactly in state HOLDING (R16). -/
inductive ReaderState where
  | idle
  | holding (k : SlotId)
  | waiting
  | evicted
  deriving DecidableEq, Repr

/-- A reader binding (R16). -/
structure ReaderBinding where
  state : ReaderState
  lastSeq : Word
  gap : Word
  repeated : Bool
  bytesRead : Word
  holdTimer : Timer
  deriving DecidableEq, Repr

/-- The context of a window that is not DISABLED (R8): a record for each slot below SLOTS, a binding for each port in
READERS. -/
structure Context where
  slots : PerSlot (Option Slot)
  ready : List SlotId
  writer : WriterBinding
  readers : PerPort (Option ReaderBinding)
  base : Option SlotId
  nextSeq : Word
  deriving DecidableEq, Repr

/-- The window states other than DISABLED (R99). -/
inductive LiveMode where
  | observe | active | draining
  deriving DecidableEq, Repr

/-- The window state, with the context a window has exactly while it is not DISABLED (R8, R99). -/
inductive Life where
  | disabled
  | live (mode : LiveMode) (ctx : Context)
  deriving DecidableEq, Repr

/-- All the part holds for one window. -/
structure WindowUnit where
  geom : Geometry
  eff : Effective
  staged : Staged
  counters : Counters
  life : Life
  deriving DecidableEq, Repr

/-! ### Memory requests and front-ends -/

/-- Where a memory request comes from (R146). -/
inductive Origin where
  | port (p : Port)
  | carry
  deriving DecidableEq, Repr

/-- The kinds of R143. -/
inductive Kind where
  | passThrough | writerRead | writerWrite | readerRead | carryRead | carryWrite
  deriving DecidableEq, Repr

/-- A request before the arbiter, with its own address and its attribution (R143). -/
structure MemRequest where
  request : Request
  origin : Origin
  kind : Kind
  window : Option Window
  slot : Option SlotId
  deriving DecidableEq, Repr

/-- An entry of the outstanding list (R146). -/
structure Entry where
  mem : MemRequest
  discarded : Bool
  timer : Timer
  deriving DecidableEq, Repr

/-- Why an access is held; a commit held for its carry job keeps its tag, and whether it is an auto-commit (R28, R29, R65). -/
inductive HoldReason where
  | slot
  | frame
  | carryBlock
  | carryDone (tag : Half) (auto : Bool)
  deriving DecidableEq, Repr

/-- The held-access record of a front-end (R65). -/
structure Held where
  req : Request
  window : Window
  reason : HoldReason
  stall : Timer
  deriving DecidableEq, Repr

/-- The one request in hand of a front-end, by its condition (R120). `carryHeld` remembers that the access was held with
reason CARRY_BLOCK, because its answer re-arms the fill timer (R27, R88). -/
inductive Hand where
  | none
  | held (h : Held)
  | presented (req : Request) (mem : MemRequest) (carryHeld : Bool)
  | outstanding (req : Request) (carryHeld : Bool)
  deriving DecidableEq, Repr

/-- The port states (R134). -/
inductive PortState where
  | active | inReset
  deriving DecidableEq, Repr

/-- A port front-end (R120, R134). -/
structure PortUnit where
  /-- PRST is asserted. -/
  prst : Bool
  state : PortState
  hand : Hand
  /-- The requests the master presents and the front-end has not taken, in arrival order (R119, R120, R134). -/
  link : List Request
  deriving DecidableEq, Repr

/-! ### The carry engine -/

/-- An entry of a demand list: a block, pending or done (R80). -/
structure Demand where
  block : Nat
  done : Bool
  deriving DecidableEq, Repr

/-- The kind of a job, with its source or its pattern (R79). -/
inductive CarryWork where
  | copy (source : SlotId)
  | fill (pattern : Word)
  deriving DecidableEq, Repr

/-- A carry job (R79). -/
structure Job where
  window : Window
  work : CarryWork
  dest : SlotId
  pointer : Nat
  demands : List Demand
  deriving DecidableEq, Repr

/-- The phase of the current block (R81). -/
inductive Phase where
  | read | write
  deriving DecidableEq, Repr

/-- The engine's current block: the window of its job, the block and the phase (R81). -/
structure Current where
  window : Window
  block : Nat
  phase : Phase
  deriving DecidableEq, Repr

/-- The carry engine (R81, R98). `order` is the order of entry of the pending demands of all jobs (R82). -/
structure Engine where
  jobs : List Job
  order : List (Window × Nat)
  current : Option Current
  buffer : Option (List Word)
  deriving DecidableEq, Repr

/-! ### The memory port -/

/-- The states of the memory port (R142). -/
inductive MemState where
  | ready | fault | recovering
  deriving DecidableEq, Repr

/-- The arbiter's five clients (R143). -/
inductive Client where
  | port (p : Port)
  | carry
  deriving DecidableEq, Repr

/-- The state of the memory port but for its outstanding list, which the exchange reads and marks (R142, R144, R151). -/
structure MemPort where
  state : MemState
  rotation : List Client
  pulse : Timer
  deriving DecidableEq, Repr

/-! ### Events -/

/-- The causes of ACCESS_REFUSED (R174). -/
inductive RefuseCause where
  | align | straddle | guard | role | header | noframe | evicted
  deriving DecidableEq, Repr

/-- The causes of WRITER_REFUSED (R173). -/
inductive OpenRefusal where
  | full | draining
  deriving DecidableEq, Repr

/-- The causes of FRAME_ABANDONED (R173). -/
inductive AbandonCause where
  | writer | timeout | portReset
  deriving DecidableEq, Repr

/-- The causes of STALL_EXPIRED (R173). -/
inductive WaitKind where
  | slot | frame
  deriving DecidableEq, Repr

/-- The causes of MEMORY_ERROR (R174). -/
inductive ErrorCause where
  | response | timeout | faulted
  deriving DecidableEq, Repr

/-- The causes of WINDOW_STATE (R99, R174). -/
inductive StateCause where
  | enable | drain | drained | disable | restart
  deriving DecidableEq, Repr

/-- The causes of CONFIG_APPLIED (R174). -/
inductive ApplyCause where
  | commit | entry
  deriving DecidableEq, Repr

/-- The events with their causes (R173, R174). -/
inductive EventKind where
  | frameCommitted
  | frameDropped
  | writerRefused (c : OpenRefusal)
  | frameAbandoned (c : AbandonCause)
  | holdExpired
  | stallExpired (c : WaitKind)
  | accessRefused (c : RefuseCause)
  | memoryError (c : ErrorCause)
  | memoryTimeout
  | portReset
  | windowState (c : StateCause)
  | configApplied (c : ApplyCause)
  | restart
  | eventsLost
  deriving DecidableEq, Repr

/-- An event record (R172). -/
structure EventRecord where
  kind : EventKind
  observed : Bool
  window : Option Window
  port : Option Port
  slot : Option SlotId
  seq : Word
  time : Word
  detail : Word
  deriving DecidableEq, Repr

/-- The event unit (R176, R177). -/
structure EventUnit where
  queue : List EventRecord
  lost : Half
  deriving DecidableEq, Repr

/-! ### The management port -/

/-- What is still to come of an open frame after its command: nothing, registers to latch (R158), registers to be
written (R159), snapshot bytes (R165) or records to send, the one at the head latched or not (R166). -/
inductive Todo where
  | nothing
  | registers (next left : Nat)
  | writes (next left : Nat) (locked : Bool)
  | snapshot
  | records (left : Nat) (latched : Bool)
  deriving DecidableEq, Repr

/-- The frame state of the frame in progress (R154, R156): the command code once byte 0 has arrived, the argument and data
bytes received so far, whether the command has been taken, the response as far as it is settled, the byte MISO carries
after it, and the position in the response: how many of its bytes have gone out. -/
structure FrameState where
  code : Option Byte
  args : List Byte
  taken : Bool
  response : List Byte
  position : Nat
  filler : Byte
  todo : Todo
  deriving DecidableEq, Repr

/-- The SPI side of the management port: CS_N high, a frame ignored to its end, or a frame in progress (R154). -/
inductive Frame where
  | closed
  | ignored
  | running (f : FrameState)
  deriving DecidableEq, Repr

/-- The management port; the snapshot buffer is EMPTY when absent (R154, R163). -/
structure Mgmt where
  frame : Frame
  snapshot : Option (List Byte)
  deriving DecidableEq, Repr

/-! ### The exchange and the whole part -/

/-- The window units, the front-ends, the carry engine and the outstanding list: what the shared operations of the exchange
act on. `raised` holds the records of the event in progress and is empty between events; `answers` holds the answers
given in the event last taken. -/
structure Exchange where
  windows : PerWindow WindowUnit
  ports : PerPort PortUnit
  carry : Engine
  outstanding : List Entry
  raised : List EventRecord
  answers : List (Port × Response)
  deriving DecidableEq, Repr

/-- The whole part, and the queue of the commands that are waiting. -/
structure State where
  /-- RESET_N is asserted (R115). -/
  resetAsserted : Bool
  time : TimeBase
  memTimeout : Half
  eventEnable : Byte
  exch : Exchange
  memPort : MemPort
  events : EventUnit
  mgmt : Mgmt
  /-- The requests put on the memory link in the event last taken (R141). -/
  issued : List MemRequest
  /-- Index of the next free choice (notes/assumptions/5.md). -/
  choices : Nat
  pending : List Instr
  deriving DecidableEq, Repr

/-- Why the machine stops with a fault: no rule of the manual makes the part stop, so there is no reason. -/
inductive Fault where
  deriving DecidableEq, Repr

/-- Why a command is refused. -/
inductive Refusal where
  /-- Raised by `exec` for a command without a meaning; no arm raises it. Safe. -/
  | notModelled (mnemonic : String)
  /-- Raised by the meaning of a command whose operands are no command of the part: a burst of other than 2 to 8 words
  (R119), or UNKNOWN_COMMAND with a code of the command table (R155). Safe: the part cannot be sent it. -/
  | illFormed
  deriving DecidableEq, Repr

/-! ### Reset values -/

/-- The zero descriptor's locked part (R5, R115). -/
def Geometry.zero : Geometry :=
  { lbase := 0, flen := 0, sbase := 0, slots := 0, writer := .A, readers := noPorts, delivery := .stream,
    carry := .none, implicitAcquire := false }

/-- The zero descriptor's values in effect (R5, R115). -/
def Effective.zero : Effective :=
  { policy := { overflow := .hold, emptyRead := .wait, autoCommit := false, autoRelease := false },
    fillPattern := 0, timersA := { tFill := 0, tHold := 0 }, tStall := 0 }

/-- No staged value held (R5). -/
def Staged.none : Staged := { policy := .none, fillPattern := .none, timersA := .none, tStall := .none }

def Counters.zero : Counters := { committed := 0, acquired := 0, dropped := 0, abandoned := 0, waited := 0, expired := 0 }

/-- A window at pin reset (R115). -/
def WindowUnit.reset : WindowUnit :=
  { geom := .zero, eff := .zero, staged := .none, counters := .zero, life := .disabled }

/-- The engine at pin reset (R98). -/
def Engine.idle : Engine := { jobs := [], order := [], current := .none, buffer := .none }

/-- The rotation order at pin reset (R144). -/
def Client.all : List Client := [.port .A, .port .B, .port .C, .port .D, .carry]

/-- The memory port at pin reset (R153). -/
def MemPort.reset : MemPort := { state := .ready, rotation := Client.all, pulse := .stopped }

/-- A port after a reset of the part with PRST deasserted (R140). -/
def PortUnit.reset : PortUnit := { prst := false, state := .active, hand := .none, link := [] }

/-- The exchange after pin reset, no request waiting on a link. -/
def Exchange.reset : Exchange :=
  { windows := ⟨.reset, .reset, .reset, .reset, .reset, .reset, .reset, .reset⟩,
    ports := ⟨.reset, .reset, .reset, .reset⟩, carry := .idle, outstanding := [], raised := [], answers := [] }

/-- The part right after RESET_N is deasserted, with every PRST deasserted and CS_N high (notes/assumptions/4.md). -/
def State.reset : State :=
  { resetAsserted := false,
    time := { tbDiv := Config.tbDivReset, tickDiv := Config.tbDivReset, ticks := 0, refclk := 0 },
    memTimeout := Config.memTimeoutReset, eventEnable := Config.eventEnableReset,
    exch := .reset, memPort := .reset, events := { queue := [], lost := 0 },
    mgmt := { frame := .closed, snapshot := none }, issued := [], choices := 0, pending := [] }

end Sys2Proof.Machine
end

