-- ==== Sys2Proof/WellFormed.lean ====
section
/-!
DEFINITION. Which operands make a command of the FX-4: the burst lengths of GML (R119) and the codes that
are not in the command table (R155).
-/

namespace Sys2Proof

/-- A BURST has 2 to 8 words (R119). -/
def Size.wellFormed : Size → Bool
  | .byte => true
  | .half => true
  | .word => true
  | .burst n => 2 ≤ n && n ≤ 8

/-- The size that data make (R119). -/
def Data.size : Data → Size
  | .byte _ => .byte
  | .half _ => .half
  | .word _ => .word
  | .burst vs => .burst vs.length

def Data.wellFormed (d : Data) : Bool := d.size.wellFormed

/-- The size of a request, for a WRITE that of its data (R119). -/
def Access.size : Access → Size
  | .read z => z
  | .write d => d.size

def Request.wellFormed (r : Request) : Bool := r.access.size.wellFormed

def Response.wellFormed : Response → Bool
  | .okay (some d) => d.wellFormed
  | .okay none => true
  | .error => true

/-- The command codes of R155. -/
def commandCodes : List Byte :=
  [0x01#8, 0x02#8, 0x10#8, 0x11#8, 0x12#8, 0x18#8, 0x19#8, 0x1A#8, 0x20#8, 0x28#8, 0x30#8, 0x31#8, 0x38#8]

/-- The operands are those of a command of the part. What fails here is no GML request (R119), no GML response
(R119, R141) or no unknown code (R155). -/
def Instr.wellFormed : Instr → Bool
  | .passThrough _ r => r.wellFormed
  | .writerPayloadAccess _ r => r.wellFormed
  | .classifierRefusal _ r => r.wellFormed
  | .readerPayloadRead _ _ z => z.wellFormed
  | .memoryResponse resp => resp.wellFormed
  | .unknownCommand code => !(commandCodes.contains code)
  | .pinReset => true
  | .pinResetRelease => true
  | .tick => true
  | .portReset _ => true
  | .portResetRelease _ => true
  | .writerHeaderRead _ _ => true
  | .explicitCommit _ _ _ => true
  | .explicitAbandon _ _ _ => true
  | .explicitAcquire _ _ => true
  | .explicitRelease _ _ => true
  | .arbiterGrant => true
  | .responseTimerExpiry _ => true
  | .recoveryPulseExpiry => true
  | .fillTimerExpiry _ => true
  | .holdTimerExpiry _ _ => true
  | .stallTimerExpiry _ => true
  | .spiFrameEnd => true
  | .readRegisters _ => true
  | .writeRegisters _ => true
  | .registerWrite _ _ => true
  | .lockedRegisterWrite _ _ _ => true
  | .stagedRegisterWrite _ _ _ => true
  | .tbDivWrite _ => true
  | .memTimeoutWrite _ => true
  | .eventEnableWrite _ => true
  | .enable _ _ => true
  | .drain _ => true
  | .disable _ => true
  | .snapshot _ => true
  | .readSnapshot => true
  | .discardSnapshot => true
  | .readEvents _ => true
  | .clearCounters _ => true
  | .restart => true
  | .recoverMemoryPort => true
  | .readTime => true
  | .snapshotConsumed => true
  | .eventRecordRemoval => true
  | .spiFrameStart _ => true

end Sys2Proof
end

