-- ==== Sys2Proof/Machine/Operands.lean ====
section
/-!
DEFINITION. The operands of a request: its bytes, the ranges of a window (R6), the regions (R123), the classification of
every request (R121, R124 to R129), and the descriptor checks of ENABLE, which are about the same ranges (R102).
-/

namespace Sys2Proof.Machine

/-! ### Numbers and sets -/

def Port.number : Port → Nat
  | .A => 0
  | .B => 1
  | .C => 2
  | .D => 3

def Window.number : Window → Nat
  | .W0 => 0
  | .W1 => 1
  | .W2 => 2
  | .W3 => 3
  | .W4 => 4
  | .W5 => 5
  | .W6 => 6
  | .W7 => 7

/-- The window a management argument names, 0x00 to 0x07 (R162). -/
def windowOfNat : Nat → Option Window
  | 0 => some .W0
  | 1 => some .W1
  | 2 => some .W2
  | 3 => some .W3
  | 4 => some .W4
  | 5 => some .W5
  | 6 => some .W6
  | 7 => some .W7
  | _ => none

def SlotId.number : SlotId → Nat
  | .s0 => 0
  | .s1 => 1
  | .s2 => 2
  | .s3 => 3

def PortSet.insert (s : PortSet) (p : Port) : PortSet := s.set p true

def PortSet.erase (s : PortSet) (p : Port) : PortSet := s.set p false

def PortSet.isEmpty (s : PortSet) : Bool := !s.a && !s.b && !s.c && !s.d

/-- How many ports the set holds. -/
def PortSet.size (s : PortSet) : Nat := (Port.all.filter s.get).length

/-! ### The bytes of a request (R119) -/

/-- Bytes of a request of that size: 1, 2, 4, and 4 for each word of a burst (R119, R26). -/
def Size.bytes : Size → Nat
  | .byte => 1
  | .half => 2
  | .word => 4
  | .burst n => 4 * n

/-- The unit a request is aligned to: 1 for BYTE, 2 for HALF, 4 for WORD and every BURST (R121). -/
def Size.unit : Size → Nat
  | .byte => 1
  | .half => 2
  | .word => 4
  | .burst _ => 4

def Access.isWrite : Access → Bool
  | .read _ => false
  | .write _ => true

def Request.bytes (r : Request) : Nat := Size.bytes r.access.size

/-- A request is aligned, and a burst does not run past the top of the address space (R121). -/
def Request.aligned (r : Request) : Bool :=
  r.addr.toNat % Size.unit r.access.size = 0 && r.addr.toNat + Request.bytes r ≤ 0x100000000

/-- The words that data carry, in address order. -/
def Data.words : Data → List Word
  | .byte v => [v.zeroExtend 32]
  | .half v => [v.zeroExtend 32]
  | .word v => [v]
  | .burst vs => vs

/-! ### The ranges of a window (R6) -/

/-- The number of slots, SLOTS (R187: stored as written, 0 to 7). -/
def Geometry.slotCount (g : Geometry) : Nat := g.slots.toNat

/-- The end of the logical range, formed without wrap (R6). -/
def Geometry.logicalEnd (g : Geometry) : Nat := g.lbase.toNat + Config.headerBytes + g.flen.toNat

/-- The end of the slot area, formed without wrap (R6). -/
def Geometry.slotAreaEnd (g : Geometry) : Nat := g.sbase.toNat + g.slotCount * g.flen.toNat

/-- Blocks of a slot, FLEN/32 (R7). -/
def Geometry.blocks (g : Geometry) : Nat := g.flen.toNat / Config.blockBytes

def Geometry.inHeader (g : Geometry) (a : Nat) : Bool := g.lbase.toNat ≤ a && a < g.lbase.toNat + Config.headerBytes

def Geometry.inPayload (g : Geometry) (a : Nat) : Bool := g.lbase.toNat + Config.headerBytes ≤ a && a < g.logicalEnd

def Geometry.inSlotArea (g : Geometry) (a : Nat) : Bool := g.sbase.toNat ≤ a && a < g.slotAreaEnd

/-- The payload byte at a logical address, LBASE + 32 + x (R6). -/
def Geometry.payloadOffset (g : Geometry) (addr : Word) : Nat := addr.toNat - (g.lbase.toNat + Config.headerBytes)

/-- The physical address of payload byte x in slot k, SBASE + k×FLEN + x (R6). -/
def Geometry.physical (g : Geometry) (k : SlotId) (x : Nat) : Word :=
  BitVec.ofNat 32 (g.sbase.toNat + SlotId.number k * g.flen.toNat + x)

/-- The blocks an access of that many bytes at payload byte x touches, lower block first (R7). -/
def touchedBlocks (x bytes : Nat) : List Nat :=
  List.range' (x / Config.blockBytes) ((x + bytes - 1) / Config.blockBytes - x / Config.blockBytes + 1)

/-! ### Regions (R123) -/

/-- The regions of R123. -/
inductive Region where
  | pass
  | header (w : Window)
  | payload (w : Window)
  | slotArea (w : Window)
  | observedHeader (w : Window)
  | observedPayload (w : Window)
  deriving DecidableEq, Repr

/-- The window whose range a region is, if any. -/
def Region.window? : Region → Option Window
  | .pass => none
  | .header w => some w
  | .payload w => some w
  | .slotArea w => some w
  | .observedHeader w => some w
  | .observedPayload w => some w

/-- A region of an ACTIVE or DRAINING window (R125). -/
def Region.isExchange : Region → Bool
  | .header _ => true
  | .payload _ => true
  | .slotArea _ => true
  | .pass => false
  | .observedHeader _ => false
  | .observedPayload _ => false

/-- The region of one window that holds a byte, if one does (R123). -/
def WindowUnit.regionAt (w : Window) (u : WindowUnit) (a : Nat) : Option Region :=
  match u.life with
  | .disabled => none
  | .live .observe _ =>
    if u.geom.inHeader a then some (.observedHeader w)
    else if u.geom.inPayload a then some (.observedPayload w)
    else none
  | .live _ _ =>
    if u.geom.inHeader a then some (.header w)
    else if u.geom.inPayload a then some (.payload w)
    else if u.geom.inSlotArea a then some (.slotArea w)
    else none

/-- The region of a byte: that of the window whose range holds it, PASS otherwise (R123). -/
def regionAt (ws : PerWindow WindowUnit) (a : Nat) : Region :=
  (Window.all.findSome? fun w => (ws.get w).regionAt w a).getD .pass

/-- The regions of the bytes a request touches, lowest address first. -/
def requestRegions (ws : PerWindow WindowUnit) (r : Request) : List Region :=
  (List.range (Request.bytes r)).map fun i => regionAt ws (r.addr.toNat + i)

/-- The window a refusal for ALIGN names: the one whose logical range or slot area holds the first byte, if it is not
DISABLED (R121). -/
def alignWindow (ws : PerWindow WindowUnit) (a : Nat) : Option Window :=
  Window.all.find? fun w =>
    (ws.get w).life ≠ .disabled &&
      ((ws.get w).geom.inHeader a || (ws.get w).geom.inPayload a || (ws.get w).geom.inSlotArea a)

/-! ### Classification (R124) -/

/-- The header words 0 to 5 (R128). -/
inductive HeaderWord where
  | frameSeq | frameInfo | frameTime | control | gap | byteCount
  deriving DecidableEq, Repr

/-- Header word n at LBASE + 4×n; words 6 and 7 are not defined (R6, R128). -/
def HeaderWord.ofNumber : Nat → Option HeaderWord
  | 0 => some .frameSeq
  | 1 => some .frameInfo
  | 2 => some .frameTime
  | 3 => some .control
  | 4 => some .gap
  | 5 => some .byteCount
  | _ => none

/-- What becomes of a request, decided in the event of its taking (R124). The cases are the rows of the command table;
`readerStatus` is a reader's read of FRAME_INFO, FRAME_TIME, GAP or BYTE_COUNT (R61), which has no row of its own. -/
inductive RequestClass where
  | refused (cause : RefuseCause) (w : Option Window)
  | pass
  | observed (w : Window) (report : Option RefuseCause) (commit : Option Word)
  | writerPayload (w : Window)
  | writerHeader (w : Window) (h : HeaderWord)
  | commit (w : Window) (value : Word)
  | abandon (w : Window)
  | readerPayload (w : Window)
  | acquire (w : Window)
  | release (w : Window)
  | readerStatus (w : Window) (h : HeaderWord)
  deriving DecidableEq, Repr

/-- The role check of R127: a port with no role is refused, and a reader's WRITE. -/
def Geometry.roleAllows (g : Geometry) (p : Port) (write : Bool) : Bool := p = g.writer || (g.readers.get p && !write)

/-- Header legality (R128) for a port that has passed the role check: the class of a legal access, none for HEADER. -/
def headerClass (g : Geometry) (w : Window) (p : Port) (r : Request) : Option RequestClass :=
  match r.access, HeaderWord.ofNumber ((r.addr.toNat - g.lbase.toNat) / 4) with
  | .read .word, some h =>
    if p = g.writer then some (.writerHeader w h)
    else match h with
      | .frameSeq => some (.acquire w)
      | .control => some (.release w)
      | _ => some (.readerStatus w h)
  | .write (.word v), some .control => some (.commit w v)
  | .write (.word _), some .frameSeq => some (.abandon w)
  | _, _ => none

/-- An access to an observed header word: its report, if an ACTIVE window would refuse it, and the observed commit that a
WORD WRITE to CONTROL by the writer is (R106, R107, R129). -/
def observedHeaderClass (g : Geometry) (w : Window) (p : Port) (r : Request) : RequestClass :=
  if g.roleAllows p (Access.isWrite r.access) then
    match headerClass g w p r with
    | none => .observed w (some .header) none
    | some (.commit _ v) => .observed w none (some v)
    | some _ => .observed w none none
  else .observed w (some .role) none

/-- The class of a request that lies in one region (R124). -/
def regionClass (ws : PerWindow WindowUnit) (p : Port) (r : Request) : Region → RequestClass
  | .pass => .pass
  | .slotArea w => .refused .guard (some w)
  | .header w =>
    let g := (ws.get w).geom
    if g.roleAllows p (Access.isWrite r.access) then (headerClass g w p r).getD (.refused .header (some w))
    else .refused .role (some w)
  | .payload w =>
    let g := (ws.get w).geom
    if g.roleAllows p (Access.isWrite r.access) then (if p = g.writer then .writerPayload w else .readerPayload w)
    else .refused .role (some w)
  | .observedHeader w => observedHeaderClass (ws.get w).geom w p r
  | .observedPayload w =>
    if (ws.get w).geom.roleAllows p (Access.isWrite r.access) then .observed w none none else .observed w (some .role) none

/-- The class of a request that straddles: refused if it touches a region of an ACTIVE or DRAINING window, otherwise
reported and forwarded; the record names the window of the lowest byte that lies in a window's region (R125). -/
def straddleClass (regions : List Region) : RequestClass :=
  match regions.findSome? Region.window? with
  | none => .pass
  | some w => if regions.any Region.isExchange then .refused .straddle (some w) else .observed w (some .straddle) none

/-- The classification of R124, the first test that decides: alignment, straddle, region. -/
def classify (ws : PerWindow WindowUnit) (p : Port) (r : Request) : RequestClass :=
  if !Request.aligned r then .refused .align (alignWindow ws r.addr.toNat)
  else
    let first := regionAt ws r.addr.toNat
    let regions := requestRegions ws r
    if regions.all (· = first) then regionClass ws p r first else straddleClass regions

/-! ### The descriptor checks of ENABLE (R102) -/

/-- Two ranges [a, b) and [c, d) share a byte (R102). -/
def sharesByte (a b c d : Nat) : Bool := a < b && c < d && a < d && c < b

/-- Check 0x08 against one other descriptor: all four pairs of ranges (R102). -/
def Geometry.overlaps (g h : Geometry) : Bool :=
  sharesByte g.lbase.toNat g.logicalEnd h.lbase.toNat h.logicalEnd ||
  sharesByte g.sbase.toNat g.slotAreaEnd h.sbase.toNat h.slotAreaEnd ||
  sharesByte g.lbase.toNat g.logicalEnd h.sbase.toNat h.slotAreaEnd ||
  sharesByte g.sbase.toNat g.slotAreaEnd h.lbase.toNat h.logicalEnd

/-- Checks 0x01 to 0x07 in order: the reason code of the first that fails (R102). -/
def Geometry.reason (g : Geometry) : Option Byte :=
  if g.flen.toNat % 32 ≠ 0 || g.flen.toNat < 64 || 1048576 < g.flen.toNat then some 0x01
  else if g.slotCount < 2 || 4 < g.slotCount then some 0x02
  else if PortSet.isEmpty g.readers || PortSet.size g.readers = 4 || g.readers.get g.writer then some 0x03
  else if g.delivery = .latest && g.slotCount < PortSet.size g.readers + 2 then some 0x04
  else if g.lbase.toNat % 32 ≠ 0 || g.sbase.toNat % 32 ≠ 0 then some 0x05
  else if 0x100000000 < g.logicalEnd || 0x100000000 < g.slotAreaEnd then some 0x06
  else if sharesByte g.lbase.toNat g.logicalEnd g.sbase.toNat g.slotAreaEnd then some 0x07
  else none

/-- The reason code of the first failing check of R102, none if all pass. -/
def configReason (ws : PerWindow WindowUnit) (w : Window) : Option Byte :=
  match (ws.get w).geom.reason with
  | some c => some c
  | none =>
    if Window.all.any fun v => v ≠ w && (ws.get v).life ≠ .disabled && (ws.get w).geom.overlaps (ws.get v).geom
    then some 0x08 else none

end Sys2Proof.Machine
end

