-- ==== Sys2Proof/Machine/Flags.lean ====
section
/-!
DEFINITION. Flags and other values computed from the state: the frame flags and FRAME_INFO (R9, R185), staged-pending
(R5), gap and distance (R17), the class of an event and its enable (R173 to R175), and the output pins (R142, R180).
-/

namespace Sys2Proof.Machine

/-- A flag at bit n of a word. -/
def flagBit (b : Bool) (n : Nat) : Word := if b then 1#32 <<< n else 0#32

/-! ### Frame flags (R9, R185) -/

/-- No flag set, as at an open before the carry decision (R9). -/
def FrameFlags.empty : FrameFlags := { fault := false, carried := false, filled := false, auto := false }

/-- FRAME_INFO of a frame (R185). -/
def frameInfo (tag : Half) (fl : FrameFlags) (repeated retired : Bool) (k : SlotId) : Word :=
  tag.zeroExtend 32 ||| flagBit fl.fault 16 ||| flagBit fl.carried 17 ||| flagBit fl.filled 18 ||| flagBit fl.auto 19 |||
    flagBit repeated 20 ||| flagBit retired 21 ||| BitVec.ofNat 32 (SlotId.number k) <<< 24

/-- FRAME_INFO of the FILLING frame: tag 0, its flags FAULT, CARRIED and FILLED, the rest 0 (R40, R185). -/
def writerFrameInfo (sl : Slot) (k : SlotId) : Word := frameInfo 0 { sl.flags with auto := false } false false k

/-- FRAME_INFO of a held frame (R61, R185). -/
def readerFrameInfo (sl : Slot) (repeated : Bool) (k : SlotId) : Word :=
  frameInfo sl.tag sl.flags repeated (sl.state = .retired) k

/-! ### The staged set (R5, R117) -/

/-- The staged-pending flag (R5). -/
def Staged.isPending (g : Staged) : Bool := g.policy.isSome || g.fillPattern.isSome || g.timersA.isSome || g.tStall.isSome

/-- The registers that hold staged values, as the detail of CONFIG_APPLIED (R188). -/
def Staged.mask (g : Staged) : Word :=
  flagBit g.policy.isSome 0 ||| flagBit g.fillPattern.isSome 1 ||| flagBit g.timersA.isSome 2 ||| flagBit g.tStall.isSome 3

/-- The values in effect once the staged set is applied (R118); also what a read of the staged registers shows (R117). -/
def Effective.with (e : Effective) (g : Staged) : Effective :=
  { policy := g.policy.getD e.policy, fillPattern := g.fillPattern.getD e.fillPattern,
    timersA := g.timersA.getD e.timersA, tStall := g.tStall.getD e.tStall }

/-! ### Sequence numbers (R17) -/

/-- The sequence number after one: from 0xFFFFFFFF to 1 (R17). -/
def nextSequence (q : Word) : Word := if q = Word.top then 1 else q + 1

/-- The distance from sequence a to sequence b: the steps of the cycle 1 to 0xFFFFFFFF from a to b (R17). -/
def sequenceDistance (a b : Word) : Nat :=
  if a.toNat ≤ b.toNat then b.toNat - a.toNat else b.toNat + 0xFFFFFFFF - a.toNat

/-- The gap written at an acquire of sequence b by a reader whose last sequence is a (R17, R46). -/
def sequenceGap (a b : Word) : Word :=
  if a = 0 then b - 1 else if b = a then 0 else BitVec.ofNat 32 (sequenceDistance a b - 1)

/-! ### Event classes (R173 to R175) -/

/-- The bit of an event's class in EVENT_ENABLE; none for SYSTEM, which has no enable (R175, R186). -/
def EventKind.classBit : EventKind → Option Nat
  | .frameCommitted => some 0
  | .frameDropped => some 1
  | .writerRefused _ => some 1
  | .frameAbandoned _ => some 2
  | .holdExpired => some 3
  | .stallExpired _ => some 3
  | .accessRefused _ => some 4
  | .memoryError _ => some 5
  | .memoryTimeout => some 5
  | .portReset => some 6
  | .windowState _ => some 7
  | .configApplied _ => some 7
  | .restart => none
  | .eventsLost => none

/-- The event's class is enabled, or is SYSTEM (R175). -/
def EventKind.enabled (enables : Byte) (e : EventKind) : Bool :=
  match e.classBit with
  | some n => enables.getLsbD n
  | none => true

/-! ### The event queue's capacity (R176) -/

def EventUnit.isFull (u : EventUnit) : Bool := Config.eventCapacity ≤ u.queue.length

/-! ### Output pins -/

/-- MRST_N is asserted (low) exactly in RECOVERING (R142, R151). -/
def State.mrstAsserted (s : State) : Bool := s.memPort.state = .recovering

/-- EVT_N is driven low exactly while the event queue holds a record (R180). -/
def State.evtLow (s : State) : Bool := !s.events.queue.isEmpty

end Sys2Proof.Machine
end

