-- ==== Sys2Proof/Machine/Contexts.lean ====
section
/-!
DEFINITION. Operations on timers (R3) and on the context of one window: settling, opening, committing, acquiring, giving
back, choosing a slot. They act on one context and know nothing of requests, jobs or other windows.
-/

namespace Sys2Proof.Machine

/-! ### Timers (R3) -/

/-- A timer armed with a limit: a limit of 0 does not run (R3). -/
def Timer.arm (limit : Half) : Timer := if limit = 0 then .stopped else .running limit.toNat

/-- One tick boundary for a timer; one that is due stays due until its expiry is taken (notes/assumptions/3.md). -/
def Timer.tick : Timer → Timer
  | .stopped => .stopped
  | .running n => .running (n - 1)

/-- The timer's limit of tick boundaries has passed: its expiry is due (R3). -/
def Timer.due : Timer → Bool
  | .stopped => false
  | .running n => n = 0

def Timer.isRunning : Timer → Bool
  | .stopped => false
  | .running _ => true

/-! ### Starting values (R9, R15, R16, R104) -/

/-- A slot record at ENABLE (R9). -/
def Slot.start : Slot :=
  { state := .free, seq := none, tag := 0, flags := .empty, time := 0, holders := noPorts, pending := noPorts,
    carryRef := false, inFlight := 0 }

/-- The writer binding at ENABLE (R15). -/
def WriterBinding.start : WriterBinding :=
  { state := .noSlot, bytesWritten := 0, dropped := 0, fillTimer := .stopped, commitPending := false }

/-- A reader binding at ENABLE (R16). -/
def ReaderBinding.start : ReaderBinding :=
  { state := .idle, lastSeq := 0, gap := 0, repeated := false, bytesRead := 0, holdTimer := .stopped }

/-- The context ENABLE builds (R104). -/
def Context.start (g : Geometry) : Context :=
  { slots :=
      ⟨if 0 < g.slotCount then some .start else none, if 1 < g.slotCount then some .start else none,
       if 2 < g.slotCount then some .start else none, if 3 < g.slotCount then some .start else none⟩,
    ready := [], writer := .start,
    readers := PerPort.ofFn fun p => if g.readers.get p then some .start else none,
    base := none, nextSeq := 1 }

/-! ### Reading and changing one record -/

def Context.slot? (c : Context) (k : SlotId) : Option Slot := c.slots.get k

def Context.setSlot (c : Context) (k : SlotId) (sl : Slot) : Context := { c with slots := c.slots.set k (some sl) }

/-- Change slot k's record, if there is one. -/
def Context.modSlot (c : Context) (k : SlotId) (f : Slot → Slot) : Context :=
  match c.slot? k with
  | some sl => c.setSlot k (f sl)
  | none => c

def Context.reader? (c : Context) (p : Port) : Option ReaderBinding := c.readers.get p

def Context.setReader (c : Context) (p : Port) (b : ReaderBinding) : Context :=
  { c with readers := c.readers.set p (some b) }

/-- Change the reader binding of port p, if there is one. -/
def Context.modReader (c : Context) (p : Port) (f : ReaderBinding → ReaderBinding) : Context :=
  match c.reader? p with
  | some b => c.setReader p (f b)
  | none => c

def Context.modWriter (c : Context) (f : WriterBinding → WriterBinding) : Context := { c with writer := f c.writer }

/-- Slot k is in state st. -/
def Context.slotIs (c : Context) (k : SlotId) (st : SlotState) : Bool := (c.slot? k).any fun sl => sl.state = st

/-! ### Settling (R12) -/

/-- A slot record that settles: FREE if nothing is in flight, RELEASING otherwise; its claims are gone (R12). -/
def Slot.settled (sl : Slot) : Slot :=
  { sl with state := if sl.inFlight = 0 then .free else .releasing, holders := noPorts, pending := noPorts, carryRef := false }

/-- Slot k settles and is out of the ready queue (R12, R13). -/
def Context.settle (c : Context) (k : SlotId) : Context :=
  { c.modSlot k Slot.settled with ready := c.ready.filter (· ≠ k) }

/-- Slot k leaves READY for RETIRED and leaves the ready queue (R32, R53). -/
def Context.retire (c : Context) (k : SlotId) : Context :=
  { c.modSlot k (fun sl => { sl with state := .retired }) with ready := c.ready.filter (· ≠ k) }

/-- The carry reference on slot k is dropped; a RETIRED slot without a holder then settles (R91). -/
def Context.dropReference (c : Context) (k : SlotId) : Context :=
  let c' := c.modSlot k fun sl => { sl with carryRef := false }
  match c'.slot? k with
  | some sl => if sl.state = .retired && sl.holders.isEmpty then c'.settle k else c'
  | none => c'

/-! ### Choosing and opening a slot (R21, R23) -/

/-- The outcome of the slot choice (R21): a slot (cases 1 and 3), a wait (cases 2 and 4), or the overflow policy (case 5). -/
inductive Choice where
  | take (k : SlotId)
  | wait
  | overflow
  deriving DecidableEq, Repr

/-- Cases 3 to 5 of R21. -/
def Context.chooseFree (c : Context) : Choice :=
  match SlotId.all.find? fun k => c.slotIs k .free with
  | some k => .take k
  | none => if SlotId.all.any fun k => c.slotIs k .releasing then .wait else .overflow

/-- The slot choice of R21. -/
def Context.chooseSlot (c : Context) (mode : CarryMode) : Choice :=
  match mode, c.base with
  | .copy, some b => if c.slotIs b .free then .take b else if c.slotIs b .releasing then .wait else c.chooseFree
  | _, _ => c.chooseFree

/-- The victim of DROP: the first slot in ready-queue order with no holder, nothing in flight and no carry reference (R71). -/
def Context.victim (c : Context) : Option SlotId :=
  c.ready.find? fun k => (c.slot? k).any fun sl => sl.holders.isEmpty && sl.inFlight = 0 && !sl.carryRef

/-- The victim leaves the ready queue, its pending readers are cleared and it becomes FREE (R71). -/
def Context.dropSlot (c : Context) (k : SlotId) : Context :=
  { c.modSlot k (fun sl => { sl with state := .free, pending := noPorts }) with
    ready := c.ready.filter (· ≠ k),
    writer := { c.writer with dropped := c.writer.dropped.satAdd 1 } }

/-- The changes of an open (R23): slot k starts a new frame with the flags of the carry decision. -/
def Context.openSlot (c : Context) (k : SlotId) (now : Word) (tFill : Half) (fl : FrameFlags) : Context :=
  let c' := c.modSlot k fun sl =>
    { sl with state := .filling, seq := none, tag := 0, flags := fl, time := now }
  c'.modWriter fun b => { b with state := .filling k, bytesWritten := 0, fillTimer := .arm tFill, commitPending := false }

/-! ### Committing (R31 to R33) -/

/-- A slot that a LATEST commit supersedes: RETIRED with a holder or a reference, otherwise it settles (R32). -/
def Context.supersede (c : Context) (k : SlotId) : Context :=
  match c.slot? k with
  | some sl => if sl.holders.isEmpty && !sl.carryRef then c.settle k else c.retire k
  | none => c

/-- The commit of slot k: the slot, the queue, the sequence and the base slot (R31, R32), then the writer binding (R33). -/
def Context.commit (c : Context) (g : Geometry) (k : SlotId) (tag : Half) (auto : Bool) (now : Word) : Context :=
  let c1 := match g.delivery with
    | .stream => c
    | .latest => c.ready.foldl Context.supersede c
  let c2 := c1.modSlot k fun sl =>
    { sl with state := .ready, seq := some c.nextSeq, tag := tag, flags := { sl.flags with auto := auto }, time := now,
              pending := if g.delivery = .stream then g.readers else sl.pending }
  let c3 := { c2 with ready := c1.ready ++ [k], nextSeq := nextSequence c.nextSeq, base := some k }
  c3.modWriter fun b => { b with state := .noSlot, dropped := 0, fillTimer := .stopped, commitPending := false }

/-! ### Abandoning (R38) -/

/-- The abandon's part in the context: the slot settles, the writer binding returns to NO_SLOT, and a base slot that was
opened again is no base slot any more (R17, R38). DESIGN CHOICE: R17 says this of a frame opened on the base slot, R38 only of
one opened in case 1 of R21, that is in a COPY window; the base slot is dropped in a window of any CARRY
(notes/assumptions/25.md). -/
def Context.abandon (c : Context) (k : SlotId) : Context :=
  let c1 := { c.settle k with base := if c.base = some k then none else c.base }
  c1.modWriter fun b => { b with state := .noSlot, fillTimer := .stopped, commitPending := false }

/-! ### Acquiring and giving back (R18, R43, R53) -/

/-- The frame available to a reader (R18). -/
def Context.available (c : Context) (d : Delivery) (p : Port) : Option SlotId :=
  match d with
  | .stream => c.ready.find? fun k => (c.slot? k).any fun sl => sl.pending.get p
  | .latest => c.ready.head?

/-- The reader binding that has acquired the frame of sequence q in slot k (R43, R46). -/
def ReaderBinding.acquired (b : ReaderBinding) (k : SlotId) (q : Word) (tHold : Half) : ReaderBinding :=
  { b with state := .holding k, gap := sequenceGap b.lastSeq q, repeated := q = b.lastSeq, lastSeq := q, bytesRead := 0,
           holdTimer := .arm tHold }

/-- Reader p acquires slot k (R43). -/
def Context.acquire (c : Context) (p : Port) (k : SlotId) (tHold : Half) : Context :=
  match c.slot? k with
  | some sl =>
    (c.setSlot k { sl with holders := sl.holders.insert p }).modReader p fun b => b.acquired k (sl.seq.getD 0) tHold
  | none => c

/-- The give-back's effect on the slot (R53). -/
def Context.giveBackSlot (c : Context) (d : Delivery) (p : Port) (k : SlotId) : Context :=
  match c.slot? k with
  | none => c
  | some sl =>
    let sl' : Slot :=
      { sl with holders := sl.holders.erase p, pending := if d = .stream then sl.pending.erase p else sl.pending }
    let c' := c.setSlot k sl'
    match d, sl.state with
    | .stream, .ready =>
      if PortSet.isEmpty sl'.pending then (if sl'.carryRef then c'.retire k else c'.settle k) else c'
    | .latest, .ready => c'
    | _, .retired => if PortSet.isEmpty sl'.holders && !sl'.carryRef then c'.settle k else c'
    | _, _ => c'

/-- Reader p gives back the slot it holds, if it holds one, and its binding takes the state `after` (R53). -/
def Context.giveBack (c : Context) (d : Delivery) (p : Port) (after : ReaderState) : Context :=
  match c.reader? p with
  | none => c
  | some b =>
    let c' := match b.state with
      | .holding k => c.giveBackSlot d p k
      | _ => c
    c'.setReader p { b with state := after, holdTimer := .stopped }

/-- The binding of port p holds a slot. -/
def Context.holds (c : Context) (p : Port) : Bool :=
  match c.reader? p with
  | some b => match b.state with
    | .holding _ => true
    | _ => false
  | none => false

/-! ### The drain condition (R109) -/

/-- No slot FILLING, no slot with a holder, and in STREAM an empty ready queue (R109). -/
def Context.drained (c : Context) (d : Delivery) : Bool :=
  (SlotId.all.all fun k => (c.slot? k).all fun sl => sl.state ≠ .filling && sl.holders.isEmpty) &&
    (d = .latest || c.ready.isEmpty)

/-! ### A tick boundary (R3) -/

/-- Every timer of the window counts one tick boundary. -/
def Context.tick (c : Context) : Context :=
  { c with
    writer := { c.writer with fillTimer := c.writer.fillTimer.tick },
    readers := c.readers.map fun o => o.map fun b => { b with holdTimer := b.holdTimer.tick } }

end Sys2Proof.Machine
end

