-- ==== Sys2Proof/Machine/CarryJobs.lean ====
section
/-!
DEFINITION. The carry engine on its own: jobs, blocks and demands (R79, R80), the choice of the current block (R82), the
bookkeeping of a block's end (R85) and of a cancellation (R95).
-/

namespace Sys2Proof.Machine

/-- The window's job, if it exists: at most one (R79). -/
def Engine.job? (e : Engine) (w : Window) : Option Job := e.jobs.find? fun j => j.window = w

/-- A block is done if it lies below the pointer or is a done entry of the demand list (R80). -/
def Job.isDone (j : Job) (b : Nat) : Bool := b < j.pointer || j.demands.any fun d => d.block = b && d.done

/-- The phase in which a block of the job begins (R81). -/
def Job.firstPhase (j : Job) : Phase :=
  match j.work with
  | .copy _ => .read
  | .fill _ => .write

/-- The source slot of a COPY job (R79). -/
def Job.source? (j : Job) : Option SlotId :=
  match j.work with
  | .copy k => some k
  | .fill _ => none

/-- The block the engine chooses next: the pending demand entered earliest, else the block at the head job's pointer (R82). -/
def Engine.nextBlock (e : Engine) : Option (Window × Nat) :=
  match e.order with
  | d :: _ => some d
  | [] => e.jobs.head?.map fun j => (j.window, j.pointer)

/-- An engine without a current block chooses one while a job exists (R81, R82). -/
def Engine.choose (e : Engine) : Engine :=
  match e.current with
  | some _ => e
  | none =>
    match e.nextBlock with
    | some (w, b) =>
      { e with current := (e.job? w).map fun j => { window := w, block := b, phase := j.firstPhase }, buffer := none }
    | none => { e with buffer := none }

/-- A new job joins the end of the queue; an idle engine chooses a block in the same event (R79, R81). -/
def Engine.addJob (e : Engine) (j : Job) : Engine := Engine.choose { e with jobs := e.jobs ++ [j] }

/-- A demand of a held writer access for block b of the window's job (R87): no entry for the block in progress, for a
pending entry or when the list is full. -/
def Engine.demand (e : Engine) (w : Window) (b : Nat) : Engine :=
  match e.job? w with
  | none => e
  | some j =>
    if e.current.any fun c => c.window = w && c.block = b then e
    else if j.demands.any fun d => d.block = b then e
    else if j.demands.length < Config.demandRoom then
      { e with
        jobs := e.jobs.map fun i => if i.window = w then { i with demands := i.demands ++ [{ block := b, done := false }] } else i,
        order := e.order ++ [(w, b)] }
    else e

/-- The pointer moves over done entries and removes each it passes (R85, step 2). The first argument bounds the moves. -/
def advancePointer : Nat → Nat → List Demand → Nat × List Demand
  | 0, p, ds => (p, ds)
  | n + 1, p, ds =>
    if ds.any fun d => d.block = p && d.done then advancePointer n (p + 1) (ds.filter fun d => d.block ≠ p) else (p, ds)

/-- Block b of the job becomes done, and the pointer moves forward over blocks that are done (R85, steps 1 and 2). -/
def Job.blockDone (j : Job) (b : Nat) : Job :=
  let entered := j.demands.any fun d => d.block = b
  let ds := j.demands.map fun d => if d.block = b then { d with done := true } else d
  let p := if b = j.pointer && !entered then j.pointer + 1 else j.pointer
  let r := advancePointer ds.length p ds
  { j with pointer := r.1, demands := r.2 }

/-- The engine after block b of the window's job has ended: the block is done, and there is no current block (R85). -/
def Engine.endBlock (e : Engine) (w : Window) (b : Nat) : Engine :=
  { jobs := e.jobs.map fun j => if j.window = w then j.blockDone b else j,
    order := e.order.filter (· ≠ (w, b)), current := none, buffer := none }

/-- The window's job leaves the queue (R90, R95). -/
def Engine.dropJob (e : Engine) (w : Window) : Engine :=
  { e with jobs := e.jobs.filter fun j => j.window ≠ w, order := e.order.filter fun d => d.1 ≠ w }

/-- The window's job is cancelled: it leaves with its demands, its current block is given up with the buffer, and the
engine chooses again (R95). -/
def Engine.cancel (e : Engine) (w : Window) : Engine :=
  let e' := e.dropJob w
  if e.current.any fun c => c.window = w then Engine.choose { e' with current := none, buffer := none } else e'

end Sys2Proof.Machine
end

