-- ==== Sys2Proof/Machine/Ops.lean ====
section
/-!
DEFINITION. The shared operations of the exchange: records and answers, presenting a request, opening, committing,
disabling, abandoning, serving waits. `now` is the tick counter at the event (R2). Each acts on the `Exchange` alone, so
the time base, the settings, the memory port's state, the event queue and the management port are untouched by its type.
-/

namespace Sys2Proof.Machine

/-! ### Reading and changing a part of the exchange -/

def Exchange.win (x : Exchange) (w : Window) : WindowUnit := x.windows.get w

def Exchange.modWin (x : Exchange) (w : Window) (f : WindowUnit → WindowUnit) : Exchange :=
  { x with windows := x.windows.set w (f (x.windows.get w)) }

/-- The window's context, while it has one (R8). -/
def WindowUnit.ctx? (u : WindowUnit) : Option Context :=
  match u.life with
  | .disabled => none
  | .live _ c => some c

def WindowUnit.mode? (u : WindowUnit) : Option LiveMode :=
  match u.life with
  | .disabled => none
  | .live m _ => some m

/-- Replace the context of a window that has one. -/
def WindowUnit.mapCtx (u : WindowUnit) (f : Context → Context) : WindowUnit :=
  match u.life with
  | .disabled => u
  | .live m c => { u with life := .live m (f c) }

def Exchange.ctx? (x : Exchange) (w : Window) : Option Context := (x.win w).ctx?

def Exchange.modCtx (x : Exchange) (w : Window) (f : Context → Context) : Exchange := x.modWin w fun u => u.mapCtx f

def Exchange.port (x : Exchange) (p : Port) : PortUnit := x.ports.get p

def Exchange.modPort (x : Exchange) (p : Port) (f : PortUnit → PortUnit) : Exchange :=
  { x with ports := x.ports.set p (f (x.ports.get p)) }

/-- The port's request in hand becomes h. -/
def Exchange.setHand (x : Exchange) (p : Port) (h : Hand) : Exchange := x.modPort p fun u => { u with hand := h }

/-! ### Records, counters and answers -/

/-- An event is given to the event unit; it is offered to the queue when the event ends (R172, R176). -/
def Exchange.raise (x : Exchange) (r : EventRecord) : Exchange := { x with raised := x.raised ++ [r] }

/-- A record whose fields are absent, NONE or 0 but for the kind and the time (R173, R174). -/
def EventRecord.plain (now : Word) (k : EventKind) : EventRecord :=
  { kind := k, observed := false, window := none, port := none, slot := none, seq := 0, time := now, detail := 0 }

def Exchange.count (x : Exchange) (w : Window) (f : Counters → Counters) : Exchange :=
  x.modWin w fun u => { u with counters := f u.counters }

def Counters.addCommitted (c : Counters) : Counters := { c with committed := c.committed + 1 }

def Counters.addAcquired (c : Counters) : Counters := { c with acquired := c.acquired + 1 }

def Counters.addDropped (c : Counters) : Counters := { c with dropped := c.dropped + 1 }

def Counters.addAbandoned (c : Counters) : Counters := { c with abandoned := c.abandoned + 1 }

def Counters.addWaited (c : Counters) : Counters := { c with waited := c.waited + 1 }

def Counters.addExpired (c : Counters) : Counters := { c with expired := c.expired + 1 }

/-- The front-end answers its master, and has no request in hand any more (R120). -/
def Exchange.answer (x : Exchange) (p : Port) (r : Response) : Exchange :=
  { x.setHand p .none with answers := x.answers ++ [(p, r)] }

/-- A header word returned to a master (R40, R61). -/
def Exchange.answerWord (x : Exchange) (p : Port) (v : Word) : Exchange := x.answer p (.okay (some (.word v)))

/-- An access refused: answered ERROR, with one ACCESS_REFUSED record (R47, R48, R130). -/
def Exchange.refuse (x : Exchange) (now : Word) (p : Port) (cause : RefuseCause) (w : Option Window) (addr : Word) : Exchange :=
  (x.answer p .error).raise
    { EventRecord.plain now (.accessRefused cause) with window := w, port := some p, detail := addr }

/-! ### Presenting a request (R131, R132) -/

/-- A request forwarded unchanged: its own address, no window, no slot (R131). -/
def passRequest (p : Port) (r : Request) : MemRequest :=
  { request := r, origin := .port p, kind := .passThrough, window := none, slot := none }

/-- A payload access translated into slot k (R6, R132). -/
def payloadRequest (g : Geometry) (w : Window) (p : Port) (k : SlotId) (r : Request) : MemRequest :=
  { request := { addr := g.physical k (g.payloadOffset r.addr), access := r.access }, origin := .port p,
    kind := if p = g.writer then (if Access.isWrite r.access then .writerWrite else .writerRead) else .readerRead,
    window := some w, slot := some k }

/-- Slot k's in-flight count rises by 1 (R10). -/
def Exchange.raiseInFlight (x : Exchange) (w : Window) (k : SlotId) : Exchange :=
  x.modCtx w fun c => c.modSlot k fun sl => { sl with inFlight := sl.inFlight + 1 }

/-- A payload access is presented to the memory port, translated, attributed and counted (R132). -/
def Exchange.present (x : Exchange) (p : Port) (w : Window) (k : SlotId) (r : Request) (carryHeld : Bool) : Exchange :=
  (x.setHand p (.presented r (payloadRequest (x.win w).geom w p k r) carryHeld)).raiseInFlight w k

/-- The fill timer is armed with the T_FILL in effect (R27). -/
def Exchange.armFill (x : Exchange) (w : Window) : Exchange :=
  let t := (x.win w).eff.timersA.tFill
  x.modCtx w fun c => c.modWriter fun b => { b with fillTimer := .arm t }

def Exchange.stopFill (x : Exchange) (w : Window) : Exchange :=
  x.modCtx w fun c => c.modWriter fun b => { b with fillTimer := .stopped }

/-! ### The carry engine in the exchange -/

/-- A request of the carry engine is outstanding at the memory port (R86). -/
def Exchange.carryOutstanding (x : Exchange) : Bool := x.outstanding.any fun e => e.mem.origin = .carry

/-- The window's job is cancelled in the engine, and its request, if one is outstanding, is marked discarded (R95, R146). -/
def Exchange.cancelJob (x : Exchange) (w : Window) : Exchange :=
  match x.carry.job? w with
  | none => x
  | some _ =>
    { x with
      carry := x.carry.cancel w,
      outstanding := x.outstanding.map fun e =>
        if e.mem.origin = .carry && e.mem.window = some w then { e with discarded := true } else e }

/-- The carry reference of the window's COPY job is dropped (R90, R91, R95). -/
def Exchange.dropSource (x : Exchange) (w : Window) : Exchange :=
  match x.carry.job? w with
  | none => x
  | some j => match j.source? with
    | some k => x.modCtx w fun c => c.dropReference k
    | none => x

/-! ### The staged set (R118) -/

/-- The staged set, if pending, becomes the values in effect, with a CONFIG_APPLIED record (R34, R118, R174). -/
def Exchange.applyStaged (x : Exchange) (now : Word) (w : Window) (cause : ApplyCause) (seq : Word) : Exchange :=
  let u := x.win w
  if u.staged.isPending then
    (x.modWin w fun u => { u with eff := u.eff.with u.staged, staged := .none }).raise
      { EventRecord.plain now (.configApplied cause) with window := some w, seq := seq, detail := u.staged.mask }
  else x

/-! ### Becoming DISABLED (R111) -/

/-- The port's access is held for window w. -/
def PortUnit.heldFor (u : PortUnit) (w : Window) : Bool :=
  match u.hand with
  | .held h => h.window = w
  | _ => false

/-- Every access held for the window is answered ERROR (R111, step 1). DESIGN CHOICE: the answers of one window stand in the order
of the ports, A to D, which no rule gives (notes/assumptions/19.md). -/
def Exchange.endHeld (x : Exchange) (w : Window) : Exchange :=
  Port.all.foldl (fun y p => if (y.port p).heldFor w then y.answer p .error else y) x

/-- The encodings of the window states (R187). -/
def Life.code : Life → Word
  | .disabled => 0
  | .live .observe _ => 1
  | .live .active _ => 2
  | .live .draining _ => 3

/-- A WINDOW_STATE record for the state the window is in (R99, R174). -/
def Exchange.raiseState (x : Exchange) (now : Word) (w : Window) (cause : StateCause) : Exchange :=
  x.raise { EventRecord.plain now (.windowState cause) with window := some w, detail := (x.win w).life.code }

/-- A window that is not DISABLED becomes DISABLED, for the cause given (R110, R111, R114). -/
def Exchange.disableWindow (x : Exchange) (now : Word) (w : Window) (cause : StateCause) : Exchange :=
  let x1 := (x.endHeld w).cancelJob w
  let x2 := x1.modWin w fun u => { u with life := .disabled }
  (x2.applyStaged now w .entry 0).raiseState now w cause

/-- The drain condition is tested, and a DRAINING window that meets it becomes DISABLED (R109, R110). -/
def Exchange.drainTest (x : Exchange) (now : Word) (w : Window) : Exchange :=
  match (x.win w).life with
  | .live .draining c => if c.drained (x.win w).geom.delivery then x.disableWindow now w .drained else x
  | _ => x

/-! ### Acquire and the serving of waiting readers (R43, R49) -/

/-- Reader p acquires slot k, with the T_HOLD in effect, and ACQUIRED advances (R43). -/
def Exchange.acquire (x : Exchange) (w : Window) (p : Port) (k : SlotId) : Exchange :=
  let t := (x.win w).eff.timersA.tHold
  (x.modCtx w fun c => c.acquire p k t).count w Counters.addAcquired

/-- The request of the port's access held for window w with the given reason. -/
def PortUnit.heldRequest (u : PortUnit) (w : Window) (reason : HoldReason) : Option Request :=
  match u.hand with
  | .held h => if h.window = w && h.reason = reason then some h.req else none
  | _ => none

/-- The commit's part for one port: a WAITING reader acquires the frame now available to it and its held read is
presented (R34, R49). -/
def Exchange.serveReader (x : Exchange) (w : Window) (p : Port) : Exchange :=
  match x.ctx? w, (x.port p).heldRequest w .frame with
  | some c, some r =>
    if (c.reader? p).any fun b => b.state = .waiting then
      match c.available (x.win w).geom.delivery p with
      | some k => (x.acquire w p k).present p w k r false
      | none => x
    else x
  | _, _ => x

/-! ### Commit (R28, R31 to R34) -/

/-- The commit of the FILLING slot but for the answer and the drain test (R31 to R34). -/
def Exchange.commitFrame (x : Exchange) (now : Word) (w : Window) (k : SlotId) (tag : Half) (auto : Bool) : Exchange :=
  match x.ctx? w with
  | none => x
  | some c =>
    let g := (x.win w).geom
    let x1 := x.modCtx w fun c => c.commit g k tag auto now
    let x2 := (x1.applyStaged now w .commit c.nextSeq).count w Counters.addCommitted
    let x3 := x2.raise
      { EventRecord.plain now .frameCommitted with
        window := some w, port := some g.writer, slot := some k, seq := c.nextSeq, detail := tag.zeroExtend 32 }
    Port.all.foldl (fun y p => y.serveReader w p) x3

/-- A commit is taken: its effects, the OKAY answer to the committing access, then the drain test (R33, R109). DESIGN CHOICE:
the test follows this commit also where other completions of one response-timer expiry are still to come (R149;
notes/assumptions/23.md). -/
def Exchange.takeCommit (x : Exchange) (now : Word) (w : Window) (p : Port) (k : SlotId) (tag : Half) (auto : Bool) : Exchange :=
  ((x.commitFrame now w k tag auto).answer p (.okay none)).drainTest now w

/-- A commit, explicit or automatic: taken at once if no job of the slot exists, otherwise held with reason CARRY_DONE,
commit-pending set and the fill timer stopped (R28, R29). -/
def Exchange.startCommit (x : Exchange) (now : Word) (w : Window) (p : Port) (k : SlotId) (tag : Half) (auto : Bool)
    (r : Request) : Exchange :=
  match x.carry.job? w with
  | none => x.takeCommit now w p k tag auto
  | some _ =>
    (x.setHand p (.held { req := r, window := w, reason := .carryDone tag auto, stall := .stopped })).modCtx w fun c =>
      c.modWriter fun b => { b with fillTimer := .stopped, commitPending := true }

/-! ### Writer accesses with a FILLING slot (R25, R87) -/

/-- What a writer's access is once it has a slot: a payload access, or a CONTROL write with its tag (R28, R30). -/
inductive WriterWork where
  | payload
  | commit (tag : Half)
  deriving DecidableEq, Repr

/-- The tag of a CONTROL write: the low 16 bits of the value written (R28). -/
def tagOf (v : Word) : Half := v.truncate 16

/-- The value a single WORD WRITE carries, 0 for any other request. -/
def Request.value (r : Request) : Word :=
  match r.access with
  | .write (.word v) => v
  | _ => 0

/-- A writer's request by its address: the header holds CONTROL alone among what opens a slot (R19, R20). -/
def writerWork (g : Geometry) (r : Request) : WriterWork :=
  if g.inHeader r.addr.toNat then .commit (tagOf (Request.value r)) else .payload

/-- A writer payload access bound for the FILLING slot: presented if every block it touches is done, otherwise held with
reason CARRY_BLOCK, its demands entered lower block first (R25, R27, R87). -/
def Exchange.writerPayload (x : Exchange) (w : Window) (p : Port) (k : SlotId) (r : Request) : Exchange :=
  let g := (x.win w).geom
  let todo := match x.carry.job? w with
    | none => []
    | some j => (touchedBlocks (g.payloadOffset r.addr) (Request.bytes r)).filter fun b => !j.isDone b
  match todo with
  | [] => (x.present p w k r false).armFill w
  | bs =>
    let x1 := x.setHand p (.held { req := r, window := w, reason := .carryBlock, stall := .stopped })
    { x1.stopFill w with carry := bs.foldl (fun e b => e.demand w b) x.carry }

/-- The writer's access proceeds with the binding FILLING slot k (R19, R22, R30). -/
def Exchange.proceed (x : Exchange) (now : Word) (w : Window) (p : Port) (k : SlotId) (r : Request) : Exchange :=
  match writerWork (x.win w).geom r with
  | .payload => x.writerPayload w p k r
  | .commit tag => x.startCommit now w p k tag false r

/-! ### Opening (R20 to R24) -/

/-- The carry decision of R24 for chosen slot k: the frame's flags, and the work of the job it creates. -/
def carryDecision (u : WindowUnit) (c : Context) (k : SlotId) : FrameFlags × Option CarryWork :=
  match u.geom.carry with
  | .none => (.empty, none)
  | .fill => ({ FrameFlags.empty with filled := true }, some (.fill u.eff.fillPattern))
  | .copy =>
    match c.base with
    | none => ({ FrameFlags.empty with filled := true }, some (.fill u.eff.fillPattern))
    | some b =>
      ({ FrameFlags.empty with carried := true }, if b = k then none else some (.copy b))

/-- The open of slot k: the record and the binding (R23), the carry decision, the source's carry reference, and the job
at the end of the carry queue (R24, R79). -/
def Exchange.openSlot (x : Exchange) (now : Word) (w : Window) (k : SlotId) : Exchange :=
  match x.ctx? w with
  | none => x
  | some c =>
    let u := x.win w
    let d := carryDecision u c k
    let x1 := x.modCtx w fun c => c.openSlot k now u.eff.timersA.tFill d.1
    match d.2 with
    | none => x1
    | some work =>
      let x2 := match work with
        | .copy b => x1.modCtx w fun c => c.modSlot b fun sl => { sl with carryRef := true }
        | .fill _ => x1
      { x2 with carry := x2.carry.addJob { window := w, work := work, dest := k, pointer := 0, demands := [] } }

/-- An open refused: ERROR and WRITER_REFUSED (R20, R72). -/
def Exchange.refuseOpen (x : Exchange) (now : Word) (w : Window) (p : Port) (cause : OpenRefusal) (addr : Word) : Exchange :=
  (x.answer p .error).raise
    { EventRecord.plain now (.writerRefused cause) with window := some w, port := some p, detail := addr }

/-- A SLOT wait begins (R66, R68). -/
def Exchange.slotWait (x : Exchange) (w : Window) (p : Port) (r : Request) : Exchange :=
  let t := (x.win w).eff.tStall
  let x1 := x.setHand p (.held { req := r, window := w, reason := .slot, stall := .arm t })
  (x1.modCtx w fun c => c.modWriter fun b => { b with state := .waiting }).count w Counters.addWaited

/-- The open takes slot k, and the access proceeds (R22, R23). -/
def Exchange.openAndProceed (x : Exchange) (now : Word) (w : Window) (p : Port) (k : SlotId) (r : Request) : Exchange :=
  (x.openSlot now w k).proceed now w p k r

/-- DROP with victim v: the victim is freed, counted and recorded (R71). -/
def Exchange.dropVictim (x : Exchange) (now : Word) (w : Window) (p : Port) (v : SlotId) : Exchange :=
  match (x.ctx? w).bind fun c => c.slot? v with
  | none => x
  | some sl =>
    ((x.modCtx w fun c => c.dropSlot v).count w Counters.addDropped).raise
      { EventRecord.plain now .frameDropped with
        window := some w, port := some p, slot := some v, seq := sl.seq.getD 0,
        detail := BitVec.ofNat 32 (PortSet.size sl.pending) }

/-- The overflow policy decides an open that reaches case 5 (R70 to R72). -/
def Exchange.overflow (x : Exchange) (now : Word) (w : Window) (p : Port) (c : Context) (r : Request) : Exchange :=
  match (x.win w).eff.policy.overflow with
  | .hold => x.slotWait w p r
  | .refuse => x.refuseOpen now w p .full r.addr
  | .drop =>
    match c.victim with
    | some v => (x.dropVictim now w p v).openAndProceed now w p v r
    | none => x.refuseOpen now w p .full r.addr

/-- An open attempted by a writer payload access or CONTROL write (R20 to R22). -/
def Exchange.attemptOpen (x : Exchange) (now : Word) (w : Window) (p : Port) (r : Request) : Exchange :=
  match (x.win w).life with
  | .live .draining _ => x.refuseOpen now w p .draining r.addr
  | .live _ c =>
    match c.chooseSlot (x.win w).geom.carry with
    | .take k => x.openAndProceed now w p k r
    | .wait => x.slotWait w p r
    | .overflow => x.overflow now w p c r
  | .disabled => x

/-- A slot of the window has become FREE: a WAITING writer's slot choice is made again, and the open made if it gives a
slot (R12, R22). -/
def Exchange.serveWriter (x : Exchange) (now : Word) (w : Window) : Exchange :=
  let g := (x.win w).geom
  match x.ctx? w, (x.port g.writer).heldRequest w .slot with
  | some c, some r =>
    if c.writer.state = .waiting then
      match c.chooseSlot g.carry with
      | .take k => x.openAndProceed now w g.writer k r
      | _ => x
    else x
  | _, _ => x

/-- Slot k's in-flight count falls by 1; a RELEASING slot whose count reaches 0 becomes FREE, and a waiting writer is
served (R10, R12, R22). -/
def Exchange.lowerInFlight (x : Exchange) (now : Word) (w : Window) (k : SlotId) : Exchange :=
  match (x.ctx? w).bind fun c => c.slot? k with
  | none => x
  | some sl =>
    let n := sl.inFlight - 1
    if sl.state = .releasing && n = 0 then
      (x.modCtx w fun c => c.modSlot k fun sl => { sl with inFlight := n, state := .free }).serveWriter now w
    else x.modCtx w fun c => c.modSlot k fun sl => { sl with inFlight := n }

/-! ### Abandon and give-back (R38, R53) -/

/-- The FILLING frame of the window is abandoned: its job is cancelled, its slot settles, ABANDONED advances and
FRAME_ABANDONED is recorded (R38). Nothing happens where no slot is FILLING. -/
def Exchange.abandon (x : Exchange) (now : Word) (w : Window) (cause : AbandonCause) : Exchange :=
  match x.ctx? w with
  | none => x
  | some c =>
    match c.writer.state with
    | .filling k =>
      let x1 := ((x.dropSource w).cancelJob w).modCtx w fun c => c.abandon k
      (x1.count w Counters.addAbandoned).raise
        { EventRecord.plain now (.frameAbandoned cause) with
          window := some w, port := some (x.win w).geom.writer, slot := some k, detail := c.writer.bytesWritten }
    | _ => x

/-- Reader p gives back what it holds, its binding takes the state `after`, and a waiting writer is tested (R53, R22). The
drain test follows at the end of the event. -/
def Exchange.giveBack (x : Exchange) (now : Word) (w : Window) (p : Port) (after : ReaderState) : Exchange :=
  let d := (x.win w).geom.delivery
  (x.modCtx w fun c => c.giveBack d p after).serveWriter now w

end Sys2Proof.Machine
end

