-- ==== Sys2Proof/Machine/Accesses.lean ====
section
/-!
DEFINITION. What the part does with a request in the event of its taking (R120, R124): the forwarding of PASS and observed
requests, the writer's accesses (chapter 2) and the readers' accesses (chapter 3).
-/

namespace Sys2Proof.Machine

/-! ### Forwarding (R129, R131) -/

/-- A request is presented to the memory port unchanged (R131). -/
def Exchange.forward (x : Exchange) (p : Port) (r : Request) : Exchange := x.setHand p (.presented r (passRequest p r) false)

/-- The report of an access to an OBSERVE window that an ACTIVE window would refuse (R106, R129). -/
def Exchange.reportObserved (x : Exchange) (now : Word) (p : Port) (w : Window) (addr : Word) (cause : RefuseCause) : Exchange :=
  x.raise
    { EventRecord.plain now (.accessRefused cause) with
      observed := true, window := some w, port := some p, detail := addr }

/-- An observed commit: COMMITTED advances and an observed FRAME_COMMITTED is recorded (R107). -/
def Exchange.observedCommit (x : Exchange) (now : Word) (p : Port) (w : Window) (value : Word) : Exchange :=
  (x.count w Counters.addCommitted).raise
    { EventRecord.plain now .frameCommitted with
      observed := true, window := some w, port := some p, detail := (tagOf value).zeroExtend 32 }

/-- An access in the range of an OBSERVE window: observed, then forwarded unchanged (R105 to R107, R129). -/
def Exchange.observe (x : Exchange) (now : Word) (p : Port) (r : Request) (w : Window) (report : Option RefuseCause)
    (commit : Option Word) : Exchange :=
  let x1 := match report with
    | some cause => x.reportObserved now p w r.addr cause
    | none => x
  let x2 := match commit with
    | some v => x1.observedCommit now p w v
    | none => x1
  x2.forward p r

/-! ### The writer's accesses (R19) -/

/-- A writer payload access: to the FILLING slot, or an open first (R19, R20, R25). -/
def Exchange.writerAccess (x : Exchange) (now : Word) (w : Window) (p : Port) (r : Request) : Exchange :=
  match x.ctx? w with
  | none => x
  | some c =>
    match c.writer.state with
    | .filling k => x.proceed now w p k r
    | .noSlot => x.attemptOpen now w p r
    | .waiting => x.attemptOpen now w p r

/-- The value of a header word as the writer reads it (R40). -/
def writerHeaderValue (c : Context) (job : Option Job) (h : HeaderWord) : Word :=
  let filling := match c.writer.state with
    | .filling k => (c.slot? k).map fun sl => (k, sl)
    | .noSlot => none
    | .waiting => none
  match h, filling with
  | .frameSeq, _ => c.nextSeq
  | .frameInfo, some (k, sl) => writerFrameInfo sl k
  | .frameTime, some (_, sl) => sl.time
  | .control, some _ => if job.isSome then 2 else 1
  | .gap, _ => c.writer.dropped
  | .byteCount, _ => c.writer.bytesWritten
  | _, none => 0

/-- A writer access taken while FILLING re-arms the fill timer (R27). -/
def Exchange.rearmIfFilling (x : Exchange) (w : Window) : Exchange :=
  match x.ctx? w with
  | none => x
  | some c => match c.writer.state with
    | .filling _ => x.armFill w
    | .noSlot => x
    | .waiting => x

/-- A writer read of header words 0 to 5 (R27, R40). -/
def Exchange.writerHeaderRead (x : Exchange) (w : Window) (p : Port) (h : HeaderWord) : Exchange :=
  match x.ctx? w with
  | none => x
  | some c => (x.rearmIfFilling w).answerWord p (writerHeaderValue c (x.carry.job? w) h)

/-- A writer write to FRAME_SEQ: the frame, if one is FILLING, is abandoned; OKAY either way (R36, R109). -/
def Exchange.writerAbandon (x : Exchange) (now : Word) (w : Window) (p : Port) : Exchange :=
  match x.ctx? w with
  | none => x
  | some c => match c.writer.state with
    | .filling _ => ((x.abandon now w .writer).answer p (.okay none)).drainTest now w
    | .noSlot => x.answer p (.okay none)
    | .waiting => x.answer p (.okay none)

/-! ### The readers' accesses (R41) -/

/-- A FRAME wait begins (R67, R68). -/
def Exchange.frameWait (x : Exchange) (w : Window) (p : Port) (r : Request) : Exchange :=
  let t := (x.win w).eff.tStall
  let x1 := x.setHand p (.held { req := r, window := w, reason := .frame, stall := .arm t })
  (x1.modCtx w fun c => c.modReader p fun b => { b with state := .waiting }).count w Counters.addWaited

/-- A payload read by a reader that holds nothing: an implicit acquire, a FRAME wait or a refusal (R47, R48). -/
def Exchange.implicitRead (x : Exchange) (now : Word) (w : Window) (p : Port) (c : Context) (r : Request) : Exchange :=
  let u := x.win w
  if u.geom.implicitAcquire then
    match c.available u.geom.delivery p with
    | some k => (x.acquire w p k).present p w k r false
    | none =>
      match u.eff.policy.emptyRead with
      | .wait => x.frameWait w p r
      | .fail => x.refuse now p .noframe (some w) r.addr
  else x.refuse now p .noframe (some w) r.addr

/-- A reader payload read (R41, R47, R50). -/
def Exchange.readerRead (x : Exchange) (now : Word) (w : Window) (p : Port) (r : Request) : Exchange :=
  match x.ctx? w with
  | none => x
  | some c =>
    match c.reader? p with
    | none => x
    | some b =>
      match b.state with
      | .holding k => x.present p w k r false
      | .evicted => x.refuse now p .evicted (some w) r.addr
      | .idle => x.implicitRead now w p c r
      | .waiting => x.implicitRead now w p c r

/-- A reader read of FRAME_SEQ (R42): what it holds is given back and EVICTED cleared, the frame then available is
acquired, the answer is its sequence number or 0; a waiting writer is served after the acquire, and the drain condition
is tested if a frame was given back (R109). -/
def Exchange.readerAcquire (x : Exchange) (now : Word) (w : Window) (p : Port) : Exchange :=
  match x.ctx? w with
  | none => x
  | some c =>
    let d := (x.win w).geom.delivery
    let x1 := x.modCtx w fun c => c.giveBack d p .idle
    let c1 := c.giveBack d p .idle
    let x2 := match c1.available d p with
      | some k => (x1.acquire w p k).answerWord p (((c1.slot? k).bind Slot.seq).getD 0)
      | none => x1.answerWord p 0
    if c.holds p then (x2.serveWriter now w).drainTest now w else x2

/-- The value a read of CONTROL returns to a reader: 1 for a release, 2 for a cleared EVICTED, 0 otherwise (R54). -/
def releaseValue : ReaderState → Word
  | .holding _ => 1
  | .evicted => 2
  | .idle => 0
  | .waiting => 0

/-- A reader read of CONTROL (R54); as at an auto-release (R51), the answer follows the give-back
(notes/assumptions/19.md). -/
def Exchange.readerRelease (x : Exchange) (now : Word) (w : Window) (p : Port) : Exchange :=
  match x.ctx? w with
  | none => x
  | some c =>
    match c.reader? p with
    | none => x
    | some b =>
      let v := releaseValue b.state
      if c.holds p then ((x.giveBack now w p .idle).answerWord p v).drainTest now w
      else (x.modCtx w fun c => c.modReader p fun b => { b with state := .idle }).answerWord p v

/-- The value of header words 1, 2, 4 and 5 as a reader reads them (R61). -/
def readerHeaderValue (c : Context) (p : Port) (h : HeaderWord) : Word :=
  match c.reader? p with
  | none => 0
  | some b =>
    match b.state with
    | .holding k =>
      match c.slot? k with
      | none => 0
      | some sl =>
        match h with
        | .frameInfo => readerFrameInfo sl b.repeated k
        | .frameTime => sl.time
        | .gap => b.gap
        | .byteCount => b.bytesRead
        | .frameSeq => 0
        | .control => 0
    | _ => 0

/-- A reader read of FRAME_INFO, FRAME_TIME, GAP or BYTE_COUNT (R61). -/
def Exchange.readerStatus (x : Exchange) (w : Window) (p : Port) (h : HeaderWord) : Exchange :=
  match x.ctx? w with
  | none => x
  | some c => x.answerWord p (readerHeaderValue c p h)

/-! ### Taking a request (R120) -/

/-- The effect of a request of that class (R124). -/
def Exchange.dispatch (x : Exchange) (now : Word) (p : Port) (r : Request) : RequestClass → Exchange
  | .refused cause w => x.refuse now p cause w r.addr
  | .pass => x.forward p r
  | .observed w report commit => x.observe now p r w report commit
  | .writerPayload w => x.writerAccess now w p r
  | .commit w _ => x.writerAccess now w p r
  | .writerHeader w h => x.writerHeaderRead w p h
  | .abandon w => x.writerAbandon now w p
  | .readerPayload w => x.readerRead now w p r
  | .acquire w => x.readerAcquire now w p
  | .release w => x.readerRelease now w p
  | .readerStatus w h => x.readerStatus w p h

/-- The front-end takes a request: it is classified and dealt with in one event (R120, R124). -/
def Exchange.take (x : Exchange) (now : Word) (p : Port) (r : Request) : Exchange :=
  x.dispatch now p r (classify x.windows p r)

/-- The port takes requests: it is ACTIVE and has none in hand (R120). -/
def PortUnit.takes (u : PortUnit) : Bool := u.state = .active && u.hand = .none

end Sys2Proof.Machine
end

