-- ==== Sys2Proof/Machine/Completions.lean ====
section
/-!
DEFINITION. The memory port's traffic: what the clients present (R143), grants (R144, R150), completions (R147, R148) with
their effects on writers, readers and the carry engine, and withdrawals (R145).
-/

namespace Sys2Proof.Machine

/-- How a request ends at the memory port: OKAY with any data, or as ERROR with the cause of R174. -/
inductive Result where
  | okay (data : Option Data)
  | error (cause : ErrorCause)
  deriving DecidableEq, Repr

/-- The response the origin is given (R133, R147). -/
def Result.response : Result → Response
  | .okay d => .okay d
  | .error _ => .error

/-! ### What the clients present (R143) -/

/-- The carry engine's request for its current block: a READ of the source, or a WRITE of the buffer or of the pattern to
the destination, a burst of 8 words (R83, R84, R86). -/
def Exchange.carryRequest (x : Exchange) : Option MemRequest :=
  match x.carry.current with
  | none => none
  | some cur =>
    match x.carry.job? cur.window with
    | none => none
    | some j =>
      let g := (x.win cur.window).geom
      let at_ := Config.blockBytes * cur.block
      match cur.phase, j.work with
      | .read, .copy src =>
        some { request := { addr := g.physical src at_, access := .read (.burst 8) }, origin := .carry, kind := .carryRead,
               window := some cur.window, slot := some src }
      | .write, .copy _ =>
        some { request := { addr := g.physical j.dest at_, access := .write (.burst (x.carry.buffer.getD [])) },
               origin := .carry, kind := .carryWrite, window := some cur.window, slot := some j.dest }
      | _, .fill pattern =>
        some { request := { addr := g.physical j.dest at_, access := .write (.burst (List.replicate 8 pattern)) },
               origin := .carry, kind := .carryWrite, window := some cur.window, slot := some j.dest }

/-- The request a client presents to the arbiter. The carry engine presents nothing while a request of its own is
outstanding, one of a cancelled job included (R86, R95, R143). -/
def Exchange.presented? (x : Exchange) : Client → Option MemRequest
  | .port p => match (x.port p).hand with
    | .presented _ m _ => some m
    | _ => none
  | .carry => if x.carryOutstanding then none else x.carryRequest

/-! ### In hand at a completion -/

def Hand.request? : Hand → Option Request
  | .none => Option.none
  | .held h => some h.req
  | .presented r _ _ => some r
  | .outstanding r _ => some r

def Hand.wasCarryHeld : Hand → Bool
  | .none => false
  | .held _ => false
  | .presented _ _ b => b
  | .outstanding _ b => b

/-- A port IN_RESET whose discarded request has completed, with PRST deasserted, returns to ACTIVE (R138). -/
def PortUnit.leaveReset (u : PortUnit) : PortUnit :=
  if u.state = .inReset && !u.prst && u.hand = .none then { u with state := .active } else u

/-- A discarded request of a front-end is resolved without an answer, and the port is tested for leaving IN_RESET (R133, R148). -/
def Exchange.endDiscarded (x : Exchange) (p : Port) : Exchange :=
  x.modPort p fun u => PortUnit.leaveReset { u with hand := .none }

/-! ### Completion of a writer access (R26, R39) -/

/-- A memory error strikes a write of the FILLING frame: it gains FAULT (R39, R92, R93). -/
def Exchange.markFault (x : Exchange) (w : Window) (k : SlotId) : Exchange :=
  x.modCtx w fun c => c.modSlot k fun sl => { sl with flags := { sl.flags with fault := true } }

/-- The slot a request was bound for is the FILLING slot of the window (R26, R38). -/
def Context.isFilling (c : Context) (k : SlotId) : Bool := c.writer.state = .filling k

/-- The answer to a writer access; one that was held with reason CARRY_BLOCK re-arms the fill timer of its frame (R27). -/
def Exchange.answerWriter (x : Exchange) (w : Window) (p : Port) (k : SlotId) (resp : Response) : Exchange :=
  let x1 :=
    if (x.port p).hand.wasCarryHeld && ((x.ctx? w).any fun c => c.isFilling k) then x.armFill w else x
  x1.answer p resp

/-- A payload write of the FILLING frame completed OKAY: its bytes are counted, and it starts an auto-commit when bytes
written rise from below FLEN to FLEN or above with AUTO_COMMIT on; otherwise it is answered (R26, R29). -/
def Exchange.writeDone (x : Exchange) (now : Word) (w : Window) (p : Port) (k : SlotId) (c : Context) (r : Request) :
    Exchange :=
  let u := x.win w
  let old := c.writer.bytesWritten
  let new := old.satAdd (Request.bytes r)
  let x1 := x.modCtx w fun c => c.modWriter fun b => { b with bytesWritten := new }
  if u.eff.policy.autoCommit && old.toNat < u.geom.flen.toNat && u.geom.flen.toNat ≤ new.toNat then
    x1.startCommit now w p k 0 true r
  else x1.answerWriter w p k (.okay none)

/-- The writer's part of a completion, after the in-flight count has fallen (R26, R38, R39, R112). -/
def Exchange.writerCompleted (x : Exchange) (now : Word) (w : Window) (p : Port) (k : SlotId) (res : Result) : Exchange :=
  match x.ctx? w, (x.port p).hand.request? with
  | some c, some r =>
    if c.isFilling k && Access.isWrite r.access then
      match res with
      | .okay _ => x.writeDone now w p k c r
      | .error _ => (x.markFault w k).answerWriter w p k .error
    else x.answerWriter w p k res.response
  | _, _ => x.answer p res.response

/-! ### Completion of a reader read (R51, R52) -/

/-- A read completed OKAY for the slot the reader still holds: its bytes are counted, and with AUTO_RELEASE on the read
that brings bytes read from below FLEN to FLEN or above gives the slot back; the answer follows the give-back and the commit
of a waiting writer that it serves, and the drain test follows the answer (R51, R55, R109, R122, R133). -/
def Exchange.readDone (x : Exchange) (now : Word) (w : Window) (p : Port) (b : ReaderBinding) (r : Request)
    (resp : Response) : Exchange :=
  let u := x.win w
  let new := b.bytesRead.satAdd (Request.bytes r)
  let x1 := x.modCtx w fun c => c.modReader p fun b => { b with bytesRead := new }
  if u.eff.policy.autoRelease && b.bytesRead.toNat < u.geom.flen.toNat && u.geom.flen.toNat ≤ new.toNat then
    ((x1.giveBack now w p .idle).answer p resp).drainTest now w
  else x1.answer p resp

/-- The reader's part of a completion, after the in-flight count has fallen (R51, R52, R59, R112). -/
def Exchange.readerCompleted (x : Exchange) (now : Word) (w : Window) (p : Port) (k : SlotId) (res : Result) : Exchange :=
  match (x.ctx? w).bind fun c => c.reader? p, (x.port p).hand.request?, res with
  | some b, some r, .okay _ =>
    if b.state = .holding k then x.readDone now w p b r res.response else x.answer p res.response
  | _, _, _ => x.answer p res.response

/-! ### Completion of a carry request (R83 to R94) -/

/-- Every block of the access is done (R87, R88). -/
def Job.allDone (j : Job) (g : Geometry) (r : Request) : Bool :=
  (touchedBlocks (g.payloadOffset r.addr) (Request.bytes r)).all j.isDone

/-- A writer access held with reason CARRY_BLOCK leaves the hold when every block it touches is done (R85 step 3, R88). -/
def Exchange.releaseHeld (x : Exchange) (w : Window) (j : Job) : Exchange :=
  let g := (x.win w).geom
  match (x.port g.writer).heldRequest w .carryBlock with
  | some r => if j.allDone g r then x.present g.writer w j.dest r true else x
  | none => x

/-- The tag and the kind of the commit that the port holds with reason CARRY_DONE for the window (R28, R29). -/
def PortUnit.heldCommit (u : PortUnit) (w : Window) : Option (Half × Bool) :=
  match u.hand with
  | .held h => match h.reason with
    | .carryDone tag auto => if h.window = w then some (tag, auto) else none
    | _ => none
  | _ => none

/-- The window's job completes: it leaves the queue, its source loses the reference, and a held commit is taken (R90). -/
def Exchange.completeJob (x : Exchange) (now : Word) (w : Window) (j : Job) : Exchange :=
  let x1 := x.dropSource w
  let x2 := { x1 with carry := x1.carry.dropJob w }
  let p := (x.win w).geom.writer
  match (x.port p).heldCommit w with
  | some (tag, auto) => x2.takeCommit now w p j.dest tag auto
  | none => x2

/-- The end of block b of the window's job, in the order of R85. -/
def Exchange.endBlock (x : Exchange) (now : Word) (w : Window) (b : Nat) : Exchange :=
  let x1 := { x with carry := x.carry.endBlock w b }
  let x3 := match x1.carry.job? w with
    | none => x1
    | some j =>
      let x2 := x1.releaseHeld w j
      if (x.win w).geom.blocks ≤ j.pointer then x2.completeJob now w j else x2
  { x3 with carry := x3.carry.choose }

/-- The carry engine's part of a completion, after the in-flight count has fallen: a COPY read gives the block's write,
a write ends the block, an ERROR marks FAULT and ends the block (R83 to R85, R92, R93). -/
def Exchange.carryCompleted (x : Exchange) (now : Word) (res : Result) : Exchange :=
  match x.carry.current with
  | none => x
  | some cur =>
    match res, cur.phase with
    | .okay d, .read =>
      { x with
        carry := { x.carry with
          current := some { cur with phase := .write },
          buffer := some ((d.map Data.words).getD []) } }
    | .okay _, .write => x.endBlock now cur.window cur.block
    | .error _, _ =>
      let x1 := match x.carry.job? cur.window with
        | some j => x.markFault cur.window j.dest
        | none => x
      x1.endBlock now cur.window cur.block

/-! ### Completion (R147, R148) -/

/-- The record of a memory event for an entry: the port of a front-end origin, the window, and the slot while the window
has a context; a running carry job's request carries the destination slot (R92, R96, R112, R174). -/
def Exchange.memoryRecord (x : Exchange) (now : Word) (e : Entry) (k : EventKind) (seq : Word) : EventRecord :=
  { EventRecord.plain now k with
    port := match e.mem.origin with
      | .port p => some p
      | .carry => none,
    window := e.mem.window,
    slot := match e.mem.window with
      | none => none
      | some w =>
        if (x.ctx? w).isSome then
          (if e.mem.origin = .carry && !e.discarded then ((x.carry.job? w).map Job.dest).orElse fun _ => e.mem.slot
           else e.mem.slot)
        else none,
    seq := seq, detail := e.mem.request.addr }

/-- The sequence number in a MEMORY_ERROR record: the frame's for a reader read, 0 otherwise (R52, R112, R174). -/
def Exchange.errorSequence (x : Exchange) (e : Entry) : Word :=
  match e.mem.kind, e.mem.window, e.mem.slot with
  | .readerRead, some w, some k => (((x.ctx? w).bind fun c => c.slot? k).bind Slot.seq).getD 0
  | _, _, _ => 0

/-- Step 1 of R147: the in-flight count of the entry's slot falls if its window still has its context. -/
def Exchange.lowerEntry (x : Exchange) (now : Word) (e : Entry) : Exchange :=
  match e.mem.window, e.mem.slot with
  | some w, some k => x.lowerInFlight now w k
  | _, _ => x

/-- Step 2 of R147, R148: the origin takes the result. -/
def Exchange.originTakes (x : Exchange) (now : Word) (e : Entry) (res : Result) : Exchange :=
  match e.mem.origin with
  | .carry => if e.discarded then x else x.carryCompleted now res
  | .port p =>
    if e.discarded then x.endDiscarded p
    else match e.mem.kind, e.mem.window, e.mem.slot with
      | .writerRead, some w, some k => x.writerCompleted now w p k res
      | .writerWrite, some w, some k => x.writerCompleted now w p k res
      | .readerRead, some w, some k => x.readerCompleted now w p k res
      | _, _, _ => x.answer p res.response

/-- The completion of an entry that has left the list: the count falls, an ERROR is recorded, the origin takes the result
(R147, R148, R150). -/
def Exchange.complete (x : Exchange) (now : Word) (e : Entry) (res : Result) : Exchange :=
  let x1 := x.lowerEntry now e
  let x2 := match res with
    | .okay _ => x1
    | .error cause => x1.raise (x.memoryRecord now e (.memoryError cause) (x.errorSequence e))
  x2.originTakes now e res

/-- The outstanding entries complete as ERROR in issue order (R149, step 2). The first argument bounds their number.
DESIGN CHOICE: each entry's completion is whole before the next begins, so a commit that an entry releases is tested for
the end of a drain (R109) there, and the window may be DISABLED before the later entries complete
(notes/assumptions/23.md). -/
def Exchange.failAll : Nat → Word → Exchange → Exchange
  | 0, _, x => x
  | n + 1, now, x =>
    match x.outstanding with
    | [] => x
    | e :: rest => Exchange.failAll n now (Exchange.complete { x with outstanding := rest } now e (.error .timeout))

/-! ### Grants (R144, R150) -/

/-- The first client in rotation that presents a request, with its request (R144). -/
def Exchange.firstPresenting (x : Exchange) (rotation : List Client) : Option (Client × MemRequest) :=
  rotation.findSome? fun c => (x.presented? c).map fun m => (c, m)

/-- The granted client moves to the lowest place; the others keep their order (R144). -/
def rotate (rotation : List Client) (c : Client) : List Client := rotation.filter (· ≠ c) ++ [c]

/-- The client's side of a grant: a front-end's request is outstanding; a carry request raises its slot's in-flight count,
and the block buffer is empty once its write is issued (R81, R83, R143, R144). -/
def Exchange.granted (x : Exchange) (c : Client) (m : MemRequest) : Exchange :=
  match c with
  | .port p => x.modPort p fun u =>
      match u.hand with
      | .presented r _ b => { u with hand := .outstanding r b }
      | _ => u
  | .carry =>
    let x1 := match m.window, m.slot with
      | some w, some k => x.raiseInFlight w k
      | _, _ => x
    if m.kind = .carryWrite then { x1 with carry := { x1.carry with buffer := none } } else x1

/-- A grant in READY: the request joins the outstanding list with its response timer armed (R144, R146). -/
def Exchange.issue (x : Exchange) (limit : Half) (c : Client) (m : MemRequest) : Exchange :=
  let x1 := x.granted c m
  { x1 with outstanding := x1.outstanding ++ [{ mem := m, discarded := false, timer := .arm limit }] }

/-- A grant in FAULT or RECOVERING: the request completes as ERROR in the grant event, without being issued (R94, R150). -/
def Exchange.failGrant (x : Exchange) (now : Word) (c : Client) (m : MemRequest) : Exchange :=
  (x.granted c m).complete now { mem := m, discarded := false, timer := .stopped } (.error .faulted)

/-! ### Port reset (R135 to R137) -/

/-- The request in hand of a port that is reset is ended by its condition (R136). -/
def Exchange.resetHand (x : Exchange) (now : Word) (p : Port) : Exchange :=
  match (x.port p).hand with
  | .none => x
  | .held _ => x.setHand p .none
  | .presented _ m _ =>
    let x1 := x.setHand p .none
    match m.window, m.slot with
    | some w, some k => x1.lowerInFlight now w k
    | _, _ => x1
  | .outstanding _ _ =>
    { x with outstanding := x.outstanding.map fun e => if e.mem.origin = .port p then { e with discarded := true } else e }

/-- The port's writer binding in the window at its reset (R137). -/
def Exchange.resetWriter (x : Exchange) (now : Word) (w : Window) (c : Context) : Exchange :=
  match c.writer.state with
  | .noSlot => x
  | .waiting => x.modCtx w fun c => c.modWriter fun b => { b with state := .noSlot }
  | .filling _ => (x.abandon now w .portReset).drainTest now w

/-- The port's reader binding in the window at its reset (R137). -/
def Exchange.resetReader (x : Exchange) (now : Word) (w : Window) (p : Port) (c : Context) : Exchange :=
  if c.holds p then (x.giveBack now w p .idle).drainTest now w
  else x.modCtx w fun c => c.modReader p fun b => { b with state := .idle }

/-- What a port reset does in one window (R137); OBSERVE and DISABLED windows are not touched (R135). -/
def Exchange.resetRole (x : Exchange) (now : Word) (p : Port) (w : Window) : Exchange :=
  let g := (x.win w).geom
  match (x.win w).life with
  | .disabled => x
  | .live .observe _ => x
  | .live _ c =>
    if p = g.writer then x.resetWriter now w c
    else if g.readers.get p then x.resetReader now w p c
    else x

/-- The windows a reset of the port changes: ACTIVE or DRAINING, with a binding of the port that is not at rest (R137). -/
def Exchange.resetWindows (x : Exchange) (p : Port) : List Window :=
  Window.all.filter fun w =>
    match (x.win w).life with
    | .disabled => false
    | .live .observe _ => false
    | .live _ c =>
      if p = (x.win w).geom.writer then c.writer.state ≠ .noSlot
      else (c.reader? p).any fun b => b.state ≠ .idle

end Sys2Proof.Machine
end

