-- ==== Sys2Proof/Machine/Formats.lean ====
section
/-!
DEFINITION. What management software sees on the wire: status codes (R157), the register map and its fields (R186, R187),
event records (R188) and snapshots (R189).
-/

namespace Sys2Proof.Machine

/-- The four bytes of a word, most significant first (12_formats_and_register_map.md). -/
def wordBytes (v : Word) : List Byte :=
  [v.extractLsb' 24 8, v.extractLsb' 16 8, v.extractLsb' 8 8, v.extractLsb' 0 8]

/-- The word that four bytes are, most significant first; no other list is a word. -/
def wordOfBytes : List Byte → Word
  | [a, b, c, d] =>
    a.zeroExtend 32 <<< 24 ||| b.zeroExtend 32 <<< 16 ||| c.zeroExtend 32 <<< 8 ||| d.zeroExtend 32
  | _ => 0

/-- The two bytes of a half, most significant first. -/
def halfBytes (v : Half) : List Byte := [v.extractLsb' 8 8, v.extractLsb' 0 8]

/-- Bit n of a word. -/
def bitAt (v : Word) (n : Nat) : Bool := v.getLsbD n

/-- A flag at bit n of a byte. -/
def byteBit (b : Bool) (n : Nat) : Byte := if b then 1#8 <<< n else 0#8

/-! ### Status codes (R157) -/

inductive Status where
  | ok | unknownCommand | badArgument | badState | locked | badConfig | busy | empty | snapPending
  deriving DecidableEq, Repr

def Status.code : Status → Byte
  | .ok => 0x00
  | .unknownCommand => 0x01
  | .badArgument => 0x02
  | .badState => 0x03
  | .locked => 0x04
  | .badConfig => 0x05
  | .busy => 0x06
  | .empty => 0x07
  | .snapPending => 0x08

/-- The filler value of MISO (R154). -/
def fillerByte : Byte := 0xFF

/-! ### Fields of GEOM and POLICY (R187) -/

def portOfBits (v : BitVec 2) : Port :=
  if v = 0 then .A else if v = 1 then .B else if v = 2 then .C else .D

/-- The ports of a four-bit set, bit 0 for A. -/
def portsOfBits (v : BitVec 4) : PortSet := ⟨v.getLsbD 0, v.getLsbD 1, v.getLsbD 2, v.getLsbD 3⟩

/-- A set of ports from bit n upwards, bit n for A. -/
def portBits (s : PortSet) (n : Nat) : Word :=
  flagBit s.a n ||| flagBit s.b (n + 1) ||| flagBit s.c (n + 2) ||| flagBit s.d (n + 3)

def CarryMode.code : CarryMode → Word
  | .none => 0
  | .copy => 1
  | .fill => 2

/-- CARRY from its two bits; encoding 3 names no value and is stored as 0 (R116, R187). -/
def carryOfBits (v : BitVec 2) : CarryMode := if v = 1 then .copy else if v = 2 then .fill else .none

def Overflow.code : Overflow → Word
  | .hold => 0
  | .drop => 1
  | .refuse => 2

/-- OVERFLOW from its two bits; encoding 3 names no value and is stored as 0 (R116, R187). -/
def overflowOfBits (v : BitVec 2) : Overflow := if v = 1 then .drop else if v = 2 then .refuse else .hold

/-- GEOM as it reads (R187). -/
def Geometry.geomWord (g : Geometry) : Word :=
  g.slots.zeroExtend 32 ||| BitVec.ofNat 32 (Port.number g.writer) <<< 4 ||| portBits g.readers 8 |||
    flagBit (g.delivery = .latest) 12 ||| g.carry.code <<< 16 ||| flagBit g.implicitAcquire 20

/-- The fields of a write to GEOM (R116, R187). -/
def Geometry.withGeom (g : Geometry) (v : Word) : Geometry :=
  { g with
    slots := v.extractLsb' 0 3, writer := portOfBits (v.extractLsb' 4 2), readers := portsOfBits (v.extractLsb' 8 4),
    delivery := if bitAt v 12 then .latest else .stream, carry := carryOfBits (v.extractLsb' 16 2),
    implicitAcquire := bitAt v 20 }

/-- POLICY as it reads (R187). -/
def Policy.word (q : Policy) : Word :=
  q.overflow.code ||| flagBit (q.emptyRead = .fail) 4 ||| flagBit q.autoCommit 8 ||| flagBit q.autoRelease 9

/-- The fields of a write to POLICY (R116, R187). -/
def Policy.ofWord (v : Word) : Policy :=
  { overflow := overflowOfBits (v.extractLsb' 0 2), emptyRead := if bitAt v 4 then .fail else .wait,
    autoCommit := bitAt v 8, autoRelease := bitAt v 9 }

/-- TIMERS_A as it reads: T_FILL in bits 15:0, T_HOLD in bits 31:16 (R186). -/
def TimersA.word (t : TimersA) : Word := t.tFill.zeroExtend 32 ||| t.tHold.zeroExtend 32 <<< 16

def TimersA.ofWord (v : Word) : TimersA := { tFill := v.extractLsb' 0 16, tHold := v.extractLsb' 16 16 }

/-! ### The register map (R186) -/

/-- The counters in register order (R186). -/
inductive CounterReg where
  | committed | acquired | dropped | abandoned | waited | expired
  deriving DecidableEq, Repr

def Counters.read (c : Counters) : CounterReg → Word
  | .committed => c.committed
  | .acquired => c.acquired
  | .dropped => c.dropped
  | .abandoned => c.abandoned
  | .waited => c.waited
  | .expired => c.expired

/-- What an address of the register space names (R186). -/
inductive Register where
  | tbDiv | memTimeout | eventEnable | time | memportState | portState | eventCount | lostCount
  | locked (w : Window) (r : LockedReg)
  | staged (w : Window) (r : StagedReg)
  | wstate (w : Window)
  | counter (w : Window) (c : CounterReg)
  | unnamed
  deriving DecidableEq, Repr

/-- The register at offset n of a window's sixteen addresses (R186). -/
def windowRegister (w : Window) : Nat → Register
  | 0 => .locked w .lbase
  | 1 => .locked w .flen
  | 2 => .locked w .sbase
  | 3 => .locked w .geom
  | 4 => .staged w .policy
  | 5 => .staged w .fillPattern
  | 6 => .staged w .timersA
  | 7 => .staged w .timersB
  | 8 => .wstate w
  | 9 => .counter w .committed
  | 10 => .counter w .acquired
  | 11 => .counter w .dropped
  | 12 => .counter w .abandoned
  | 13 => .counter w .waited
  | 14 => .counter w .expired
  | _ => .unnamed

/-- The global register at an address below 0x80 (R186). -/
def globalRegister : Nat → Register
  | 0 => .tbDiv
  | 1 => .memTimeout
  | 2 => .eventEnable
  | 3 => .time
  | 4 => .memportState
  | 5 => .portState
  | 6 => .eventCount
  | 7 => .lostCount
  | _ => .unnamed

/-- The register an address names: window w has 0x80 + 16×w to 0x8F + 16×w (R186). -/
def registerAt (a : Nat) : Register :=
  if a < 0x80 then globalRegister a
  else match windowOfNat ((a - 0x80) / 16) with
    | some w => windowRegister w ((a - 0x80) % 16)
    | none => .unnamed

def LockedReg.offset : LockedReg → Nat
  | .lbase => 0
  | .flen => 1
  | .sbase => 2
  | .geom => 3

def StagedReg.offset : StagedReg → Nat
  | .policy => 4
  | .fillPattern => 5
  | .timersA => 6
  | .timersB => 7

/-- The address of a window's register at that offset (R186). -/
def windowAddress (w : Window) (offset : Nat) : Nat := 0x80 + 16 * Window.number w + offset

def Geometry.read (g : Geometry) : LockedReg → Word
  | .lbase => g.lbase
  | .flen => g.flen
  | .sbase => g.sbase
  | .geom => g.geomWord

/-- A staged register as it reads: its staged values while they are held, the values in effect otherwise (R117). -/
def WindowUnit.readStaged (u : WindowUnit) (r : StagedReg) : Word :=
  let e := u.eff.with u.staged
  match r with
  | .policy => e.policy.word
  | .fillPattern => e.fillPattern
  | .timersA => e.timersA.word
  | .timersB => e.tStall.zeroExtend 32

/-- WSTATE (R187). -/
def WindowUnit.stateWord (u : WindowUnit) : Word := u.life.code ||| flagBit u.staged.isPending 8

def MemState.code : MemState → Word
  | .ready => 0
  | .fault => 1
  | .recovering => 2

/-- The value a register shows (R158, R186). -/
def State.readRegister (s : State) : Register → Word
  | .tbDiv => s.time.tbDiv.zeroExtend 32
  | .memTimeout => s.memTimeout.zeroExtend 32
  | .eventEnable => s.eventEnable.zeroExtend 32
  | .time => s.time.ticks
  | .memportState => s.memPort.state.code ||| BitVec.ofNat 32 s.exch.outstanding.length <<< 8
  | .portState => portBits (s.exch.ports.map fun u => u.state = .inReset) 0
  | .eventCount => BitVec.ofNat 32 s.events.queue.length
  | .lostCount => s.events.lost.zeroExtend 32
  | .locked w r => (s.exch.win w).geom.read r
  | .staged w r => (s.exch.win w).readStaged r
  | .wstate w => (s.exch.win w).stateWord
  | .counter w c => (s.exch.win w).counters.read c
  | .unnamed => 0

/-! ### Event records (R172, R188) -/

/-- The event codes (R173, R174). -/
def EventKind.code : EventKind → Byte
  | .frameCommitted => 0x01
  | .frameDropped => 0x02
  | .writerRefused _ => 0x03
  | .frameAbandoned _ => 0x04
  | .holdExpired => 0x05
  | .stallExpired _ => 0x06
  | .accessRefused _ => 0x07
  | .memoryError _ => 0x08
  | .memoryTimeout => 0x09
  | .portReset => 0x0A
  | .windowState _ => 0x0B
  | .configApplied _ => 0x0C
  | .restart => 0x0D
  | .eventsLost => 0x0E

/-- The cause encodings, 0 for NONE (R188). -/
def EventKind.causeCode : EventKind → Byte
  | .writerRefused .full => 1
  | .writerRefused .draining => 2
  | .frameAbandoned .writer => 1
  | .frameAbandoned .timeout => 2
  | .frameAbandoned .portReset => 3
  | .stallExpired .slot => 1
  | .stallExpired .frame => 2
  | .accessRefused .align => 1
  | .accessRefused .straddle => 2
  | .accessRefused .guard => 3
  | .accessRefused .role => 4
  | .accessRefused .header => 5
  | .accessRefused .noframe => 6
  | .accessRefused .evicted => 7
  | .memoryError .response => 1
  | .memoryError .timeout => 2
  | .memoryError .faulted => 3
  | .windowState .enable => 1
  | .windowState .drain => 2
  | .windowState .drained => 3
  | .windowState .disable => 4
  | .windowState .restart => 5
  | .configApplied .commit => 1
  | .configApplied .entry => 2
  | .frameCommitted => 0
  | .frameDropped => 0
  | .holdExpired => 0
  | .memoryTimeout => 0
  | .portReset => 0
  | .restart => 0
  | .eventsLost => 0

/-- Byte 2 of a record (R188). -/
def windowByte (w : Option Window) : Byte :=
  match w with
  | none => 0
  | some w => byteBit true 7 ||| BitVec.ofNat 8 (Window.number w)

/-- Byte 3 of a record (R188). -/
def portSlotByte (p : Option Port) (k : Option SlotId) : Byte :=
  (match p with
   | none => 0
   | some p => byteBit true 7 ||| BitVec.ofNat 8 (Port.number p) <<< 4) |||
  (match k with
   | none => 0
   | some k => byteBit true 3 ||| BitVec.ofNat 8 (SlotId.number k))

/-- The sixteen bytes of a record (R188). -/
def EventRecord.bytes (r : EventRecord) : List Byte :=
  [r.kind.code, byteBit r.observed 7 ||| r.kind.causeCode, windowByte r.window, portSlotByte r.port r.slot] ++
    wordBytes r.seq ++ wordBytes r.time ++ wordBytes r.detail

/-! ### Snapshots (R164, R189) -/

def SlotState.code : SlotState → Byte
  | .free => 0
  | .filling => 1
  | .ready => 2
  | .retired => 3
  | .releasing => 4

/-- A set of ports in four bits of a byte from bit n, bit n for A. -/
def portNibble (s : PortSet) (n : Nat) : Byte :=
  byteBit s.a n ||| byteBit s.b (n + 1) ||| byteBit s.c (n + 2) ||| byteBit s.d (n + 3)

/-- The fourteen bytes of a slot record; zeros beyond SLOTS (R189). -/
def slotBytes : Option Slot → List Byte
  | none => List.replicate 14 0
  | some sl =>
    [sl.state.code,
     byteBit sl.flags.fault 0 ||| byteBit sl.flags.carried 1 ||| byteBit sl.flags.filled 2 ||| byteBit sl.flags.auto 3 |||
       byteBit sl.carryRef 7,
     portNibble sl.holders 0 ||| portNibble sl.pending 4, BitVec.ofNat 8 sl.inFlight] ++
    halfBytes sl.tag ++ wordBytes (sl.seq.getD 0) ++ wordBytes sl.time

/-- State and held slot of a reader binding (R189). -/
def ReaderState.bits : ReaderState → Byte
  | .idle => 0
  | .holding k => 1 ||| BitVec.ofNat 8 (SlotId.number k) <<< 4
  | .waiting => 2
  | .evicted => 3

/-- The fourteen bytes of a reader binding (R189). -/
def readerBytes (p : Port) (b : ReaderBinding) : List Byte :=
  [byteBit true 7 ||| BitVec.ofNat 8 (Port.number p),
   b.state.bits ||| byteBit b.repeated 6 ||| byteBit b.holdTimer.isRunning 7] ++
  wordBytes b.lastSeq ++ wordBytes b.gap ++ wordBytes b.bytesRead

/-- The reader bindings in port order, then zeros up to three (R164, R189). -/
def readersBytes (c : Context) : List Byte :=
  let present := Port.all.filterMap fun p => (c.reader? p).map (readerBytes p)
  (present.flatten ++ List.replicate 42 0).take 42

/-- Byte 12 (R189). -/
def writerByte (b : WriterBinding) : Byte :=
  (match b.state with
   | .noSlot => 0
   | .filling k => 1 ||| BitVec.ofNat 8 (SlotId.number k) <<< 4
   | .waiting => 2) ||| byteBit b.commitPending 2 ||| byteBit b.fillTimer.isRunning 3

/-- Bytes 13 to 19: the carry job, zeros when there is none (R189). -/
def jobBytes : Option Job → List Byte
  | none => List.replicate 7 0
  | some j =>
    [byteBit true 7 ||| byteBit j.source?.isNone 6,
     BitVec.ofNat 8 (j.demands.filter fun d => !d.done).length |||
       BitVec.ofNat 8 (j.demands.filter fun d => d.done).length <<< 4, 0] ++
    wordBytes (BitVec.ofNat 32 j.pointer)

/-- Byte 3: the ready-queue entries, two bits each, oldest in bits 1:0 (R189). -/
def readyByte (l : List SlotId) : Byte :=
  (l.zipIdx.take 4).foldl (fun v (k, i) => v ||| BitVec.ofNat 8 (SlotId.number k) <<< (2 * i)) 0

/-- Bytes 2 to 127 of a snapshot of a window that has a context (R189). -/
def contextBytes (now : Word) (c : Context) (job : Option Job) : List Byte :=
  [BitVec.ofNat 8 c.ready.length |||
     (match c.base with
      | none => 0
      | some k => byteBit true 7 ||| BitVec.ofNat 8 (SlotId.number k) <<< 4),
   readyByte c.ready] ++
  wordBytes now ++ wordBytes c.nextSeq ++ [writerByte c.writer] ++ jobBytes job ++
  wordBytes c.writer.bytesWritten ++ wordBytes c.writer.dropped ++
  (SlotId.all.map fun k => slotBytes (c.slot? k)).flatten ++ readersBytes c ++ [0, 0]

/-- The 128 bytes of a snapshot of window w (R164, R189). -/
def Exchange.snapshotBytes (x : Exchange) (now : Word) (w : Window) : List Byte :=
  let u := x.win w
  [BitVec.ofNat 8 (Window.number w), u.life.code.truncate 8 ||| byteBit u.staged.isPending 7] ++
  match u.ctx? with
  | some c => contextBytes now c (x.carry.job? w)
  | none => [0, 0] ++ wordBytes now ++ List.replicate 120 0

end Sys2Proof.Machine
end

