-- ==== Sys2Proof/Machine/Events.lean ====
section
/-!
DEFINITION. How an event of the part begins and ends: the records it raised are offered to the event queue (R175 to
R177), and requests that wait on a link are taken by the ports that can take them (R120, R134).
-/

namespace Sys2Proof.Machine

/-! ### The free order of things that come together (R176) -/

/-- Insert x before place n of the list, at its end beyond it. -/
def insertAt {α : Type} : List α → Nat → α → List α
  | [], _, x => [x]
  | y :: ys, 0, x => x :: y :: ys
  | y :: ys, n + 1, x => y :: insertAt ys n x

/-- An order of the list picked by the choice c; every order is some choice's. -/
def permute {α : Type} : List α → Nat → List α
  | [], _ => []
  | x :: xs, c => insertAt (permute xs (c / (xs.length + 1))) (c % (xs.length + 1)) x

/-- A choice is used up where there is more than one order. -/
def choicesUsed (n : Nat) : Nat := if 2 ≤ n then 1 else 0

/-! ### The event queue (R176, R177) -/

/-- A 16-bit count that stops at 65535 (R177). -/
def lostAfter (n : Half) : Half := if n = 0xFFFF#16 then n else n + 1

/-- A record is offered to the queue: stored at the tail, or lost and counted (R176, R177). -/
def EventUnit.offer (u : EventUnit) (r : EventRecord) : EventUnit :=
  if u.isFull then { u with lost := lostAfter u.lost } else { u with queue := u.queue ++ [r] }

/-- The order in which the records of one event stand: any order (R176), but MEMORY_TIMEOUT stands first among the records of
its fault (R150, Note). -/
def orderRecords (choice : Nat) : List EventRecord → List EventRecord
  | [] => []
  | r :: rest => if r.kind = .memoryTimeout then r :: permute rest choice else permute (r :: rest) choice

/-- The records of an event in the order in which the event unit takes them, those of enabled classes (R175, R176). -/
def State.offered (s : State) : List EventRecord :=
  (orderRecords (Config.freeChoice s.choices) s.exch.raised).filter fun r => r.kind.enabled s.eventEnable

/-- The records of the event that has just ended are offered to the queue; the choice of their order is used up whatever the
enables say, so that the enables govern records alone (R175, R176). -/
def State.flush (s : State) : State :=
  { s with
    exch := { s.exch with raised := [] }, events := s.offered.foldl EventUnit.offer s.events,
    choices := s.choices + choicesUsed s.exch.raised.length }

/-- The head record leaves the queue; a LOST_COUNT that is not 0 becomes an EVENTS_LOST record in the freed place (R178). -/
def EventUnit.removeHead (u : EventUnit) (now : Word) : EventUnit :=
  if u.lost = 0 then { u with queue := u.queue.tail }
  else
    { queue := u.queue.tail ++ [{ EventRecord.plain now .eventsLost with detail := u.lost.zeroExtend 32 }], lost := 0 }

/-! ### Requests waiting on the links (R119, R120, R134) -/

/-- The part is not held in reset, and the port takes requests. -/
def State.portReady (s : State) (p : Port) : Bool := !s.resetAsserted && (s.exch.port p).takes

/-- The request at the front of the port's link is taken, in an event of its own. -/
def State.takeFront (s : State) (p : Port) : State :=
  match (s.exch.port p).link with
  | [] => s
  | r :: rest =>
    { s with exch := (s.exch.modPort p fun u => { u with link := rest }).take s.time.ticks p r }.flush

/-- The ports that take requests and have one waiting on their link. -/
def State.linkPorts (s : State) : List Port :=
  Port.all.filter fun p => s.portReady p && !(s.exch.port p).link.isEmpty

/-- While a port that takes requests has one waiting, one of these ports, freely chosen, takes the front of its link. The
first argument bounds the number of requests taken. -/
def State.takeLinked : Nat → State → State
  | 0, s => s
  | n + 1, s =>
    match s.linkPorts with
    | [] => s
    | p :: ps =>
      let q := (p :: ps).getD (Config.freeChoice s.choices % (ps.length + 1)) p
      State.takeLinked n ({ s with choices := s.choices + choicesUsed (ps.length + 1) }.takeFront q)

/-- How many requests wait on the links. -/
def State.linkCount (s : State) : Nat := (Port.all.map fun p => (s.exch.port p).link.length).sum

/-- Every request waiting on a link that its port can take is taken, a port's in arrival order. -/
def State.takeLinks (s : State) : State := State.takeLinked s.linkCount s

/-! ### One event -/

/-- The outputs of the event before are gone (notes/assumptions/19.md). -/
def State.begin (s : State) : State := { s with exch := { s.exch with answers := [] }, issued := [] }

/-- The end of every event. -/
def State.finish (s : State) : State := s.flush.takeLinks

/-- A command: the event's effect between its beginning and its end. -/
def State.event (s : State) (f : State → State) : State := (f s.begin).finish

/-- An event that does not occur while RESET_N is asserted (R115, R140, R154). -/
def State.unlessReset (s : State) (f : State → State) : State := if s.resetAsserted then s else f s

/-- An effect on the exchange alone, at the present tick counter. -/
def State.onExchange (s : State) (f : Word → Exchange → Exchange) : State := { s with exch := f s.time.ticks s.exch }

end Sys2Proof.Machine
end

