-- ==== Sys2Proof/Machine/MemoryPort.lean ====
section
/-!
DEFINITION. The memory port: ARBITER_GRANT, MEMORY_RESPONSE, RESPONSE_TIMER_EXPIRY, RECOVERY_PULSE_EXPIRY.
-/

namespace Sys2Proof.Machine

/-- A grant (R144, R150): in READY while fewer than four requests are outstanding the request is issued; in FAULT and
RECOVERING it completes as ERROR, without that limit. Where no client presents, or no room is left, no grant is taken. -/
def State.grant (s : State) : State :=
  match s.exch.firstPresenting s.memPort.rotation with
  | none => s
  | some (c, m) =>
    let port := { s.memPort with rotation := rotate s.memPort.rotation c }
    match s.memPort.state with
    | .ready =>
      if s.exch.outstanding.length < Config.maxOutstanding then
        { s with exch := s.exch.issue s.memTimeout c m, memPort := port, issued := [m] }
      else s
    | _ => { s with exch := s.exch.failGrant s.time.ticks c m, memPort := port }

/-- ARBITER_GRANT (R144). -/
def execArbiterGrant (s : State) : Host.Outcome State Fault Refusal :=
  .next (s.event fun s => s.unlessReset State.grant)

/-- How an entry ends with a response from memory (R147). -/
def Response.result : Response → Result
  | .okay d => .okay d
  | .error => .error .response

/-- A response from memory: in READY it completes the oldest outstanding entry; with an empty list, in FAULT and in RECOVERING
it is discarded (R141, R147, R150). -/
def State.respond (s : State) (resp : Response) : State :=
  match s.memPort.state, s.exch.outstanding with
  | .ready, e :: rest =>
    s.onExchange fun now x => Exchange.complete { x with outstanding := rest } now e (Response.result resp)
  | _, _ => s

/-- MEMORY_RESPONSE (R147); data that are no GML data are refused by name. -/
def execMemoryResponse (resp : Response) (s : State) : Host.Outcome State Fault Refusal :=
  if resp.wellFormed then .next (s.event fun s => s.unlessReset fun s => s.respond resp) else .refused .illFormed

/-- The response timer of an outstanding entry expires: MEMORY_TIMEOUT is recorded, the port enters FAULT, and every
outstanding entry completes as ERROR in issue order (R149). DESIGN CHOICE: the slot of the MEMORY_TIMEOUT record is read
before the completions (notes/assumptions/24.md). -/
def State.timeout (s : State) (e : Entry) : State :=
  let x := s.exch
  { s with
    exch := Exchange.failAll x.outstanding.length s.time.ticks (x.raise (x.memoryRecord s.time.ticks e .memoryTimeout 0)),
    memPort := { s.memPort with state := .fault } }

/-- The expiry of the response timer at that place of the outstanding list, if it is due (R3, R149). -/
def State.responseExpiry (s : State) (place : Fin 4) : State :=
  match s.memPort.state, s.exch.outstanding[place.val]? with
  | .ready, some e => if e.timer.due then s.timeout e else s
  | _, _ => s

/-- RESPONSE_TIMER_EXPIRY (R149). -/
def execResponseTimerExpiry (place : Fin 4) (s : State) : Host.Outcome State Fault Refusal :=
  .next (s.event fun s => s.unlessReset fun s => s.responseExpiry place)

/-- The recovery pulse expires: MRST_N is deasserted and the port becomes READY (R151). -/
def State.pulseExpiry (s : State) : State :=
  if s.memPort.state = .recovering && s.memPort.pulse.due then
    { s with memPort := { s.memPort with state := .ready, pulse := .stopped } }
  else s

/-- RECOVERY_PULSE_EXPIRY (R151). -/
def execRecoveryPulseExpiry (s : State) : Host.Outcome State Fault Refusal :=
  .next (s.event fun s => s.unlessReset State.pulseExpiry)

end Sys2Proof.Machine
end

