-- ==== Sys2Proof/Machine/Requests.lean ====
section
/-!
DEFINITION. The commands that are a request on a requester port. The part classifies every request itself (R124): a
command of this file is the arrival of its request, and the classification, not the row's name, decides what happens
(notes/assumptions/8.md).
-/

namespace Sys2Proof.Machine

/-- A request arrives: it is taken at once if the port takes requests and none waits before it, otherwise it waits on the
link (R119, R120, R134). -/
def State.arrive (s : State) (p : Port) (r : Request) : State :=
  if s.portReady p && (s.exch.port p).link.isEmpty then s.onExchange fun now x => x.take now p r
  else { s with exch := s.exch.modPort p fun u => { u with link := u.link ++ [r] } }

/-- A well-formed request arrives; what is no GML request is refused by name (R119). -/
def State.request (s : State) (p : Port) (r : Request) : Host.Outcome State Fault Refusal :=
  if r.wellFormed then .next (s.event fun s => s.arrive p r) else .refused .illFormed

/-- A single WORD READ. -/
def wordRead (addr : Word) : Request := { addr := addr, access := .read .word }

/-- A single WORD WRITE. -/
def wordWrite (addr value : Word) : Request := { addr := addr, access := .write (.word value) }

/-- PASS_THROUGH (R131). -/
def execPassThrough (p : Port) (r : Request) (s : State) : Host.Outcome State Fault Refusal := s.request p r

/-- WRITER_PAYLOAD_ACCESS (R25). -/
def execWriterPayloadAccess (p : Port) (r : Request) (s : State) : Host.Outcome State Fault Refusal := s.request p r

/-- WRITER_HEADER_READ (R40). -/
def execWriterHeaderRead (p : Port) (addr : Word) (s : State) : Host.Outcome State Fault Refusal :=
  s.request p (wordRead addr)

/-- EXPLICIT_COMMIT (R28). -/
def execExplicitCommit (p : Port) (addr value : Word) (s : State) : Host.Outcome State Fault Refusal :=
  s.request p (wordWrite addr value)

/-- EXPLICIT_ABANDON (R36). -/
def execExplicitAbandon (p : Port) (addr value : Word) (s : State) : Host.Outcome State Fault Refusal :=
  s.request p (wordWrite addr value)

/-- EXPLICIT_ACQUIRE (R42). -/
def execExplicitAcquire (p : Port) (addr : Word) (s : State) : Host.Outcome State Fault Refusal :=
  s.request p (wordRead addr)

/-- EXPLICIT_RELEASE (R54). -/
def execExplicitRelease (p : Port) (addr : Word) (s : State) : Host.Outcome State Fault Refusal :=
  s.request p (wordRead addr)

/-- READER_PAYLOAD_READ (R50). -/
def execReaderPayloadRead (p : Port) (addr : Word) (size : Size) (s : State) : Host.Outcome State Fault Refusal :=
  s.request p { addr := addr, access := .read size }

/-- CLASSIFIER_REFUSAL (R130). -/
def execClassifierRefusal (p : Port) (r : Request) (s : State) : Host.Outcome State Fault Refusal := s.request p r

end Sys2Proof.Machine
end

