-- ==== Sys2Proof/Machine/Reset.lean ====
section
/-!
DEFINITION. The resets and the time base: PIN_RESET, PIN_RESET_RELEASE, TICK, PORT_RESET, PORT_RESET_RELEASE.
-/

namespace Sys2Proof.Machine

/-- The port state by the level of PRST (R140). -/
def portStateBy (prst : Bool) : PortState := if prst then .inReset else .active

/-- A port at pin reset: nothing in hand; the level of PRST and what the master presents on the link are the outside's (R140). -/
def PortUnit.pinReset (u : PortUnit) : PortUnit := { u with state := portStateBy u.prst, hand := .none }

/-- The frame in progress is ended, and ignored to the rise of CS_N (R154, R171). -/
def Frame.pinReset : Frame → Frame
  | .closed => .closed
  | .ignored => .ignored
  | .running _ => .ignored

/-- The part while RESET_N is asserted (R1, R5, R98, R115, R140, R153, R171, R181, R183). -/
def State.pinReset (s : State) : State :=
  { s with
    resetAsserted := true,
    time := { tbDiv := Config.tbDivReset, tickDiv := Config.tbDivReset, ticks := 0, refclk := 0 },
    memTimeout := Config.memTimeoutReset, eventEnable := Config.eventEnableReset,
    exch := { Exchange.reset with ports := s.exch.ports.map PortUnit.pinReset },
    memPort := .reset, events := { queue := [], lost := 0 },
    mgmt := { frame := s.mgmt.frame.pinReset, snapshot := none }, issued := [] }

/-- PIN_RESET (R115). -/
def execPinReset (s : State) : Host.Outcome State Fault Refusal := .next (s.event State.pinReset)

/-- RESET_N is deasserted: each port is ACTIVE or IN_RESET by its PRST (R140). -/
def State.pinRelease (s : State) : State :=
  if s.resetAsserted then
    { s with
      resetAsserted := false,
      exch := { s.exch with ports := s.exch.ports.map fun u => { u with state := portStateBy u.prst } } }
  else s

/-- PIN_RESET_RELEASE (R140). -/
def execPinResetRelease (s : State) : Host.Outcome State Fault Refusal := .next (s.event State.pinRelease)

/-- A held access's stall timer counts a tick boundary (R3). -/
def Hand.tick : Hand → Hand
  | .held h => .held { h with stall := h.stall.tick }
  | h => h

/-- Every timer of the exchange counts a tick boundary (R3). -/
def Exchange.tick (x : Exchange) : Exchange :=
  { x with
    windows := x.windows.map fun u => u.mapCtx Context.tick,
    ports := x.ports.map fun u => { u with hand := u.hand.tick },
    outstanding := x.outstanding.map fun e => { e with timer := e.timer.tick } }

/-- A tick boundary: the tick in progress ends with the divider it began with, the counter advances by 1 with wrap, the next
tick takes TB_DIV as it stands (R1), and every timer counts (R3). -/
def State.tickBoundary (s : State) : State :=
  { s with
    time :=
      { s.time with
        tickDiv := s.time.tbDiv, ticks := s.time.ticks + 1, refclk := s.time.refclk + (s.time.tickDiv.toNat + 1) },
    exch := s.exch.tick, memPort := { s.memPort with pulse := s.memPort.pulse.tick } }

/-- TICK (R1); the counter is held at 0 while RESET_N is asserted. -/
def execTick (s : State) : Host.Outcome State Fault Refusal := .next (s.event fun s => s.unlessReset State.tickBoundary)

/-- The level of PRST. -/
def State.setPrst (s : State) (p : Port) (b : Bool) : State :=
  { s with exch := s.exch.modPort p fun u => { u with prst := b } }

/-- The event record of a port reset: its detail is 1 if a request was in hand (R135). -/
def portResetRecord (now : Word) (p : Port) (hand : Hand) : EventRecord :=
  { EventRecord.plain now .portReset with port := some p, detail := if hand = .none then 0 else 1 }

/-- PRST is asserted while the port is ACTIVE: the request in hand is ended, PORT_RESET is recorded, and every ACTIVE or
DRAINING window in which the port has a role is treated (R135 to R137). -/
def State.portReset (s : State) (p : Port) : State :=
  let now := s.time.ticks
  let x1 := (s.exch.modPort p fun u => { u with state := .inReset }).resetHand now p
  let x2 := x1.raise (portResetRecord now p (s.exch.port p).hand)
  let ws := x2.resetWindows p
  let x3 := (permute ws (Config.freeChoice s.choices)).foldl (fun y w => y.resetRole now p w) x2
  { s with exch := x3, choices := s.choices + choicesUsed ws.length }

/-- PRST is asserted: a port that is not ACTIVE sees no further effect (R134). -/
def State.assertPrst (s : State) (p : Port) : State :=
  (s.setPrst p true).unlessReset fun t => if (t.exch.port p).state = .active then t.portReset p else t

/-- PORT_RESET (R135). -/
def execPortReset (p : Port) (s : State) : Host.Outcome State Fault Refusal := .next (s.event fun s => s.assertPrst p)

/-- PRST is deasserted: the port returns to ACTIVE if no forwarded request of it is outstanding (R134, R138). -/
def State.deassertPrst (s : State) (p : Port) : State :=
  (s.setPrst p false).unlessReset fun t => { t with exch := t.exch.modPort p PortUnit.leaveReset }

/-- PORT_RESET_RELEASE (R138). -/
def execPortResetRelease (p : Port) (s : State) : Host.Outcome State Fault Refusal :=
  .next (s.event fun s => s.deassertPrst p)

end Sys2Proof.Machine
end

