-- ==== Sys2Proof/Machine/Frames.lean ====
section
/-!
DEFINITION. The frame state of the management port and what MISO carries (R154, R156), and the registers that a frame reads
and writes (R116, R117, R158 to R161).
-/

namespace Sys2Proof.Machine

/-! ### The frame (R154 to R156) -/

/-- The frame state at the falling edge of CS_N (R154). -/
def FrameState.start : FrameState :=
  { code := none, args := [], taken := false, response := [], position := 0, filler := fillerByte, todo := .nothing }

/-- What a command that is taken answers: a status, the bytes after it, and what is still to come. -/
structure Reply where
  status : Status
  more : List Byte := []
  todo : Todo := .nothing
  deriving DecidableEq, Repr

/-- The frame once its command is taken: the response begins with the status byte in the next byte of the frame, and
BAD_ARGUMENT is driven to the end of the frame (R156). -/
def FrameState.answered (f : FrameState) (r : Reply) : FrameState :=
  { f with
    taken := true, response := r.status.code :: r.more, position := 0,
    filler := if r.status = .badArgument then Status.badArgument.code else fillerByte, todo := r.todo }

/-- A byte arrives on MOSI before the command is taken: byte 0 is the command code, a later one an argument or data byte
(R154, R155). -/
def FrameState.receive (f : FrameState) (mosi : Byte) : FrameState :=
  match f.code with
  | none => { f with code := some mosi }
  | some _ => { f with args := f.args ++ [mosi] }

/-- The bytes of the command that have arrived. -/
def FrameState.received (f : FrameState) : List Byte := f.code.toList ++ f.args

/-- The byte that goes out on MISO at the position of the frame: the filler until the command is taken, then the response,
then what follows it to the end of the frame (R154, R156). -/
def FrameState.miso (f : FrameState) : Byte := if f.taken then f.response.getD f.position f.filler else fillerByte

def State.setFrame (s : State) (f : Frame) : State := { s with mgmt := { s.mgmt with frame := f } }

/-- CS_N falls: a frame begins; one that begins while RESET_N is asserted is ignored to its end (R154). -/
def State.frameStart (s : State) : State :=
  match s.mgmt.frame with
  | .closed => s.setFrame (if s.resetAsserted then .ignored else .running .start)
  | .ignored => s
  | .running _ => s

/-- CS_N rises: the frame state is cleared (R154). -/
def State.frameEnd (s : State) : State := s.setFrame .closed

/-! ### Reading registers (R158) -/

/-- The check of a starting address and a count: 1 to 64 registers, none above 0xFF (R158, R160). -/
def registersInRange (addr count : Byte) : Bool :=
  1 ≤ count.toNat && count.toNat ≤ 64 && addr.toNat + count.toNat - 1 ≤ 0xFF

/-- READ REGISTERS is taken (R158). -/
def readRegistersReply (addr count : Byte) : Reply :=
  if registersInRange addr count then { status := .ok, todo := .registers addr.toNat count.toNat }
  else { status := .badArgument }

/-! ### Register writes (R116, R117, R159, R161) -/

/-- A locked register's fields take the written values (R116). -/
def Geometry.write (g : Geometry) (r : LockedReg) (v : Word) : Geometry :=
  match r with
  | .lbase => { g with lbase := v }
  | .flen => { g with flen := v }
  | .sbase => { g with sbase := v }
  | .geom => g.withGeom v

/-- A write to a locked register: taken in a DISABLED window, otherwise ignored and reported LOCKED (R116). -/
def State.writeLocked (s : State) (w : Window) (r : LockedReg) (v : Word) : State × Bool :=
  if (s.exch.win w).life = .disabled then
    ({ s with exch := s.exch.modWin w fun u => { u with geom := u.geom.write r v } }, false)
  else (s, true)

/-- The staged values that a write to a staged register gives (R117). -/
def Staged.write (g : Staged) (r : StagedReg) (v : Word) : Staged :=
  match r with
  | .policy => { g with policy := some (Policy.ofWord v) }
  | .fillPattern => { g with fillPattern := some v }
  | .timersA => { g with timersA := some (TimersA.ofWord v) }
  | .timersB => { g with tStall := some (v.extractLsb' 0 16) }

/-- A write to a staged register: in effect at once in a DISABLED window, staged otherwise (R117). -/
def WindowUnit.writeStaged (u : WindowUnit) (r : StagedReg) (v : Word) : WindowUnit :=
  if u.life = .disabled then { u with eff := u.eff.with (Staged.none.write r v) }
  else { u with staged := u.staged.write r v }

/-- The effect of a register write and whether it was ignored as a locked write (R159, R161). -/
def State.writeRegister (s : State) (r : Register) (v : Word) : State × Bool :=
  match r with
  | .tbDiv => ({ s with time := { s.time with tbDiv := v.truncate 16 } }, false)
  | .memTimeout => ({ s with memTimeout := v.truncate 16 }, false)
  | .eventEnable => ({ s with eventEnable := v.truncate 8 }, false)
  | .locked w reg => s.writeLocked w reg v
  | .staged w reg => ({ s with exch := s.exch.modWin w fun u => u.writeStaged reg v }, false)
  | .time => (s, false)
  | .memportState => (s, false)
  | .portState => (s, false)
  | .eventCount => (s, false)
  | .lostCount => (s, false)
  | .wstate _ => (s, false)
  | .counter _ _ => (s, false)
  | .unnamed => (s, false)

end Sys2Proof.Machine
end

