-- ==== Sys2Proof/Machine/Management.lean ====
section
/-!
DEFINITION. What a management command does in the event of its taking, and what it answers: ENABLE, DRAIN, DISABLE,
SNAPSHOT, READ_SNAPSHOT, DISCARD_SNAPSHOT, READ_EVENTS, CLEAR_COUNTERS, RESTART, RECOVER_MEMORY_PORT, READ_TIME.
-/

namespace Sys2Proof.Machine

/-! ### Window commands (R101, R108, R111, R162) -/

/-- The mode byte of ENABLE: 0x00 OBSERVE, 0x01 ACTIVE (R162). -/
def modeOfByte (m : Byte) : Option LiveMode := if m = 0x00 then some .observe else if m = 0x01 then some .active else none

/-- The port presents a request attributed to the window (R103). -/
def PortUnit.presentsFor (u : PortUnit) (w : Window) : Bool :=
  match u.hand with
  | .presented _ m _ => m.window = some w
  | _ => false

/-- A memory request attributed to the window is presented or outstanding at the memory port (R103). -/
def Exchange.attributed (x : Exchange) (w : Window) : Bool :=
  (Port.all.any fun p => (x.port p).presentsFor w) || x.outstanding.any fun e => e.mem.window = some w

/-- The window enters the requested mode with its starting context (R104). -/
def Exchange.enableWindow (x : Exchange) (now : Word) (w : Window) (m : LiveMode) : Exchange :=
  (x.modWin w fun u => { u with life := .live m (Context.start u.geom) }).raiseState now w .enable

/-- The tests of ENABLE, the first that fails (R101). -/
def State.enableWindow (s : State) (window mode : Byte) : State × Reply :=
  match windowOfNat window.toNat, modeOfByte mode with
  | some w, some m =>
    if (s.exch.win w).life ≠ .disabled then (s, { status := .badState })
    else match configReason s.exch.windows w with
      | some reason => (s, { status := .badConfig, more := [reason] })
      | none =>
        if s.exch.attributed w then (s, { status := .busy })
        else (s.onExchange fun now x => x.enableWindow now w m, { status := .ok })
  | _, _ => (s, { status := .badArgument })

/-- A writer WAITING at a DRAIN is refused (R75). -/
def Exchange.refuseWaiting (x : Exchange) (now : Word) (w : Window) : Exchange :=
  let p := (x.win w).geom.writer
  match x.ctx? w, (x.port p).heldRequest w .slot with
  | some c, some r =>
    if c.writer.state = .waiting then
      (x.refuseOpen now w p .draining r.addr).modCtx w fun c => c.modWriter fun b => { b with state := .noSlot }
    else x
  | _, _ => x

/-- An ACTIVE window enters DRAINING, or goes on to DISABLED when the drain condition already holds (R108). -/
def Exchange.drainWindow (x : Exchange) (now : Word) (w : Window) (c : Context) : Exchange :=
  let x1 := (x.modWin w fun u => { u with life := .live .draining c }).refuseWaiting now w
  let x2 := x1.drainTest now w
  if (x2.win w).life = .disabled then x2 else x2.raiseState now w .drain

/-- The tests of DRAIN (R108). -/
def State.drainWindow (s : State) (window : Byte) : State × Reply :=
  match windowOfNat window.toNat with
  | none => (s, { status := .badArgument })
  | some w =>
    match (s.exch.win w).life with
    | .live .active c => (s.onExchange fun now x => x.drainWindow now w c, { status := .ok })
    | _ => (s, { status := .badState })

/-- A window that is not DISABLED is disabled; a DISABLED one is unchanged, with no record (R111, R114). -/
def Exchange.disableLive (x : Exchange) (now : Word) (w : Window) (cause : StateCause) : Exchange :=
  if (x.win w).life = .disabled then x else x.disableWindow now w cause

/-- DISABLE's argument and effect (R111). -/
def State.disableWindow (s : State) (window : Byte) : State × Reply :=
  match windowOfNat window.toNat with
  | none => (s, { status := .badArgument })
  | some w => (s.onExchange fun now x => x.disableLive now w .disable, { status := .ok })

/-! ### Snapshots (R163, R165) -/

/-- SNAPSHOT's tests and effect (R163). -/
def State.takeSnapshot (s : State) (window : Byte) : State × Reply :=
  match windowOfNat window.toNat with
  | none => (s, { status := .badArgument })
  | some w =>
    match s.mgmt.snapshot with
    | some _ => (s, { status := .snapPending })
    | none =>
      ({ s with mgmt := { s.mgmt with snapshot := some (s.exch.snapshotBytes s.time.ticks w) } }, { status := .ok })

/-- What READ SNAPSHOT answers (R165). -/
def State.snapshotReply (s : State) : Reply :=
  match s.mgmt.snapshot with
  | none => { status := .empty }
  | some bytes => { status := .ok, more := bytes, todo := .snapshot }

def State.emptySnapshot (s : State) : State := { s with mgmt := { s.mgmt with snapshot := none } }

/-- DISCARD SNAPSHOT (R165). -/
def State.discardSnapshot (s : State) : State × Reply :=
  (s.emptySnapshot, { status := if s.mgmt.snapshot.isSome then .ok else .empty })

/-! ### Events (R166) -/

/-- What READ EVENTS answers: m, the lesser of the maximum and the records in the queue (R166). -/
def State.eventsReply (s : State) (maximum : Byte) : Reply :=
  if maximum.toNat = 0 || 8 < maximum.toNat then { status := .badArgument }
  else
    let m := min maximum.toNat s.events.queue.length
    if m = 0 then { status := .empty } else { status := .ok, more := [BitVec.ofNat 8 m], todo := .records m false }

/-! ### Counters, restart, recovery and time (R168 to R170) -/

def Exchange.clearCounters (x : Exchange) (w : Window) : Exchange := x.count w fun _ => .zero

/-- CLEAR COUNTERS's argument and effect (R168). -/
def State.clearCounters (s : State) (window : Byte) : State × Reply :=
  if window = 0xFF then
    (s.onExchange fun _ x => Window.all.foldl Exchange.clearCounters x, { status := .ok })
  else match windowOfNat window.toNat with
    | none => (s, { status := .badArgument })
    | some w => (s.onExchange fun _ x => x.clearCounters w, { status := .ok })

/-- The windows that are not DISABLED. -/
def Exchange.liveWindows (x : Exchange) : List Window := Window.all.filter fun w => (x.win w).life ≠ .disabled

/-- Every window that is not DISABLED is disabled, and one RESTART record carries their number (R114, R174). -/
def Exchange.restart (x : Exchange) (now : Word) : Exchange :=
  let ws := x.liveWindows
  (ws.foldl (fun y w => y.disableWindow now w .restart) x).raise
    { EventRecord.plain now .restart with detail := BitVec.ofNat 32 ws.length }

/-- RESTART: the exchange controller's part and the snapshot buffer (R114, R169). -/
def State.restart (s : State) : State × Reply :=
  ((s.onExchange fun now x => x.restart now).emptySnapshot, { status := .ok })

/-- RECOVER MEMORY PORT from FAULT: the port enters RECOVERING with the pulse armed; elsewhere BAD_STATE (R151, R170). -/
def State.recover (s : State) : State × Reply :=
  if s.memPort.state = .fault then
    ({ s with memPort := { s.memPort with state := .recovering, pulse := .arm Config.recoveryTicks } }, { status := .ok })
  else (s, { status := .badState })

/-- READ TIME: the tick counter is latched in the event of byte 0 (R170). -/
def State.timeReply (s : State) : Reply := { status := .ok, more := wordBytes s.time.ticks }

end Sys2Proof.Machine
end

