-- ==== Sys2Proof/Machine/Spi.lean ====
section
/-!
DEFINITION. The bytes of an SPI frame (R154 to R160, R165, R166), and the commands of the management port: each is the
arrival of its bytes in the frame in progress (notes/assumptions/11.md), so all of them go through one byte's event.
-/

namespace Sys2Proof.Machine

/-! ### Which command, and when it is taken (R155) -/

/-- The commands of the table of R155. -/
inductive MgmtCommand where
  | readRegisters | writeRegisters | enable | drain | disable | snapshot | readSnapshot | discardSnapshot | readEvents
  | clearCounters | restart | recoverMemoryPort | readTime
  deriving DecidableEq, Repr

/-- The command that byte 0 picks, none for a code that is not in the table (R155). -/
def commandOf (code : Byte) : Option MgmtCommand :=
  if code = 0x01 then some .readRegisters
  else if code = 0x02 then some .writeRegisters
  else if code = 0x10 then some .enable
  else if code = 0x11 then some .drain
  else if code = 0x12 then some .disable
  else if code = 0x18 then some .snapshot
  else if code = 0x19 then some .readSnapshot
  else if code = 0x1A then some .discardSnapshot
  else if code = 0x20 then some .readEvents
  else if code = 0x28 then some .clearCounters
  else if code = 0x30 then some .restart
  else if code = 0x31 then some .recoverMemoryPort
  else if code = 0x38 then some .readTime
  else none

/-- The command of the frame is taken with that effect and answer: the rest of the frame carries the response (R155, R156). -/
def FrameState.take (f : FrameState) (r : State × Reply) : State := r.1.setFrame (.running (f.answered r.2))

/-- A command with one argument byte is taken when it has arrived (R155). -/
def State.withOne (s : State) (f : FrameState) (act : Byte → State × Reply) : State :=
  match f.args with
  | [a] => f.take (act a)
  | _ => s.setFrame (.running f)

/-- A command with two argument bytes is taken when both have arrived (R155). -/
def State.withTwo (s : State) (f : FrameState) (act : Byte → Byte → State × Reply) : State :=
  match f.args with
  | [a, b] => f.take (act a b)
  | _ => s.setFrame (.running f)

/-- The count byte of a WRITE REGISTERS frame: the check that refuses the command, or the registers to come (R160). -/
def State.writeCount (s : State) (f : FrameState) (addr count : Byte) : State :=
  if registersInRange addr count then s.setFrame (.running { f with todo := .writes addr.toNat count.toNat false })
  else f.take (s, { status := .badArgument })

/-- A data byte of a WRITE REGISTERS frame, already among the bytes of f, with this register the next and `left` more after
it. The fourth byte for a register writes it, or its write is ignored; with the last one the command is taken, its status
LOCKED if a locked write was ignored in the frame (R155, R159). -/
def State.writeData (s : State) (f : FrameState) (next left : Nat) (locked : Bool) : State :=
  if f.args.length % 4 = 2 then
    let r := s.writeRegister (registerAt next) (wordOfBytes (f.args.drop (f.args.length - 4)))
    if left = 0 then f.take (r.1, { status := if locked || r.2 then .locked else .ok })
    else r.1.setFrame (.running { f with todo := .writes (next + 1) left (locked || r.2) })
  else s.setFrame (.running f)

/-- A byte of a WRITE REGISTERS frame after its code (R155, R159, R160). -/
def State.writeByte (s : State) (f : FrameState) : State :=
  match f.todo, f.args with
  | .writes next (left + 1) locked, _ => s.writeData f next left locked
  | .nothing, [a, n] => s.writeCount f a n
  | _, _ => s.setFrame (.running f)

/-- The code and argument bytes of f have arrived, the last of them in this event (R155). -/
def State.arrived (s : State) (f : FrameState) (c : MgmtCommand) : State :=
  match c with
  | .readRegisters => s.withTwo f fun a n => (s, readRegistersReply a n)
  | .writeRegisters => s.writeByte f
  | .enable => s.withTwo f s.enableWindow
  | .drain => s.withOne f s.drainWindow
  | .disable => s.withOne f s.disableWindow
  | .snapshot => s.withOne f s.takeSnapshot
  | .readSnapshot => f.take (s, s.snapshotReply)
  | .discardSnapshot => f.take s.discardSnapshot
  | .readEvents => s.withOne f fun n => (s, s.eventsReply n)
  | .clearCounters => s.withOne f s.clearCounters
  | .restart => f.take s.restart
  | .recoverMemoryPort => f.take s.recover
  | .readTime => f.take (s, s.timeReply)

/-! ### One byte of the frame (R154) -/

/-- A byte arrives on MOSI before the command is taken; a byte 0 that is no code of the table is an unknown command, taken at
once (R154, R155). -/
def State.mosiByte (s : State) (f : FrameState) (mosi : Byte) : State :=
  let g := f.receive mosi
  match g.code.bind commandOf with
  | some c => s.arrived g c
  | none => g.take (s, { status := .unknownCommand })

/-- The first bit of the next byte goes out on MISO. Where the response is settled up to this byte and more is to come, the
next register is latched, with its value of this moment (R158), or the record at the head of the queue (R166). -/
def State.beginByte (s : State) : State :=
  match s.mgmt.frame with
  | .running f =>
    if f.taken && f.position = f.response.length then
      match f.todo, s.events.queue with
      | .registers next (left + 1), _ =>
        s.setFrame (.running
          { f with
            response := f.response ++ wordBytes (s.readRegister (registerAt next)),
            todo := if left = 0 then .nothing else .registers (next + 1) left })
      | .records (left + 1) false, r :: _ =>
        s.setFrame (.running { f with response := f.response ++ r.bytes, todo := .records (left + 1) true })
      | _, _ => s
    else s
  | .closed => s
  | .ignored => s

/-- The last bit of a byte has gone out on MISO after the command is taken; what arrives on MOSI is ignored. The snapshot
buffer becomes EMPTY with the last byte of the snapshot (R165), and a record leaves the head of the queue with its sixteenth
byte (R166, R178). -/
def State.byteOut (s : State) (f : FrameState) : State :=
  let g := { f with position := f.position + 1 }
  match decide (g.position = f.response.length), f.todo with
  | true, .snapshot => s.emptySnapshot.setFrame (.running { g with todo := .nothing })
  | true, .records (left + 1) true =>
    { s with events := s.events.removeHead s.time.ticks }.setFrame (.running
      { g with todo := if left = 0 then .nothing else .records left false })
  | _, _ => s.setFrame (.running g)

/-- One whole byte of the frame: its first bit, if that has not gone out yet, then its last (R154). -/
def State.clockByte (s : State) (mosi : Byte) : State :=
  let t := s.beginByte
  match t.mgmt.frame with
  | .running f => if f.taken then t.byteOut f else t.mosiByte f mosi
  | .closed => t
  | .ignored => t

/-- The bytes of the frame, one after another. -/
def State.clock (s : State) (bytes : List Byte) : State := bytes.foldl State.clockByte s

/-- The byte that MISO carries: the one whose bits are going out, or whose first bit goes out next. MISO is not driven while
CS_N is high and while RESET_N is asserted (R154). DESIGN CHOICE: nor is it in a frame that began before the deassertion of RESET_N,
from there to its end, of which R154 says only that it is ignored (notes/assumptions/26.md). -/
def State.miso (s : State) : Option Byte :=
  if s.resetAsserted then none
  else match s.beginByte.mgmt.frame with
    | .running f => some f.miso
    | .closed => none
    | .ignored => none

/-! ### The commands as their bytes (notes/assumptions/11.md, 12.md) -/

/-- The bytes of a command arrive: those that the frame in progress has not received yet, if what it has received is their
beginning. A frame carries one command; outside a frame, and after its command, nothing arrives (R155). -/
def State.send (s : State) (bytes : List Byte) : State :=
  match s.mgmt.frame with
  | .running f =>
    if !f.taken && f.received.isPrefixOf bytes then s.clock (bytes.drop f.received.length) else s
  | .closed => s
  | .ignored => s

/-- The bytes for the register at that address arrive, the fourth in this event; registers are taken in address order, so it
is the frame's next register or no byte of it (R159). -/
def State.sendWord (s : State) (addr : Nat) (v : Word) : State :=
  match s.mgmt.frame with
  | .running f =>
    match f.todo with
    | .writes next (_ + 1) _ =>
      let part := f.args.drop (f.args.length - (f.args.length - 2) % 4)
      if !f.taken && next = addr && part.isPrefixOf (wordBytes v) then s.clock ((wordBytes v).drop part.length) else s
    | _ => s
  | .closed => s
  | .ignored => s

/-- What is settled of the response goes out to its end, and then `more` bytes; MOSI is ignored (R155). -/
def State.clockOut (s : State) (f : FrameState) (more : Nat) : State :=
  if f.taken then s.clock (List.replicate (f.response.length - f.position + more) fillerByte) else s

/-- The first bit of the next register of a READ REGISTERS frame goes out (R158). -/
def State.nextRegister (s : State) : State :=
  match s.mgmt.frame with
  | .running f =>
    match f.todo with
    | .registers _ (_ + 1) => (s.clockOut f 0).beginByte
    | _ => s
  | .closed => s
  | .ignored => s

/-- The last bit of snapshot byte 127 goes out in a READ SNAPSHOT frame (R165). -/
def State.restOfSnapshot (s : State) : State :=
  match s.mgmt.frame with
  | .running f => if f.todo = .snapshot then s.clockOut f 0 else s
  | .closed => s
  | .ignored => s

/-- The last bit of the sixteenth byte of the next record goes out in a READ EVENTS frame (R166). -/
def State.restOfRecord (s : State) : State :=
  match s.mgmt.frame with
  | .running f =>
    match f.todo with
    | .records (_ + 1) latched => s.clockOut f (if latched then 0 else 16)
    | _ => s
  | .closed => s
  | .ignored => s

/-- SPI_FRAME_START, and the bytes of the frame one by one; the edge where no event is named (R154). -/
def execSpiFrameStart (s : State) (e : FrameStep := .edge) : Host.Outcome State Fault Refusal :=
  match e with
  | .edge => .next (s.event State.frameStart)
  | .firstBit => .next (s.event State.beginByte)
  | .byte mosi => .next (s.event fun s => s.clockByte mosi)

/-- SPI_FRAME_END (R154). -/
def execSpiFrameEnd (s : State) : Host.Outcome State Fault Refusal := .next (s.event State.frameEnd)

/-- UNKNOWN_COMMAND (R155); a code of the command table is no unknown command and is refused by name. -/
def execUnknownCommand (code : Byte) (s : State) : Host.Outcome State Fault Refusal :=
  if commandCodes.contains code then .refused .illFormed else .next (s.event fun s => s.send [code])

/-- READ_REGISTERS (R158). -/
def execReadRegisters (e : ReadStep) (s : State) : Host.Outcome State Fault Refusal :=
  match e with
  | .taken addr count => .next (s.event fun s => s.send [0x01, addr, count])
  | .nextRegister => .next (s.event State.nextRegister)

/-- WRITE_REGISTERS (R159, R160). -/
def execWriteRegisters (e : WriteFrame) (s : State) : Host.Outcome State Fault Refusal :=
  .next (s.event fun s => s.send (0x02 :: e.addr :: e.count :: e.data))

/-- REGISTER_WRITE (R159). -/
def execRegisterWrite (addr : Byte) (value : Word) (s : State) : Host.Outcome State Fault Refusal :=
  .next (s.event fun s => s.sendWord addr.toNat value)

/-- LOCKED_REGISTER_WRITE (R116). -/
def execLockedRegisterWrite (w : Window) (reg : LockedReg) (value : Word) (s : State) : Host.Outcome State Fault Refusal :=
  .next (s.event fun s => s.sendWord (windowAddress w (LockedReg.offset reg)) value)

/-- STAGED_REGISTER_WRITE (R117). -/
def execStagedRegisterWrite (w : Window) (reg : StagedReg) (value : Word) (s : State) : Host.Outcome State Fault Refusal :=
  .next (s.event fun s => s.sendWord (windowAddress w (StagedReg.offset reg)) value)

/-- TB_DIV_WRITE (R1, R161). -/
def execTbDivWrite (value : Word) (s : State) : Host.Outcome State Fault Refusal :=
  .next (s.event fun s => s.sendWord 0x00 value)

/-- MEM_TIMEOUT_WRITE (R146, R161). -/
def execMemTimeoutWrite (value : Word) (s : State) : Host.Outcome State Fault Refusal :=
  .next (s.event fun s => s.sendWord 0x01 value)

/-- EVENT_ENABLE_WRITE (R161, R175). -/
def execEventEnableWrite (value : Word) (s : State) : Host.Outcome State Fault Refusal :=
  .next (s.event fun s => s.sendWord 0x02 value)

/-- ENABLE (R101). -/
def execEnable (window mode : Byte) (s : State) : Host.Outcome State Fault Refusal :=
  .next (s.event fun s => s.send [0x10, window, mode])

/-- DRAIN (R108). -/
def execDrain (window : Byte) (s : State) : Host.Outcome State Fault Refusal :=
  .next (s.event fun s => s.send [0x11, window])

/-- DISABLE (R111). -/
def execDisable (window : Byte) (s : State) : Host.Outcome State Fault Refusal :=
  .next (s.event fun s => s.send [0x12, window])

/-- SNAPSHOT (R163). -/
def execSnapshot (window : Byte) (s : State) : Host.Outcome State Fault Refusal :=
  .next (s.event fun s => s.send [0x18, window])

/-- READ_SNAPSHOT (R165). -/
def execReadSnapshot (s : State) : Host.Outcome State Fault Refusal := .next (s.event fun s => s.send [0x19])

/-- DISCARD_SNAPSHOT (R165). -/
def execDiscardSnapshot (s : State) : Host.Outcome State Fault Refusal := .next (s.event fun s => s.send [0x1A])

/-- READ_EVENTS (R166). -/
def execReadEvents (maximum : Byte) (s : State) : Host.Outcome State Fault Refusal :=
  .next (s.event fun s => s.send [0x20, maximum])

/-- CLEAR_COUNTERS (R168). -/
def execClearCounters (window : Byte) (s : State) : Host.Outcome State Fault Refusal :=
  .next (s.event fun s => s.send [0x28, window])

/-- RESTART (R114, R169). -/
def execRestart (s : State) : Host.Outcome State Fault Refusal := .next (s.event fun s => s.send [0x30])

/-- RECOVER_MEMORY_PORT (R151, R170). -/
def execRecoverMemoryPort (s : State) : Host.Outcome State Fault Refusal := .next (s.event fun s => s.send [0x31])

/-- READ_TIME (R170). -/
def execReadTime (s : State) : Host.Outcome State Fault Refusal := .next (s.event fun s => s.send [0x38])

/-- SNAPSHOT_CONSUMED (R165). -/
def execSnapshotConsumed (s : State) : Host.Outcome State Fault Refusal := .next (s.event State.restOfSnapshot)

/-- EVENT_RECORD_REMOVAL (R166, R178). -/
def execEventRecordRemoval (s : State) : Host.Outcome State Fault Refusal := .next (s.event State.restOfRecord)

end Sys2Proof.Machine
end

