-- ==== Sys2Proof/Machine/Timers.lean ====
section
/-!
DEFINITION. The expiries of the exchange's timers: FILL_TIMER_EXPIRY, HOLD_TIMER_EXPIRY, STALL_TIMER_EXPIRY. An expiry has
effect only when the timer is due (R3).
-/

namespace Sys2Proof.Machine

/-- The fill timer's expiry abandons the FILLING frame with cause TIMEOUT (R37, R109). -/
def Exchange.fillExpiry (x : Exchange) (now : Word) (w : Window) : Exchange :=
  match x.ctx? w with
  | none => x
  | some c =>
    match c.writer.state with
    | .filling _ => if c.writer.fillTimer.due then (x.abandon now w .timeout).drainTest now w else x
    | .noSlot => x
    | .waiting => x

/-- FILL_TIMER_EXPIRY (R37). -/
def execFillTimerExpiry (w : Window) (s : State) : Host.Outcome State Fault Refusal :=
  .next (s.event fun s => s.unlessReset fun s => s.onExchange fun now x => x.fillExpiry now w)

/-- Reader p is evicted from slot k: give-back, EVICTED or IDLE by IMPLICIT_ACQUIRE, EXPIRED, HOLD_EXPIRED (R57). -/
def Exchange.evict (x : Exchange) (now : Word) (w : Window) (p : Port) (k : SlotId) (c : Context) (b : ReaderBinding) :
    Exchange :=
  let after : ReaderState := if (x.win w).geom.implicitAcquire then .idle else .evicted
  let x1 := ((x.giveBack now w p after).count w Counters.addExpired).raise
    { EventRecord.plain now .holdExpired with
      window := some w, port := some p, slot := some k, seq := ((c.slot? k).bind Slot.seq).getD 0, detail := b.bytesRead }
  x1.drainTest now w

/-- The hold timer's expiry (R57). -/
def Exchange.holdExpiry (x : Exchange) (now : Word) (w : Window) (p : Port) : Exchange :=
  match x.ctx? w with
  | none => x
  | some c =>
    match c.reader? p with
    | none => x
    | some b =>
      match b.state with
      | .holding k => if b.holdTimer.due then x.evict now w p k c b else x
      | _ => x

/-- HOLD_TIMER_EXPIRY (R57). -/
def execHoldTimerExpiry (w : Window) (p : Port) (s : State) : Host.Outcome State Fault Refusal :=
  .next (s.event fun s => s.unlessReset fun s => s.onExchange fun now x => x.holdExpiry now w p)

/-- The wait that a hold reason is, if it has a stall timer (R65, R69). -/
def HoldReason.wait? : HoldReason → Option WaitKind
  | .slot => some .slot
  | .frame => some .frame
  | .carryBlock => none
  | .carryDone _ _ => none

/-- The binding of a wait that has ended with ERROR: NO_SLOT for the writer, IDLE for the reader (R69). -/
def Context.endWait (c : Context) (p : Port) : WaitKind → Context
  | .slot => c.modWriter fun b => { b with state := .noSlot }
  | .frame => c.modReader p fun b => { b with state := .idle }

/-- The stall timer's expiry ends the wait with ERROR (R69). -/
def Exchange.stallExpiry (x : Exchange) (now : Word) (p : Port) : Exchange :=
  match (x.port p).hand with
  | .held h =>
    match h.reason.wait? with
    | some kind =>
      if h.stall.due then
        let x1 := ((x.answer p .error).modCtx h.window fun c => c.endWait p kind).count h.window Counters.addExpired
        x1.raise
          { EventRecord.plain now (.stallExpired kind) with
            window := some h.window, port := some p, detail := h.req.addr }
      else x
    | none => x
  | _ => x

/-- STALL_TIMER_EXPIRY (R69). -/
def execStallTimerExpiry (p : Port) (s : State) : Host.Outcome State Fault Refusal :=
  .next (s.event fun s => s.unlessReset fun s => s.onExchange fun now x => x.stallExpiry now p)

end Sys2Proof.Machine
end

