-- ==== Sys2Proof/Machine/Dispatch.lean ====
section
/-! DEFINITION. One arm for each command. -/

namespace Sys2Proof.Machine

def exec (i : Instr) (s : State) : Host.Outcome State Fault Refusal :=
  match i with
  | .pinReset => Sys2Proof.Machine.execPinReset s
  | .pinResetRelease => Sys2Proof.Machine.execPinResetRelease s
  | .tick => Sys2Proof.Machine.execTick s
  | .portReset p => Sys2Proof.Machine.execPortReset p s
  | .portResetRelease p => Sys2Proof.Machine.execPortResetRelease p s
  | .passThrough p r => Sys2Proof.Machine.execPassThrough p r s
  | .writerPayloadAccess p r => Sys2Proof.Machine.execWriterPayloadAccess p r s
  | .writerHeaderRead p addr => Sys2Proof.Machine.execWriterHeaderRead p addr s
  | .explicitCommit p addr value => Sys2Proof.Machine.execExplicitCommit p addr value s
  | .explicitAbandon p addr value => Sys2Proof.Machine.execExplicitAbandon p addr value s
  | .explicitAcquire p addr => Sys2Proof.Machine.execExplicitAcquire p addr s
  | .explicitRelease p addr => Sys2Proof.Machine.execExplicitRelease p addr s
  | .readerPayloadRead p addr size => Sys2Proof.Machine.execReaderPayloadRead p addr size s
  | .arbiterGrant => Sys2Proof.Machine.execArbiterGrant s
  | .memoryResponse resp => Sys2Proof.Machine.execMemoryResponse resp s
  | .responseTimerExpiry place => Sys2Proof.Machine.execResponseTimerExpiry place s
  | .recoveryPulseExpiry => Sys2Proof.Machine.execRecoveryPulseExpiry s
  | .fillTimerExpiry w => Sys2Proof.Machine.execFillTimerExpiry w s
  | .holdTimerExpiry w p => Sys2Proof.Machine.execHoldTimerExpiry w p s
  | .stallTimerExpiry p => Sys2Proof.Machine.execStallTimerExpiry p s
  | .spiFrameEnd => Sys2Proof.Machine.execSpiFrameEnd s
  | .readRegisters e => Sys2Proof.Machine.execReadRegisters e s
  | .writeRegisters e => Sys2Proof.Machine.execWriteRegisters e s
  | .registerWrite addr value => Sys2Proof.Machine.execRegisterWrite addr value s
  | .lockedRegisterWrite w reg value => Sys2Proof.Machine.execLockedRegisterWrite w reg value s
  | .stagedRegisterWrite w reg value => Sys2Proof.Machine.execStagedRegisterWrite w reg value s
  | .tbDivWrite value => Sys2Proof.Machine.execTbDivWrite value s
  | .memTimeoutWrite value => Sys2Proof.Machine.execMemTimeoutWrite value s
  | .eventEnableWrite value => Sys2Proof.Machine.execEventEnableWrite value s
  | .enable window mode => Sys2Proof.Machine.execEnable window mode s
  | .drain window => Sys2Proof.Machine.execDrain window s
  | .disable window => Sys2Proof.Machine.execDisable window s
  | .snapshot window => Sys2Proof.Machine.execSnapshot window s
  | .readSnapshot => Sys2Proof.Machine.execReadSnapshot s
  | .discardSnapshot => Sys2Proof.Machine.execDiscardSnapshot s
  | .readEvents maximum => Sys2Proof.Machine.execReadEvents maximum s
  | .clearCounters window => Sys2Proof.Machine.execClearCounters window s
  | .restart => Sys2Proof.Machine.execRestart s
  | .recoverMemoryPort => Sys2Proof.Machine.execRecoverMemoryPort s
  | .readTime => Sys2Proof.Machine.execReadTime s
  | .unknownCommand code => Sys2Proof.Machine.execUnknownCommand code s
  | .snapshotConsumed => Sys2Proof.Machine.execSnapshotConsumed s
  | .eventRecordRemoval => Sys2Proof.Machine.execEventRecordRemoval s
  | .classifierRefusal p r => Sys2Proof.Machine.execClassifierRefusal p r s
  | .spiFrameStart e => Sys2Proof.Machine.execSpiFrameStart s e

end Sys2Proof.Machine
end

