-- ==== Sys2Proof/Safety.lean ====
section
/-!
DEFINITION. The terms in which claims about runs are made: states between events, and the invariants that every step keeps.
-/

namespace Sys2Proof.Machine

/-! ### Between events -/

/-- No event is in progress, and no port that takes requests has one left waiting on its link (R120, R134). -/
def State.Settled (s : State) : Prop := s.exch.raised = [] ∧ s.linkPorts = []

/-- No event is in progress and no request waits on a link: every master issues a request only after the answer to its
previous one (R120). -/
def State.Quiet (s : State) : Prop := s.exch.raised = [] ∧ ∀ p, (s.exch.port p).link = []

/-- The port takes a request now: RESET_N is deasserted, the port is ACTIVE, nothing is in hand, and no request waits before
it (R120). -/
def State.Open (s : State) (p : Port) : Prop :=
  s.resetAsserted = false ∧ (s.exch.port p).state = .active ∧ (s.exch.port p).hand = .none

/-- The event unit after the one record of an event (R175, R176). -/
def State.record (s : State) (r : EventRecord) : EventUnit :=
  if r.kind.enabled s.eventEnable then s.events.offer r else s.events

/-- The event unit after the records of one event: those of enabled classes, offered in some order (R175, R176). -/
def State.Offers (s : State) (l : List EventRecord) (u : EventUnit) : Prop :=
  ∃ l' : List EventRecord, l'.Perm l ∧
    u = (l'.filter fun r => r.kind.enabled s.eventEnable).foldl EventUnit.offer s.events

/-! ### What a rule leaves of a context, written out -/

/-- A slot that settles (R12). -/
def Slot.afterSettling (sl : Slot) : Slot :=
  { sl with state := if sl.inFlight = 0 then .free else .releasing, holders := noPorts, pending := noPorts, carryRef := false }

/-- The context once the FILLING frame in slot k, with that record, is abandoned (R12, R38). That a base slot so abandoned is none any
more in a window of any CARRY is the model's choice, notes/assumptions/25.md. -/
def Context.afterAbandon (c : Context) (k : SlotId) (sl : Slot) : Context :=
  { c with
    slots := c.slots.set k (some sl.afterSettling), ready := c.ready.filter (· ≠ k),
    base := if c.base = some k then none else c.base,
    writer := { c.writer with state := .noSlot, fillTimer := .stopped, commitPending := false } }

/-- The context once the carry reference on slot k, with that record, is dropped (R12, R91). -/
def Context.afterDrop (c : Context) (k : SlotId) (sl : Slot) : Context :=
  if sl.state = .retired ∧ sl.holders = noPorts then
    { c with slots := c.slots.set k (some sl.afterSettling), ready := c.ready.filter (· ≠ k) }
  else { c with slots := c.slots.set k (some { sl with carryRef := false }) }

/-- The context once a job with that work is gone: a COPY source has lost its carry reference (R90, R91, R95). -/
def Context.afterJob (c : Context) : CarryWork → Context
  | .fill _ => c
  | .copy src => match c.slots.get src with
    | some base => c.afterDrop src base
    | none => c

/-- A slot opened at that moment, FILLING from now on with a frame of those flags (R23, R24). -/
def Slot.afterOpening (sl : Slot) (now : Word) (fl : FrameFlags) : Slot :=
  { sl with state := .filling, seq := none, tag := 0, flags := fl, time := now }

/-- A slot whose frame is committed with that sequence number and tag (R31). -/
def Slot.afterCommit (sl : Slot) (g : Geometry) (q : Word) (tag : Half) (auto : Bool) (now : Word) : Slot :=
  { sl with
    state := .ready, seq := some q, tag := tag, flags := { sl.flags with auto := auto }, time := now,
    pending := if g.delivery = .stream then g.readers else sl.pending }

/-- The context of a STREAM window once slot k is committed and its record is sl (R31, R33). -/
def Context.afterCommit (c : Context) (k : SlotId) (sl : Slot) : Context :=
  { c with
    slots := c.slots.set k (some sl), ready := c.ready ++ [k], base := some k,
    nextSeq := if c.nextSeq = 0xFFFFFFFF then 1 else c.nextSeq + 1,
    writer := { c.writer with state := .noSlot, dropped := 0, fillTimer := .stopped, commitPending := false } }

/-- A reader binding that acquires the frame of sequence q in slot k (R17, R43, R46). -/
def ReaderBinding.afterAcquire (b : ReaderBinding) (k : SlotId) (q : Word) (tHold : Half) : ReaderBinding :=
  { b with
    state := .holding k, lastSeq := q, bytesRead := 0, repeated := q = b.lastSeq, holdTimer := .arm tHold,
    gap := if b.lastSeq = 0 then q - 1 else if q = b.lastSeq then 0
      else if b.lastSeq.toNat ≤ q.toNat then BitVec.ofNat 32 (q.toNat - b.lastSeq.toNat - 1)
      else BitVec.ofNat 32 (q.toNat + 0xFFFFFFFF - b.lastSeq.toNat - 1) }

/-- The drain condition (R109). -/
def Context.DrainMet (c : Context) (d : Delivery) : Prop :=
  (∀ k sl, c.slots.get k = some sl → sl.state ≠ .filling ∧ sl.holders = noPorts) ∧ (d = .stream → c.ready = [])

/-- A payload access of that port bound for slot k, at SBASE + k×FLEN + x (R6, R132). -/
def translated (g : Geometry) (w : Window) (p : Port) (k : SlotId) (kind : Kind) (r : Request) : MemRequest :=
  { request :=
      { addr := BitVec.ofNat 32 (g.sbase.toNat + SlotId.number k * g.flen.toNat + (r.addr.toNat - (g.lbase.toNat + 32))),
        access := r.access },
    origin := .port p, kind := kind, window := some w, slot := some k }

/-- The frame available to reader p is that of slot k (R18). -/
def Context.Available (c : Context) (d : Delivery) (p : Port) (k : SlotId) : Prop :=
  match d with
  | .stream => ∃ pre post sl, c.ready = pre ++ k :: post ∧ c.slots.get k = some sl ∧ sl.pending.get p = true ∧
      ∀ j sl', j ∈ pre → c.slots.get j = some sl' → sl'.pending.get p = false
  | .latest => ∃ post, c.ready = k :: post

/-- No frame is available to reader p (R18). -/
def Context.NoneAvailable (c : Context) (d : Delivery) (p : Port) : Prop :=
  match d with
  | .stream => ∀ k sl, k ∈ c.ready → c.slots.get k = some sl → sl.pending.get p = false
  | .latest => c.ready = []

/-! ### The choice of a slot, written out (R21) -/

/-- The base slot of a COPY window is in that state. -/
def Context.BaseIs (c : Context) (carry : CarryMode) (st : SlotState) : Prop :=
  carry = .copy ∧ ∃ b base, c.base = some b ∧ c.slots.get b = some base ∧ base.state = st

/-- An open takes slot k, whose record is sl: the base slot in case 1 of R21, or the FREE slot with the lowest index in case 3. -/
def Context.SlotFor (c : Context) (carry : CarryMode) (k : SlotId) (sl : Slot) : Prop :=
  c.slots.get k = some sl ∧ sl.state = .free ∧
    (carry = .copy ∧ c.base = some k ∨
      ¬c.BaseIs carry .free ∧ ¬c.BaseIs carry .releasing ∧
        ∀ j sl', SlotId.number j < SlotId.number k → c.slots.get j = some sl' → sl'.state ≠ .free)

/-- An open waits for a RELEASING slot: case 2 or case 4 of R21. -/
def Context.SlotWait (c : Context) (carry : CarryMode) : Prop :=
  c.BaseIs carry .releasing ∨
    (∀ k sl, c.slots.get k = some sl → sl.state ≠ .free) ∧ ∃ k sl, c.slots.get k = some sl ∧ sl.state = .releasing

/-- No slot is FREE and none is RELEASING: case 5 of R21. -/
def Context.NoSlot (c : Context) : Prop := ∀ k sl, c.slots.get k = some sl → sl.state ≠ .free ∧ sl.state ≠ .releasing

/-! ### The staged set, written out -/

/-- The detail of CONFIG_APPLIED: a bit for each staged register that was pending (R188). -/
def Staged.bits (g : Staged) : Word :=
  (if g.policy.isSome then 1 else 0) + (if g.fillPattern.isSome then 2 else 0) + (if g.timersA.isSome then 4 else 0) +
    (if g.tStall.isSome then 8 else 0)

/-- The window unit once the staged set, if any, is in effect (R5, R118). -/
def WindowUnit.afterApplying (u : WindowUnit) : WindowUnit :=
  { u with
    eff := { policy := u.staged.policy.getD u.eff.policy, fillPattern := u.staged.fillPattern.getD u.eff.fillPattern,
             timersA := u.staged.timersA.getD u.eff.timersA, tStall := u.staged.tStall.getD u.eff.tStall },
    staged := { policy := none, fillPattern := none, timersA := none, tStall := none } }

/-- The CONFIG_APPLIED record of a staged set that was pending (R34, R118, R174). -/
def WindowUnit.applyRecords (u : WindowUnit) (now : Word) (w : Window) (cause : ApplyCause) (q : Word) : List EventRecord :=
  if u.staged = .none then []
  else [{ EventRecord.plain now (.configApplied cause) with window := some w, seq := q, detail := u.staged.bits }]

/-! ### An open and a commit, written out -/

/-- The flags of the frame opened in slot k, and the work of the job that the open creates, if it creates one (R24). -/
def WindowUnit.opensWith (u : WindowUnit) (base : Option SlotId) (k : SlotId) : FrameFlags × Option CarryWork :=
  match u.geom.carry, base with
  | .none, _ => ({ fault := false, carried := false, filled := false, auto := false }, none)
  | .copy, some b => ({ fault := false, carried := true, filled := false, auto := false }, if b = k then none else some (.copy b))
  | _, _ => ({ fault := false, carried := false, filled := true, auto := false }, some (.fill u.eff.fillPattern))

/-- The context of window u once slot k, whose record was sl, is open: a COPY source has its carry reference (R23, R24). -/
def Context.afterOpen (c : Context) (u : WindowUnit) (k : SlotId) (sl : Slot) (now : Word) : Context :=
  let opened := c.slots.set k (some (sl.afterOpening now (u.opensWith c.base k).1))
  { c with
    slots := match (u.opensWith c.base k).2 with
      | some (.copy b) => match c.slots.get b with
        | some base => opened.set b (some { base with carryRef := true })
        | none => opened
      | _ => opened,
    writer := { c.writer with
      state := .filling k, bytesWritten := 0, fillTimer := .arm u.eff.timersA.tFill, commitPending := false } }

/-- The engine once an open of slot k has created the job of that work, if any: an idle engine chooses a block at once (R24, R79,
R81). -/
def Engine.afterOpen (e : Engine) (w : Window) (k : SlotId) : Option CarryWork → Engine
  | none => e
  | some work => Engine.choose { e with jobs := e.jobs ++ [{ window := w, work := work, dest := k, pointer := 0, demands := [] }] }

/-- The held read of reader q, while its binding waits for a frame of window w (R49, R67). -/
def Exchange.waitingRead (x : Exchange) (w : Window) (c : Context) (q : Port) : Option Request :=
  match c.readers.get q, (x.port q).hand with
  | some b, .held h => if b.state = .waiting ∧ h.window = w ∧ h.reason = .frame then some h.req else none
  | _, _ => none

/-- A commit of slot k makes the frame of every waiting reader the committed one (R49): slot k is not in the ready queue, every
slot of the queue is there, and no frame of it is pending for a reader that waits. -/
def Exchange.CommitReady (x : Exchange) (w : Window) (c : Context) (k : SlotId) : Prop :=
  k ∉ c.ready ∧ (∀ j, j ∈ c.ready → c.slots.get j ≠ none) ∧
    ∀ q, x.waitingRead w c q ≠ none → (x.win w).geom.readers.get q = true ∧
      ∀ j sl, j ∈ c.ready → c.slots.get j = some sl → sl.pending.get q = false

/-- The exchange once slot k of the context c, with record sl, is committed, but for the answer and the drain test: the staged set
is in effect, and every waiting reader has acquired the frame, its held read presented (R31 to R34, R49, R118). What a LATEST
commit does to the other slots is `Context.commit`'s, stated by Obligations.CommitSupersedes. -/
def Exchange.afterCommit (x : Exchange) (now : Word) (w : Window) (m : LiveMode) (c : Context) (k : SlotId) (sl : Slot) (tag : Half)
    (auto : Bool) : Exchange :=
  let g := (x.win w).geom
  let u := (x.win w).afterApplying
  let c1 := c.commit g k tag auto now
  let served := Port.all.filter fun q => (x.waitingRead w c q).isSome
  { x with
    windows := x.windows.set w { u with
      counters := { u.counters with
        committed := u.counters.committed + 1, acquired := u.counters.acquired + BitVec.ofNat 32 served.length },
      life := .live m { c1 with
        slots := c1.slots.set k (some { sl.afterCommit g c.nextSeq tag auto now with
          holders := PerPort.ofFn fun q => (x.waitingRead w c q).isSome || sl.holders.get q,
          inFlight := sl.inFlight + served.length }),
        readers := PerPort.ofFn fun q => (c.readers.get q).map fun b =>
          if (x.waitingRead w c q).isSome then b.afterAcquire k c.nextSeq u.eff.timersA.tHold else b } },
    ports := PerPort.ofFn fun q => match x.waitingRead w c q with
      | none => x.port q
      | some r => { x.port q with hand := .presented r (translated g w q k .readerRead r) false },
    raised := x.raised ++ (x.win w).applyRecords now w .commit c.nextSeq ++
      [{ EventRecord.plain now .frameCommitted with
          window := some w, port := some g.writer, slot := some k, seq := c.nextSeq, detail := tag.zeroExtend 32 }] }

/-- The tag of a CONTROL write: the low 16 bits of its value (R28). -/
def Request.tag (r : Request) : Half :=
  match r.access with
  | .write (.word v) => v.truncate 16
  | _ => 0

/-- The exchange once the writer's request r has opened slot k of the ACTIVE window's context c, with record sl, and has gone on
as with a FILLING frame (R22 to R25, R28, R30, R87): a payload access is presented, or held for its blocks where the open created
a job; a CONTROL write commits the frame and is answered, or is held for the job. -/
def Exchange.afterServing (x : Exchange) (now : Word) (w : Window) (c : Context) (k : SlotId) (sl : Slot) (r : Request) : Exchange :=
  let u := x.win w
  let p := u.geom.writer
  let c1 := c.afterOpen u k sl now
  let opened := sl.afterOpening now (u.opensWith c.base k).1
  let work := (u.opensWith c.base k).2
  let held : HoldReason → WriterBinding → Engine → Exchange := fun reason b e =>
    { ((x.setHand p (.held { req := r, window := w, reason := reason, stall := .stopped })).modWin w fun u =>
        { u with life := .live .active { c1 with writer := { b with fillTimer := .stopped } } }) with carry := e }
  if u.geom.inHeader r.addr.toNat then
    if work = none then
      let y := x.afterCommit now w .active c1 k opened (Request.tag r) false
      { y.setHand p .none with answers := y.answers ++ [(p, .okay none)] }
    else held (.carryDone (Request.tag r) false) { c1.writer with commitPending := true } (x.carry.afterOpen w k work)
  else if work = none then
    (x.setHand p (.presented r
        (translated u.geom w p k (if Access.isWrite r.access then .writerWrite else .writerRead) r) false)).modWin w fun u =>
      { u with
        life := .live .active { c1 with slots := c1.slots.set k (some { opened with inFlight := opened.inFlight + 1 }) } }
  else held .carryBlock c1.writer
    ((touchedBlocks (r.addr.toNat - (u.geom.lbase.toNat + 32)) (Request.bytes r)).foldl (fun e b => e.demand w b)
      (x.carry.afterOpen w k work))

/-! ### The end of an event, and a slot that becomes FREE, written out -/

/-- The writer of the ACTIVE window waits for a slot with that request, and the window has no carry job (R22, R24). -/
def Exchange.WriterWaits (x : Exchange) (w : Window) (c : Context) (r : Request) : Prop :=
  c.writer.state = .waiting ∧ x.carry.job? w = none ∧
    ∃ t, (x.port (x.win w).geom.writer).hand = .held { req := r, window := w, reason := .slot, stall := t }

/-- From x to y the slot choice of a waiting writer is made again: its wait goes on, or its request opens a slot (R22). -/
def Exchange.Serves (x : Exchange) (now : Word) (w : Window) (y : Exchange) : Prop :=
  match (x.win w).life with
  | .disabled => y = x
  | .live m c =>
    (c.writer.state ≠ .waiting ∨ c.SlotWait (x.win w).geom.carry ∨ c.NoSlot) ∧ y = x ∨
      ∃ r k sl, m = .active ∧ x.WriterWaits w c r ∧ c.SlotFor (x.win w).geom.carry k sl ∧
        ((x.win w).geom.inHeader r.addr.toNat = true → x.CommitReady w c k) ∧ y = x.afterServing now w c k sl r

/-- The end of the event of a command that brings the exchange to z: the records raised are offered, and nothing else of the state
changes (R175, R176). -/
def State.EndsIn (s : State) (i : Instr) (z : Exchange) : Prop :=
  ∃ events choices, exec i s = .next { s.begin with exch := { z with raised := [] }, events := events, choices := choices } ∧
    s.Offers z.raised events

/-- The engine's one job j after the block at its pointer is done: the next block, or none left of that many blocks (R82, R85,
R90). -/
def Job.afterBlock (j : Job) (blocks : Nat) : Engine :=
  if j.pointer + 1 < blocks then
    { jobs := [{ j with pointer := j.pointer + 1 }], order := [],
      current := some { window := j.window, block := j.pointer + 1, phase := match j.work with
        | .copy _ => .read
        | .fill _ => .write },
      buffer := none }
  else { jobs := [], order := [], current := none, buffer := none }

/-- The window's job is cancelled: the engine without it, and its request, if one is outstanding, discarded (R95, R146). -/
def Exchange.afterCancel (x : Exchange) (w : Window) : Exchange :=
  { x with
    carry := x.carry.cancel w,
    outstanding := x.outstanding.map fun e =>
      if e.mem.origin = .carry ∧ e.mem.window = some w then { e with discarded := true } else e }

/-! ### Becoming DISABLED, written out -/

/-- The records of a window that becomes DISABLED (R110, R111, R114). -/
def WindowUnit.disableRecords (u : WindowUnit) (now : Word) (w : Window) (cause : StateCause) : List EventRecord :=
  u.applyRecords now w .entry 0 ++ [{ EventRecord.plain now (.windowState cause) with window := some w }]

/-- From x to y window w becomes DISABLED: its context is gone, its staged set is in effect, every access held for it is
answered ERROR, its job is cancelled; geometry, counters and everything else stay (R110, R111). That the answers stand in the order
of the ports is the model's choice, notes/assumptions/19.md. -/
def Exchange.BecomesDisabled (x y : Exchange) (w : Window) : Prop :=
  y.win w = { (x.win w).afterApplying with life := .disabled } ∧ (∀ v, v ≠ w → y.win v = x.win v) ∧
  (∀ p, y.port p = if (x.port p).heldFor w then { x.port p with hand := .none } else x.port p) ∧
  y.answers = x.answers ++ (Port.all.filter fun p => (x.port p).heldFor w).map (fun p => (p, Response.error)) ∧
  ((x.carry.job? w = none ∧ y.carry = x.carry ∧ y.outstanding = x.outstanding) ∨
    (x.carry.job? w ≠ none ∧ y.carry = (x.afterCancel w).carry ∧ y.outstanding = (x.afterCancel w).outstanding)) ∧
  y.raised = []

/-- From x to y the drain condition is tested: a DRAINING window that meets it becomes DISABLED (R109, R110). -/
def Exchange.DrainTested (x : Exchange) (now : Word) (w : Window) (y : Exchange) : Prop :=
  match (x.win w).life with
  | .live .draining c =>
    ¬c.DrainMet (x.win w).geom.delivery ∧ y = x ∨
      c.DrainMet (x.win w).geom.delivery ∧ ∃ z, x.BecomesDisabled z w ∧
        y = { z with raised := x.raised ++ (x.win w).disableRecords now w .drained }
  | _ => y = x

/-! ### Completions, written out -/

/-- From x to y the first step of a completion is taken: the count of the entry's slot falls by 1 while its window has its context;
a RELEASING slot whose count reaches 0 becomes FREE, and a waiting writer is served (R10, R12, R22, R112, R147). -/
def Exchange.Falls (x : Exchange) (now : Word) (e : Entry) (y : Exchange) : Prop :=
  (e.mem.window = none ∨ e.mem.slot = none ∨ ∃ w, e.mem.window = some w ∧ (x.win w).life = .disabled) ∧ y = x ∨
    ∃ w k m c sl, e.mem.window = some w ∧ e.mem.slot = some k ∧ (x.win w).life = .live m c ∧ c.slots.get k = some sl ∧
      (¬(sl.state = .releasing ∧ sl.inFlight ≤ 1) ∧
          y = x.modWin w (fun u => { u with
            life := .live m { c with slots := c.slots.set k (some { sl with inFlight := sl.inFlight - 1 }) } }) ∨
        sl.state = .releasing ∧ sl.inFlight ≤ 1 ∧
          (x.modWin w fun u => { u with
            life := .live m { c with slots := c.slots.set k (some { sl with state := .free, inFlight := 0 }) } }).Serves now w y)

/-- The MEMORY_ERROR record of an entry, read before its completion: the slot while the window has a context, the destination slot
of a running job, and the frame's sequence number for a reader read (R52, R92, R112, R148, R174). -/
def Exchange.failureRecord (x : Exchange) (now : Word) (e : Entry) (cause : ErrorCause) : EventRecord :=
  { EventRecord.plain now (.memoryError cause) with
    port := match e.mem.origin with
      | .port p => some p
      | .carry => none,
    window := e.mem.window,
    slot := match e.mem.window with
      | none => none
      | some w => match (x.win w).life with
        | .disabled => none
        | .live _ _ => match e.mem.origin, e.discarded, x.carry.job? w with
          | .carry, false, some j => some j.dest
          | _, _, _ => e.mem.slot,
    seq := match e.mem.kind, e.mem.window, e.mem.slot with
      | .readerRead, some w, some k => match (x.win w).life with
        | .disabled => 0
        | .live _ c => ((c.slots.get k).bind Slot.seq).getD 0
      | _, _, _ => 0,
    detail := e.mem.request.addr }

/-- The engine after block b of the window's job has ended and the job has become j: it chooses its next block, without the job
where that was the last of so many blocks (R82, R85, R90). What the choice is, and what j is, is stated by
Obligations.CarryEnginePresents. -/
def Engine.afterBlock (e : Engine) (pre post : List Job) (j : Job) (b blocks : Nat) : Engine :=
  Engine.choose
    (if blocks ≤ j.pointer then
      { jobs := pre ++ post, order := e.order.filter fun d => d.1 ≠ j.window, current := none, buffer := none }
    else { jobs := pre ++ j :: post, order := e.order.filter (· ≠ (j.window, b)), current := none, buffer := none })

/-- The block is done in the job (R80). -/
def Job.Done (j : Job) (b : Nat) : Prop := b < j.pointer ∨ ({ block := b, done := true } : Demand) ∈ j.demands

/-- From x to y block b of the window's job ends (R85): the block is done, an access held for blocks that are all done now is
presented, and, where the pointer has reached the end, the job leaves the queue, a COPY source loses its carry reference and a held
commit is taken; the engine chooses its next block (R85, R88, R90, R91). -/
def Exchange.BlockEnds (x : Exchange) (now : Word) (w : Window) (b : Nat) (y : Exchange) : Prop :=
  ∃ pre j post m c dest, x.carry.jobs = pre ++ j :: post ∧ j.window = w ∧ (∀ i, i ∈ pre ++ post → i.window ≠ w) ∧
    (x.win w).life = .live m c ∧ c.slots.get j.dest = some dest ∧
    (∀ src, j.work = .copy src → src ≠ j.dest ∧ c.slots.get src ≠ none) ∧
    let g := (x.win w).geom
    let blocks := g.flen.toNat / 32
    let last : Prop := blocks ≤ (j.blockDone b).pointer
    let touched : Request → List Nat := fun r => touchedBlocks (r.addr.toNat - (g.lbase.toNat + 32)) (Request.bytes r)
    let c1 : Context := if last then c.afterJob j.work else c
    let ended : Context → Exchange := fun c' =>
      { x.modWin w (fun u => { u with life := .live m c' }) with
        carry := x.carry.afterBlock pre post (j.blockDone b) b blocks }
    (∀ h, (x.port g.writer).hand = .held h → h.window = w →
        (h.reason = .carryBlock → ∃ n, n ∈ touched h.req ∧ ¬(j.blockDone b).Done n) ∧
        (last → ∀ tag auto, h.reason ≠ .carryDone tag auto)) ∧ y = ended c1 ∨
      (∃ r t, (x.port g.writer).hand = .held { req := r, window := w, reason := .carryBlock, stall := t } ∧
        (∀ n, n ∈ touched r → (j.blockDone b).Done n) ∧
        y = (ended { c1 with slots := c1.slots.set j.dest (some { dest with inFlight := dest.inFlight + 1 }) }).setHand g.writer
          (.presented r
            (translated g w g.writer j.dest (if Access.isWrite r.access then .writerWrite else .writerRead) r) true)) ∨
      ∃ r tag auto t, last ∧
        (x.port g.writer).hand = .held { req := r, window := w, reason := .carryDone tag auto, stall := t } ∧
        x.CommitReady w c1 j.dest ∧
        let v := (ended c1).afterCommit now w m c1 j.dest dest tag auto
        { v.setHand g.writer .none with answers := v.answers ++ [(g.writer, Response.okay none)] }.DrainTested now w y

/-- From x to y the entry, which has left the list, completes as ERROR for that cause (R39, R52, R92, R93, R147, R148): its slot's
count falls, MEMORY_ERROR is recorded, and its origin takes the ERROR. A front-end is answered; a write of the FILLING frame gives
it FAULT, and an access that had been held for carry re-arms the fill timer; a carry block ends, its destination frame with FAULT; a
discarded entry is answered to nobody. -/
def Exchange.Fails (x : Exchange) (now : Word) (e : Entry) (cause : ErrorCause) (y : Exchange) : Prop :=
  ∃ z, x.Falls now e z ∧
    let v : Exchange := { z with raised := z.raised ++ [x.failureRecord now e cause] }
    match e.mem.origin with
    | .carry =>
      e.discarded = true ∧ y = v ∨
        e.discarded = false ∧ ∃ w b ph j m c dest, x.carry.current = some { window := w, block := b, phase := ph } ∧
          e.mem.window = some w ∧ z.carry = x.carry ∧ x.carry.job? w = some j ∧ (z.win w).life = .live m c ∧
          c.slots.get j.dest = some dest ∧
          (v.modWin w fun u => { u with life := .live m { c with
            slots := c.slots.set j.dest (some { dest with flags := { dest.flags with fault := true } }) } }).BlockEnds now w b y
    | .port p =>
      let answered : Exchange → Exchange := fun v => { v.setHand p .none with answers := v.answers ++ [(p, .error)] }
      e.discarded = true ∧ y = v.modPort p (fun u =>
          { u with hand := .none, state := if u.state = .inReset ∧ u.prst = false then .active else u.state }) ∨
        e.discarded = false ∧ (
          ((e.mem.kind ≠ .writerRead ∧ e.mem.kind ≠ .writerWrite ∨
              ∀ w k m c, e.mem.window = some w → e.mem.slot = some k → (z.win w).life = .live m c → c.writer.state ≠ .filling k) ∧
            y = answered v) ∨
          ∃ w k m c sl r b, (e.mem.kind = .writerRead ∨ e.mem.kind = .writerWrite) ∧ e.mem.window = some w ∧ e.mem.slot = some k ∧
            (z.win w).life = .live m c ∧ c.writer.state = .filling k ∧ c.slots.get k = some sl ∧
            (x.port p).hand = .outstanding r b ∧ z.port p = x.port p ∧
            y = answered (v.modWin w fun u => { u with life := .live m { c with
              slots := c.slots.set k (some { sl with
                flags := { sl.flags with fault := if Access.isWrite r.access then true else sl.flags.fault } }),
              writer := { c.writer with fillTimer := if b then .arm u.eff.timersA.tFill else c.writer.fillTimer } } }))

/-- From x to y the n outstanding entries complete as ERROR with cause TIMEOUT, in issue order (R149). -/
def Exchange.AllFail (now : Word) : Nat → Exchange → Exchange → Prop
  | 0, x, y => y = x
  | n + 1, x, y => ∃ e rest z, x.outstanding = e :: rest ∧ ({ x with outstanding := rest } : Exchange).Fails now e .timeout z ∧
      Exchange.AllFail now n z y

/-! ### A port reset, written out -/

/-- From x to y the request in hand of port p is ended by its condition: a held access is dropped, a presented request withdrawn,
with the fall of its slot's count, an outstanding one marked discarded (R136). -/
def Exchange.HandEnds (x : Exchange) (now : Word) (p : Port) (y : Exchange) : Prop :=
  match (x.port p).hand with
  | .none => y = x
  | .held _ => y = x.setHand p .none
  | .presented _ m _ => (x.setHand p .none).Falls now { mem := m, discarded := false, timer := .stopped } y
  | .outstanding _ _ =>
    y = { x with outstanding := x.outstanding.map fun e => if e.mem.origin = .port p then { e with discarded := true } else e }

/-- The window is ACTIVE or DRAINING, and port p has a binding in it that is not at rest (R137). -/
def Exchange.RoleToEnd (x : Exchange) (p : Port) (w : Window) : Prop :=
  ∃ m c, (x.win w).life = .live m c ∧ m ≠ .observe ∧
    (p = (x.win w).geom.writer ∧ c.writer.state ≠ .noSlot ∨
      p ≠ (x.win w).geom.writer ∧ ∃ b, c.readers.get p = some b ∧ b.state ≠ .idle)

/-- From x to y the binding of port p in the ACTIVE or DRAINING window w is brought to rest. A FILLING frame is abandoned, its carry
job cancelled; a slot that is held is given back, and a writer that waits has its slot choice made again; both are followed by the
drain test. A wait ends (R22, R38, R53, R91, R95, R109, R137). -/
def Exchange.RoleEnds (x : Exchange) (now : Word) (p : Port) (w : Window) (y : Exchange) : Prop :=
  ∃ m c, (x.win w).life = .live m c ∧ m ≠ .observe ∧
    let bound : Context → Exchange := fun c' => x.modWin w fun u => { u with life := .live m c' }
    (p = (x.win w).geom.writer ∧ c.writer.state = .waiting ∧ y = bound { c with writer := { c.writer with state := .noSlot } } ∨
      (∃ k sl x' c1, p = (x.win w).geom.writer ∧ c.writer.state = .filling k ∧ c.slots.get k = some sl ∧
        (x.carry.job? w = none ∧ x' = x ∧ c1 = c ∨
          ∃ j, x.carry.job? w = some j ∧ (∀ src, j.work = .copy src → src ≠ k ∧ c.slots.get src ≠ none) ∧
            x' = x.afterCancel w ∧ c1 = c.afterJob j.work) ∧
        ({ x'.modWin w (fun u =>
            { u with
              counters := { u.counters with abandoned := u.counters.abandoned + 1 },
              life := .live m (c1.afterAbandon k sl) }) with
          raised := x.raised ++ [{ EventRecord.plain now (.frameAbandoned .portReset) with
            window := some w, port := some p, slot := some k, detail := c.writer.bytesWritten }] } : Exchange).DrainTested now w y) ∨
      ∃ b, p ≠ (x.win w).geom.writer ∧ (x.win w).geom.readers.get p = true ∧ c.readers.get p = some b ∧
        ((∃ k z, b.state = .holding k ∧ (bound (c.giveBack (x.win w).geom.delivery p .idle)).Serves now w z ∧ z.DrainTested now w y) ∨
          (b.state = .waiting ∨ b.state = .evicted) ∧
            y = bound { c with readers := c.readers.set p (some { b with state := .idle }) }))

/-- From x to y the bindings of port p in the windows of the list are brought to rest, one window after another. -/
def Exchange.RolesEnd (now : Word) (p : Port) : List Window → Exchange → Exchange → Prop
  | [], x, y => y = x
  | w :: ws, x, y => ∃ z, x.RoleEnds now p w z ∧ Exchange.RolesEnd now p ws z y

/-! ### The management port -/

/-- The four bytes of a word, the highest first. -/
def bytesOf (v : Word) : List Byte :=
  [(v >>> 24).truncate 8, (v >>> 16).truncate 8, (v >>> 8).truncate 8, v.truncate 8]

/-- A frame is in progress, and nothing of it has arrived (R154). -/
def State.awaits (s : State) (f : FrameState) : Prop :=
  s.mgmt.frame = .running f ∧ f.code = none ∧ f.args = [] ∧ f.taken = false ∧ f.todo = .nothing

/-- The frame in progress once its command is taken, with the response bytes given, none of which has gone out: after
BAD_ARGUMENT the status is driven to the end of the frame, after any other status the filler 0xFF (R154, R156). -/
def FrameState.reply (f : FrameState) (code : Byte) (args response : List Byte) (todo : Todo) : Frame :=
  .running { f with code := some code, args := args, taken := true, response := response, position := 0,
                    filler := if response.head? = some 0x02 then 0x02 else 0xFF, todo := todo }

/-! ### The layouts of the management port, written out -/

/-- GEOM (R187). -/
def Geometry.bits (g : Geometry) : Word :=
  g.slots.zeroExtend 32 |||
    (match g.writer with
      | .A => 0x00
      | .B => 0x10
      | .C => 0x20
      | .D => 0x30) |||
    ((if g.readers.a then 0x100 else 0) ||| (if g.readers.b then 0x200 else 0) ||| (if g.readers.c then 0x400 else 0) |||
      (if g.readers.d then 0x800 else 0)) |||
    (if g.delivery = .latest then 0x1000 else 0) |||
    (match g.carry with
      | .none => 0
      | .copy => 0x10000
      | .fill => 0x20000) |||
    (if g.implicitAcquire then 0x100000 else 0)

/-- The fields of a write to GEOM, SLOTS as written, CARRY 3 as 0 (R187). -/
def Geometry.ofBits (g : Geometry) (v : Word) : Geometry :=
  { g with
    slots := v.truncate 3,
    writer := if v.getLsbD 5 then (if v.getLsbD 4 then .D else .C) else (if v.getLsbD 4 then .B else .A),
    readers := ⟨v.getLsbD 8, v.getLsbD 9, v.getLsbD 10, v.getLsbD 11⟩,
    delivery := if v.getLsbD 12 then .latest else .stream,
    carry := if v.getLsbD 17 then (if v.getLsbD 16 then .none else .fill) else (if v.getLsbD 16 then .copy else .none),
    implicitAcquire := v.getLsbD 20 }

/-- POLICY (R187). -/
def Policy.bits (q : Policy) : Word :=
  (match q.overflow with
    | .hold => 0
    | .drop => 1
    | .refuse => 2) |||
  (if q.emptyRead = .fail then 0x10 else 0) ||| (if q.autoCommit then 0x100 else 0) ||| (if q.autoRelease then 0x200 else 0)

/-- The fields of a write to POLICY, OVERFLOW 3 as 0 (R187). -/
def Policy.ofBits (v : Word) : Policy :=
  { overflow := if v.getLsbD 1 then (if v.getLsbD 0 then .hold else .refuse) else (if v.getLsbD 0 then .drop else .hold),
    emptyRead := if v.getLsbD 4 then .fail else .wait, autoCommit := v.getLsbD 8, autoRelease := v.getLsbD 9 }

/-- WSTATE (R187). -/
def WindowUnit.bits (u : WindowUnit) : Word :=
  (match u.life with
    | .disabled => 0
    | .live .observe _ => 1
    | .live .active _ => 2
    | .live .draining _ => 3) |||
  (if u.staged = { policy := none, fillPattern := none, timersA := none, tStall := none } then 0 else 0x100)

/-- What register `offset` of a window shows, a staged one its staged values while they are held (R117, R182, R186). -/
def WindowUnit.shows (u : WindowUnit) (offset : Nat) : Word :=
  match offset with
  | 0 => u.geom.lbase
  | 1 => u.geom.flen
  | 2 => u.geom.sbase
  | 3 => u.geom.bits
  | 4 => (u.staged.policy.getD u.eff.policy).bits
  | 5 => u.staged.fillPattern.getD u.eff.fillPattern
  | 6 =>
    (u.staged.timersA.getD u.eff.timersA).tFill.zeroExtend 32 |||
      (u.staged.timersA.getD u.eff.timersA).tHold.zeroExtend 32 <<< 16
  | 7 => (u.staged.tStall.getD u.eff.tStall).zeroExtend 32
  | 8 => u.bits
  | 9 => u.counters.committed
  | 10 => u.counters.acquired
  | 11 => u.counters.dropped
  | 12 => u.counters.abandoned
  | 13 => u.counters.waited
  | 14 => u.counters.expired
  | _ => 0

/-- What register address `a` shows (R186). -/
def State.shows (s : State) (a : Nat) : Word :=
  match a with
  | 0 => s.time.tbDiv.zeroExtend 32
  | 1 => s.memTimeout.zeroExtend 32
  | 2 => s.eventEnable.zeroExtend 32
  | 3 => s.time.ticks
  | 4 =>
    (match s.memPort.state with
      | .ready => 0
      | .fault => 1
      | .recovering => 2) ||| BitVec.ofNat 32 s.exch.outstanding.length <<< 8
  | 5 =>
    (if (s.exch.port .A).state = .inReset then 1 else 0) ||| (if (s.exch.port .B).state = .inReset then 2 else 0) |||
      (if (s.exch.port .C).state = .inReset then 4 else 0) ||| (if (s.exch.port .D).state = .inReset then 8 else 0)
  | 6 => BitVec.ofNat 32 s.events.queue.length
  | 7 => s.events.lost.zeroExtend 32
  | _ =>
    if a < 0x80 then 0
    else match (a - 0x80) / 16 with
      | 0 => (s.exch.win .W0).shows ((a - 0x80) % 16)
      | 1 => (s.exch.win .W1).shows ((a - 0x80) % 16)
      | 2 => (s.exch.win .W2).shows ((a - 0x80) % 16)
      | 3 => (s.exch.win .W3).shows ((a - 0x80) % 16)
      | 4 => (s.exch.win .W4).shows ((a - 0x80) % 16)
      | 5 => (s.exch.win .W5).shows ((a - 0x80) % 16)
      | 6 => (s.exch.win .W6).shows ((a - 0x80) % 16)
      | 7 => (s.exch.win .W7).shows ((a - 0x80) % 16)
      | _ => 0

/-- The code and the cause of an event (R173, R174, R188). -/
def EventKind.encoding : EventKind → Byte × Byte
  | .frameCommitted => (0x01, 0)
  | .frameDropped => (0x02, 0)
  | .writerRefused c => (0x03, match c with
      | .full => 1
      | .draining => 2)
  | .frameAbandoned c => (0x04, match c with
      | .writer => 1
      | .timeout => 2
      | .portReset => 3)
  | .holdExpired => (0x05, 0)
  | .stallExpired c => (0x06, match c with
      | .slot => 1
      | .frame => 2)
  | .accessRefused c => (0x07, match c with
      | .align => 1
      | .straddle => 2
      | .guard => 3
      | .role => 4
      | .header => 5
      | .noframe => 6
      | .evicted => 7)
  | .memoryError c => (0x08, match c with
      | .response => 1
      | .timeout => 2
      | .faulted => 3)
  | .memoryTimeout => (0x09, 0)
  | .portReset => (0x0A, 0)
  | .windowState c => (0x0B, match c with
      | .enable => 1
      | .drain => 2
      | .drained => 3
      | .disable => 4
      | .restart => 5)
  | .configApplied c => (0x0C, match c with
      | .commit => 1
      | .entry => 2)
  | .restart => (0x0D, 0)
  | .eventsLost => (0x0E, 0)

/-- The sixteen bytes in which a record goes out (R188). -/
def EventRecord.layout (r : EventRecord) : List Byte :=
  [r.kind.encoding.1, (if r.observed then 0x80 else 0) ||| r.kind.encoding.2,
   match r.window with
    | none => 0
    | some w => 0x80 ||| BitVec.ofNat 8 (Window.number w),
   (match r.port with
    | none => 0
    | some .A => 0x80
    | some .B => 0x90
    | some .C => 0xA0
    | some .D => 0xB0) |||
   (match r.slot with
    | none => 0
    | some k => 0x08 ||| BitVec.ofNat 8 (SlotId.number k))] ++ bytesOf r.seq ++ bytesOf r.time ++ bytesOf r.detail

/-- A flag at a bit of a byte, the bit given by its weight. -/
def weight (b : Bool) (n : Byte) : Byte := if b then n else 0

/-- A slot record of a snapshot (R189). -/
def Slot.layout (sl : Slot) : List Byte :=
  [match sl.state with
    | .free => 0
    | .filling => 1
    | .ready => 2
    | .retired => 3
    | .releasing => 4,
   weight sl.flags.fault 0x01 ||| weight sl.flags.carried 0x02 ||| weight sl.flags.filled 0x04 ||| weight sl.flags.auto 0x08 |||
     weight sl.carryRef 0x80,
   (weight sl.holders.a 0x01 ||| weight sl.holders.b 0x02 ||| weight sl.holders.c 0x04 ||| weight sl.holders.d 0x08) |||
     (weight sl.pending.a 0x10 ||| weight sl.pending.b 0x20 ||| weight sl.pending.c 0x40 ||| weight sl.pending.d 0x80),
   BitVec.ofNat 8 sl.inFlight, (sl.tag >>> 8).truncate 8, sl.tag.truncate 8] ++ bytesOf (sl.seq.getD 0) ++ bytesOf sl.time

/-- A reader binding of a snapshot (R189). -/
def ReaderBinding.layout (b : ReaderBinding) (p : Port) : List Byte :=
  [match p with
    | .A => 0x80
    | .B => 0x81
    | .C => 0x82
    | .D => 0x83,
   (match b.state with
    | .idle => 0
    | .holding k => 0x01 ||| BitVec.ofNat 8 (SlotId.number k) <<< 4
    | .waiting => 2
    | .evicted => 3) ||| weight b.repeated 0x40 ||| weight (b.holdTimer ≠ .stopped) 0x80] ++
  bytesOf b.lastSeq ++ bytesOf b.gap ++ bytesOf b.bytesRead

/-- The carry bytes 13 to 19 of a snapshot (R189). -/
def Job.layout (j : Job) : List Byte :=
  [match j.work with
    | .copy _ => 0x80
    | .fill _ => 0xC0,
   BitVec.ofNat 8 (j.demands.countP fun d => !d.done) ||| BitVec.ofNat 8 (j.demands.countP fun d => d.done) <<< 4, 0] ++
  bytesOf (BitVec.ofNat 32 j.pointer)

/-- The 128 bytes of a snapshot of window w, latched at the tick `now` (R189). -/
def Exchange.Shows (x : Exchange) (now : Word) (w : Window) (b : List Byte) : Prop :=
  b.length = 128 ∧ b.getD 0 0 = BitVec.ofNat 8 (Window.number w) ∧ (b.drop 4).take 4 = bytesOf now ∧
  b.getD 1 0 = (x.win w).bits.truncate 8 ||| weight ((x.win w).staged ≠ .none) 0x80 ∧
  ((x.win w).life = .disabled → (∀ i, i = 2 ∨ i = 3 ∨ 8 ≤ i → b.getD i 0 = 0)) ∧
  ∀ m c, (x.win w).life = .live m c →
    b.getD 2 0 = BitVec.ofNat 8 c.ready.length ||| (match c.base with
      | none => 0
      | some k => 0x80 ||| BitVec.ofNat 8 (SlotId.number k) <<< 4) ∧
    (∀ i, i < 4 → (b.getD 3 0 >>> (2 * i)) &&& 3 = match c.ready[i]? with
      | none => 0
      | some k => BitVec.ofNat 8 (SlotId.number k)) ∧
    (b.drop 8).take 4 = bytesOf c.nextSeq ∧
    b.getD 12 0 = (match c.writer.state with
      | .noSlot => 0
      | .filling k => 0x01 ||| BitVec.ofNat 8 (SlotId.number k) <<< 4
      | .waiting => 2) ||| weight c.writer.commitPending 0x04 ||| weight (c.writer.fillTimer ≠ .stopped) 0x08 ∧
    (b.drop 13).take 7 = (match x.carry.job? w with
      | none => [0, 0, 0, 0, 0, 0, 0]
      | some j => j.layout) ∧
    (b.drop 20).take 4 = bytesOf c.writer.bytesWritten ∧ (b.drop 24).take 4 = bytesOf c.writer.dropped ∧
    (∀ k, (b.drop (28 + 14 * SlotId.number k)).take 14 = match c.slots.get k with
      | none => List.replicate 14 0
      | some sl => sl.layout) ∧
    (∀ i, i < 3 → (b.drop (84 + 14 * i)).take 14 =
      match (Port.all.filterMap fun p => (c.readers.get p).map fun r => r.layout p)[i]? with
      | none => List.replicate 14 0
      | some bytes => bytes) ∧
    b.drop 126 = [0, 0]

/-- The request that a command of the requester ports brings, with its port; the row does not matter further
(notes/assumptions/8.md). -/
def requestOf : Instr → Option (Port × Request)
  | .passThrough p r => some (p, r)
  | .writerPayloadAccess p r => some (p, r)
  | .classifierRefusal p r => some (p, r)
  | .writerHeaderRead p a => some (p, wordRead a)
  | .explicitAcquire p a => some (p, wordRead a)
  | .explicitRelease p a => some (p, wordRead a)
  | .explicitCommit p a v => some (p, wordWrite a v)
  | .explicitAbandon p a v => some (p, wordWrite a v)
  | .readerPayloadRead p a z => some (p, { addr := a, access := .read z })
  | .pinReset => none
  | .pinResetRelease => none
  | .tick => none
  | .portReset _ => none
  | .portResetRelease _ => none
  | .arbiterGrant => none
  | .memoryResponse _ => none
  | .responseTimerExpiry _ => none
  | .recoveryPulseExpiry => none
  | .fillTimerExpiry _ => none
  | .holdTimerExpiry _ _ => none
  | .stallTimerExpiry _ => none
  | .spiFrameEnd => none
  | .readRegisters _ => none
  | .writeRegisters _ => none
  | .registerWrite _ _ => none
  | .lockedRegisterWrite _ _ _ => none
  | .stagedRegisterWrite _ _ _ => none
  | .tbDivWrite _ => none
  | .memTimeoutWrite _ => none
  | .eventEnableWrite _ => none
  | .enable _ _ => none
  | .drain _ => none
  | .disable _ => none
  | .snapshot _ => none
  | .readSnapshot => none
  | .discardSnapshot => none
  | .readEvents _ => none
  | .clearCounters _ => none
  | .restart => none
  | .recoverMemoryPort => none
  | .readTime => none
  | .unknownCommand _ => none
  | .snapshotConsumed => none
  | .eventRecordRemoval => none
  | .spiFrameStart _ => none

/-- The command is a request on a port that takes it now: well formed, in a quiet state, nothing in hand (R119, R120). -/
def State.Takes (s : State) (i : Instr) (p : Port) (r : Request) : Prop :=
  requestOf i = some (p, r) ∧ r.wellFormed = true ∧ s.Quiet ∧ s.Open p

/-! ### Invariants -/

/-- The queue holds at most 32 records, and LOST_COUNT is not 0 only while it is full (R176, R177). -/
def EventUnit.Sound (u : EventUnit) : Prop := u.queue.length ≤ 32 ∧ (u.lost ≠ 0 → u.queue.length = 32)

/-- How many outstanding requests are the carry engine's. -/
def Exchange.carryEntries (x : Exchange) : Nat := (x.outstanding.filter fun e => e.mem.origin = .carry).length

/-- At most four requests are outstanding, at most one of them the carry engine's, none outside READY, and the rotation holds
each client once (R142, R144, R146). -/
def State.MemorySound (s : State) : Prop :=
  s.exch.outstanding.length ≤ 4 ∧ s.exch.carryEntries ≤ 1 ∧ (s.memPort.state ≠ .ready → s.exch.outstanding = []) ∧
    s.memPort.rotation.Perm Client.all

/-- Every window that is not DISABLED has a descriptor that passes checks 0x01 to 0x07, and no two of them overlap (R102). -/
def Exchange.RangesSound (x : Exchange) : Prop :=
  (∀ w, (x.win w).life ≠ .disabled → (x.win w).geom.reason = none) ∧
    ∀ v w, v ≠ w → (x.win v).life ≠ .disabled → (x.win w).life ≠ .disabled →
      (x.win v).geom.overlaps (x.win w).geom = false

/-- The context of a window has a record for exactly the slots below SLOTS, a binding for exactly the ports in READERS, and a
next sequence number that is not 0 (R8, R17). -/
def WindowUnit.ContextSound (u : WindowUnit) : Prop :=
  ∀ c, u.ctx? = some c →
    (∀ k, (c.slot? k).isSome = decide (SlotId.number k < u.geom.slotCount)) ∧
    (∀ p, (c.reader? p).isSome = u.geom.readers.get p) ∧ c.nextSeq ≠ 0

/-- A DISABLED window holds no staged value (R117). -/
def WindowUnit.StagedSound (u : WindowUnit) : Prop := u.life = .disabled → u.staged = .none

/-- A port whose PRST is asserted is IN_RESET (R134, R140). -/
def State.PrstSound (s : State) : Prop :=
  s.resetAsserted = false → ∀ p, (s.exch.port p).prst = true → (s.exch.port p).state = .inReset

/-- While RESET_N is asserted the part is in its pin-reset state: nothing in hand, nothing outstanding, every window DISABLED
with a zero descriptor, the counter at 0, no frame taken (R1, R115, R140, R153, R154, R171, R181). -/
def State.HeldInReset (s : State) : Prop :=
  s.resetAsserted = true →
    s.time = { tbDiv := 24, tickDiv := 24, ticks := 0, refclk := 0 } ∧ s.memTimeout = 1000 ∧ s.eventEnable = 0xFE ∧
    (∀ w, s.exch.win w = .reset) ∧ (∀ p, (s.exch.port p).hand = .none) ∧ s.exch.carry = .idle ∧ s.exch.outstanding = [] ∧
    s.exch.raised = [] ∧ s.exch.answers = [] ∧ s.memPort = .reset ∧ s.events = { queue := [], lost := 0 } ∧
    (∀ f, s.mgmt.frame ≠ .running f) ∧ s.mgmt.snapshot = none ∧ s.issued = []

end Sys2Proof.Machine
end

