-- ==== Sys2Proof/Certificates/Slice0/Obligations.lean ====
section
/-!
DEFINITION. The statements for the provers.
-/

open Sys2Proof Sys2Proof.Machine

/-! ### The block and its queue -/

/-- The block takes the command at the front of its queue, and idles on an empty queue (the model's choice,
notes/assumptions/1.md). -/
def Obligations.StepTakesTheFrontCommand : Prop :=
  ∀ s : State, (s.pending = [] → step s = .next s) ∧
    ∀ (i : Instr) (rest : List Instr), s.pending = i :: rest → step s = exec i { s with pending := rest }

/-- Every command of the part has a next state, and leaves the queue alone; what is no command of the part is refused by
name (the model's choice, notes/assumptions/14.md). -/
def Obligations.CommandsComplete : Prop :=
  ∀ (i : Instr) (s : State),
    (i.wellFormed = true → ∃ t, exec i s = .next t ∧ t.pending = s.pending) ∧
    (i.wellFormed = false → exec i s = .refused .illFormed)

/-! ### Reset -/

/-- The part right after reset with PRST deasserted: the value every register address shows (R186), and the invariants below. -/
def Obligations.ResetState : Prop :=
  (∀ a : Fin 256, State.reset.readRegister (registerAt a.val) =
    if a.val = 0 then 0x18 else if a.val = 1 then 0x3E8 else if a.val = 2 then 0xFE else 0) ∧
  State.reset.events.Sound ∧ State.reset.MemorySound ∧ State.reset.Settled ∧ State.reset.exch.RangesSound ∧
  (∀ w, (State.reset.exch.win w).ContextSound ∧ (State.reset.exch.win w).StagedSound) ∧ State.reset.PrstSound ∧
  State.reset.HeldInReset

/-! ### Invariants that every step keeps -/

/-- The event queue never holds more than 32 records, and LOST_COUNT is not 0 only while it is full (R176, R177). -/
def Obligations.EventUnitStaysSound : Prop :=
  ∀ s t : State, s.events.Sound → step s = .next t → t.events.Sound

/-- Never more than four requests outstanding, never more than one of the carry engine, none in FAULT or RECOVERING, and the
rotation holds each client once (R142, R144, R146). -/
def Obligations.MemoryPortStaysSound : Prop :=
  ∀ s t : State, s.MemorySound → step s = .next t → t.MemorySound

/-- After every command no event is in progress, and no port that takes requests has one waiting on its link (R120, R134). That a
request is taken before the next command where a port becomes free by an answer is the model's choice, notes/assumptions/7.md. -/
def Obligations.EveryCommandLeavesSettled : Prop :=
  ∀ (i : Instr) (s t : State), exec i s = .next t → t.Settled

/-- Windows that are not DISABLED keep valid descriptors and disjoint ranges, contexts keep their shape and a next sequence
number that is not 0, and DISABLED windows hold no staged value (R8, R17, R102, R117). -/
def Obligations.WindowsStaySound : Prop :=
  ∀ s t : State,
    (s.exch.RangesSound ∧ ∀ w, (s.exch.win w).ContextSound ∧ (s.exch.win w).StagedSound) → step s = .next t →
      t.exch.RangesSound ∧ ∀ w, (t.exch.win w).ContextSound ∧ (t.exch.win w).StagedSound

/-- With RESET_N deasserted, a port whose PRST is asserted is IN_RESET after every step (R134, R140). -/
def Obligations.PrstHoldsThePort : Prop :=
  ∀ s t : State, s.PrstSound → step s = .next t → t.PrstSound

/-- While RESET_N is asserted every step leaves the part in its pin-reset state (R1, R115, R140, R153, R154, R171, R181). -/
def Obligations.PinResetHoldsThePart : Prop :=
  ∀ s t : State, s.HeldInReset → step s = .next t → t.HeldInReset

/-- The class enables and the event queue govern records alone: whatever they are, the exchange, the answers, the requests
issued, the memory port, the time and the settings come out the same (R175). -/
def Obligations.EnablesGovernRecordsAlone : Prop :=
  ∀ (i : Instr) (s t : State) (enables : Byte) (unit : EventUnit), exec i s = .next t →
    ∃ t', exec i { s with eventEnable := enables, events := unit } = .next t' ∧ t'.exch = t.exch ∧ t'.issued = t.issued ∧
      t'.memPort = t.memPort ∧ t'.time = t.time ∧ t'.memTimeout = t.memTimeout ∧ t'.mgmt.snapshot = t.mgmt.snapshot

/-! ### Time -/

/-- The tick counter, the tick in progress and the count of REFCLK periods move at tick boundaries and at pin reset alone
(R1). -/
def Obligations.TimeMovesOnlyAtTicks : Prop :=
  ∀ (i : Instr) (s t : State), exec i s = .next t → i ≠ .tick → i ≠ .pinReset →
    t.time.ticks = s.time.ticks ∧ t.time.tickDiv = s.time.tickDiv ∧ t.time.refclk = s.time.refclk

/-- A timer armed with a limit of 0 never expires; one armed with N of 1 or more is due from the N-th tick boundary on (R3). That
a due timer stays due until its expiry is taken is the model's choice, notes/assumptions/3.md. -/
def Obligations.TimerExpiresAtItsLimit : Prop :=
  ∀ limit : Half,
    (limit = 0 → ∀ n, (Timer.tick^[n] (.arm limit)).due = false) ∧
    (limit ≠ 0 → ∀ n, (Timer.tick^[n] (.arm limit)).due = true ↔ limit.toNat ≤ n)

/-- A tick boundary: the counter advances by 1 with wrap, the next tick takes TB_DIV as it stands, every timer counts one
boundary, and nothing else changes (R1, R3). -/
def Obligations.TickResult : Prop :=
  ∀ s : State, s.resetAsserted = false → s.Settled →
    ∃ t, exec .tick s = .next t ∧
      t.time = { tbDiv := s.time.tbDiv, tickDiv := s.time.tbDiv, ticks := s.time.ticks + 1,
                 refclk := s.time.refclk + (s.time.tickDiv.toNat + 1) } ∧
      (∀ p, (t.exch.port p).prst = (s.exch.port p).prst ∧ (t.exch.port p).state = (s.exch.port p).state ∧
        (t.exch.port p).link = (s.exch.port p).link ∧ (t.exch.port p).hand = match (s.exch.port p).hand with
          | .held h => .held { h with stall := h.stall.tick }
          | h => h) ∧
      (∀ w, (t.exch.win w).geom = (s.exch.win w).geom ∧ (t.exch.win w).eff = (s.exch.win w).eff ∧
        (t.exch.win w).staged = (s.exch.win w).staged ∧ (t.exch.win w).counters = (s.exch.win w).counters ∧
        (t.exch.win w).mode? = (s.exch.win w).mode? ∧ t.exch.ctx? w = (s.exch.ctx? w).map fun c =>
          { c with writer := { c.writer with fillTimer := c.writer.fillTimer.tick },
                   readers := PerPort.ofFn fun p => (c.reader? p).map fun b => { b with holdTimer := b.holdTimer.tick } }) ∧
      t.exch.carry = s.exch.carry ∧ t.exch.answers = [] ∧ t.issued = [] ∧
      t.exch.outstanding = s.exch.outstanding.map (fun e => { e with timer := e.timer.tick }) ∧
      t.memPort = { s.memPort with pulse := s.memPort.pulse.tick } ∧
      t.events = s.events ∧ t.mgmt = s.mgmt ∧ t.memTimeout = s.memTimeout ∧ t.eventEnable = s.eventEnable ∧
      t.resetAsserted = false ∧ t.pending = s.pending

/-! ### Pin reset and port reset -/

/-- PIN_RESET puts the part into its pin-reset state from any state; PRST and the links are the outside's, CS_N as well, and
the queue of commands stays (R1, R5, R98, R115, R140, R153, R171, R181). -/
def Obligations.PinResetResult : Prop :=
  ∀ s : State, ∃ t, exec .pinReset s = .next t ∧ t.resetAsserted = true ∧ t.HeldInReset ∧
    (∀ p, (t.exch.port p).prst = (s.exch.port p).prst ∧ (t.exch.port p).link = (s.exch.port p).link) ∧
    (t.mgmt.frame = .closed ↔ s.mgmt.frame = .closed) ∧ t.pending = s.pending

/-- PRST of an ACTIVE port: the port is IN_RESET. Its request in hand is dropped if held, withdrawn if presented, with the fall of
its slot's in-flight count, and marked discarded if outstanding. In each ACTIVE or DRAINING window its writer binding returns to
NO_SLOT, a FILLING frame abandoned with its own record and its carry job cancelled, and its reader binding to IDLE, a held slot
given back (GiveBackEffect). A slot that becomes FREE serves a writer that waits. One PORT_RESET is recorded, its detail 1 if a
request was in hand. Nobody is answered but a waiting writer that is so served and the accesses held for a window whose drain ends,
and nothing else changes. PRST of a port IN_RESET, or while RESET_N is asserted, has no effect but its level. The clauses on an
ACTIVE port: the first is stated for bindings at rest and a request of no window, where nothing but the port changes; the second
for a part without a DRAINING window, without another writer that waits, and without a carry job of a frame that is abandoned; the
third for a port with nothing in hand whose one binding not at rest is in a DRAINING window, whose drain the reset may end. The
last is every reset: whatever is in hand, then one window after another with a binding not at rest, as `HandEnds` and `RoleEnds`
say, with a carry job, a waiting writer or the end of a drain. Its windows are treated in some order (the model's choice,
notes/assumptions/6.md). That a base slot so abandoned is none any more in a window of any CARRY is the model's choice,
notes/assumptions/25.md. Where a drain ends with several accesses held, the order of their answers is the model's choice,
notes/assumptions/19.md (R22, R38, R53, R91, R95, R98, R109, R110, R134 to R137). -/
def Obligations.PortResetResult : Prop :=
  (∀ (s : State) (p : Port), s.Quiet → (s.resetAsserted = true ∨ (s.exch.port p).state ≠ .active) →
    exec (.portReset p) s = .next { s.begin with exch := s.begin.exch.modPort p fun u => { u with prst := true } }) ∧
  ∀ (s : State) (p : Port), s.resetAsserted = false → s.Quiet → (s.exch.port p).state = .active →
    (s.exch.resetWindows p = [] →
      ((s.exch.port p).hand = .none ∨ (∃ r b, (s.exch.port p).hand = .outstanding r b) ∨
        ∃ r m b, (s.exch.port p).hand = .presented r m b ∧ m.window = none) →
      exec (.portReset p) s = .next { s.begin with
        exch := { s.begin.exch.modPort p fun u =>
            { u with prst := true, state := .inReset, hand := match u.hand with
              | .outstanding r b => .outstanding r b
              | _ => .none } with
          outstanding := match (s.exch.port p).hand with
            | .outstanding _ _ =>
              s.exch.outstanding.map fun e => if e.mem.origin = .port p then { e with discarded := true } else e
            | _ => s.exch.outstanding },
        events := s.record { EventRecord.plain s.time.ticks .portReset with
          port := some p, detail := if (s.exch.port p).hand = .none then 0 else 1 } }) ∧
    ((∀ w, (s.exch.win w).mode? ≠ some .draining) →
      (∀ w c, s.exch.ctx? w = some c → c.writer.state = .waiting → (s.exch.win w).geom.writer = p) →
      (∀ w c k, (s.exch.win w).life = .live .active c → (s.exch.win w).geom.writer = p → c.writer.state = .filling k →
        s.exch.carry.job? w = none ∧ ∃ sl, c.slots.get k = some sl) →
      let fallen : Window → Context → Context := fun w c =>
        match (s.exch.port p).hand with
        | .presented _ m _ =>
          match m.slot with
          | some k =>
            if m.window = some w then c.modSlot k fun sl =>
              { sl with inFlight := sl.inFlight - 1,
                        state := if sl.state = .releasing ∧ sl.inFlight - 1 = 0 then .free else sl.state }
            else c
          | none => c
        | _ => c
      let abandoned : Window → Option (SlotId × Context) := fun w =>
        match (s.exch.win w).life with
        | .live .active c =>
          if (s.exch.win w).geom.writer = p then match c.writer.state with
            | .filling k => some (k, c)
            | _ => none
          else none
        | _ => none
      ∃ t, exec (.portReset p) s = .next t ∧
        t.exch.port p = { s.exch.port p with prst := true, state := .inReset, hand := match (s.exch.port p).hand with
          | .outstanding r b => .outstanding r b
          | _ => .none } ∧
        (∀ q, q ≠ p → t.exch.port q = s.exch.port q) ∧
        (∀ w, t.exch.win w = match (s.exch.win w).life with
          | .disabled => s.exch.win w
          | .live .active c =>
            if (s.exch.win w).geom.writer = p then match c.writer.state with
              | .noSlot => { s.exch.win w with life := .live .active (fallen w c) }
              | .waiting => { s.exch.win w with
                  life := .live .active { fallen w c with writer := { c.writer with state := .noSlot } } }
              | .filling k => { s.exch.win w with
                  counters := { (s.exch.win w).counters with abandoned := (s.exch.win w).counters.abandoned + 1 },
                  life := .live .active (match (fallen w c).slots.get k with
                    | some sl => (fallen w c).afterAbandon k sl
                    | none => c) }
            else if (s.exch.win w).geom.readers.get p then match c.readers.get p with
              | none => { s.exch.win w with life := .live .active (fallen w c) }
              | some b => { s.exch.win w with
                  life := .live .active (match b.state with
                    | .holding _ => (fallen w c).giveBack (s.exch.win w).geom.delivery p .idle
                    | _ => { fallen w c with readers := c.readers.set p (some { b with state := .idle }) }) }
            else { s.exch.win w with life := .live .active (fallen w c) }
          | .live m c => { s.exch.win w with life := .live m (fallen w c) }) ∧
        t.exch.outstanding = (match (s.exch.port p).hand with
          | .outstanding _ _ =>
            s.exch.outstanding.map fun e => if e.mem.origin = .port p then { e with discarded := true } else e
          | _ => s.exch.outstanding) ∧
        s.Offers
          ({ EventRecord.plain s.time.ticks .portReset with
              port := some p, detail := if (s.exch.port p).hand = .none then 0 else 1 } ::
            Window.all.filterMap fun w => (abandoned w).map fun kc =>
              { EventRecord.plain s.time.ticks (.frameAbandoned .portReset) with
                window := some w, port := some p, slot := some kc.1, detail := kc.2.writer.bytesWritten })
          t.events ∧
        t.exch.answers = [] ∧ t.exch.carry = s.exch.carry ∧ t.memPort = s.memPort ∧ t.time = s.time ∧ t.mgmt = s.mgmt ∧
        t.issued = [] ∧ t.memTimeout = s.memTimeout ∧ t.eventEnable = s.eventEnable ∧ t.pending = s.pending) ∧
    (∀ (w : Window) (c : Context), s.exch.resetWindows p = [w] → (s.exch.win w).life = .live .draining c →
      (s.exch.port p).hand = .none →
      let g := (s.exch.win w).geom
      let atReset : Exchange := s.begin.exch.modPort p fun u => { u with prst := true, state := .inReset }
      let record : EventRecord := { EventRecord.plain s.time.ticks .portReset with port := some p }
      let leaves : Exchange → Context → List EventRecord → Prop := fun x c1 l =>
        (¬c1.DrainMet g.delivery → ∃ events choices,
          exec (.portReset p) s = .next { s.begin with
            exch := x.modWin w fun u => { u with life := .live .draining c1 }, events := events, choices := choices } ∧
          s.Offers l events) ∧
        (c1.DrainMet g.delivery → ∃ y events choices,
          exec (.portReset p) s = .next { s.begin with exch := y, events := events, choices := choices } ∧
          x.BecomesDisabled y w ∧ s.Offers (l ++ (s.exch.win w).disableRecords s.time.ticks w .drained) events)
      (∀ k sl, g.writer = p → c.writer.state = .filling k → c.slots.get k = some sl → s.exch.carry.job? w = none →
        leaves
          (atReset.modWin w fun u => { u with counters := { u.counters with abandoned := u.counters.abandoned + 1 } })
          (c.afterAbandon k sl)
          [record, { EventRecord.plain s.time.ticks (.frameAbandoned .portReset) with
            window := some w, port := some p, slot := some k, detail := c.writer.bytesWritten }]) ∧
      (∀ k b, g.writer ≠ p → g.readers.get p = true → c.readers.get p = some b → b.state = .holding k →
        c.writer.state ≠ .waiting → leaves atReset (c.giveBack g.delivery p .idle) [record])) ∧
    ∀ x : Exchange,
      (s.begin.exch.modPort p fun u => { u with prst := true, state := .inReset }).HandEnds s.time.ticks p x →
      ∃ order : List Window, order.Nodup ∧ (∀ w, w ∈ order ↔ x.RoleToEnd p w) ∧
        ∀ z, Exchange.RolesEnd s.time.ticks p order
            { x with raised := x.raised ++ [{ EventRecord.plain s.time.ticks .portReset with
                port := some p, detail := if (s.exch.port p).hand = .none then 0 else 1 }] } z →
          s.EndsIn (.portReset p) z

/-- At the deassertion of RESET_N each port is ACTIVE or IN_RESET by its PRST. At the deassertion of PRST a port IN_RESET without
an outstanding request returns to ACTIVE; while RESET_N is asserted its level alone changes. A request that waits on the link of a
port that takes requests now is taken in that event: its first waiting request is classified and dealt with, and the event ends as
every event does, so that the release of a port with one waiting request is the arrival of that request at the released port.
Nothing else changes. With several such ports one of them is the first, which one is the model's choice, notes/assumptions/7.md
(R134, R138, R140). -/
def Obligations.ResetReleases : Prop :=
  ∀ s : State, s.Settled →
    (s.resetAsserted = true →
      let ports : PerPort PortUnit := PerPort.ofFn fun p =>
        { s.exch.port p with state := if (s.exch.port p).prst then .inReset else .active }
      let takes : Port → Prop := fun q => (s.exch.port q).prst = false ∧ (s.exch.port q).hand = .none
      let up : Exchange := { s.begin.exch with ports := ports }
      ((∀ q, takes q → (s.exch.port q).link = []) →
        exec .pinResetRelease s = .next { s.begin with resetAsserted := false, exch := up }) ∧
      ((∃ q, takes q ∧ (s.exch.port q).link ≠ []) →
        ∃ q r rest choices, takes q ∧ (s.exch.port q).link = r :: rest ∧
          exec .pinResetRelease s = .next ({ s.begin with
            resetAsserted := false, choices := choices,
            exch := (up.modPort q fun u => { u with link := rest }).take s.time.ticks q r } : State).finish) ∧
      (∀ i q r, takes q → (s.exch.port q).link = [r] → (∀ v, v ≠ q → takes v → (s.exch.port v).link = []) →
        requestOf i = some (q, r) → r.wellFormed = true →
        exec .pinResetRelease s = exec i { s with
          resetAsserted := false,
          exch := ({ s.exch with ports := ports } : Exchange).modPort q fun u => { u with link := [] } }) ∧
      ∀ p, exec (.portResetRelease p) s = .next { s.begin with exch := s.begin.exch.modPort p fun u => { u with prst := false } }) ∧
    (s.resetAsserted = false → ∀ p : Port,
      let released : PortUnit → PortUnit := fun u =>
        { u with prst := false, state := if u.state = .inReset ∧ u.hand = .none then .active else u.state }
      ((s.exch.port p).hand ≠ .none ∨ (s.exch.port p).link = [] →
        exec (.portResetRelease p) s = .next { s.begin with exch := s.begin.exch.modPort p released }) ∧
      (∀ r rest, (s.exch.port p).hand = .none → (s.exch.port p).link = r :: rest →
        exec (.portResetRelease p) s = .next ({ s.begin with
          exch := (s.begin.exch.modPort p fun u => { released u with link := rest }).take s.time.ticks p r } : State).finish) ∧
      ∀ i r, (s.exch.port p).hand = .none → (s.exch.port p).link = [r] → requestOf i = some (p, r) → r.wellFormed = true →
        exec (.portResetRelease p) s = exec i { s with exch := s.exch.modPort p fun u => { released u with link := [] } })

/-! ### Requests: how they are taken -/

/-- A request that arrives at a port with one in hand, in reset or with requests waiting before it waits at the end of the
link, and nothing else changes (R120, R134). -/
def Obligations.RequestWaitsOnTheLink : Prop :=
  ∀ (s : State) (i : Instr) (p : Port) (r : Request), requestOf i = some (p, r) → r.wellFormed = true → s.Settled →
    s.portReady p = false →
    exec i s = .next { s.begin with
      exch := s.begin.exch.modPort p fun u => { u with link := (s.exch.port p).link ++ [r] } }

/-- A request in no window's region is presented to the memory port unchanged, with no window, and no other state changes
(R131). -/
def Obligations.PassThroughResult : Prop :=
  ∀ (s : State) (i : Instr) (p : Port) (r : Request), s.Takes i p r → classify s.exch.windows p r = .pass →
    exec i s = .next { s.begin with
      exch := s.begin.exch.setHand p
        (.presented r { request := r, origin := .port p, kind := .passThrough, window := none, slot := none } false) }

/-- An access to an OBSERVE window is forwarded unchanged; one that an ACTIVE window would refuse is reported with the
observed flag; a writer WORD write to CONTROL counts in COMMITTED and is recorded as an observed commit; no context changes.
Which access is which goes by the role, the table of legal header accesses and the regions it touches; a straddle is reported
where it touches no region of an ACTIVE or DRAINING window, for the window of the lowest byte that lies in one. That the slot area
of an OBSERVE window does not count as a window's range there is the model's choice, notes/assumptions/16.md (R105 to R107, R125,
R127 to R129). -/
def Obligations.ObservedResult : Prop :=
  (∀ (s : State) (i : Instr) (p : Port) (r : Request) (w : Window) (report : Option RefuseCause) (commit : Option Word),
    s.Takes i p r → classify s.exch.windows p r = .observed w report commit →
    ∃ t, exec i s = .next t ∧
      (t.exch.port p).hand =
        .presented r { request := r, origin := .port p, kind := .passThrough, window := none, slot := none } false ∧
      (∀ q, q ≠ p → t.exch.port q = s.exch.port q) ∧
      (∀ v, v ≠ w → t.exch.win v = s.exch.win v) ∧
      t.exch.win w = { s.exch.win w with counters := { (s.exch.win w).counters with
        committed := (s.exch.win w).counters.committed + if commit.isSome then 1 else 0 } } ∧
      (commit = none → t.events = match report with
        | none => s.events
        | some cause => s.record { EventRecord.plain s.time.ticks (.accessRefused cause) with
            observed := true, window := some w, port := some p, detail := r.addr }) ∧
      (∀ v, commit = some v → report = none ∧
        t.events = s.record { EventRecord.plain s.time.ticks .frameCommitted with
          observed := true, window := some w, port := some p, detail := v &&& 0xFFFF }) ∧
      t.exch.answers = [] ∧ t.exch.outstanding = s.exch.outstanding ∧ t.exch.carry = s.exch.carry ∧
      t.memPort = s.memPort ∧ t.time = s.time ∧ t.mgmt = s.mgmt) ∧
  ∀ (x : Exchange) (p : Port) (r : Request) (w : Window), x.RangesSound → r.wellFormed = true → Request.aligned r = true →
    let g := (x.win w).geom
    let mayAccess : Prop := p = g.writer ∨ (g.readers.get p = true ∧ Access.isWrite r.access = false)
    let inside (n : Nat) : Prop := g.lbase.toNat ≤ n ∧ n < g.lbase.toNat + 32 + g.flen.toNat
    ((x.win w).mode? = some .observe →
      ((∀ i, i < Request.bytes r →
          g.lbase.toNat + 32 ≤ r.addr.toNat + i ∧ r.addr.toNat + i < g.lbase.toNat + 32 + g.flen.toNat) →
        (mayAccess → classify x.windows p r = .observed w none none) ∧
        (¬mayAccess → classify x.windows p r = .observed w (some .role) none)) ∧
      ((∀ i, i < Request.bytes r → g.lbase.toNat ≤ r.addr.toNat + i ∧ r.addr.toNat + i < g.lbase.toNat + 32) →
        (¬mayAccess → classify x.windows p r = .observed w (some .role) none) ∧
        (mayAccess → classify x.windows p r = match r.access with
          | .read .word =>
            if r.addr.toNat < g.lbase.toNat + 24 then .observed w none none else .observed w (some .header) none
          | .write (.word v) =>
            if r.addr.toNat = g.lbase.toNat + 12 then .observed w none (some v)
            else if r.addr.toNat = g.lbase.toNat then .observed w none none
            else .observed w (some .header) none
          | _ => .observed w (some .header) none))) ∧
    ((∀ v i, i < Request.bytes r → (x.win v).mode? = some .active ∨ (x.win v).mode? = some .draining →
        (x.win v).geom.inHeader (r.addr.toNat + i) = false ∧ (x.win v).geom.inPayload (r.addr.toNat + i) = false ∧
        (x.win v).geom.inSlotArea (r.addr.toNat + i) = false) →
      ∀ i, i < Request.bytes r → (x.win w).mode? = some .observe → inside (r.addr.toNat + i) →
        (∀ j v, j < i → (x.win v).mode? = some .observe →
          ¬((x.win v).geom.lbase.toNat ≤ r.addr.toNat + j ∧
            r.addr.toNat + j < (x.win v).geom.lbase.toNat + 32 + (x.win v).geom.flen.toNat)) →
        (∃ a b, a < Request.bytes r ∧ b < Request.bytes r ∧
          regionAt x.windows (r.addr.toNat + a) ≠ regionAt x.windows (r.addr.toNat + b)) →
        classify x.windows p r = .observed w (some .straddle) none)

/-- A request that the classifier refuses is answered ERROR and recorded once with its cause; nothing else changes: no
window, no counter, no timer (R126 to R128, R130). -/
def Obligations.RefusedRequestResult : Prop :=
  ∀ (s : State) (i : Instr) (p : Port) (r : Request) (cause : RefuseCause) (w : Option Window), s.Takes i p r →
    classify s.exch.windows p r = .refused cause w →
    exec i s = .next { s.begin with
      exch := { s.begin.exch with answers := [(p, .error)] },
      events := s.record { EventRecord.plain s.time.ticks (.accessRefused cause) with
        window := w, port := some p, detail := r.addr } }

/-! ### Requests: the classification -/

/-- A request whose address is no multiple of its unit, or a burst past the top of the address space, is refused with cause
ALIGN in the event of its taking, whatever the windows hold: answered ERROR, one record with the port, the address and the
window that is not DISABLED whose range holds the first byte, if there is one; nothing else changes. No other request is
refused with this cause (R121). -/
def Obligations.MisalignedIsRefused : Prop :=
  (∀ (s : State) (i : Instr) (p : Port) (r : Request), s.Takes i p r →
    (r.addr.toNat % (match r.access.size with
      | .byte => 1
      | .half => 2
      | .word => 4
      | .burst _ => 4) ≠ 0 ∨ r.addr.toNat + Request.bytes r > 0x100000000) →
    ∃ w : Option Window,
      exec i s = .next { s.begin with
        exch := { s.begin.exch with answers := [(p, .error)] },
        events := s.record { EventRecord.plain s.time.ticks (.accessRefused .align) with
          window := w, port := some p, detail := r.addr } } ∧
      (s.exch.RangesSound → ∀ v, w = some v ↔ ((s.exch.win v).life ≠ .disabled ∧
        ((s.exch.win v).geom.lbase.toNat ≤ r.addr.toNat ∧
            r.addr.toNat < (s.exch.win v).geom.lbase.toNat + 32 + (s.exch.win v).geom.flen.toNat ∨
          (s.exch.win v).geom.sbase.toNat ≤ r.addr.toNat ∧
            r.addr.toNat < (s.exch.win v).geom.sbase.toNat + (s.exch.win v).geom.slots.toNat * (s.exch.win v).geom.flen.toNat)))) ∧
  ∀ (ws : PerWindow WindowUnit) (p : Port) (r : Request) (w : Option Window), classify ws p r = .refused .align w →
    (r.addr.toNat % (match r.access.size with
      | .byte => 1
      | .half => 2
      | .word => 4
      | .burst _ => 4) ≠ 0 ∨ r.addr.toNat + Request.bytes r > 0x100000000)

/-- The blocks an access touches are those that hold one of its bytes, each once, the lower first: one for a BYTE, HALF or WORD,
one or two adjacent blocks for a burst; a slot has FLEN/32 of them, 2 to 32768, and block i holds payload bytes 32×i to
32×i+31 (R7). -/
def Obligations.BlocksOfAnAccess : Prop :=
  (∀ g : Geometry, g.reason = none → 2 ≤ g.blocks ∧ g.blocks ≤ 32768 ∧ g.blocks * 32 = g.flen.toNat) ∧
  ∀ (g : Geometry) (r : Request), g.reason = none → r.wellFormed = true → Request.aligned r = true →
    (∀ i, i < Request.bytes r → g.inPayload (r.addr.toNat + i) = true) →
    (∀ b, b ∈ touchedBlocks (g.payloadOffset r.addr) (Request.bytes r) ↔
      ∃ i, i < Request.bytes r ∧ 32 * b ≤ g.payloadOffset r.addr + i ∧ g.payloadOffset r.addr + i ≤ 32 * b + 31) ∧
    (∀ b, b ∈ touchedBlocks (g.payloadOffset r.addr) (Request.bytes r) → b < g.blocks) ∧
    ∃ b, touchedBlocks (g.payloadOffset r.addr) (Request.bytes r) = [b] ∨
      touchedBlocks (g.payloadOffset r.addr) (Request.bytes r) = [b, b + 1] ∧ ∃ n, r.access.size = .burst n

/-- Every byte belongs to one region: the header, payload or slot area of an ACTIVE or DRAINING window, the header or payload of
an OBSERVE window, or PASS (R123). A request wholly in PASS is forwarded; one that touches a region of an ACTIVE or DRAINING
window and any other region is refused with cause STRADDLE, for the window of the lowest byte that lies in one, the slot area of an
OBSERVE window not counted, which is the model's choice, notes/assumptions/16.md (R124, R125). A request wholly in the slot area of an ACTIVE or DRAINING window is refused with cause GUARD, whatever its port, operation and size
(R126). One wholly in its payload is the writer's, a reader's read, or refused with cause ROLE: a reader's write, and any access
of a port with no role (R127). -/
def Obligations.WindowRangeGoesByRole : Prop :=
  (∀ (x : Exchange) (a : Nat), x.RangesSound →
    (∀ w,
      let g := (x.win w).geom
      let live : Prop := (x.win w).mode? = some .active ∨ (x.win w).mode? = some .draining
      (regionAt x.windows a = .header w ↔ live ∧ g.lbase.toNat ≤ a ∧ a < g.lbase.toNat + 32) ∧
      (regionAt x.windows a = .payload w ↔
        live ∧ g.lbase.toNat + 32 ≤ a ∧ a < g.lbase.toNat + 32 + g.flen.toNat) ∧
      (regionAt x.windows a = .slotArea w ↔
        live ∧ g.sbase.toNat ≤ a ∧ a < g.sbase.toNat + g.slots.toNat * g.flen.toNat) ∧
      (regionAt x.windows a = .observedHeader w ↔
        (x.win w).mode? = some .observe ∧ g.lbase.toNat ≤ a ∧ a < g.lbase.toNat + 32) ∧
      (regionAt x.windows a = .observedPayload w ↔
        (x.win w).mode? = some .observe ∧ g.lbase.toNat + 32 ≤ a ∧ a < g.lbase.toNat + 32 + g.flen.toNat)) ∧
    (regionAt x.windows a = .pass ↔ ∀ w,
      let g := (x.win w).geom
      let logical : Prop := g.lbase.toNat ≤ a ∧ a < g.lbase.toNat + 32 + g.flen.toNat
      ((x.win w).mode? = some .observe → ¬logical) ∧
      ((x.win w).mode? = some .active ∨ (x.win w).mode? = some .draining →
        ¬logical ∧ ¬(g.sbase.toNat ≤ a ∧ a < g.sbase.toNat + g.slots.toNat * g.flen.toNat)))) ∧
  (∀ (x : Exchange) (p : Port) (r : Request), r.wellFormed = true → Request.aligned r = true →
    ((∀ i, i < Request.bytes r → regionAt x.windows (r.addr.toNat + i) = .pass) → classify x.windows p r = .pass) ∧
    (∀ i v j, i < Request.bytes r → (regionAt x.windows (r.addr.toNat + i)).window? = some v →
      (∀ l, l < i → regionAt x.windows (r.addr.toNat + l) = .pass) →
      j < Request.bytes r → (regionAt x.windows (r.addr.toNat + j)).isExchange = true →
      (∃ l, l < Request.bytes r ∧ regionAt x.windows (r.addr.toNat + l) ≠ regionAt x.windows (r.addr.toNat + j)) →
      classify x.windows p r = .refused .straddle (some v))) ∧
  ∀ (x : Exchange) (p : Port) (r : Request) (w : Window), x.RangesSound → r.wellFormed = true → Request.aligned r = true →
    ((x.win w).mode? = some .active ∨ (x.win w).mode? = some .draining) →
    ((∀ i, i < Request.bytes r → (x.win w).geom.inSlotArea (r.addr.toNat + i) = true) →
      classify x.windows p r = .refused .guard (some w)) ∧
    ((∀ i, i < Request.bytes r → (x.win w).geom.inPayload (r.addr.toNat + i) = true) →
      classify x.windows p r =
        if p = (x.win w).geom.writer then .writerPayload w
        else if (x.win w).geom.readers.get p = true ∧ Access.isWrite r.access = false then .readerPayload w
        else .refused .role (some w))

/-- A single WORD access to header word n of an ACTIVE or DRAINING window, by the table of legal accesses; a BYTE, a HALF or a
BURST that lies in the header is refused with cause HEADER where its port passes the role check, and with cause ROLE where it
does not (R127, R128). -/
def Obligations.HeaderWordGoesByTable : Prop :=
  (∀ (x : Exchange) (p : Port) (w : Window) (n : Fin 8) (value : Option Word), x.RangesSound →
    ((x.win w).mode? = some .active ∨ (x.win w).mode? = some .draining) →
    classify x.windows p
        { addr := (x.win w).geom.lbase + BitVec.ofNat 32 (4 * n.val),
          access := match value with
            | none => .read .word
            | some v => .write (.word v) } =
      if p = (x.win w).geom.writer then
        match value, HeaderWord.ofNumber n.val with
        | none, some h => .writerHeader w h
        | some v, some .control => .commit w v
        | some _, some .frameSeq => .abandon w
        | _, _ => .refused .header (some w)
      else if (x.win w).geom.readers.get p = true ∧ value = none then
        match HeaderWord.ofNumber n.val with
        | some .frameSeq => .acquire w
        | some .control => .release w
        | some h => .readerStatus w h
        | none => .refused .header (some w)
      else .refused .role (some w)) ∧
  ∀ (x : Exchange) (p : Port) (r : Request) (w : Window), x.RangesSound → r.wellFormed = true → Request.aligned r = true →
    ((x.win w).mode? = some .active ∨ (x.win w).mode? = some .draining) → r.access.size ≠ .word →
    (∀ i, i < Request.bytes r → (x.win w).geom.inHeader (r.addr.toNat + i) = true) →
    classify x.windows p r =
      if p = (x.win w).geom.writer ∨ ((x.win w).geom.readers.get p = true ∧ Access.isWrite r.access = false)
      then .refused .header (some w) else .refused .role (some w)

/-! ### The writer -/

/-- A writer payload access that finds its frame FILLING and no carry job of the window, or a job with every block it touches done,
is presented at SBASE + k×FLEN + x, attributed to the window and slot k, whose in-flight count rises by 1; the fill timer is armed
again. Otherwise it is held with reason CARRY_BLOCK, without a stall timer and with the fill timer stopped, and demands the blocks
that are not done, lower first (what a demand does is CarryEnginePresents) (R25, R27, R87, R132). -/
def Obligations.WriterAccessPresented : Prop :=
  ∀ (s : State) (i : Instr) (p : Port) (r : Request) (w : Window) (m : LiveMode) (c : Context) (k : SlotId) (sl : Slot),
    s.Takes i p r → classify s.exch.windows p r = .writerPayload w → (s.exch.win w).life = .live m c →
    c.writer.state = .filling k → c.slots.get k = some sl →
    let blocks := touchedBlocks (r.addr.toNat - ((s.exch.win w).geom.lbase.toNat + 32)) (Request.bytes r)
    let done : Job → Nat → Prop := fun j b => b < j.pointer ∨ ({ block := b, done := true } : Demand) ∈ j.demands
    ((s.exch.carry.job? w = none ∨ ∃ j, s.exch.carry.job? w = some j ∧ ∀ b, b ∈ blocks → done j b) →
      exec i s = .next { s.begin with
        exch := (s.begin.exch.setHand p (.presented r
          { request :=
              { addr := BitVec.ofNat 32 ((s.exch.win w).geom.sbase.toNat + SlotId.number k * (s.exch.win w).geom.flen.toNat +
                  (r.addr.toNat - ((s.exch.win w).geom.lbase.toNat + 32))),
                access := r.access },
            origin := .port p, kind := if Access.isWrite r.access then .writerWrite else .writerRead,
            window := some w, slot := some k } false)).modWin w fun u =>
          { u with life := .live m { c with
              slots := c.slots.set k (some { sl with inFlight := sl.inFlight + 1 }),
              writer := { c.writer with fillTimer := .arm (s.exch.win w).eff.timersA.tFill } } } }) ∧
    (∀ j todo, s.exch.carry.job? w = some j → todo ≠ [] → todo.Sublist blocks →
      (∀ b, b ∈ blocks → (b ∈ todo ↔ ¬done j b)) →
      exec i s = .next { s.begin with
        exch := { ((s.begin.exch.setHand p (.held
            { req := r, window := w, reason := .carryBlock, stall := .stopped })).modWin w fun u =>
              { u with life := .live m { c with writer := { c.writer with fillTimer := .stopped } } }) with
          carry := todo.foldl (fun e b => e.demand w b) s.exch.carry } })

/-- A writer access in an ACTIVE window without a FILLING slot and without a carry job opens the slot that case 1 or case 3 of R21
gives: a new frame of this moment, the fill timer armed, bytes written 0; no counter. Without carry it is the FREE slot with the
lowest index, and a payload access is then presented to it. A COPY base slot that is FREE is opened itself, its frame CARRIED with
no job, whatever other slots are FREE. The last clause is every payload access and every CONTROL write in a window of any CARRY:
what follows the open is that of an access to the FILLING frame (R19 to R21, R23 to R25, R30, R87, R132). -/
def Obligations.WriterAccessOpens : Prop :=
  ∀ (s : State) (i : Instr) (p : Port) (r : Request) (w : Window) (c : Context) (k : SlotId) (sl : Slot),
    s.Takes i p r → (s.exch.win w).life = .live .active c → c.writer.state = .noSlot → s.exch.carry.job? w = none →
    c.slots.get k = some sl →
    (classify s.exch.windows p r = .writerPayload w → (s.exch.win w).geom.carry = .none → sl.state = .free →
      (∀ j sl', SlotId.number j < SlotId.number k → c.slots.get j = some sl' → sl'.state ≠ .free) →
      ∃ t, exec i s = .next t ∧
        t.exch.win w = { s.exch.win w with life := .live .active { c with
          slots := c.slots.set k (some { sl with
            state := .filling, seq := none, tag := 0,
            flags := { fault := false, carried := false, filled := false, auto := false },
            time := s.time.ticks, inFlight := sl.inFlight + 1 }),
          writer := { c.writer with
            state := .filling k, bytesWritten := 0, fillTimer := .arm (s.exch.win w).eff.timersA.tFill, commitPending := false } } } ∧
        (∃ a, (t.exch.port p).hand = .presented r a false ∧ a.window = some w ∧ a.slot = some k ∧
          a.request.addr = BitVec.ofNat 32 ((s.exch.win w).geom.sbase.toNat +
            SlotId.number k * (s.exch.win w).geom.flen.toNat + (r.addr.toNat - ((s.exch.win w).geom.lbase.toNat + 32)))) ∧
        (∀ v, v ≠ w → t.exch.win v = s.exch.win v) ∧ (∀ q, q ≠ p → t.exch.port q = s.exch.port q) ∧
        t.exch.carry = s.exch.carry ∧ t.exch.outstanding = s.exch.outstanding ∧ t.exch.answers = [] ∧ t.events = s.events ∧
        t.memPort = s.memPort ∧ t.time = s.time ∧ t.mgmt = s.mgmt) ∧
    (classify s.exch.windows p r = .writerPayload w → (s.exch.win w).geom.carry = .copy → c.base = some k → sl.state = .free →
      exec i s = .next { s.begin with
        exch := (s.begin.exch.setHand p (.presented r
            (translated (s.exch.win w).geom w p k (if Access.isWrite r.access then .writerWrite else .writerRead) r)
            false)).modWin w fun u =>
          { u with life := .live .active { c with
              slots := c.slots.set k (some { sl with
                state := .filling, seq := none, tag := 0,
                flags := { fault := false, carried := true, filled := false, auto := false },
                time := s.time.ticks, inFlight := sl.inFlight + 1 }),
              writer := { c.writer with
                state := .filling k, bytesWritten := 0, fillTimer := .arm u.eff.timersA.tFill, commitPending := false } } } }) ∧
    ((classify s.exch.windows p r = .writerPayload w ∨ ∃ v, classify s.exch.windows p r = .commit w v) →
      c.SlotFor (s.exch.win w).geom.carry k sl →
      ((s.exch.win w).geom.inHeader r.addr.toNat = true → s.exch.CommitReady w c k) →
      s.EndsIn i (s.begin.exch.afterServing s.time.ticks w c k sl r))

/-- A payload access that opens slot k and creates a carry job: in a COPY window whose base slot is READY or RETIRED the job copies
the base slot, the frame is CARRIED and the base slot has the carry reference; under FILL, and in a COPY window without a base slot,
the job fills with the pattern in effect and the frame is FILLED. The job stands at the end of the queue; the access is held with
reason CARRY_BLOCK, without a stall timer and with the fill timer stopped. An engine that was idle takes block 0 of the job at once;
the blocks the access touches, but for one in progress, enter the demand list and the order of entry, lower first. Stated for an
engine whose current block is of another window, or that has neither a job nor a demand (R24, R27, R79, R81, R82, R87). -/
def Obligations.CopyOpenStartsAJob : Prop :=
  ∀ (s : State) (i : Instr) (p : Port) (r : Request) (w : Window) (c : Context) (k : SlotId) (sl : Slot) (work : CarryWork)
    (flags : FrameFlags) (slots : PerSlot (Option Slot)),
    s.Takes i p r → classify s.exch.windows p r = .writerPayload w → (s.exch.win w).life = .live .active c →
    c.writer.state = .noSlot → s.exch.carry.job? w = none → c.slots.get k = some sl → sl.state = .free →
    (∀ j sl', SlotId.number j < SlotId.number k → c.slots.get j = some sl' → sl'.state ≠ .free) →
    let opened : Slot := { sl with state := .filling, seq := none, tag := 0, flags := flags, time := s.time.ticks }
    ((∃ b base, (s.exch.win w).geom.carry = .copy ∧ c.base = some b ∧ c.slots.get b = some base ∧
        (base.state = .ready ∨ base.state = .retired) ∧ work = .copy b ∧
        flags = { fault := false, carried := true, filled := false, auto := false } ∧
        slots = (c.slots.set k (some opened)).set b (some { base with carryRef := true })) ∨
      ((s.exch.win w).geom.carry = .fill ∨ (s.exch.win w).geom.carry = .copy ∧ c.base = none) ∧
        work = .fill (s.exch.win w).eff.fillPattern ∧
        flags = { fault := false, carried := false, filled := true, auto := false } ∧ slots = c.slots.set k (some opened)) →
    ∃ t, exec i s = .next t ∧
      (∃ d, (t.exch.carry.jobs = s.exch.carry.jobs ++ [{ window := w, work := work, dest := k, pointer := 0, demands := d }])) ∧
      (t.exch.port p).hand = .held { req := r, window := w, reason := .carryBlock, stall := .stopped } ∧
      t.exch.ctx? w = some { c with
        slots := slots,
        writer := { c.writer with
          state := .filling k, bytesWritten := 0, fillTimer := .stopped, commitPending := false } } ∧
      (∀ v, v ≠ w → t.exch.win v = s.exch.win v) ∧ (∀ q, q ≠ p → t.exch.port q = s.exch.port q) ∧
      t.exch.outstanding = s.exch.outstanding ∧ t.exch.answers = [] ∧ t.events = s.events ∧
      let blocks := touchedBlocks (r.addr.toNat - ((s.exch.win w).geom.lbase.toNat + 32)) (Request.bytes r)
      (s.exch.carry.current = none → s.exch.carry.jobs = [] → s.exch.carry.order = [] →
        t.exch.carry =
          { jobs := [{ window := w, work := work, dest := k, pointer := 0,
                       demands := (blocks.filter (· ≠ 0)).map fun n => { block := n, done := false } }],
            order := (blocks.filter (· ≠ 0)).map fun n => (w, n),
            current := some { window := w, block := 0, phase := match work with
              | .copy _ => .read
              | .fill _ => .write }, buffer := none }) ∧
      (∀ cur, s.exch.carry.current = some cur → cur.window ≠ w →
        t.exch.carry = { s.exch.carry with
          jobs := s.exch.carry.jobs ++
            [{ window := w, work := work, dest := k, pointer := 0,
               demands := blocks.map fun n => { block := n, done := false } }],
          order := s.exch.carry.order ++ blocks.map fun n => (w, n) })

/-- An open attempted by a payload access or a CONTROL write that takes no slot. In a DRAINING window it is answered ERROR with cause
DRAINING whatever the slots are. In an ACTIVE window a SLOT wait begins, whatever the policy, where the base slot of a COPY window is
RELEASING, or no slot is FREE and some slot is RELEASING. In an ACTIVE STREAM window where no slot is FREE or RELEASING, a SLOT wait
begins under HOLD, and under REFUSE the access is answered ERROR with cause FULL. No slot changes (R20 to R22, R30, R66, R68, R70,
R72). -/
def Obligations.OpenWithoutASlot : Prop :=
  ∀ (s : State) (i : Instr) (p : Port) (r : Request) (w : Window) (m : LiveMode) (c : Context),
    s.Takes i p r →
    (classify s.exch.windows p r = .writerPayload w ∨ ∃ v, classify s.exch.windows p r = .commit w v) →
    (s.exch.win w).life = .live m c → c.writer.state = .noSlot →
    (m = .active →
      (c.SlotWait (s.exch.win w).geom.carry ∨
        c.NoSlot ∧ (s.exch.win w).geom.delivery = .stream ∧ (s.exch.win w).eff.policy.overflow = .hold) →
      exec i s = .next { s.begin with
        exch := (s.begin.exch.setHand p (.held
            { req := r, window := w, reason := .slot, stall := .arm (s.exch.win w).eff.tStall })).modWin w fun u =>
          { u with life := .live m { c with writer := { c.writer with state := .waiting } },
                   counters := { u.counters with waited := u.counters.waited + 1 } } }) ∧
    (m = .active → c.NoSlot → (s.exch.win w).geom.delivery = .stream → (s.exch.win w).eff.policy.overflow = .refuse →
      exec i s = .next { s.begin with
        exch := { s.begin.exch with answers := [(p, .error)] },
        events := s.record { EventRecord.plain s.time.ticks (.writerRefused .full) with
          window := some w, port := some p, detail := r.addr } }) ∧
    (m = .draining →
      exec i s = .next { s.begin with
        exch := { s.begin.exch with answers := [(p, .error)] },
        events := s.record { EventRecord.plain s.time.ticks (.writerRefused .draining) with
          window := some w, port := some p, detail := r.addr } })

/-- Under DROP, an open in an ACTIVE STREAM window that finds no slot FREE or RELEASING takes the first slot of the ready queue that
has no holder, nothing in flight and no carry reference: it leaves the queue, its pending readers are cleared, DROPPED and dropped
since commit advance, FRAME_DROPPED is recorded, and the open takes it. The first clause is a payload access in a window without
carry; the second is a payload access or a CONTROL write in a window of any CARRY, where a base slot that is dropped is opened as in
case 1. Where no slot of the queue qualifies the access is answered ERROR with cause FULL, and nothing changes (R21, R71, R72). -/
def Obligations.OpenDropsTheOldest : Prop :=
  ∀ (s : State) (i : Instr) (p : Port) (r : Request) (w : Window) (c : Context),
    s.Takes i p r → (classify s.exch.windows p r = .writerPayload w ∨ ∃ v, classify s.exch.windows p r = .commit w v) →
    (s.exch.win w).life = .live .active c → c.writer.state = .noSlot → (s.exch.win w).geom.delivery = .stream →
    s.exch.carry.job? w = none → (s.exch.win w).eff.policy.overflow = .drop → c.NoSlot →
    (∀ (pre post : List SlotId) (v : SlotId) (sl : Slot), c.ready = pre ++ v :: post → v ∉ pre → v ∉ post →
      (∀ j sl', j ∈ pre → c.slots.get j = some sl' → sl'.holders ≠ noPorts ∨ sl'.inFlight ≠ 0 ∨ sl'.carryRef = true) →
      c.slots.get v = some sl → sl.holders = noPorts → sl.inFlight = 0 → sl.carryRef = false →
      let dropped := if c.writer.dropped = 0xFFFFFFFF then 0xFFFFFFFF else c.writer.dropped + 1
      let record : EventRecord := { EventRecord.plain s.time.ticks .frameDropped with
        window := some w, port := some p, slot := some v, seq := sl.seq.getD 0,
        detail := BitVec.ofNat 32 (Port.all.countP fun q => sl.pending.get q) }
      (classify s.exch.windows p r = .writerPayload w → (s.exch.win w).geom.carry = .none →
        ∃ t, exec i s = .next t ∧
          t.exch.ctx? w = some { c with
            slots := c.slots.set v (some { sl with
              state := .filling, seq := none, tag := 0, flags := { fault := false, carried := false, filled := false, auto := false },
              time := s.time.ticks, pending := noPorts, inFlight := 1 }),
            ready := pre ++ post,
            writer := { c.writer with
              state := .filling v, bytesWritten := 0, fillTimer := .arm (s.exch.win w).eff.timersA.tFill, commitPending := false,
              dropped := dropped } } ∧
          (t.exch.win w).counters = { (s.exch.win w).counters with dropped := (s.exch.win w).counters.dropped + 1 } ∧
          t.events = s.record record ∧
          (∃ a, (t.exch.port p).hand = .presented r a false ∧ a.slot = some v) ∧
          (∀ u, u ≠ w → t.exch.win u = s.exch.win u) ∧ (∀ q, q ≠ p → t.exch.port q = s.exch.port q)) ∧
      let freed : Slot := { sl with state := .free, pending := noPorts }
      let c1 : Context := { c with
        slots := c.slots.set v (some freed), ready := pre ++ post, writer := { c.writer with dropped := dropped } }
      let x1 : Exchange := { s.begin.exch.modWin w (fun u => { u with
          counters := { u.counters with dropped := u.counters.dropped + 1 }, life := .live .active c1 }) with raised := [record] }
      (((s.exch.win w).geom.inHeader r.addr.toNat = true → x1.CommitReady w c1 v) →
        s.EndsIn i (x1.afterServing s.time.ticks w c1 v freed r))) ∧
    ((∀ j, j ∈ c.ready → ∃ sl', c.slots.get j = some sl' ∧
        (sl'.holders ≠ noPorts ∨ sl'.inFlight ≠ 0 ∨ sl'.carryRef = true)) →
      exec i s = .next { s.begin with
        exch := { s.begin.exch with answers := [(p, .error)] },
        events := s.record { EventRecord.plain s.time.ticks (.writerRefused .full) with
          window := some w, port := some p, detail := r.addr } })

/-- What the writer reads from its header (R40): with a FILLING slot and without one. The read is answered at once, and
changes nothing but the fill timer of an open frame, which is armed again (R27). -/
def Obligations.WriterHeaderReadResult : Prop :=
  ∀ (s : State) (i : Instr) (p : Port) (r : Request) (w : Window) (h : HeaderWord) (m : LiveMode) (c : Context),
    s.Takes i p r → classify s.exch.windows p r = .writerHeader w h → (s.exch.win w).life = .live m c →
    (c.writer.state = .noSlot →
      exec i s = .next { s.begin with
        exch := { s.begin.exch with answers := [(p, .okay (some (.word (match h with
          | .frameSeq => c.nextSeq
          | .gap => c.writer.dropped
          | .byteCount => c.writer.bytesWritten
          | .frameInfo => 0
          | .frameTime => 0
          | .control => 0))))] } }) ∧
    (∀ k sl, c.writer.state = .filling k → c.slots.get k = some sl →
      exec i s = .next { s.begin with
        exch := { (s.begin.exch.modWin w fun u =>
            { u with life := .live m { c with
                writer := { c.writer with fillTimer := .arm (s.exch.win w).eff.timersA.tFill } } }) with
          answers := [(p, .okay (some (.word (match h with
            | .frameSeq => c.nextSeq
            | .frameInfo =>
              (if sl.flags.fault then 0x10000 else 0) ||| (if sl.flags.carried then 0x20000 else 0) |||
                (if sl.flags.filled then 0x40000 else 0) ||| BitVec.ofNat 32 (SlotId.number k) <<< 24
            | .frameTime => sl.time
            | .control => if s.exch.carry.jobs.any (fun j => j.window = w) then 2 else 1
            | .gap => c.writer.dropped
            | .byteCount => c.writer.bytesWritten))))] } })

/-! ### Commit and abandon -/

/-- A CONTROL write with a FILLING slot and no carry job commits the frame in the same event: sequence, tag of the low 16 bits,
commit time, READY at the end of the queue, base slot; the writer returns to NO_SLOT and is answered OKAY, COMMITTED advances. The
first clause is an ACTIVE STREAM window without a staged set and without a waiting reader, where nothing more follows. The second
is any commit of any window: a staged set comes into effect first, with its record, and every WAITING reader acquires the frame
with the T_HOLD then in effect and has its held read presented; after the answer, a DRAINING window is tested for the end of its
drain. What a LATEST commit does to the other slots is CommitSupersedes. The third is a CONTROL write that finds no frame FILLING,
in an ACTIVE window: without carry it opens the lowest FREE slot and commits it at once; under FILL the commit is held with reason
CARRY_DONE (WriterAccessOpens has the other cases). Where a drain ends with several accesses held, the order of their answers is
the model's choice, notes/assumptions/19.md (R28, R30, R31, R33, R34, R49, R109, R110, R118). -/
def Obligations.CommitTaken : Prop :=
  ∀ (s : State) (i : Instr) (p : Port) (r : Request) (w : Window) (v : Word) (c : Context) (k : SlotId) (sl : Slot),
    s.Takes i p r → classify s.exch.windows p r = .commit w v → s.exch.carry.job? w = none →
    ((s.exch.win w).life = .live .active c →
      (s.exch.win w).geom.delivery = .stream → c.writer.state = .filling k → c.slots.get k = some sl →
      (s.exch.win w).staged = .none →
      (∀ q b, c.readers.get q = some b → b.state ≠ .waiting) →
      exec i s = .next { s.begin with
        exch := { (s.begin.exch.modWin w fun u =>
            { u with
              counters := { u.counters with committed := u.counters.committed + 1 },
              life := .live .active { c with
                slots := c.slots.set k (some { sl with
                  state := .ready, seq := some c.nextSeq, tag := v.truncate 16, flags := { sl.flags with auto := false },
                  time := s.time.ticks, pending := (s.exch.win w).geom.readers }),
                ready := c.ready ++ [k], base := some k,
                nextSeq := if c.nextSeq = 0xFFFFFFFF then 1 else c.nextSeq + 1,
                writer := { c.writer with state := .noSlot, dropped := 0, fillTimer := .stopped, commitPending := false } } }) with
          answers := [(p, .okay none)] },
        events := s.record { EventRecord.plain s.time.ticks .frameCommitted with
          window := some w, port := some p, slot := some k, seq := c.nextSeq, detail := v &&& 0xFFFF } }) ∧
    (∀ (m : LiveMode) (z : Exchange), (s.exch.win w).life = .live m c → c.writer.state = .filling k → c.slots.get k = some sl →
      s.exch.CommitReady w c k →
      ({ s.begin.exch.afterCommit s.time.ticks w m c k sl (v.truncate 16) false with
        answers := [(p, .okay none)] } : Exchange).DrainTested s.time.ticks w z →
      s.EndsIn i z) ∧
    ((s.exch.win w).life = .live .active c → c.writer.state = .noSlot → c.SlotFor (s.exch.win w).geom.carry k sl → k ∉ c.ready →
      ((s.exch.win w).geom.carry = .none → (s.exch.win w).geom.delivery = .stream → (s.exch.win w).staged = .none →
        (∀ q b, c.readers.get q = some b → b.state ≠ .waiting) →
        exec i s = .next { s.begin with
          exch := { (s.begin.exch.modWin w fun u =>
              { u with
                counters := { u.counters with committed := u.counters.committed + 1 },
                life := .live .active
                  ({ c with writer := { c.writer with bytesWritten := 0 } }.afterCommit k
                    ((sl.afterOpening s.time.ticks
                        { fault := false, carried := false, filled := false, auto := false }).afterCommit u.geom c.nextSeq
                      (v.truncate 16) false s.time.ticks)) }) with
            answers := [(p, .okay none)] },
          events := s.record { EventRecord.plain s.time.ticks .frameCommitted with
            window := some w, port := some p, slot := some k, seq := c.nextSeq, detail := v &&& 0xFFFF } }) ∧
      ((s.exch.win w).geom.carry = .fill →
        ∃ t, exec i s = .next t ∧
          t.exch.win w = { s.exch.win w with
            life := .live .active { c with
              slots := c.slots.set k (some (sl.afterOpening s.time.ticks
                { fault := false, carried := false, filled := true, auto := false })),
              writer := { c.writer with
                state := .filling k, bytesWritten := 0, fillTimer := .stopped, commitPending := true } } } ∧
          t.exch.carry.jobs = s.exch.carry.jobs ++
            [{ window := w, work := .fill (s.exch.win w).eff.fillPattern, dest := k, pointer := 0, demands := [] }] ∧
          (t.exch.port p).hand =
            .held { req := r, window := w, reason := .carryDone (v.truncate 16) false, stall := .stopped } ∧
          (∀ q, q ≠ p → t.exch.port q = s.exch.port q) ∧ (∀ u, u ≠ w → t.exch.win u = s.exch.win u) ∧
          t.exch.answers = [] ∧ t.events = s.events ∧ t.exch.outstanding = s.exch.outstanding))

/-- In a LATEST window a commit supersedes the READY slot: RETIRED if it has a holder or a carry reference, otherwise FREE, or
RELEASING with requests in flight; the committed slot is the queue's one entry; with an empty queue no other slot changes. The
next sequence number advances, and the writer binding returns to NO_SLOT (R17, R31, R32, R33). -/
def Obligations.CommitSupersedes : Prop :=
  ∀ (c : Context) (g : Geometry) (k : SlotId) (sl : Slot) (tag : Half) (auto : Bool) (now : Word),
    g.delivery = .latest → c.slots.get k = some sl →
    let t := c.commit g k tag auto now
    (∀ j old, c.ready = [j] → j ≠ k → c.slots.get j = some old → old.state = .ready →
      t.slots.get j = some (if old.holders ≠ noPorts ∨ old.carryRef = true
        then { old with state := .retired }
        else { old with state := if old.inFlight = 0 then .free else .releasing, holders := noPorts, pending := noPorts,
                        carryRef := false }) ∧
      ∀ i, i ≠ j → i ≠ k → t.slots.get i = c.slots.get i) ∧
    (c.ready = [] → ∀ i, i ≠ k → t.slots.get i = c.slots.get i) ∧
    ((c.ready = [] ∨ ∃ j old, c.ready = [j] ∧ j ≠ k ∧ c.slots.get j = some old ∧ old.state = .ready) →
      t.ready = [k] ∧
      t.slots.get k = some { sl with
        state := .ready, seq := some c.nextSeq, tag := tag, flags := { sl.flags with auto := auto }, time := now } ∧
      t.base = some k ∧ t.readers = c.readers ∧ t.nextSeq = (if c.nextSeq = 0xFFFFFFFF then 1 else c.nextSeq + 1) ∧
      t.writer = { c.writer with state := .noSlot, dropped := 0, fillTimer := .stopped, commitPending := false })

/-- A CONTROL write while the carry job of the frame exists is held with reason CARRY_DONE and keeps its tag: commit-pending is
set and the fill timer stopped, nothing else changes (R28). -/
def Obligations.CommitHeldForCarry : Prop :=
  ∀ (s : State) (i : Instr) (p : Port) (r : Request) (w : Window) (v : Word) (m : LiveMode) (c : Context) (k : SlotId) (j : Job),
    s.Takes i p r → classify s.exch.windows p r = .commit w v → (s.exch.win w).life = .live m c →
    c.writer.state = .filling k → s.exch.carry.job? w = some j →
    exec i s = .next { s.begin with
      exch := (s.begin.exch.setHand p (.held
          { req := r, window := w, reason := .carryDone (v.truncate 16) false, stall := .stopped })).modWin w fun u =>
        { u with life := .live m { c with writer := { c.writer with fillTimer := .stopped, commitPending := true } } } }

/-- A writer write to FRAME_SEQ is answered OKAY: without a frame nothing else happens; a FILLING frame is abandoned: its slot
settles, the writer returns to NO_SLOT, ABANDONED advances, FRAME_ABANDONED is recorded with the bytes written. Its carry job, if
it has one, is cancelled: the engine is without it (CarryEnginePresents), its outstanding request is discarded, and a COPY source
loses its carry reference. After the answer, a DRAINING window is tested for the end of its drain. The second clause is an ACTIVE
window and a frame without a job, the third any window and frame. That a base slot so abandoned is none any more in a window of any
CARRY is the model's choice, notes/assumptions/25.md. Where a drain ends with several accesses held, the order of their answers is
the model's choice, notes/assumptions/19.md (R12, R36, R38, R91, R95, R109, R110). -/
def Obligations.AbandonResult : Prop :=
  ∀ (s : State) (i : Instr) (p : Port) (r : Request) (w : Window) (m : LiveMode) (c : Context),
    s.Takes i p r → classify s.exch.windows p r = .abandon w → (s.exch.win w).life = .live m c →
    (c.writer.state = .noSlot →
      exec i s = .next { s.begin with exch := { s.begin.exch with answers := [(p, .okay none)] } }) ∧
    (∀ k sl, m = .active → c.writer.state = .filling k → c.slots.get k = some sl → k ∉ c.ready → s.exch.carry.job? w = none →
      exec i s = .next { s.begin with
        exch := { (s.begin.exch.modWin w fun u =>
            { u with
              counters := { u.counters with abandoned := u.counters.abandoned + 1 },
              life := .live .active { c with
                slots := c.slots.set k (some { sl with
                  state := if sl.inFlight = 0 then .free else .releasing, holders := noPorts, pending := noPorts,
                  carryRef := false }),
                base := if c.base = some k then none else c.base,
                writer := { c.writer with state := .noSlot, fillTimer := .stopped, commitPending := false } } }) with
          answers := [(p, .okay none)] },
        events := s.record { EventRecord.plain s.time.ticks (.frameAbandoned .writer) with
          window := some w, port := some p, slot := some k, detail := c.writer.bytesWritten } }) ∧
    (∀ k sl x c1 z, c.writer.state = .filling k → c.slots.get k = some sl →
      (s.exch.carry.job? w = none ∧ x = s.begin.exch ∧ c1 = c ∨
        ∃ j, s.exch.carry.job? w = some j ∧ (∀ src, j.work = .copy src → src ≠ k ∧ c.slots.get src ≠ none) ∧
          x = s.begin.exch.afterCancel w ∧ c1 = c.afterJob j.work) →
      ({ x.modWin w (fun u =>
          { u with
            counters := { u.counters with abandoned := u.counters.abandoned + 1 },
            life := .live m (c1.afterAbandon k sl) }) with
        answers := [(p, .okay none)],
        raised := [{ EventRecord.plain s.time.ticks (.frameAbandoned .writer) with
          window := some w, port := some p, slot := some k, detail := c.writer.bytesWritten }] } : Exchange).DrainTested s.time.ticks w z →
      s.EndsIn i z)

/-! ### The readers -/

/-- A FRAME_SEQ read by a reader acquires the frame available to it and is answered its sequence number, or is answered 0 when
there is none: in STREAM the first READY slot of the queue whose pending readers include it, in LATEST the slot of the queue. Gap
and repeat are those of the sequence before; EVICTED is cleared. A reader that is HOLDING gives its frame back first
(GiveBackEffect), and the frame available is that after the give-back; after the answer a writer that waits for a slot is served,
and a DRAINING window is tested for the end of its drain. Where a drain ends with several accesses held, the order of their answers
is the model's choice, notes/assumptions/19.md (R18, R22, R42, R43, R45, R46, R109). -/
def Obligations.AcquireResult : Prop :=
  ∀ (s : State) (i : Instr) (p : Port) (r : Request) (w : Window) (m : LiveMode) (c : Context) (b : ReaderBinding),
    s.Takes i p r → classify s.exch.windows p r = .acquire w → (s.exch.win w).life = .live m c →
    c.readers.get p = some b →
    ((b.state = .idle ∨ b.state = .evicted) → c.NoneAvailable (s.exch.win w).geom.delivery p →
      exec i s = .next { s.begin with
        exch := { (s.begin.exch.modWin w fun u =>
            { u with life := .live m { c with
                readers := c.readers.set p (some { b with state := .idle, holdTimer := .stopped }) } }) with
          answers := [(p, .okay (some (.word 0)))] } }) ∧
    (∀ k sl q, (b.state = .idle ∨ b.state = .evicted) → c.Available (s.exch.win w).geom.delivery p k →
      c.slots.get k = some sl → sl.seq = some q →
      exec i s = .next { s.begin with
        exch := { (s.begin.exch.modWin w fun u =>
            { u with
              counters := { u.counters with acquired := u.counters.acquired + 1 },
              life := .live m { c with
                slots := c.slots.set k (some { sl with holders := sl.holders.set p true }),
                readers := c.readers.set p (some { b with
                  state := .holding k, lastSeq := q, bytesRead := 0, repeated := q = b.lastSeq,
                  holdTimer := .arm (s.exch.win w).eff.timersA.tHold,
                  gap := if b.lastSeq = 0 then q - 1 else if q = b.lastSeq then 0
                    else if b.lastSeq.toNat ≤ q.toNat then BitVec.ofNat 32 (q.toNat - b.lastSeq.toNat - 1)
                    else BitVec.ofNat 32 (q.toNat + 0xFFFFFFFF - b.lastSeq.toNat - 1) }) } }) with
          answers := [(p, .okay (some (.word q)))] } }) ∧
    (∀ held, b.state = .holding held →
      let g := (s.exch.win w).geom
      let c1 := c.giveBack g.delivery p .idle
      (∀ y z, c1.NoneAvailable g.delivery p →
        ({ s.begin.exch.modWin w (fun u => { u with life := .live m c1 }) with
          answers := [(p, .okay (some (.word 0)))] } : Exchange).Serves s.time.ticks w y →
        y.DrainTested s.time.ticks w z → s.EndsIn i z) ∧
      (∀ k sl q y z, c1.Available g.delivery p k → c1.slots.get k = some sl → sl.seq = some q →
        ({ s.begin.exch.modWin w (fun u =>
            { u with
              counters := { u.counters with acquired := u.counters.acquired + 1 },
              life := .live m { c1 with
                slots := c1.slots.set k (some { sl with holders := sl.holders.set p true }),
                readers := c1.readers.set p (some
                  ({ b with state := .idle, holdTimer := .stopped }.afterAcquire k q u.eff.timersA.tHold)) } }) with
          answers := [(p, .okay (some (.word q)))] } : Exchange).Serves s.time.ticks w y →
        y.DrainTested s.time.ticks w z → s.EndsIn i z))

/-- What a give-back does, whatever state the binding takes after it: the slot by delivery mode, pending readers, holders and carry
reference; the binding keeps all but its state and its hold timer, which is stopped (R12, R53). -/
def Obligations.GiveBackEffect : Prop :=
  ∀ (c : Context) (p : Port) (k : SlotId) (sl : Slot) (b : ReaderBinding) (after : ReaderState), c.slots.get k = some sl →
    c.readers.get p = some b → b.state = .holding k →
    (sl.state = .ready → (sl.pending.set p false) ≠ noPorts →
      (c.giveBack .stream p after).slots.get k =
        some { sl with holders := sl.holders.set p false, pending := sl.pending.set p false } ∧
      (c.giveBack .stream p after).ready = c.ready) ∧
    (sl.state = .ready → (sl.pending.set p false) = noPorts → sl.carryRef = true →
      (c.giveBack .stream p after).slots.get k =
        some { sl with state := .retired, holders := sl.holders.set p false, pending := noPorts } ∧
      (c.giveBack .stream p after).ready = c.ready.filter (· ≠ k)) ∧
    (sl.state = .ready → (sl.pending.set p false) = noPorts → sl.carryRef = false →
      (c.giveBack .stream p after).slots.get k =
        some { sl with state := if sl.inFlight = 0 then .free else .releasing, holders := noPorts, pending := noPorts } ∧
      (c.giveBack .stream p after).ready = c.ready.filter (· ≠ k)) ∧
    (sl.state = .ready →
      (c.giveBack .latest p after).slots.get k = some { sl with holders := sl.holders.set p false } ∧
      (c.giveBack .latest p after).ready = c.ready) ∧
    (sl.state = .retired → ((sl.holders.set p false) ≠ noPorts ∨ sl.carryRef = true) →
      (c.giveBack .latest p after).slots.get k = some { sl with holders := sl.holders.set p false }) ∧
    (sl.state = .retired → (sl.holders.set p false) = noPorts → sl.carryRef = false →
      (c.giveBack .latest p after).slots.get k =
        some { sl with state := if sl.inFlight = 0 then .free else .releasing, holders := noPorts, pending := noPorts }) ∧
    (∀ d, (c.giveBack d p after).readers = c.readers.set p (some { b with state := after, holdTimer := .stopped }) ∧
      (c.giveBack d p after).writer = c.writer ∧ (c.giveBack d p after).base = c.base ∧
      (c.giveBack d p after).nextSeq = c.nextSeq ∧ ∀ j, j ≠ k → (c.giveBack d p after).slots.get j = c.slots.get j)

/-- A CONTROL read by a reader is answered 0 when idle, 2 when evicted, and 1 when it holds a frame, which it then gives back (the
effect of a give-back is GiveBackEffect). A writer that waits for a slot has its slot choice made again: its wait goes on, or its
payload access or CONTROL write opens a slot, in a window of any CARRY. After the answer a DRAINING window is tested for the end of
its drain. The third clause is a give-back without a waiting writer and without the end of a drain, the last is every give-back.
That the answer stands after that of a commit which the give-back serves is the model's choice, notes/assumptions/19.md. Where a
drain ends with several accesses held, the order of their answers is the model's choice, notes/assumptions/19.md (R22, R53, R54,
R109, R110). -/
def Obligations.ReleaseResult : Prop :=
  ∀ (s : State) (i : Instr) (p : Port) (r : Request) (w : Window) (m : LiveMode) (c : Context) (b : ReaderBinding),
    s.Takes i p r → classify s.exch.windows p r = .release w → (s.exch.win w).life = .live m c →
    c.readers.get p = some b →
    (b.state = .idle →
      exec i s = .next { s.begin with exch := { s.begin.exch with answers := [(p, .okay (some (.word 0)))] } }) ∧
    (b.state = .evicted →
      exec i s = .next { s.begin with
        exch := { (s.begin.exch.modWin w fun u =>
            { u with life := .live m { c with readers := c.readers.set p (some { b with state := .idle }) } }) with
          answers := [(p, .okay (some (.word 2)))] } }) ∧
    (∀ k, b.state = .holding k →
      let c1 := c.giveBack (s.exch.win w).geom.delivery p .idle
      (c.writer.state ≠ .waiting → (m = .active ∨ m = .draining ∧ ¬c1.DrainMet (s.exch.win w).geom.delivery) →
        exec i s = .next { s.begin with
          exch := { (s.begin.exch.modWin w fun u => { u with life := .live m c1 }) with
            answers := [(p, .okay (some (.word 1)))] } }) ∧
      ∀ y z, (s.begin.exch.modWin w fun u => { u with life := .live m c1 }).Serves s.time.ticks w y →
        ({ y.setHand p .none with answers := y.answers ++ [(p, .okay (some (.word 1)))] } : Exchange).DrainTested s.time.ticks w z → s.EndsIn i z)

/-- A reader payload read goes to the held slot, translated and counted in flight, the hold timer untouched; without a held
frame it is refused with cause EVICTED, refused with NOFRAME when it may not acquire or finds no frame under FAIL, held in a
FRAME wait under WAIT, or it acquires the available frame first, with gap, repeat and hold timer as at an explicit acquire, and is
then presented for that slot as a read of a held frame is. Nothing else changes (R17, R18, R41, R43, R46, R47, R48, R50, R58, R67,
R68). -/
def Obligations.ReaderReadResult : Prop :=
  ∀ (s : State) (i : Instr) (p : Port) (r : Request) (w : Window) (m : LiveMode) (c : Context) (b : ReaderBinding),
    s.Takes i p r → classify s.exch.windows p r = .readerPayload w → (s.exch.win w).life = .live m c →
    c.readers.get p = some b →
    (∀ k sl, b.state = .holding k → c.slots.get k = some sl →
      exec i s = .next { s.begin with
        exch := (s.begin.exch.setHand p (.presented r
          { request :=
              { addr := BitVec.ofNat 32 ((s.exch.win w).geom.sbase.toNat + SlotId.number k * (s.exch.win w).geom.flen.toNat +
                  (r.addr.toNat - ((s.exch.win w).geom.lbase.toNat + 32))),
                access := r.access },
            origin := .port p, kind := .readerRead, window := some w, slot := some k } false)).modWin w fun u =>
          { u with life := .live m { c with slots := c.slots.set k (some { sl with inFlight := sl.inFlight + 1 }) } } }) ∧
    (b.state = .evicted →
      exec i s = .next { s.begin with
        exch := { s.begin.exch with answers := [(p, .error)] },
        events := s.record { EventRecord.plain s.time.ticks (.accessRefused .evicted) with
          window := some w, port := some p, detail := r.addr } }) ∧
    (b.state = .idle →
      ((s.exch.win w).geom.implicitAcquire = false ∨
        c.NoneAvailable (s.exch.win w).geom.delivery p ∧ (s.exch.win w).eff.policy.emptyRead = .fail) →
      exec i s = .next { s.begin with
        exch := { s.begin.exch with answers := [(p, .error)] },
        events := s.record { EventRecord.plain s.time.ticks (.accessRefused .noframe) with
          window := some w, port := some p, detail := r.addr } }) ∧
    (b.state = .idle → (s.exch.win w).geom.implicitAcquire = true →
      c.NoneAvailable (s.exch.win w).geom.delivery p → (s.exch.win w).eff.policy.emptyRead = .wait →
      exec i s = .next { s.begin with
        exch := (s.begin.exch.setHand p (.held
            { req := r, window := w, reason := .frame, stall := .arm (s.exch.win w).eff.tStall })).modWin w fun u =>
          { u with
            life := .live m { c with readers := c.readers.set p (some { b with state := .waiting }) },
            counters := { u.counters with waited := u.counters.waited + 1 } } }) ∧
    (∀ k sl q, b.state = .idle → (s.exch.win w).geom.implicitAcquire = true →
      c.Available (s.exch.win w).geom.delivery p k → c.slots.get k = some sl → sl.seq = some q →
      exec i s = .next { s.begin with
        exch := (s.begin.exch.setHand p (.presented r
          { request :=
              { addr := BitVec.ofNat 32 ((s.exch.win w).geom.sbase.toNat + SlotId.number k * (s.exch.win w).geom.flen.toNat +
                  (r.addr.toNat - ((s.exch.win w).geom.lbase.toNat + 32))),
                access := r.access },
            origin := .port p, kind := .readerRead, window := some w, slot := some k } false)).modWin w fun u =>
          { u with
            counters := { u.counters with acquired := u.counters.acquired + 1 },
            life := .live m { c with
              slots := c.slots.set k (some { sl with holders := sl.holders.set p true, inFlight := sl.inFlight + 1 }),
              readers := c.readers.set p (some { b with
                state := .holding k, lastSeq := q, bytesRead := 0, repeated := q = b.lastSeq,
                holdTimer := .arm (s.exch.win w).eff.timersA.tHold,
                gap := if b.lastSeq = 0 then q - 1 else if q = b.lastSeq then 0
                  else if b.lastSeq.toNat ≤ q.toNat then BitVec.ofNat 32 (q.toNat - b.lastSeq.toNat - 1)
                  else BitVec.ofNat 32 (q.toNat + 0xFFFFFFFF - b.lastSeq.toNat - 1) }) } } })

/-- What a reader reads of FRAME_INFO, FRAME_TIME, GAP and BYTE_COUNT: the held frame and its binding, or 0; the read changes
no state. FRAME_INFO is assembled from the tag, the flags, repeat, RETIRED and the slot (R61, R185). -/
def Obligations.ReaderStatusResult : Prop :=
  ∀ (s : State) (i : Instr) (p : Port) (r : Request) (w : Window) (h : HeaderWord) (m : LiveMode) (c : Context) (b : ReaderBinding),
    s.Takes i p r → classify s.exch.windows p r = .readerStatus w h → (s.exch.win w).life = .live m c →
    c.readers.get p = some b →
    (b.state = .idle ∨ b.state = .evicted →
      exec i s = .next { s.begin with exch := { s.begin.exch with answers := [(p, .okay (some (.word 0)))] } }) ∧
    (∀ k sl, b.state = .holding k → c.slots.get k = some sl →
      exec i s = .next { s.begin with
        exch := { s.begin.exch with answers := [(p, .okay (some (.word (match h with
          | .frameInfo =>
            sl.tag.zeroExtend 32 ||| (if sl.flags.fault then 0x10000 else 0) ||| (if sl.flags.carried then 0x20000 else 0) |||
              (if sl.flags.filled then 0x40000 else 0) ||| (if sl.flags.auto then 0x80000 else 0) |||
              (if b.repeated then 0x100000 else 0) ||| (if sl.state = .retired then 0x200000 else 0) |||
              BitVec.ofNat 32 (SlotId.number k) <<< 24
          | .frameTime => sl.time
          | .gap => b.gap
          | .byteCount => b.bytesRead
          | .frameSeq => 0
          | .control => 0))))] } })

/-! ### The memory port -/

/-- A grant goes to the first client in rotation that presents a request, and moves it to the lowest place. In READY, while fewer
than four requests are outstanding, its request is issued and joins the outstanding list with the timer armed; with four
outstanding nothing happens. Outside READY the request completes as ERROR with cause FAULTED in the event of the grant, without
being issued: the fourth clause is a pass-through request, the last two are any request of a front-end and the carry engine's,
whose in-flight count first rises. Where a drain ends with several accesses held, the order of their answers is the model's choice,
notes/assumptions/19.md. That the answer to an access that had been held for carry arms the fill timer is the model's reading,
notes/assumptions/17.md (R83, R94, R144, R146, R147, R150). -/
def Obligations.GrantResult : Prop :=
  ∀ (s : State) (pre post : List Client) (cl : Client) (m : MemRequest), s.resetAsserted = false → s.Quiet →
    s.memPort.rotation = pre ++ cl :: post → cl ∉ pre → cl ∉ post → (∀ d, d ∈ pre → s.exch.presented? d = none) →
    s.exch.presented? cl = some m →
    (∀ p r b, cl = .port p → (s.exch.port p).hand = .presented r m b → s.memPort.state = .ready →
      s.exch.outstanding.length < 4 →
      exec .arbiterGrant s = .next { s.begin with
        exch := { (s.begin.exch.setHand p (.outstanding r b)) with
          outstanding := s.exch.outstanding ++ [{ mem := m, discarded := false, timer := .arm s.memTimeout }] },
        memPort := { s.memPort with rotation := pre ++ post ++ [cl] }, issued := [m] }) ∧
    (∀ w k md c sl, cl = .carry → m.window = some w → m.slot = some k → (s.exch.win w).life = .live md c →
      c.slots.get k = some sl → s.memPort.state = .ready → s.exch.outstanding.length < 4 →
      exec .arbiterGrant s = .next { s.begin with
        exch := { (s.begin.exch.modWin w fun u =>
            { u with life := .live md { c with slots := c.slots.set k (some { sl with inFlight := sl.inFlight + 1 }) } }) with
          carry := { s.exch.carry with buffer := if m.kind = .carryWrite then none else s.exch.carry.buffer },
          outstanding := s.exch.outstanding ++ [{ mem := m, discarded := false, timer := .arm s.memTimeout }] },
        memPort := { s.memPort with rotation := pre ++ post ++ [cl] }, issued := [m] }) ∧
    (s.memPort.state = .ready → 4 ≤ s.exch.outstanding.length → exec .arbiterGrant s = .next s.begin) ∧
    (∀ p r b, cl = .port p → (s.exch.port p).hand = .presented r m b →
      m = { request := r, origin := .port p, kind := .passThrough, window := none, slot := none } →
      s.memPort.state ≠ .ready →
      exec .arbiterGrant s = .next { s.begin with
        exch := { (s.begin.exch.setHand p .none) with answers := [(p, .error)] },
        memPort := { s.memPort with rotation := pre ++ post ++ [cl] },
        events := s.record { EventRecord.plain s.time.ticks (.memoryError .faulted) with
          port := some p, detail := r.addr } }) ∧
    (∀ p r b y, cl = .port p → (s.exch.port p).hand = .presented r m b → s.memPort.state ≠ .ready →
      (s.begin.exch.setHand p (.outstanding r b)).Fails s.time.ticks { mem := m, discarded := false, timer := .stopped } .faulted y →
      ∃ events choices,
        exec .arbiterGrant s = .next { s.begin with
          exch := { y with raised := [] }, memPort := { s.memPort with rotation := pre ++ post ++ [cl] },
          events := events, choices := choices } ∧ s.Offers y.raised events) ∧
    (∀ w k md c sl y, cl = .carry → m.window = some w → m.slot = some k → (s.exch.win w).life = .live md c →
      c.slots.get k = some sl → s.memPort.state ≠ .ready →
      ({ s.begin.exch.modWin w (fun u =>
          { u with life := .live md { c with slots := c.slots.set k (some { sl with inFlight := sl.inFlight + 1 }) } }) with
        carry := { s.exch.carry with buffer := if m.kind = .carryWrite then none else s.exch.carry.buffer } } : Exchange).Fails s.time.ticks
          { mem := m, discarded := false, timer := .stopped } .faulted y →
      ∃ events choices,
        exec .arbiterGrant s = .next { s.begin with
          exch := { y with raised := [] }, memPort := { s.memPort with rotation := pre ++ post ++ [cl] },
          events := events, choices := choices } ∧ s.Offers y.raised events)

/-- What the carry engine presents: for a COPY block a READ of 8 words at SBASE + source×FLEN + 32×block, then a WRITE of the
buffer at the destination; for a FILL block a WRITE of 8 words of the pattern; nothing while a request of its own is
outstanding, and nothing without a current block (R83, R84, R86). An engine without a current block chooses the demand entered
earliest, else the head job's block at its pointer (R82). A demand enters a block that is neither in progress nor listed, while
the list has room (R87). A block that ends is done, and the pointer passes done blocks, whose entries leave the list (R80, R85).
A cancelled job leaves with its demands and its current block (R95). -/
def Obligations.CarryEnginePresents : Prop :=
  (∀ x : Exchange,
    ((∃ e, e ∈ x.outstanding ∧ e.mem.origin = .carry) → x.presented? .carry = none) ∧
    (x.carry.current = none → x.presented? .carry = none) ∧
    ∀ (w : Window) (b : Nat) (ph : Phase) (j : Job), (∀ e, e ∈ x.outstanding → e.mem.origin ≠ .carry) →
      x.carry.current = some { window := w, block := b, phase := ph } → x.carry.job? w = some j →
      (∀ src, j.work = .copy src → ph = .read → x.presented? .carry = some
        { request := { addr := BitVec.ofNat 32 ((x.win w).geom.sbase.toNat + SlotId.number src * (x.win w).geom.flen.toNat +
                                 32 * b),
                       access := .read (.burst 8) },
          origin := .carry, kind := .carryRead, window := some w, slot := some src }) ∧
      (∀ src words, j.work = .copy src → ph = .write → x.carry.buffer = some words → x.presented? .carry = some
        { request := { addr := BitVec.ofNat 32 ((x.win w).geom.sbase.toNat + SlotId.number j.dest * (x.win w).geom.flen.toNat +
                                 32 * b),
                       access := .write (.burst words) },
          origin := .carry, kind := .carryWrite, window := some w, slot := some j.dest }) ∧
      (∀ v, j.work = .fill v → x.presented? .carry = some
        { request := { addr := BitVec.ofNat 32 ((x.win w).geom.sbase.toNat + SlotId.number j.dest * (x.win w).geom.flen.toNat +
                                 32 * b),
                       access := .write (.burst [v, v, v, v, v, v, v, v]) },
          origin := .carry, kind := .carryWrite, window := some w, slot := some j.dest })) ∧
  (∀ e : Engine,
    let phase : Job → Phase := fun j => match j.work with
      | .copy _ => .read
      | .fill _ => .write
    (e.current ≠ none → e.choose = e) ∧
    (e.current = none → e.jobs = [] → e.order = [] → e.choose = { e with buffer := none }) ∧
    (∀ w b rest j, e.current = none → e.order = (w, b) :: rest → e.job? w = some j →
      e.choose = { e with current := some { window := w, block := b, phase := phase j }, buffer := none }) ∧
    (∀ j rest, e.current = none → e.order = [] → e.jobs = j :: rest →
      e.choose = { e with current := some { window := j.window, block := j.pointer, phase := phase j }, buffer := none })) ∧
  (∀ (e : Engine) (w : Window) (b : Nat) (j : Job) (pre post : List Job), e.jobs = pre ++ j :: post → j.window = w →
    (∀ i, i ∈ pre ++ post → i.window ≠ w) →
    ((∃ ph, e.current = some { window := w, block := b, phase := ph }) ∨ (∃ d, d ∈ j.demands ∧ d.block = b) ∨
        4 ≤ j.demands.length → e.demand w b = e) ∧
    ((∀ ph, e.current ≠ some { window := w, block := b, phase := ph }) → (∀ d, d ∈ j.demands → d.block ≠ b) →
      j.demands.length < 4 →
      e.demand w b = { e with
        jobs := pre ++ { j with demands := j.demands ++ [{ block := b, done := false }] } :: post,
        order := e.order ++ [(w, b)] }) ∧
    (e.cancel w).jobs = pre ++ post ∧ (e.cancel w).order = e.order.filter (fun d => d.1 ≠ w) ∧
    (∀ cur, e.current = some cur → cur.window ≠ w → (e.cancel w).current = some cur ∧ (e.cancel w).buffer = e.buffer) ∧
    (∀ cur, e.current = some cur → cur.window = w →
      (e.cancel w) = Engine.choose
        { jobs := pre ++ post, order := e.order.filter (fun d => d.1 ≠ w), current := none, buffer := none }) ∧
    (e.current = none → (e.cancel w).current = none)) ∧
  ∀ (j : Job) (b : Nat), (∀ d, d ∈ j.demands → j.pointer ≤ d.block) → (j.demands.map Demand.block).Nodup →
    (b = j.pointer ∨ ({ block := b, done := false } : Demand) ∈ j.demands) →
    let done : Job → Nat → Prop := fun i n => n < i.pointer ∨ ({ block := n, done := true } : Demand) ∈ i.demands
    (∀ n, done (j.blockDone b) n ↔ done j n ∨ n = b) ∧ ¬done (j.blockDone b) (j.blockDone b).pointer ∧
    j.pointer ≤ (j.blockDone b).pointer ∧ (∀ d, d ∈ (j.blockDone b).demands → (j.blockDone b).pointer ≤ d.block) ∧
    ((j.blockDone b).demands.filter fun d => !d.done) = (j.demands.filter fun d => !d.done && d.block ≠ b) ∧
    (j.blockDone b).window = j.window ∧ (j.blockDone b).work = j.work ∧ (j.blockDone b).dest = j.dest

/-- A response completes the oldest outstanding request. For a pass-through one the port is answered with it, and an ERROR is
recorded; a discarded one is answered to nobody. A response with nothing outstanding, or outside READY, changes nothing. The last
clause is any request: first the in-flight count of its slot falls, while its window has its context, and a slot that becomes FREE
serves a writer that waits. Then, at OKAY, a discarded front-end request leaves its port empty, which may leave IN_RESET; a
discarded carry request has no further effect; a request of a window that is DISABLED, or of none, is answered. At ERROR any
request completes as `Fails` says. The second part is a pass-through request at OKAY with a request that waits on the port's link:
the first one that waits is taken in the same event. For a port that leaves IN_RESET R134 and R138 say so. For an ACTIVE port whose
answer frees it R120 says only that it is taken after the answer: that it is taken at the end of that event, before the next command,
is the model's choice, notes/assumptions/7.md, unsafe in that point. Where a drain ends with several accesses held, the order of
their answers is the model's choice, notes/assumptions/19.md. That the answer to an access that had been held for carry arms the fill
timer is the model's reading, notes/assumptions/17.md (R10, R12, R22, R39, R52, R92, R112, R131, R133, R134, R138, R147, R148,
R150). -/
def Obligations.ResponseResult : Prop :=
  (∀ s : State, s.resetAsserted = false → s.Quiet →
    (∀ resp, resp.wellFormed = true → (s.memPort.state ≠ .ready ∨ s.exch.outstanding = []) →
      exec (.memoryResponse resp) s = .next s.begin) ∧
    (∀ (p : Port) (q : Request) (t : Timer) (dis : Bool) (rest : List Entry), s.memPort.state = .ready →
      s.exch.outstanding =
        { mem := { request := q, origin := .port p, kind := .passThrough, window := none, slot := none },
          discarded := dis, timer := t } :: rest →
      (∀ d, dis = false → (Response.okay d).wellFormed = true →
        exec (.memoryResponse (.okay d)) s = .next { s.begin with
          exch := { (s.begin.exch.setHand p .none) with outstanding := rest, answers := [(p, .okay d)] } }) ∧
      (dis = false →
        exec (.memoryResponse .error) s = .next { s.begin with
          exch := { (s.begin.exch.setHand p .none) with outstanding := rest, answers := [(p, .error)] },
          events := s.record { EventRecord.plain s.time.ticks (.memoryError .response) with
            port := some p, detail := q.addr } }) ∧
      (∀ d, dis = true → (Response.okay d).wellFormed = true →
        exec (.memoryResponse (.okay d)) s = .next { s.begin with
          exch := { (s.begin.exch.modPort p fun u =>
              { u with hand := .none, state := if u.state = .inReset ∧ u.prst = false then .active else u.state }) with
            outstanding := rest } })) ∧
    ∀ (e : Entry) (rest : List Entry) (y : Exchange), s.memPort.state = .ready → s.exch.outstanding = e :: rest →
      (({ s.begin.exch with outstanding := rest } : Exchange).Falls s.time.ticks e y → ∀ d, (Response.okay d).wellFormed = true →
        (∀ p, e.mem.origin = .port p → e.discarded = true →
          s.EndsIn (.memoryResponse (.okay d)) (y.modPort p fun u =>
            { u with hand := .none, state := if u.state = .inReset ∧ u.prst = false then .active else u.state })) ∧
        (e.mem.origin = .carry → e.discarded = true → s.EndsIn (.memoryResponse (.okay d)) y) ∧
        (∀ p, e.mem.origin = .port p → e.discarded = false →
          (e.mem.window = none ∨ ∃ w, e.mem.window = some w ∧ (s.exch.win w).life = .disabled) →
          s.EndsIn (.memoryResponse (.okay d)) { y.setHand p .none with answers := [(p, .okay d)] })) ∧
      (({ s.begin.exch with outstanding := rest } : Exchange).Fails s.time.ticks e .response y →
        s.EndsIn (.memoryResponse .error) y)) ∧
  ∀ (s : State) (p : Port) (q r : Request) (t : Timer) (dis : Bool) (rest : List Entry) (later : List Request) (d : Option Data),
    s.resetAsserted = false → s.Settled → s.memPort.state = .ready →
    s.exch.outstanding =
      { mem := { request := q, origin := .port p, kind := .passThrough, window := none, slot := none },
        discarded := dis, timer := t } :: rest →
    (s.exch.port p).link = r :: later → (Response.okay d).wellFormed = true →
    (dis = false → (s.exch.port p).state = .active →
      exec (.memoryResponse (.okay d)) s = .next ({ s.begin with
        exch := Exchange.take { (s.begin.exch.modPort p fun u => { u with hand := .none, link := later }) with
          outstanding := rest, answers := [(p, .okay d)] } s.time.ticks p r } : State).finish) ∧
    (dis = true → (s.exch.port p).state = .inReset → (s.exch.port p).prst = false →
      exec (.memoryResponse (.okay d)) s = .next ({ s.begin with
        exch := Exchange.take { (s.begin.exch.modPort p fun u =>
            { u with hand := .none, state := .active, link := later }) with
          outstanding := rest } s.time.ticks p r } : State).finish)

/-- A payload write of the FILLING frame that memory answers OKAY adds its bytes to bytes written and is answered OKAY; one
answered ERROR adds none, gives the frame FAULT, is recorded and is answered ERROR. A payload read of the FILLING frame is answered
with its data and adds none. In all of them the in-flight count of the slot falls, and an access that had been held for carry arms
the fill timer again (the model's reading of its answer, notes/assumptions/17.md). The write at OKAY is stated where it does not bring
bytes written from below FLEN to FLEN or above with AUTO_COMMIT on, which is AutoCommitResult. An access whose frame is no longer
FILLING, since it was abandoned or committed, is answered and adds nothing to any frame; its slot, RELEASING with nothing else in
flight, becomes FREE and serves a writer that waits (R10, R12, R22, R26, R27, R38, R39, R88, R147). -/
def Obligations.WriterWriteCompletes : Prop :=
  ∀ (s : State) (e : Entry) (rest : List Entry) (p : Port) (r : Request) (held : Bool) (w : Window) (k : SlotId),
    s.resetAsserted = false → s.Quiet → s.memPort.state = .ready → s.exch.outstanding = e :: rest → e.discarded = false →
    e.mem.origin = .port p → (e.mem.kind = .writerWrite ∨ e.mem.kind = .writerRead) → e.mem.window = some w → e.mem.slot = some k →
    (s.exch.port p).hand = .outstanding r held →
    (∀ (m : LiveMode) (c : Context) (sl : Slot), (s.exch.win w).life = .live m c → c.writer.state = .filling k →
      c.slots.get k = some sl → sl.state = .filling →
      let timer : Timer := if held then .arm (s.exch.win w).eff.timersA.tFill else c.writer.fillTimer
      (Access.isWrite r.access = true →
        ((s.exch.win w).eff.policy.autoCommit = false ∨
          c.writer.bytesWritten.toNat + Request.bytes r < (s.exch.win w).geom.flen.toNat ∨
          (s.exch.win w).geom.flen.toNat ≤ c.writer.bytesWritten.toNat) →
        exec (.memoryResponse (.okay none)) s = .next { s.begin with
          exch := { ((s.begin.exch.setHand p .none).modWin w fun u =>
              { u with life := .live m { c with
                  slots := c.slots.set k (some { sl with inFlight := sl.inFlight - 1 }),
                  writer := { c.writer with
                    fillTimer := timer,
                    bytesWritten := if c.writer.bytesWritten.toNat + Request.bytes r ≤ 0xFFFFFFFF
                      then BitVec.ofNat 32 (c.writer.bytesWritten.toNat + Request.bytes r) else 0xFFFFFFFF } } }) with
            outstanding := rest, answers := [(p, .okay none)] } }) ∧
      (Access.isWrite r.access = true →
        exec (.memoryResponse .error) s = .next { s.begin with
          exch := { ((s.begin.exch.setHand p .none).modWin w fun u =>
              { u with life := .live m { c with
                  slots := c.slots.set k (some { sl with
                    inFlight := sl.inFlight - 1, flags := { sl.flags with fault := true } }),
                  writer := { c.writer with fillTimer := timer } } }) with
            outstanding := rest, answers := [(p, .error)] },
          events := s.record { EventRecord.plain s.time.ticks (.memoryError .response) with
            window := some w, port := some p, slot := some k, detail := e.mem.request.addr } }) ∧
      (Access.isWrite r.access = false → ∀ d, (Response.okay d).wellFormed = true →
        exec (.memoryResponse (.okay d)) s = .next { s.begin with
          exch := { ((s.begin.exch.setHand p .none).modWin w fun u =>
              { u with life := .live m { c with
                  slots := c.slots.set k (some { sl with inFlight := sl.inFlight - 1 }),
                  writer := { c.writer with fillTimer := timer } } }) with
            outstanding := rest, answers := [(p, .okay d)] } })) ∧
    (∀ y d, ({ s.begin.exch with outstanding := rest } : Exchange).Falls s.time.ticks e y →
      (∀ m c, (y.win w).life = .live m c → c.writer.state ≠ .filling k) → (Response.okay d).wellFormed = true →
      s.EndsIn (.memoryResponse (.okay d)) { y.setHand p .none with answers := y.answers ++ [(p, .okay d)] })

/-- With AUTO_COMMIT on, the payload write that brings bytes written from below FLEN to FLEN or above commits the frame at its
completion, with tag 0 and flag AUTO, and its OKAY is the commit's. While the frame's carry job exists the access is held instead,
with reason CARRY_DONE, commit-pending set and the fill timer stopped. The first clause is the commit in an ACTIVE STREAM window
without a staged set or a waiting reader, where nothing more follows; the last is the commit of any window, with a staged set,
waiting readers and the end of a drain. Where a drain ends with several accesses held, the order of their answers is the model's
choice, notes/assumptions/19.md (R26, R29, R31, R33, R34, R49, R109). -/
def Obligations.AutoCommitResult : Prop :=
  ∀ (s : State) (e : Entry) (rest : List Entry) (p : Port) (r : Request) (held : Bool) (w : Window) (k : SlotId) (m : LiveMode)
    (c : Context) (sl : Slot),
    s.resetAsserted = false → s.Quiet → s.memPort.state = .ready → s.exch.outstanding = e :: rest → e.discarded = false →
    e.mem.origin = .port p → e.mem.kind = .writerWrite → e.mem.window = some w → e.mem.slot = some k →
    (s.exch.port p).hand = .outstanding r held → Access.isWrite r.access = true → (s.exch.win w).life = .live m c →
    (s.exch.win w).geom.writer = p → c.writer.state = .filling k → c.slots.get k = some sl → sl.state = .filling →
    (s.exch.win w).eff.policy.autoCommit = true →
    c.writer.bytesWritten.toNat < (s.exch.win w).geom.flen.toNat →
    (s.exch.win w).geom.flen.toNat ≤ c.writer.bytesWritten.toNat + Request.bytes r →
    let total := c.writer.bytesWritten.toNat + Request.bytes r
    let written : Word := if total ≤ 0xFFFFFFFF then BitVec.ofNat 32 total else 0xFFFFFFFF
    (m = .active → (s.exch.win w).geom.delivery = .stream → s.exch.carry.job? w = none → (s.exch.win w).staged = .none →
      (∀ q b, c.readers.get q = some b → b.state ≠ .waiting) →
      exec (.memoryResponse (.okay none)) s = .next { s.begin with
        exch := { ((s.begin.exch.setHand p .none).modWin w fun u =>
            { u with
              counters := { u.counters with committed := u.counters.committed + 1 },
              life := .live .active { c with
                slots := c.slots.set k (some { sl with
                  state := .ready, seq := some c.nextSeq, tag := 0, flags := { sl.flags with auto := true },
                  time := s.time.ticks, pending := (s.exch.win w).geom.readers, inFlight := sl.inFlight - 1 }),
                ready := c.ready ++ [k], base := some k,
                nextSeq := if c.nextSeq = 0xFFFFFFFF then 1 else c.nextSeq + 1,
                writer := { c.writer with
                  state := .noSlot, dropped := 0, fillTimer := .stopped, commitPending := false,
                  bytesWritten := written } } }) with
          outstanding := rest, answers := [(p, .okay none)] },
        events := s.record { EventRecord.plain s.time.ticks .frameCommitted with
          window := some w, port := some p, slot := some k, seq := c.nextSeq } }) ∧
    (∀ j, s.exch.carry.job? w = some j →
      exec (.memoryResponse (.okay none)) s = .next { s.begin with
        exch := { ((s.begin.exch.setHand p (.held
            { req := r, window := w, reason := .carryDone 0 true, stall := .stopped })).modWin w fun u =>
              { u with
                life := .live m { c with
                  slots := c.slots.set k (some { sl with inFlight := sl.inFlight - 1 }),
                  writer := { c.writer with fillTimer := .stopped, commitPending := true, bytesWritten := written } } }) with
          outstanding := rest } }) ∧
    (∀ z, s.exch.carry.job? w = none →
      let sl0 : Slot := { sl with inFlight := sl.inFlight - 1 }
      let c0 : Context := { c with
        slots := c.slots.set k (some sl0), writer := { c.writer with bytesWritten := written } }
      let x : Exchange := { s.begin.exch with outstanding := rest }
      x.CommitReady w c0 k →
      ({ (x.afterCommit s.time.ticks w m c0 k sl0 0 true).setHand p .none with
        answers := [(p, .okay none)] } : Exchange).DrainTested s.time.ticks w z →
      s.EndsIn (.memoryResponse (.okay none)) z)

/-- A payload read of the held frame that memory answers OKAY adds its bytes to bytes read and returns the data; one answered ERROR
adds none, is recorded with the frame's sequence number and is answered ERROR; in both the in-flight count of the slot falls. With
AUTO_RELEASE on, the read that brings bytes read from below FLEN to FLEN or above gives the slot back first (GiveBackEffect): a
writer that waits for a slot has its slot choice made again, its commit being answered before the read, and after the answer a
DRAINING window is tested for the end of its drain. A read whose reader no longer holds the slot, since it was evicted, is answered
and adds nothing; its slot, RELEASING with nothing else in flight, becomes FREE and serves a writer that waits. Where a drain ends
with several accesses held, the order of their answers is the model's choice, notes/assumptions/19.md (R10, R12, R22, R51, R52,
R55, R59, R109, R110, R122, R133, R147). -/
def Obligations.ReaderReadCompletes : Prop :=
  ∀ (s : State) (e : Entry) (rest : List Entry) (p : Port) (r : Request) (held : Bool) (w : Window) (k : SlotId) (m : LiveMode)
    (c : Context) (b : ReaderBinding),
    s.resetAsserted = false → s.Quiet → s.memPort.state = .ready → s.exch.outstanding = e :: rest → e.discarded = false →
    e.mem.origin = .port p → e.mem.kind = .readerRead → e.mem.window = some w → e.mem.slot = some k →
    (s.exch.port p).hand = .outstanding r held → (s.exch.win w).life = .live m c → c.readers.get p = some b →
    (∀ sl, b.state = .holding k → c.slots.get k = some sl → (sl.state = .ready ∨ sl.state = .retired) →
      let total := b.bytesRead.toNat + Request.bytes r
      let c0 : Context := { c with
        slots := c.slots.set k (some { sl with inFlight := sl.inFlight - 1 }),
        readers := c.readers.set p (some { b with
          bytesRead := if total ≤ 0xFFFFFFFF then BitVec.ofNat 32 total else 0xFFFFFFFF }) }
      ((s.exch.win w).eff.policy.autoRelease = false ∨ total < (s.exch.win w).geom.flen.toNat ∨
          (s.exch.win w).geom.flen.toNat ≤ b.bytesRead.toNat →
        ∀ d, (Response.okay d).wellFormed = true →
          exec (.memoryResponse (.okay d)) s = .next { s.begin with
            exch := { ((s.begin.exch.setHand p .none).modWin w fun u => { u with life := .live m c0 }) with
              outstanding := rest, answers := [(p, .okay d)] } }) ∧
      exec (.memoryResponse .error) s = .next { s.begin with
        exch := { ((s.begin.exch.setHand p .none).modWin w fun u =>
            { u with life := .live m { c with
                slots := c.slots.set k (some { sl with inFlight := sl.inFlight - 1 }) } }) with
          outstanding := rest, answers := [(p, .error)] },
        events := s.record { EventRecord.plain s.time.ticks (.memoryError .response) with
          window := some w, port := some p, slot := some k, seq := sl.seq.getD 0, detail := e.mem.request.addr } } ∧
      ((s.exch.win w).eff.policy.autoRelease = true → b.bytesRead.toNat < (s.exch.win w).geom.flen.toNat →
        (s.exch.win w).geom.flen.toNat ≤ total →
        let c1 := c0.giveBack (s.exch.win w).geom.delivery p .idle
        (c.writer.state ≠ .waiting → (m = .active ∨ m = .draining ∧ ¬c1.DrainMet (s.exch.win w).geom.delivery) →
          ∀ d, (Response.okay d).wellFormed = true →
            exec (.memoryResponse (.okay d)) s = .next { s.begin with
              exch := { ((s.begin.exch.setHand p .none).modWin w fun u => { u with life := .live m c1 }) with
                outstanding := rest, answers := [(p, .okay d)] } }) ∧
        ∀ y z d, (Response.okay d).wellFormed = true →
          ({ s.begin.exch.modWin w (fun u => { u with life := .live m c1 }) with outstanding := rest } : Exchange).Serves s.time.ticks w y →
          ({ y.setHand p .none with answers := y.answers ++ [(p, .okay d)] } : Exchange).DrainTested s.time.ticks w z →
          s.EndsIn (.memoryResponse (.okay d)) z)) ∧
    (∀ y d, b.state ≠ .holding k → ({ s.begin.exch with outstanding := rest } : Exchange).Falls s.time.ticks e y →
      (Response.okay d).wellFormed = true →
      s.EndsIn (.memoryResponse (.okay d)) { y.setHand p .none with answers := y.answers ++ [(p, .okay d)] })

/-- The carry engine at a response. A COPY read answered OKAY fills the buffer and turns to the block's write. A write answered
OKAY ends its block: the pointer moves on and the next block is chosen, or, at the last block, the job leaves the queue and a COPY
source loses its carry reference. A writer access held with reason CARRY_BLOCK is presented once the blocks it touches are done. A
commit held with reason CARRY_DONE is taken at the last block. A read or a write answered ERROR is recorded, marks the frame FAULT
and ends its block. The first part states this for a lone job without demands, each case on its own (a hold for FILL, the commit in
an ACTIVE STREAM window without a staged set or a waiting reader, ERROR before the last block and with nothing held). The second
part is every window, job and hold, FILL and COPY, with other jobs and demands in the engine: `BlockEnds` and `Fails` say what the
end of a block gives. Where a drain ends with several accesses held, the order of their answers is the model's choice,
notes/assumptions/19.md. That an access so presented is marked as having been held is the model's reading, notes/assumptions/17.md
(R81 to R85, R88, R90 to R93). -/
def Obligations.CarryBlockResult : Prop :=
  (∀ (s : State) (e : Entry) (rest : List Entry) (w : Window) (k : SlotId) (j : Job) (m : LiveMode) (c : Context) (sl : Slot),
      s.resetAsserted = false → s.Quiet → s.memPort.state = .ready → s.exch.outstanding = e :: rest → e.discarded = false →
      e.mem.origin = .carry → (e.mem.kind = .carryRead ∨ e.mem.kind = .carryWrite) → e.mem.window = some w → e.mem.slot = some k →
      s.exch.carry.jobs = [j] → j.window = w →
      s.exch.carry.order = [] → j.demands = [] → (s.exch.win w).life = .live m c → c.slots.get k = some sl →
      sl.state ≠ .releasing →
      let q := (s.exch.win w).geom.writer
      let blocks := (s.exch.win w).geom.flen.toNat / 32
      let lowered : Slot := { sl with inFlight := sl.inFlight - 1 }
      (∀ words, words.length = 8 →
        s.exch.carry.current = some { window := w, block := j.pointer, phase := .read } →
        exec (.memoryResponse (.okay (some (.burst words)))) s = .next { s.begin with
          exch := { (s.begin.exch.modWin w fun u =>
              { u with life := .live m { c with slots := c.slots.set k (some { sl with inFlight := sl.inFlight - 1 }) } }) with
            outstanding := rest,
            carry := { s.exch.carry with
              current := some { window := w, block := j.pointer, phase := .write }, buffer := some words } } }) ∧
      (∀ v, j.work = .fill v → s.exch.carry.current = some { window := w, block := j.pointer, phase := .write } →
        (∀ h, (s.exch.port (s.exch.win w).geom.writer).hand ≠ .held h) →
        exec (.memoryResponse (.okay none)) s = .next { s.begin with
          exch := { (s.begin.exch.modWin w fun u =>
              { u with life := .live m { c with slots := c.slots.set k (some { sl with inFlight := sl.inFlight - 1 }) } }) with
            outstanding := rest,
            carry :=
              if j.pointer + 1 < (s.exch.win w).geom.flen.toNat / 32 then
                { jobs := [{ j with pointer := j.pointer + 1 }], order := [],
                  current := some { window := w, block := j.pointer + 1, phase := .write }, buffer := none }
              else { jobs := [], order := [], current := none, buffer := none } } }) ∧
      (∀ src base, j.work = .copy src → src ≠ k → c.slots.get src = some base →
        s.exch.carry.current = some { window := w, block := j.pointer, phase := .write } →
        (∀ h, (s.exch.port q).hand ≠ .held h) →
        exec (.memoryResponse (.okay none)) s = .next { s.begin with
          exch := { (s.begin.exch.modWin w fun u => { u with
              life := .live m (if j.pointer + 1 < blocks then { c with slots := c.slots.set k (some lowered) }
                else { c with slots := c.slots.set k (some lowered) }.afterDrop src base) }) with
            outstanding := rest, carry := j.afterBlock blocks } }) ∧
      (∀ v r t, j.work = .fill v → j.dest = k → s.exch.carry.current = some { window := w, block := j.pointer, phase := .write } →
        (s.exch.port q).hand = .held { req := r, window := w, reason := .carryBlock, stall := t } →
        let touched := touchedBlocks (r.addr.toNat - ((s.exch.win w).geom.lbase.toNat + 32)) (Request.bytes r)
        ((∀ b, b ∈ touched → b ≤ j.pointer) →
          exec (.memoryResponse (.okay none)) s = .next { s.begin with
            exch := { ((s.begin.exch.setHand q (.presented r
                (translated (s.exch.win w).geom w q k (if Access.isWrite r.access then .writerWrite else .writerRead) r)
                true)).modWin w fun u => { u with
                  life := .live m { c with slots := c.slots.set k (some { sl with inFlight := sl.inFlight - 1 + 1 }) } }) with
              outstanding := rest, carry := j.afterBlock blocks } }) ∧
        ((∃ b, b ∈ touched ∧ j.pointer < b) →
          exec (.memoryResponse (.okay none)) s = .next { s.begin with
            exch := { (s.begin.exch.modWin w fun u =>
                { u with life := .live m { c with slots := c.slots.set k (some lowered) } }) with
              outstanding := rest, carry := j.afterBlock blocks } })) ∧
      (∀ v tag auto r t, j.work = .fill v → j.dest = k → m = .active → blocks ≤ j.pointer + 1 →
        s.exch.carry.current = some { window := w, block := j.pointer, phase := .write } →
        (s.exch.port q).hand = .held { req := r, window := w, reason := .carryDone tag auto, stall := t } →
        (s.exch.win w).geom.delivery = .stream → (s.exch.win w).staged = .none →
        (∀ o b, c.readers.get o = some b → b.state ≠ .waiting) →
        exec (.memoryResponse (.okay none)) s = .next { s.begin with
          exch := { ((s.begin.exch.setHand q .none).modWin w fun u =>
              { u with
                counters := { u.counters with committed := u.counters.committed + 1 },
                life := .live .active (c.afterCommit k
                  (lowered.afterCommit u.geom c.nextSeq tag auto s.time.ticks)) }) with
            outstanding := rest, carry := { jobs := [], order := [], current := none, buffer := none },
            answers := [(q, .okay none)] },
          events := s.record { EventRecord.plain s.time.ticks .frameCommitted with
            window := some w, port := some q, slot := some k, seq := c.nextSeq, detail := tag.zeroExtend 32 } }) ∧
      (∀ ph dest, (∀ h, (s.exch.port q).hand ≠ .held h) →
        s.exch.carry.current = some { window := w, block := j.pointer, phase := ph } →
        (ph = .read → j.dest ≠ k) → (ph = .write → j.dest = k) → c.slots.get j.dest = some dest → j.pointer + 1 < blocks →
        exec (.memoryResponse .error) s = .next { s.begin with
          exch := { (s.begin.exch.modWin w fun u => { u with life := .live m { c with
              slots := (c.slots.set k (some lowered)).set j.dest (some { dest with
                inFlight := if j.dest = k then dest.inFlight - 1 else dest.inFlight,
                flags := { dest.flags with fault := true } }) } }) with
            outstanding := rest, carry := j.afterBlock blocks },
          events := s.record { EventRecord.plain s.time.ticks (.memoryError .response) with
            window := some w, slot := some j.dest, detail := e.mem.request.addr } })) ∧
  ∀ (s : State) (e : Entry) (rest : List Entry) (w : Window) (b : Nat) (y : Exchange),
    s.resetAsserted = false → s.Quiet → s.memPort.state = .ready → s.exch.outstanding = e :: rest → e.discarded = false →
    e.mem.origin = .carry → ({ s.begin.exch with outstanding := rest } : Exchange).Falls s.time.ticks e y →
    (∀ words, words.length = 8 → y.carry.current = some { window := w, block := b, phase := .read } →
      s.EndsIn (.memoryResponse (.okay (some (.burst words)))) { y with
        carry := { y.carry with current := some { window := w, block := b, phase := .write }, buffer := some words } }) ∧
    (∀ z, y.carry.current = some { window := w, block := b, phase := .write } → y.BlockEnds s.time.ticks w b z →
      s.EndsIn (.memoryResponse (.okay none)) z) ∧
    (∀ z, ({ s.begin.exch with outstanding := rest } : Exchange).Fails s.time.ticks e .response z →
      s.EndsIn (.memoryResponse .error) z)

/-- A response timer that is due takes the memory port to FAULT and empties the outstanding list: MEMORY_TIMEOUT is recorded for
that entry, and every entry completes as ERROR in issue order, as `Fails` says, each completion whole before the next begins. Where
the list holds pass-through requests alone, every one of them is answered ERROR and no window and no carry job changes. That
MEMORY_TIMEOUT stands first among the records, that a timer that is not due does nothing, that each completion is whole and that
the slot of MEMORY_TIMEOUT is read first are the model's choices, notes/assumptions/5.md, 2.md, 23.md and 24.md. Where a drain ends
with several accesses held, the order of their answers is the model's choice, notes/assumptions/19.md. That the answer to an access
that had been held for carry arms the fill timer is the model's reading, notes/assumptions/17.md (R3, R147, R149, R150). -/
def Obligations.ResponseTimeoutResult : Prop :=
  ∀ (s : State) (place : Fin 4) (e : Entry), s.resetAsserted = false → s.Quiet → s.memPort.state = .ready →
    s.exch.outstanding[place.val]? = some e →
    (e.timer.due = false → exec (.responseTimerExpiry place) s = .next s.begin) ∧
    (e.timer.due = true → ∃ t, exec (.responseTimerExpiry place) s = .next t ∧
      t.memPort = { s.memPort with state := .fault } ∧ t.exch.outstanding = [] ∧ t.issued = [] ∧ t.time = s.time ∧
      t.mgmt = s.mgmt ∧ t.memTimeout = s.memTimeout ∧
      ((∀ f, f ∈ s.exch.outstanding → f.discarded = false ∧ f.mem.kind = .passThrough ∧ f.mem.window = none ∧
          f.mem.slot = none ∧ f.mem.origin ≠ .carry) →
        t.exch.windows = s.exch.windows ∧ t.exch.carry = s.exch.carry ∧
        t.exch.answers = s.exch.outstanding.filterMap (fun f => match f.mem.origin with
          | .port p => some (p, Response.error)
          | .carry => none) ∧
        ∀ p, s.exch.outstanding = [e] → e.mem.origin = .port p →
          t.events = ({ s with
            events := s.record { EventRecord.plain s.time.ticks .memoryTimeout with
              port := some p, detail := e.mem.request.addr } }).record
            { EventRecord.plain s.time.ticks (.memoryError .timeout) with
              port := some p, detail := e.mem.request.addr })) ∧
    (∀ y, e.timer.due = true →
      let first : EventRecord := { s.exch.failureRecord s.time.ticks e .timeout with kind := .memoryTimeout, seq := 0 }
      Exchange.AllFail s.time.ticks s.exch.outstanding.length { s.begin.exch with raised := [first] } y →
      ∃ records others choices, y.raised = first :: records ∧ others.Perm records ∧
        exec (.responseTimerExpiry place) s = .next { s.begin with
          exch := { y with raised := [] }, memPort := { s.memPort with state := .fault },
          events := ((first :: others).filter fun r => r.kind.enabled s.eventEnable).foldl EventUnit.offer s.events,
          choices := choices })

/-- RECOVER_MEMORY_PORT is taken in FAULT alone: the port enters RECOVERING with the pulse armed at four ticks; elsewhere the
status is BAD_STATE. The pulse's expiry, when due, makes the port READY. That an expiry which is not due, or that comes outside
RECOVERING, does nothing is the model's choice, notes/assumptions/2.md (R151, R152, R170). -/
def Obligations.RecoveryResult : Prop :=
  ∀ s : State, s.Settled →
    (∀ f, s.awaits f →
      (s.memPort.state = .fault →
        exec .recoverMemoryPort s = .next { s.begin with
          memPort := { s.memPort with state := .recovering, pulse := .running 4 },
          mgmt := { s.mgmt with frame := f.reply 0x31 [] [0x00] .nothing } }) ∧
      (s.memPort.state ≠ .fault →
        exec .recoverMemoryPort s = .next { s.begin with
          mgmt := { s.mgmt with frame := f.reply 0x31 [] [0x03] .nothing } })) ∧
    (s.resetAsserted = false →
      (s.memPort.state = .recovering → s.memPort.pulse.due = true →
        exec .recoveryPulseExpiry s = .next { s.begin with
          memPort := { s.memPort with state := .ready, pulse := .stopped } }) ∧
      (s.memPort.state ≠ .recovering ∨ s.memPort.pulse.due = false → exec .recoveryPulseExpiry s = .next s.begin))

/-! ### The timers of the exchange -/

/-- The fill timer's expiry, when due, abandons the FILLING frame with cause TIMEOUT and answers nobody: its slot settles, the
writer returns to NO_SLOT, ABANDONED advances; its carry job, if it has one, is cancelled, its outstanding request discarded, and a
COPY source loses its carry reference; a DRAINING window is tested for the end of its drain. The second clause is an ACTIVE window
and a frame without a job, the third any window and frame. That a base slot so abandoned is none any more in a window of any CARRY
is the model's choice, notes/assumptions/25.md, as is that a timer that is not due does nothing, notes/assumptions/2.md. Where a
drain ends with several accesses held, the order of their answers is the model's choice, notes/assumptions/19.md (R12, R37, R38,
R91, R95, R109, R110). -/
def Obligations.FillExpiryResult : Prop :=
  ∀ (s : State) (w : Window) (m : LiveMode) (c : Context), s.resetAsserted = false → s.Settled →
    (s.exch.win w).life = .live m c →
    ((c.writer.fillTimer.due = false ∨ c.writer.state = .noSlot ∨ c.writer.state = .waiting) →
      exec (.fillTimerExpiry w) s = .next s.begin) ∧
    (∀ k sl, m = .active → c.writer.fillTimer.due = true → c.writer.state = .filling k → c.slots.get k = some sl →
      k ∉ c.ready → s.exch.carry.job? w = none →
      exec (.fillTimerExpiry w) s = .next { s.begin with
        exch := s.begin.exch.modWin w fun u =>
          { u with
            counters := { u.counters with abandoned := u.counters.abandoned + 1 },
            life := .live .active { c with
              slots := c.slots.set k (some { sl with
                state := if sl.inFlight = 0 then .free else .releasing, holders := noPorts, pending := noPorts,
                carryRef := false }),
              base := if c.base = some k then none else c.base,
              writer := { c.writer with state := .noSlot, fillTimer := .stopped, commitPending := false } } },
        events := s.record { EventRecord.plain s.time.ticks (.frameAbandoned .timeout) with
          window := some w, port := some (s.exch.win w).geom.writer, slot := some k, detail := c.writer.bytesWritten } }) ∧
    (∀ k sl x c1 z, (m = .active ∨ s.Quiet) → c.writer.fillTimer.due = true → c.writer.state = .filling k → c.slots.get k = some sl →
      (s.exch.carry.job? w = none ∧ x = s.begin.exch ∧ c1 = c ∨
        ∃ j, s.exch.carry.job? w = some j ∧ (∀ src, j.work = .copy src → src ≠ k ∧ c.slots.get src ≠ none) ∧
          x = s.begin.exch.afterCancel w ∧ c1 = c.afterJob j.work) →
      ({ x.modWin w (fun u =>
          { u with
            counters := { u.counters with abandoned := u.counters.abandoned + 1 },
            life := .live m (c1.afterAbandon k sl) }) with
        raised := [{ EventRecord.plain s.time.ticks (.frameAbandoned .timeout) with
          window := some w, port := some (s.exch.win w).geom.writer, slot := some k,
          detail := c.writer.bytesWritten }] } : Exchange).DrainTested s.time.ticks w z →
      s.EndsIn (.fillTimerExpiry w) z)

/-- The hold timer's expiry, when due, evicts the reader: it gives back what it holds (GiveBackEffect), its binding is EVICTED, or
IDLE with IMPLICIT_ACQUIRE, its hold timer stopped and the rest of it kept; EXPIRED advances and HOLD_EXPIRED carries the bytes
read. A writer that waits for a slot has its slot choice made again: its wait goes on, or its payload access or CONTROL write opens
a slot, in a window of any CARRY; a DRAINING window is tested for the end of its drain. The second clause is an eviction without
either, the third every eviction. That a timer that is not due does nothing is the model's choice, notes/assumptions/2.md. Where a
drain ends with several accesses held, the order of their answers is the model's choice, notes/assumptions/19.md (R22, R53, R57,
R109, R110). -/
def Obligations.HoldExpiryResult : Prop :=
  ∀ (s : State) (w : Window) (p : Port) (m : LiveMode) (c : Context) (b : ReaderBinding), s.resetAsserted = false → s.Quiet →
    (s.exch.win w).life = .live m c → c.readers.get p = some b →
    (b.holdTimer.due = false → exec (.holdTimerExpiry w p) s = .next s.begin) ∧
    (∀ k sl, b.holdTimer.due = true → b.state = .holding k → c.slots.get k = some sl →
      let after : ReaderState := if (s.exch.win w).geom.implicitAcquire then .idle else .evicted
      let c1 := c.giveBack (s.exch.win w).geom.delivery p after
      let record : EventRecord := { EventRecord.plain s.time.ticks .holdExpired with
        window := some w, port := some p, slot := some k, seq := sl.seq.getD 0, detail := b.bytesRead }
      (c1.readers = c.readers.set p (some { b with state := after, holdTimer := .stopped }) ∧ c1.writer = c.writer ∧
        ∀ j, j ≠ k → c1.slots.get j = c.slots.get j) ∧
      (c.writer.state ≠ .waiting → (m = .active ∨ m = .draining ∧ ¬c1.DrainMet (s.exch.win w).geom.delivery) →
        exec (.holdTimerExpiry w p) s = .next { s.begin with
          exch := s.begin.exch.modWin w fun u =>
            { u with counters := { u.counters with expired := u.counters.expired + 1 }, life := .live m c1 },
          events := s.record record }) ∧
      ∀ y z, (s.begin.exch.modWin w fun u => { u with life := .live m c1 }).Serves s.time.ticks w y →
        ({ y.modWin w (fun u => { u with counters := { u.counters with expired := u.counters.expired + 1 } }) with
          raised := y.raised ++ [record] } : Exchange).DrainTested s.time.ticks w z →
        s.EndsIn (.holdTimerExpiry w p) z)

/-- The stall timer's expiry, when due, ends the wait with ERROR: a SLOT wait leaves the writer NO_SLOT, a FRAME wait the reader
IDLE; EXPIRED advances and STALL_EXPIRED carries the address. That a timer that is not due does nothing is the model's choice,
notes/assumptions/2.md (R69). -/
def Obligations.StallExpiryResult : Prop :=
  ∀ (s : State) (p : Port) (h : Held) (m : LiveMode) (c : Context), s.resetAsserted = false → s.Quiet →
    (s.exch.port p).hand = .held h → (s.exch.win h.window).life = .live m c →
    (h.stall.due = false → exec (.stallTimerExpiry p) s = .next s.begin) ∧
    (h.stall.due = true → h.reason = .slot →
      exec (.stallTimerExpiry p) s = .next { s.begin with
        exch := { ((s.begin.exch.setHand p .none).modWin h.window fun u =>
            { u with
              counters := { u.counters with expired := u.counters.expired + 1 },
              life := .live m { c with writer := { c.writer with state := .noSlot } } }) with
          answers := [(p, .error)] },
        events := s.record { EventRecord.plain s.time.ticks (.stallExpired .slot) with
          window := some h.window, port := some p, detail := h.req.addr } }) ∧
    (∀ b, h.stall.due = true → h.reason = .frame → c.readers.get p = some b →
      exec (.stallTimerExpiry p) s = .next { s.begin with
        exch := { ((s.begin.exch.setHand p .none).modWin h.window fun u =>
            { u with
              counters := { u.counters with expired := u.counters.expired + 1 },
              life := .live m { c with readers := c.readers.set p (some { b with state := .idle }) } }) with
          answers := [(p, .error)] },
        events := s.record { EventRecord.plain s.time.ticks (.stallExpired .frame) with
          window := some h.window, port := some p, detail := h.req.addr } })

/-! ### The management port -/

/-- CS_N falls: a frame begins with nothing received, or, while RESET_N is asserted, one that is ignored. CS_N rises: the frame
state is cleared. Byte 0 picks the command, one that is not in the table being answered UNKNOWN_COMMAND; a command is taken with
its last argument byte, as its row says, and what arrives after that is ignored. READ TIME returns the tick counter, its highest
byte first. MISO carries the filler until the command is taken, then the response, then the filler or BAD_ARGUMENT; it is not
driven outside a frame that is taken; that it is not in a frame that is ignored, once RESET_N is deasserted, is the model's choice,
notes/assumptions/26.md (R154, R155, R156, R170). -/
def Obligations.SpiFrameResult : Prop :=
  ∀ s : State, s.Settled →
    (s.mgmt.frame = .closed → s.resetAsserted = false →
      exec (.spiFrameStart .edge) s = .next { s.begin with
        mgmt := { s.mgmt with
          frame := .running
            { code := none, args := [], taken := false, response := [], position := 0, filler := 0xFF, todo := .nothing } } }) ∧
    (s.mgmt.frame = .closed → s.resetAsserted = true →
      exec (.spiFrameStart .edge) s = .next { s.begin with mgmt := { s.mgmt with frame := .ignored } }) ∧
    exec .spiFrameEnd s = .next { s.begin with mgmt := { s.mgmt with frame := .closed } } ∧
    (∀ f, s.awaits f →
      let arrived : Byte → List Byte → State := fun code args =>
        { s with mgmt := { s.mgmt with frame := .running { f with code := some code, args := args } } }
      (∀ code, code ∉ [0x01, 0x02, 0x10, 0x11, 0x12, 0x18, 0x19, 0x1A, 0x20, 0x28, 0x30, 0x31, 0x38] →
        exec (.unknownCommand code) s = .next { s.begin with
          mgmt := { s.mgmt with frame := f.reply code [] [0x01] .nothing } } ∧
        exec (.spiFrameStart (.byte code)) s = exec (.unknownCommand code) s) ∧
      exec .readTime s = .next { s.begin with
        mgmt := { s.mgmt with
          frame := f.reply 0x38 []
            [0x00, (s.time.ticks >>> 24).truncate 8, (s.time.ticks >>> 16).truncate 8, (s.time.ticks >>> 8).truncate 8,
             s.time.ticks.truncate 8] .nothing } } ∧
      exec (.spiFrameStart (.byte 0x19)) s = exec .readSnapshot s ∧
      exec (.spiFrameStart (.byte 0x1A)) s = exec .discardSnapshot s ∧
      exec (.spiFrameStart (.byte 0x30)) s = exec .restart s ∧
      exec (.spiFrameStart (.byte 0x31)) s = exec .recoverMemoryPort s ∧
      exec (.spiFrameStart (.byte 0x38)) s = exec .readTime s ∧
      (∀ code, code ∈ [0x01, 0x02, 0x10, 0x11, 0x12, 0x18, 0x20, 0x28] →
        exec (.spiFrameStart (.byte code)) s = .next (arrived code []).begin) ∧
      (∀ a,
        exec (.spiFrameStart (.byte a)) (arrived 0x11 []) = exec (.drain a) s ∧
        exec (.spiFrameStart (.byte a)) (arrived 0x12 []) = exec (.disable a) s ∧
        exec (.spiFrameStart (.byte a)) (arrived 0x18 []) = exec (.snapshot a) s ∧
        exec (.spiFrameStart (.byte a)) (arrived 0x20 []) = exec (.readEvents a) s ∧
        exec (.spiFrameStart (.byte a)) (arrived 0x28 []) = exec (.clearCounters a) s ∧
        (∀ code, code ∈ [0x01, 0x02, 0x10] →
          exec (.spiFrameStart (.byte a)) (arrived code []) = .next (arrived code [a]).begin) ∧
        ∀ b,
          exec (.spiFrameStart (.byte b)) (arrived 0x01 [a]) = exec (.readRegisters (.taken a b)) s ∧
          exec (.spiFrameStart (.byte b)) (arrived 0x02 [a]) = exec (.writeRegisters ⟨a, b, []⟩) s ∧
          exec (.spiFrameStart (.byte b)) (arrived 0x10 [a]) = exec (.enable a b) s)) ∧
    (∀ f, s.mgmt.frame = .running f → f.taken = true → f.todo = .nothing →
      (∀ b, exec (.spiFrameStart (.byte b)) s = .next { s.begin with
        mgmt := { s.mgmt with frame := .running { f with position := f.position + 1 } } }) ∧
      exec .restart s = .next s.begin ∧ ∀ b, exec (.disable b) s = .next s.begin) ∧
    ((s.resetAsserted = true ∨ s.mgmt.frame = .closed ∨ s.mgmt.frame = .ignored) → s.miso = none) ∧
    ∀ f, s.resetAsserted = false → s.mgmt.frame = .running f →
      (f.taken = false → s.miso = some 0xFF) ∧
      (∀ b, f.taken = true → f.response[f.position]? = some b → s.miso = some b) ∧
      (f.taken = true → f.todo = .nothing → f.response.length ≤ f.position → s.miso = some f.filler)

/-- READ REGISTERS and WRITE REGISTERS are taken for 1 to 64 registers none of which lies above 0xFF, and answered BAD_ARGUMENT
otherwise, a write at its count byte, with its data ignored. Each register of a read is latched, with the value that it shows at
that moment, as the first bit of its first byte goes out. The data of a write go to its registers, four bytes each, in address
order (R154, R155, R156, R158, R159, R160, R182, R186, R187). -/
def Obligations.RegisterFrameResult : Prop :=
  ∀ s : State, s.Settled →
    (∀ f a n, s.awaits f → 1 ≤ n.toNat → n.toNat ≤ 64 → a.toNat + n.toNat ≤ 256 →
      exec (.readRegisters (.taken a n)) s = .next { s.begin with
        mgmt := { s.mgmt with frame := f.reply 0x01 [a, n] [0x00] (.registers a.toNat n.toNat) } } ∧
      exec (.writeRegisters ⟨a, n, []⟩) s = .next { s.begin with
        mgmt := { s.mgmt with
          frame := .running
            { f with code := some 0x02, args := [a, n], todo := .writes a.toNat n.toNat false } } } ∧
      ∀ front v t r, front.length = 4 * r.toNat → r.toNat < n.toNat → exec (.writeRegisters ⟨a, n, front⟩) s = .next t →
        exec (.writeRegisters ⟨a, n, front ++ bytesOf v⟩) s = exec (.registerWrite (a + r) v) t) ∧
    (∀ f a n data, s.awaits f → (n.toNat = 0 ∨ 64 < n.toNat ∨ 256 < a.toNat + n.toNat) →
      exec (.readRegisters (.taken a n)) s = .next { s.begin with
        mgmt := { s.mgmt with frame := f.reply 0x01 [a, n] [0x02] .nothing } } ∧
      exec (.writeRegisters ⟨a, n, data⟩) s = .next { s.begin with
        mgmt := { s.mgmt with
          frame := .running
            { f with code := some 0x02, args := [a, n], taken := true, response := [0x02], position := data.length,
                     filler := 0x02, todo := .nothing } } }) ∧
    ∀ g next left, s.mgmt.frame = .running g → g.taken = true → g.todo = .registers next (left + 1) →
      let latched : Mgmt :=
        { s.mgmt with
          frame := .running
            { g with
              response := g.response ++ bytesOf (s.shows next), position := g.response.length,
              todo := if left = 0 then .nothing else .registers (next + 1) left } }
      (g.position ≤ g.response.length → exec (.readRegisters .nextRegister) s = .next { s.begin with mgmt := latched }) ∧
      (g.position = g.response.length →
        exec (.spiFrameStart .firstBit) s = .next { s.begin with mgmt := latched } ∧
        (s.resetAsserted = false → s.miso = some ((s.shows next >>> 24).truncate 8)))

/-- The fourth data byte for the next register of a WRITE REGISTERS frame. The global settings take the low bits. A locked
register takes the value in a DISABLED window and is otherwise left, with LOCKED to come. A staged register takes it at once in a
DISABLED window and is otherwise staged. A write to a read-only or unnamed address is ignored. With the last register the command
is taken in the same event, its status LOCKED if a locked write was ignored in the frame, and OK otherwise. A byte before the
fourth is received, and nothing else happens. That a register write at an address other than the frame's next register does nothing
is the model's choice, notes/assumptions/12.md (R116, R117, R155, R159, R161, R186, R187). -/
def Obligations.RegisterWriteResult : Prop :=
  ∀ (s : State) (g : FrameState) (next left : Nat) (locked : Bool) (v : Word), s.Settled → s.mgmt.frame = .running g →
    g.code = some 0x02 → g.taken = false → 2 ≤ g.args.length → g.args.length % 4 = 2 → g.todo = .writes next (left + 1) locked →
    let after : Bool → Mgmt := fun ignored =>
      { s.mgmt with
        frame := .running
          (if left = 0 then
            { g with args := g.args ++ bytesOf v, taken := true, response := [if locked || ignored then 0x04 else 0x00],
                     position := 0, filler := 0xFF, todo := .nothing }
          else { g with args := g.args ++ bytesOf v, todo := .writes (next + 1) left (locked || ignored) }) }
    (next = 0x00 → exec (.tbDivWrite v) s =
      .next { s.begin with time := { s.time with tbDiv := v.truncate 16 }, mgmt := after false }) ∧
    (next = 0x01 → exec (.memTimeoutWrite v) s = .next { s.begin with memTimeout := v.truncate 16, mgmt := after false }) ∧
    (next = 0x02 → exec (.eventEnableWrite v) s = .next { s.begin with eventEnable := v.truncate 8, mgmt := after false }) ∧
    (∀ (a : Byte), a.toNat = next →
      ((next = 0x00 → exec (.registerWrite a v) s = exec (.tbDivWrite v) s) ∧
        (next = 0x01 → exec (.registerWrite a v) s = exec (.memTimeoutWrite v) s) ∧
        (next = 0x02 → exec (.registerWrite a v) s = exec (.eventEnableWrite v) s) ∧
        (∀ w reg, next = 0x80 + 16 * Window.number w + LockedReg.offset reg →
          exec (.registerWrite a v) s = exec (.lockedRegisterWrite w reg v) s) ∧
        (∀ w reg, next = 0x80 + 16 * Window.number w + StagedReg.offset reg →
          exec (.registerWrite a v) s = exec (.stagedRegisterWrite w reg v) s)) ∧
      (3 ≤ next ∧ next < 0x80 ∨ 0x80 ≤ next ∧ 8 ≤ next % 16 →
        exec (.registerWrite a v) s = .next { s.begin with mgmt := after false }) ∧
      (∀ part b rest, bytesOf v = part ++ b :: rest →
        let partly : State :=
          { s with mgmt := { s.mgmt with frame := .running { g with args := g.args ++ part } } }
        exec (.registerWrite a v) partly = exec (.registerWrite a v) s ∧
        (rest = [] → exec (.spiFrameStart (.byte b)) partly = exec (.registerWrite a v) s) ∧
        (rest ≠ [] → exec (.spiFrameStart (.byte b)) partly = .next { s.begin with
          mgmt := { s.mgmt with frame := .running { g with args := g.args ++ part ++ [b] } } }))) ∧
    (∀ (a : Byte), a.toNat ≠ next → exec (.registerWrite a v) s = .next s.begin) ∧
    (∀ w, (s.exch.win w).life ≠ .disabled →
      (∀ reg, next = 0x80 + 16 * Window.number w + LockedReg.offset reg →
        exec (.lockedRegisterWrite w reg v) s = .next { s.begin with mgmt := after true }) ∧
      (∀ reg, next = 0x80 + 16 * Window.number w + StagedReg.offset reg →
        exec (.stagedRegisterWrite w reg v) s = .next { s.begin with
          exch := s.begin.exch.modWin w fun u => { u with staged := match reg with
            | .policy => { u.staged with policy := some (Policy.ofBits v) }
            | .fillPattern => { u.staged with fillPattern := some v }
            | .timersA => { u.staged with timersA := some { tFill := v.truncate 16, tHold := (v >>> 16).truncate 16 } }
            | .timersB => { u.staged with tStall := some (v.truncate 16) } },
          mgmt := after false })) ∧
    (∀ w, (s.exch.win w).life = .disabled →
      (∀ reg, next = 0x80 + 16 * Window.number w + LockedReg.offset reg →
        exec (.lockedRegisterWrite w reg v) s = .next { s.begin with
          exch := s.begin.exch.modWin w fun u => { u with geom := match reg with
            | .lbase => { u.geom with lbase := v }
            | .flen => { u.geom with flen := v }
            | .sbase => { u.geom with sbase := v }
            | .geom => u.geom.ofBits v },
          mgmt := after false }) ∧
      (∀ reg, next = 0x80 + 16 * Window.number w + StagedReg.offset reg →
        exec (.stagedRegisterWrite w reg v) s = .next { s.begin with
          exch := s.begin.exch.modWin w fun u => { u with eff := match reg with
            | .policy => { u.eff with policy := Policy.ofBits v }
            | .fillPattern => { u.eff with fillPattern := v }
            | .timersA => { u.eff with timersA := { tFill := v.truncate 16, tHold := (v >>> 16).truncate 16 } }
            | .timersB => { u.eff with tStall := v.truncate 16 } },
          mgmt := after false }))

/-- The descriptor checks of ENABLE, in order: the reason is that of the first check that fails, and there is none where all eight
pass (R102). -/
def Obligations.DescriptorChecks : Prop :=
  ∀ (ws : PerWindow WindowUnit) (w : Window),
    let g := (ws.get w).geom
    let logical : Geometry → Nat → Prop := fun h a => h.lbase.toNat ≤ a ∧ a < h.lbase.toNat + 32 + h.flen.toNat
    let area : Geometry → Nat → Prop := fun h a => h.sbase.toNat ≤ a ∧ a < h.sbase.toNat + h.slots.toNat * h.flen.toNat
    let fails : Nat → Prop := fun n => match n with
      | 1 => g.flen.toNat % 32 ≠ 0 ∨ g.flen.toNat < 64 ∨ 1048576 < g.flen.toNat
      | 2 => g.slots.toNat < 2 ∨ 4 < g.slots.toNat
      | 3 => g.readers = noPorts ∨ (∀ p, g.readers.get p = true) ∨ g.readers.get g.writer = true
      | 4 => g.delivery = .latest ∧ g.slots.toNat < (Port.all.countP fun p => g.readers.get p) + 2
      | 5 => g.lbase.toNat % 32 ≠ 0 ∨ g.sbase.toNat % 32 ≠ 0
      | 6 => 2 ^ 32 < g.lbase.toNat + 32 + g.flen.toNat ∨ 2 ^ 32 < g.sbase.toNat + g.slots.toNat * g.flen.toNat
      | 7 => ∃ a, logical g a ∧ area g a
      | 8 => ∃ v, v ≠ w ∧ (ws.get v).life ≠ .disabled ∧
          ∃ a, (logical g a ∨ area g a) ∧ (logical (ws.get v).geom a ∨ area (ws.get v).geom a)
      | _ => False
    (∀ n, 1 ≤ n → n ≤ 8 → (configReason ws w = some (BitVec.ofNat 8 n) ↔ fails n ∧ ∀ i, i < n → ¬fails i)) ∧
    (configReason ws w = none ↔ ∀ n, ¬fails n)

/-- ENABLE, the first test that fails deciding: BAD_ARGUMENT, BAD_STATE, BAD_CONFIG with the reason, BUSY; otherwise OK: the
window is in the requested mode with a new context, every slot below SLOTS FREE, every binding at rest, WINDOW_STATE is recorded,
and nothing else changes (R9, R15, R16, R101, R103, R104, R162). -/
def Obligations.EnableResult : Prop :=
  ∀ (s : State) (f : FrameState) (window mode : Byte), s.Settled → s.awaits f →
    let refused : List Byte → State := fun response =>
      { s.begin with mgmt := { s.mgmt with frame := f.reply 0x10 [window, mode] response .nothing } }
    (8 ≤ window.toNat ∨ 2 ≤ mode.toNat → exec (.enable window mode) s = .next (refused [0x02])) ∧
    ∀ w : Window, window.toNat = Window.number w → mode.toNat < 2 →
      ((s.exch.win w).life ≠ .disabled → exec (.enable window mode) s = .next (refused [0x03])) ∧
      ((s.exch.win w).life = .disabled →
        (∀ reason, configReason s.exch.windows w = some reason →
          exec (.enable window mode) s = .next (refused [0x05, reason])) ∧
        let attributed : Prop :=
          (∃ p r m b, (s.exch.port p).hand = .presented r m b ∧ m.window = some w) ∨
            ∃ e, e ∈ s.exch.outstanding ∧ e.mem.window = some w
        (configReason s.exch.windows w = none → attributed → exec (.enable window mode) s = .next (refused [0x06])) ∧
        (configReason s.exch.windows w = none → ¬attributed →
          let slot : Slot :=
            { state := .free, seq := none, tag := 0, flags := { fault := false, carried := false, filled := false, auto := false },
              time := 0, holders := noPorts, pending := noPorts, carryRef := false, inFlight := 0 }
          let reader : ReaderBinding :=
            { state := .idle, lastSeq := 0, gap := 0, repeated := false, bytesRead := 0, holdTimer := .stopped }
          let present : Nat → Option Slot := fun n => if n < (s.exch.win w).geom.slots.toNat then some slot else none
          let fresh : Context :=
            { slots := ⟨present 0, present 1, present 2, present 3⟩, ready := [],
              writer := { state := .noSlot, bytesWritten := 0, dropped := 0, fillTimer := .stopped, commitPending := false },
              readers := PerPort.ofFn fun p => if (s.exch.win w).geom.readers.get p then some reader else none,
              base := none, nextSeq := 1 }
          exec (.enable window mode) s = .next { s.begin with
            exch := s.begin.exch.modWin w fun u => { u with life := .live (if mode = 0 then .observe else .active) fresh },
            events := s.record { EventRecord.plain s.time.ticks (.windowState .enable) with
              window := some w, detail := if mode = 0 then 1 else 2 },
            mgmt := { s.mgmt with frame := f.reply 0x10 [window, mode] [0x00] .nothing } }))

/-- DRAIN takes an ACTIVE window to DRAINING, or on to DISABLED when nothing is left to drain; a WAITING writer is refused first,
its access answered ERROR. DISABLE disables any window, and RESTART every window: held accesses are answered ERROR, the carry job is
cancelled and its outstanding request discarded, the staged set comes into effect, geometry and counters stay, each window has its
WINDOW_STATE record, and RESTART one of its own with the number of windows. RESTART empties the snapshot buffer as well. The clause
on the engine after RESTART is stated for jobs, demands and a current block of windows that are not DISABLED. The order of the
answers to several accesses held for one window is the model's choice, notes/assumptions/19.md (R75, R95, R108 to R111, R114, R118,
R162, R169). -/
def Obligations.WindowsAreDisabled : Prop :=
  ∀ (s : State) (f : FrameState), s.Quiet → s.awaits f →
    let drainReply : List Byte → Byte → Mgmt := fun response window =>
      { s.mgmt with frame := f.reply 0x11 [window] response .nothing }
    let disableReply : List Byte → Byte → Mgmt := fun response window =>
      { s.mgmt with frame := f.reply 0x12 [window] response .nothing }
    (∀ window : Byte, 8 ≤ window.toNat →
      exec (.drain window) s = .next { s.begin with mgmt := drainReply [0x02] window } ∧
      exec (.disable window) s = .next { s.begin with mgmt := disableReply [0x02] window }) ∧
    (∀ (window : Byte) (w : Window), window.toNat = Window.number w →
      ((s.exch.win w).mode? ≠ some .active →
        exec (.drain window) s = .next { s.begin with mgmt := drainReply [0x03] window }) ∧
      (∀ c, (s.exch.win w).life = .live .active c → c.writer.state ≠ .waiting →
        (¬c.DrainMet (s.exch.win w).geom.delivery →
          exec (.drain window) s = .next { s.begin with
            exch := s.begin.exch.modWin w fun u => { u with life := .live .draining c },
            events := s.record { EventRecord.plain s.time.ticks (.windowState .drain) with window := some w, detail := 3 },
            mgmt := drainReply [0x00] window }) ∧
        (c.DrainMet (s.exch.win w).geom.delivery →
          ∃ y events choices,
            exec (.drain window) s = .next { s.begin with
              exch := y, events := events, choices := choices, mgmt := drainReply [0x00] window } ∧
            s.begin.exch.BecomesDisabled y w ∧
            s.Offers ((s.exch.win w).disableRecords s.time.ticks w .drained) events)) ∧
      (∀ c h t, (s.exch.win w).life = .live .active c → c.writer.state = .waiting →
        (s.exch.port (s.exch.win w).geom.writer).hand = .held { req := h, window := w, reason := .slot, stall := t } →
        let p := (s.exch.win w).geom.writer
        let refused : EventRecord := { EventRecord.plain s.time.ticks (.writerRefused .draining) with
          window := some w, port := some p, detail := h.addr }
        let answered : Exchange := { s.begin.exch.setHand p .none with answers := [(p, .error)] }
        (¬c.DrainMet (s.exch.win w).geom.delivery →
          ∃ events choices,
            exec (.drain window) s = .next { s.begin with
              exch := answered.modWin w fun u =>
                { u with life := .live .draining { c with writer := { c.writer with state := .noSlot } } },
              events := events, choices := choices, mgmt := drainReply [0x00] window } ∧
            s.Offers
              [refused, { EventRecord.plain s.time.ticks (.windowState .drain) with window := some w, detail := 3 }] events) ∧
        (c.DrainMet (s.exch.win w).geom.delivery →
          ∃ y events choices,
            exec (.drain window) s = .next { s.begin with
              exch := y, events := events, choices := choices, mgmt := drainReply [0x00] window } ∧
            answered.BecomesDisabled y w ∧
            s.Offers (refused :: (s.exch.win w).disableRecords s.time.ticks w .drained) events)) ∧
      ((s.exch.win w).life = .disabled →
        exec (.disable window) s = .next { s.begin with mgmt := disableReply [0x00] window }) ∧
      ((s.exch.win w).life ≠ .disabled →
        ∃ y events choices,
          exec (.disable window) s = .next { s.begin with
            exch := y, events := events, choices := choices, mgmt := disableReply [0x00] window } ∧
          s.begin.exch.BecomesDisabled y w ∧
          s.Offers ((s.exch.win w).disableRecords s.time.ticks w .disable) events)) ∧
    let live : Window → Bool := fun w => decide ((s.exch.win w).life ≠ .disabled)
    let ends : Port → Bool := fun p => Window.all.any fun w => live w && (s.exch.port p).heldFor w
    ∃ y events choices,
      exec .restart s = .next { s.begin with
        exch := y, events := events, choices := choices,
        mgmt := { frame := f.reply 0x30 [] [0x00] .nothing, snapshot := none } } ∧
      (∀ w, y.win w = if live w then { (s.exch.win w).afterApplying with life := .disabled } else s.exch.win w) ∧
      (∀ p, y.port p = if ends p then { s.exch.port p with hand := .none } else s.exch.port p) ∧
      (∀ p, y.answers.filter (fun a => a.1 = p) = if ends p then [(p, Response.error)] else []) ∧
      (∀ w, live w = true → y.carry.job? w = none) ∧
      ((∀ j, j ∈ s.exch.carry.jobs → live j.window = true) → (∀ d, d ∈ s.exch.carry.order → s.exch.carry.job? d.1 ≠ none) →
        (∀ cur, s.exch.carry.current = some cur → s.exch.carry.job? cur.window ≠ none) →
        y.carry.jobs = [] ∧ y.carry.order = [] ∧ y.carry.current = none) ∧
      y.outstanding = s.exch.outstanding.map (fun e =>
        if e.mem.origin = .carry ∧ (e.mem.window.any fun w => live w && (s.exch.carry.job? w).isSome) = true
        then { e with discarded := true } else e) ∧
      y.raised = [] ∧
      s.Offers
        (((Window.all.filter live).flatMap fun w => (s.exch.win w).disableRecords s.time.ticks w .restart) ++
          [{ EventRecord.plain s.time.ticks .restart with detail := BitVec.ofNat 32 (Window.all.countP live) }]) events

/-- SNAPSHOT latches the 128 bytes of the window, laid out as R189 says, into an EMPTY buffer and is answered SNAP_PENDING on a
FULL one; READ SNAPSHOT sends the buffer, DISCARD SNAPSHOT empties it, both answering EMPTY on an EMPTY one; the buffer is EMPTY
once byte 127 has gone out, and not before. Nothing else changes (R154, R162 to R165, R189). -/
def Obligations.SnapshotResult : Prop :=
  ∀ s : State, s.Settled →
    (∀ f, s.awaits f →
      (∀ window : Byte, 8 ≤ window.toNat →
        exec (.snapshot window) s = .next { s.begin with
          mgmt := { s.mgmt with frame := f.reply 0x18 [window] [0x02] .nothing } }) ∧
      (∀ (window : Byte) (w : Window), window.toNat = Window.number w →
        (s.mgmt.snapshot ≠ none →
          exec (.snapshot window) s = .next { s.begin with
            mgmt := { s.mgmt with frame := f.reply 0x18 [window] [0x08] .nothing } }) ∧
        (s.mgmt.snapshot = none → ∃ bytes, s.exch.Shows s.time.ticks w bytes ∧
          exec (.snapshot window) s = .next { s.begin with
            mgmt := { frame := f.reply 0x18 [window] [0x00] .nothing, snapshot := some bytes } })) ∧
      (s.mgmt.snapshot = none →
        exec .readSnapshot s = .next { s.begin with
          mgmt := { s.mgmt with frame := f.reply 0x19 [] [0x07] .nothing } } ∧
        exec .discardSnapshot s = .next { s.begin with
          mgmt := { s.mgmt with frame := f.reply 0x1A [] [0x07] .nothing } }) ∧
      (∀ bytes, s.mgmt.snapshot = some bytes →
        exec .readSnapshot s = .next { s.begin with
          mgmt := { s.mgmt with frame := f.reply 0x19 [] (0x00 :: bytes) .snapshot } } ∧
        exec .discardSnapshot s = .next { s.begin with
          mgmt := { frame := f.reply 0x1A [] [0x00] .nothing, snapshot := none } })) ∧
    ∀ g, s.mgmt.frame = .running g → g.taken = true → g.todo = .snapshot → g.position < g.response.length →
      exec .snapshotConsumed s = .next { s.begin with
        mgmt := { frame := .running { g with position := g.response.length, todo := .nothing }, snapshot := none } } ∧
      ∀ b,
        (g.position + 1 = g.response.length → exec (.spiFrameStart (.byte b)) s = exec .snapshotConsumed s) ∧
        (g.position + 1 < g.response.length → exec (.spiFrameStart (.byte b)) s = .next { s.begin with
          mgmt := { s.mgmt with frame := .running { g with position := g.position + 1 } } })

/-- READ EVENTS answers the lesser of its maximum and the records held, EMPTY on an empty queue, BAD_ARGUMENT outside 1 to 8. The
head record is latched, in its 16 bytes, as the first bit of its first byte goes out, and leaves the queue once its sixteenth byte
has gone out; a LOST_COUNT that is not 0 then becomes an EVENTS_LOST record at the tail and returns to 0 (R154, R166, R172 to
R174, R177, R178, R188). -/
def Obligations.EventReadResult : Prop :=
  ∀ s : State, s.Settled →
    (∀ (f : FrameState) (maximum : Byte), s.awaits f →
      (maximum.toNat = 0 ∨ 8 < maximum.toNat →
        exec (.readEvents maximum) s = .next { s.begin with
          mgmt := { s.mgmt with frame := f.reply 0x20 [maximum] [0x02] .nothing } }) ∧
      (1 ≤ maximum.toNat → maximum.toNat ≤ 8 → s.events.queue = [] →
        exec (.readEvents maximum) s = .next { s.begin with
          mgmt := { s.mgmt with frame := f.reply 0x20 [maximum] [0x07] .nothing } }) ∧
      (1 ≤ maximum.toNat → maximum.toNat ≤ 8 → s.events.queue ≠ [] →
        exec (.readEvents maximum) s = .next { s.begin with
          mgmt := { s.mgmt with
            frame := f.reply 0x20 [maximum]
              [0x00, BitVec.ofNat 8 (min maximum.toNat s.events.queue.length)]
              (.records (min maximum.toNat s.events.queue.length) false) } })) ∧
    ∀ g n r rest, s.mgmt.frame = .running g → g.taken = true → s.events.queue = r :: rest →
      let removed : EventUnit :=
        { queue := if s.events.lost = 0 then rest else rest ++
            [{ EventRecord.plain s.time.ticks .eventsLost with detail := s.events.lost.zeroExtend 32 }],
          lost := 0 }
      let left : Todo := if n = 0 then .nothing else .records n false
      (g.todo = .records (n + 1) false → g.position = g.response.length →
        exec (.spiFrameStart .firstBit) s = .next { s.begin with
          mgmt := { s.mgmt with
            frame := .running { g with response := g.response ++ r.layout, todo := .records (n + 1) true } } } ∧
        (s.resetAsserted = false → s.miso = some r.kind.encoding.1)) ∧
      (g.todo = .records (n + 1) false → g.position ≤ g.response.length →
        exec .eventRecordRemoval s = .next { s.begin with
          events := removed,
          mgmt := { s.mgmt with
            frame := .running
              { g with response := g.response ++ r.layout, position := g.response.length + 16, todo := left } } }) ∧
      (g.todo = .records (n + 1) true → g.position < g.response.length →
        exec .eventRecordRemoval s = .next { s.begin with
          events := removed,
          mgmt := { s.mgmt with frame := .running { g with position := g.response.length, todo := left } } } ∧
        ∀ b,
          (g.position + 1 = g.response.length → exec (.spiFrameStart (.byte b)) s = exec .eventRecordRemoval s) ∧
          (g.position + 1 < g.response.length → exec (.spiFrameStart (.byte b)) s = .next { s.begin with
            mgmt := { s.mgmt with frame := .running { g with position := g.position + 1 } } }))

/-- CLEAR COUNTERS zeroes the six counters of the window named, or of every window for 0xFF, whatever the window states, with
status OK and no record; any other value is BAD_ARGUMENT; nothing else changes. An occurrence that follows counts to 1 (R168). -/
def Obligations.ClearCountersResult : Prop :=
  ∀ (s : State) (f : FrameState) (window : Byte), s.Settled → s.awaits f →
    (8 ≤ window.toNat → window ≠ 0xFF →
      exec (.clearCounters window) s = .next { s.begin with
        mgmt := { s.mgmt with frame := f.reply 0x28 [window] [0x02] .nothing } }) ∧
    (window = 0xFF →
      exec (.clearCounters window) s = .next { s.begin with
        exch := { s.begin.exch with windows := s.exch.windows.map fun u =>
          { u with counters := { committed := 0, acquired := 0, dropped := 0, abandoned := 0, waited := 0, expired := 0 } } },
        mgmt := { s.mgmt with frame := f.reply 0x28 [window] [0x00] .nothing } }) ∧
    (∀ w, window.toNat = Window.number w →
      ∃ t, exec (.clearCounters window) s = .next t ∧
        t = { s.begin with
          exch := s.begin.exch.modWin w fun u =>
            { u with counters := { committed := 0, acquired := 0, dropped := 0, abandoned := 0, waited := 0, expired := 0 } },
          mgmt := { s.mgmt with frame := f.reply 0x28 [window] [0x00] .nothing } } ∧
        ((t.exch.count w Counters.addCommitted).win w).counters.committed = 1)
end

