-- ==== Sys2Proof/Laws/State.lean ====
section
/-!
SUPPORT. One lemma for each field and each update, so that no proof unfolds a record update.
-/

namespace Sys2Proof.Machine

/-! ### Tables -/

@[simp] theorem PerPort.get_set_self {α : Type} (t : PerPort α) (p : Port) (x : α) : (t.set p x).get p = x := by
  cases p <;> rfl

@[simp] theorem PerPort.get_set_ne {α : Type} (t : PerPort α) {p q : Port} (x : α) (h : q ≠ p) :
    (t.set p x).get q = t.get q := by
  cases p <;> cases q <;> first | rfl | exact absurd rfl h

theorem PerPort.get_set {α : Type} (t : PerPort α) (p q : Port) (x : α) :
    (t.set p x).get q = if q = p then x else t.get q := by
  split
  · next h => subst h; simp
  · next h => simp [h]

@[simp] theorem PerPort.get_map {α β : Type} (t : PerPort α) (f : α → β) (p : Port) : (t.map f).get p = f (t.get p) := by
  cases p <;> rfl

@[simp] theorem PerPort.get_ofFn {α : Type} (f : Port → α) (p : Port) : (PerPort.ofFn f).get p = f p := by
  cases p <;> rfl

theorem PerPort.ext_get {α : Type} {t u : PerPort α} (h : ∀ p, t.get p = u.get p) : t = u := by
  obtain ⟨a, b, c, d⟩ := t
  obtain ⟨a', b', c', d'⟩ := u
  have ha : a = a' := h .A
  have hb : b = b' := h .B
  have hc : c = c' := h .C
  have hd : d = d' := h .D
  subst ha hb hc hd; rfl

@[simp] theorem PerWindow.get_set_self {α : Type} (t : PerWindow α) (w : Window) (x : α) : (t.set w x).get w = x := by
  cases w <;> rfl

@[simp] theorem PerWindow.get_set_ne {α : Type} (t : PerWindow α) {w v : Window} (x : α) (h : v ≠ w) :
    (t.set w x).get v = t.get v := by
  cases w <;> cases v <;> first | rfl | exact absurd rfl h

theorem PerWindow.get_set {α : Type} (t : PerWindow α) (w v : Window) (x : α) :
    (t.set w x).get v = if v = w then x else t.get v := by
  split
  · next h => subst h; simp
  · next h => simp [h]

@[simp] theorem PerWindow.get_map {α β : Type} (t : PerWindow α) (f : α → β) (w : Window) :
    (t.map f).get w = f (t.get w) := by
  cases w <;> rfl

theorem PerWindow.ext_get {α : Type} {t u : PerWindow α} (h : ∀ w, t.get w = u.get w) : t = u := by
  obtain ⟨a, b, c, d, e, f, g, i⟩ := t
  obtain ⟨a', b', c', d', e', f', g', i'⟩ := u
  have h0 : a = a' := h .W0
  have h1 : b = b' := h .W1
  have h2 : c = c' := h .W2
  have h3 : d = d' := h .W3
  have h4 : e = e' := h .W4
  have h5 : f = f' := h .W5
  have h6 : g = g' := h .W6
  have h7 : i = i' := h .W7
  subst h0 h1 h2 h3 h4 h5 h6 h7; rfl

@[simp] theorem PerSlot.get_set_self {α : Type} (t : PerSlot α) (k : SlotId) (x : α) : (t.set k x).get k = x := by
  cases k <;> rfl

@[simp] theorem PerSlot.get_set_ne {α : Type} (t : PerSlot α) {k j : SlotId} (x : α) (h : j ≠ k) :
    (t.set k x).get j = t.get j := by
  cases k <;> cases j <;> first | rfl | exact absurd rfl h

theorem PerSlot.get_set {α : Type} (t : PerSlot α) (k j : SlotId) (x : α) :
    (t.set k x).get j = if j = k then x else t.get j := by
  split
  · next h => subst h; simp
  · next h => simp [h]

theorem Port.mem_all (p : Port) : p ∈ Port.all := by cases p <;> simp [Port.all]

theorem Window.mem_all (w : Window) : w ∈ Window.all := by cases w <;> simp [Window.all]

theorem SlotId.mem_all (k : SlotId) : k ∈ SlotId.all := by cases k <;> simp [SlotId.all]

/-! ### Changing a window -/

section
variable (x : Exchange) (w : Window) (f : WindowUnit → WindowUnit)

@[simp] theorem Exchange.modWin_ports : (x.modWin w f).ports = x.ports := rfl
@[simp] theorem Exchange.modWin_port (p : Port) : (x.modWin w f).port p = x.port p := rfl
@[simp] theorem Exchange.modWin_carry : (x.modWin w f).carry = x.carry := rfl
@[simp] theorem Exchange.modWin_outstanding : (x.modWin w f).outstanding = x.outstanding := rfl
@[simp] theorem Exchange.modWin_raised : (x.modWin w f).raised = x.raised := rfl
@[simp] theorem Exchange.modWin_answers : (x.modWin w f).answers = x.answers := rfl

@[simp] theorem Exchange.win_modWin_self : (x.modWin w f).win w = f (x.win w) := by
  simp [Exchange.win, Exchange.modWin]

@[simp] theorem Exchange.win_modWin_ne {v : Window} (h : v ≠ w) : (x.modWin w f).win v = x.win v := by
  simp [Exchange.win, Exchange.modWin, h]

theorem Exchange.win_modWin (v : Window) : (x.modWin w f).win v = if v = w then f (x.win w) else x.win v := by
  split
  · next h => subst h; simp
  · next h => simp [h]

variable (g : Context → Context)

@[simp] theorem Exchange.modCtx_ports : (x.modCtx w g).ports = x.ports := rfl
@[simp] theorem Exchange.modCtx_port (p : Port) : (x.modCtx w g).port p = x.port p := rfl
@[simp] theorem Exchange.modCtx_carry : (x.modCtx w g).carry = x.carry := rfl
@[simp] theorem Exchange.modCtx_outstanding : (x.modCtx w g).outstanding = x.outstanding := rfl
@[simp] theorem Exchange.modCtx_raised : (x.modCtx w g).raised = x.raised := rfl
@[simp] theorem Exchange.modCtx_answers : (x.modCtx w g).answers = x.answers := rfl

@[simp] theorem WindowUnit.mapCtx_geom (u : WindowUnit) : (u.mapCtx g).geom = u.geom := by
  unfold WindowUnit.mapCtx; split <;> rfl

@[simp] theorem WindowUnit.mapCtx_eff (u : WindowUnit) : (u.mapCtx g).eff = u.eff := by
  unfold WindowUnit.mapCtx; split <;> rfl

@[simp] theorem WindowUnit.mapCtx_staged (u : WindowUnit) : (u.mapCtx g).staged = u.staged := by
  unfold WindowUnit.mapCtx; split <;> rfl

@[simp] theorem WindowUnit.mapCtx_counters (u : WindowUnit) : (u.mapCtx g).counters = u.counters := by
  unfold WindowUnit.mapCtx; split <;> rfl

@[simp] theorem WindowUnit.ctx?_mapCtx (u : WindowUnit) : (u.mapCtx g).ctx? = u.ctx?.map g := by
  obtain ⟨g', e, st, n, l⟩ := u
  cases l <;> rfl

@[simp] theorem WindowUnit.mode?_mapCtx (u : WindowUnit) : (u.mapCtx g).mode? = u.mode? := by
  obtain ⟨g', e, st, n, l⟩ := u
  cases l <;> rfl

theorem WindowUnit.mapCtx_disabled (u : WindowUnit) : (u.mapCtx g).life = .disabled ↔ u.life = .disabled := by
  unfold WindowUnit.mapCtx; split <;> simp_all

@[simp] theorem Exchange.win_modCtx_self : (x.modCtx w g).win w = (x.win w).mapCtx g := by simp [Exchange.modCtx]

@[simp] theorem Exchange.win_modCtx_ne {v : Window} (h : v ≠ w) : (x.modCtx w g).win v = x.win v := by
  simp [Exchange.modCtx, h]

@[simp] theorem Exchange.ctx?_modCtx_self : (x.modCtx w g).ctx? w = (x.ctx? w).map g := by simp [Exchange.ctx?]

variable (n : Counters → Counters)

@[simp] theorem Exchange.count_ports : (x.count w n).ports = x.ports := rfl
@[simp] theorem Exchange.count_port (p : Port) : (x.count w n).port p = x.port p := rfl
@[simp] theorem Exchange.count_carry : (x.count w n).carry = x.carry := rfl
@[simp] theorem Exchange.count_outstanding : (x.count w n).outstanding = x.outstanding := rfl
@[simp] theorem Exchange.count_raised : (x.count w n).raised = x.raised := rfl
@[simp] theorem Exchange.count_answers : (x.count w n).answers = x.answers := rfl

@[simp] theorem Exchange.win_count_self :
    (x.count w n).win w = { x.win w with counters := n (x.win w).counters } := by simp [Exchange.count]

@[simp] theorem Exchange.win_count_ne {v : Window} (h : v ≠ w) : (x.count w n).win v = x.win v := by
  simp [Exchange.count, h]

@[simp] theorem Exchange.ctx?_count (v : Window) : (x.count w n).ctx? v = x.ctx? v := by
  by_cases h : v = w
  · subst h; simp [Exchange.ctx?, WindowUnit.ctx?]
  · simp [Exchange.ctx?, h]

end

/-! ### Changing a port -/

section
variable (x : Exchange) (p : Port) (f : PortUnit → PortUnit)

@[simp] theorem Exchange.modPort_windows : (x.modPort p f).windows = x.windows := rfl
@[simp] theorem Exchange.modPort_win (w : Window) : (x.modPort p f).win w = x.win w := rfl
@[simp] theorem Exchange.modPort_ctx? (w : Window) : (x.modPort p f).ctx? w = x.ctx? w := rfl
@[simp] theorem Exchange.modPort_carry : (x.modPort p f).carry = x.carry := rfl
@[simp] theorem Exchange.modPort_outstanding : (x.modPort p f).outstanding = x.outstanding := rfl
@[simp] theorem Exchange.modPort_raised : (x.modPort p f).raised = x.raised := rfl
@[simp] theorem Exchange.modPort_answers : (x.modPort p f).answers = x.answers := rfl

@[simp] theorem Exchange.port_modPort_self : (x.modPort p f).port p = f (x.port p) := by
  simp [Exchange.port, Exchange.modPort]

@[simp] theorem Exchange.port_modPort_ne {q : Port} (h : q ≠ p) : (x.modPort p f).port q = x.port q := by
  simp [Exchange.port, Exchange.modPort, h]

variable (h : Hand)

@[simp] theorem Exchange.setHand_windows : (x.setHand p h).windows = x.windows := rfl
@[simp] theorem Exchange.setHand_win (w : Window) : (x.setHand p h).win w = x.win w := rfl
@[simp] theorem Exchange.setHand_ctx? (w : Window) : (x.setHand p h).ctx? w = x.ctx? w := rfl
@[simp] theorem Exchange.setHand_carry : (x.setHand p h).carry = x.carry := rfl
@[simp] theorem Exchange.setHand_outstanding : (x.setHand p h).outstanding = x.outstanding := rfl
@[simp] theorem Exchange.setHand_raised : (x.setHand p h).raised = x.raised := rfl
@[simp] theorem Exchange.setHand_answers : (x.setHand p h).answers = x.answers := rfl

@[simp] theorem Exchange.port_setHand_self : (x.setHand p h).port p = { x.port p with hand := h } := by
  simp [Exchange.setHand]

@[simp] theorem Exchange.port_setHand_ne {q : Port} (hq : q ≠ p) : (x.setHand p h).port q = x.port q := by
  simp [Exchange.setHand, hq]

variable (a : Response)

@[simp] theorem Exchange.answer_windows : (x.answer p a).windows = x.windows := rfl
@[simp] theorem Exchange.answer_win (w : Window) : (x.answer p a).win w = x.win w := rfl
@[simp] theorem Exchange.answer_ctx? (w : Window) : (x.answer p a).ctx? w = x.ctx? w := rfl
@[simp] theorem Exchange.answer_ports : (x.answer p a).ports = (x.setHand p .none).ports := rfl
@[simp] theorem Exchange.answer_carry : (x.answer p a).carry = x.carry := rfl
@[simp] theorem Exchange.answer_outstanding : (x.answer p a).outstanding = x.outstanding := rfl
@[simp] theorem Exchange.answer_raised : (x.answer p a).raised = x.raised := rfl
@[simp] theorem Exchange.answer_answers : (x.answer p a).answers = x.answers ++ [(p, a)] := rfl

@[simp] theorem Exchange.port_answer_self : (x.answer p a).port p = { x.port p with hand := .none } :=
  Exchange.port_setHand_self x p .none

@[simp] theorem Exchange.port_answer_ne {q : Port} (hq : q ≠ p) : (x.answer p a).port q = x.port q :=
  Exchange.port_setHand_ne x p .none hq

end

/-! ### Raising a record -/

section
variable (x : Exchange) (r : EventRecord)

@[simp] theorem Exchange.raise_windows : (x.raise r).windows = x.windows := rfl
@[simp] theorem Exchange.raise_win (w : Window) : (x.raise r).win w = x.win w := rfl
@[simp] theorem Exchange.raise_ctx? (w : Window) : (x.raise r).ctx? w = x.ctx? w := rfl
@[simp] theorem Exchange.raise_ports : (x.raise r).ports = x.ports := rfl
@[simp] theorem Exchange.raise_port (p : Port) : (x.raise r).port p = x.port p := rfl
@[simp] theorem Exchange.raise_carry : (x.raise r).carry = x.carry := rfl
@[simp] theorem Exchange.raise_outstanding : (x.raise r).outstanding = x.outstanding := rfl
@[simp] theorem Exchange.raise_raised : (x.raise r).raised = x.raised ++ [r] := rfl
@[simp] theorem Exchange.raise_answers : (x.raise r).answers = x.answers := rfl

end

/-! ### Changing a slot or a binding of a context -/

section
variable (c : Context) (k : SlotId)

@[simp] theorem Context.setSlot_ready (sl : Slot) : (c.setSlot k sl).ready = c.ready := rfl
@[simp] theorem Context.setSlot_writer (sl : Slot) : (c.setSlot k sl).writer = c.writer := rfl
@[simp] theorem Context.setSlot_readers (sl : Slot) : (c.setSlot k sl).readers = c.readers := rfl
@[simp] theorem Context.setSlot_base (sl : Slot) : (c.setSlot k sl).base = c.base := rfl
@[simp] theorem Context.setSlot_nextSeq (sl : Slot) : (c.setSlot k sl).nextSeq = c.nextSeq := rfl

@[simp] theorem Context.slot?_setSlot_self (sl : Slot) : (c.setSlot k sl).slot? k = some sl := by
  simp [Context.slot?, Context.setSlot]

@[simp] theorem Context.slot?_setSlot_ne (sl : Slot) {j : SlotId} (h : j ≠ k) : (c.setSlot k sl).slot? j = c.slot? j := by
  simp [Context.slot?, Context.setSlot, h]

variable (f : Slot → Slot)

@[simp] theorem Context.modSlot_ready : (c.modSlot k f).ready = c.ready := by unfold Context.modSlot; split <;> rfl
@[simp] theorem Context.modSlot_writer : (c.modSlot k f).writer = c.writer := by unfold Context.modSlot; split <;> rfl
@[simp] theorem Context.modSlot_readers : (c.modSlot k f).readers = c.readers := by unfold Context.modSlot; split <;> rfl
@[simp] theorem Context.modSlot_base : (c.modSlot k f).base = c.base := by unfold Context.modSlot; split <;> rfl
@[simp] theorem Context.modSlot_nextSeq : (c.modSlot k f).nextSeq = c.nextSeq := by unfold Context.modSlot; split <;> rfl

@[simp] theorem Context.slot?_modSlot_self : (c.modSlot k f).slot? k = (c.slot? k).map f := by
  unfold Context.modSlot; split <;> simp_all

@[simp] theorem Context.slot?_modSlot_ne {j : SlotId} (h : j ≠ k) : (c.modSlot k f).slot? j = c.slot? j := by
  unfold Context.modSlot; split <;> simp_all

variable (p : Port)

@[simp] theorem Context.setReader_slots (b : ReaderBinding) : (c.setReader p b).slots = c.slots := rfl
@[simp] theorem Context.setReader_slot? (b : ReaderBinding) (j : SlotId) : (c.setReader p b).slot? j = c.slot? j := rfl
@[simp] theorem Context.setReader_ready (b : ReaderBinding) : (c.setReader p b).ready = c.ready := rfl
@[simp] theorem Context.setReader_writer (b : ReaderBinding) : (c.setReader p b).writer = c.writer := rfl
@[simp] theorem Context.setReader_base (b : ReaderBinding) : (c.setReader p b).base = c.base := rfl
@[simp] theorem Context.setReader_nextSeq (b : ReaderBinding) : (c.setReader p b).nextSeq = c.nextSeq := rfl

@[simp] theorem Context.reader?_setReader_self (b : ReaderBinding) : (c.setReader p b).reader? p = some b := by
  simp [Context.reader?, Context.setReader]

@[simp] theorem Context.reader?_setReader_ne (b : ReaderBinding) {q : Port} (h : q ≠ p) :
    (c.setReader p b).reader? q = c.reader? q := by
  simp [Context.reader?, Context.setReader, h]

variable (g : ReaderBinding → ReaderBinding)

@[simp] theorem Context.modReader_slot? (j : SlotId) : (c.modReader p g).slot? j = c.slot? j := by
  unfold Context.modReader; split <;> rfl
@[simp] theorem Context.modReader_ready : (c.modReader p g).ready = c.ready := by unfold Context.modReader; split <;> rfl
@[simp] theorem Context.modReader_writer : (c.modReader p g).writer = c.writer := by unfold Context.modReader; split <;> rfl
@[simp] theorem Context.modReader_base : (c.modReader p g).base = c.base := by unfold Context.modReader; split <;> rfl
@[simp] theorem Context.modReader_nextSeq : (c.modReader p g).nextSeq = c.nextSeq := by
  unfold Context.modReader; split <;> rfl

@[simp] theorem Context.reader?_modReader_self : (c.modReader p g).reader? p = (c.reader? p).map g := by
  unfold Context.modReader; split <;> simp_all

@[simp] theorem Context.reader?_modReader_ne {q : Port} (h : q ≠ p) : (c.modReader p g).reader? q = c.reader? q := by
  unfold Context.modReader; split <;> simp_all

end

/-! ### The whole state -/

section
variable (s : State)

@[simp] theorem State.begin_resetAsserted : s.begin.resetAsserted = s.resetAsserted := rfl
@[simp] theorem State.begin_time : s.begin.time = s.time := rfl
@[simp] theorem State.begin_memTimeout : s.begin.memTimeout = s.memTimeout := rfl
@[simp] theorem State.begin_eventEnable : s.begin.eventEnable = s.eventEnable := rfl
@[simp] theorem State.begin_memPort : s.begin.memPort = s.memPort := rfl
@[simp] theorem State.begin_events : s.begin.events = s.events := rfl
@[simp] theorem State.begin_mgmt : s.begin.mgmt = s.mgmt := rfl
@[simp] theorem State.begin_issued : s.begin.issued = [] := rfl
@[simp] theorem State.begin_choices : s.begin.choices = s.choices := rfl
@[simp] theorem State.begin_pending : s.begin.pending = s.pending := rfl
@[simp] theorem State.begin_windows : s.begin.exch.windows = s.exch.windows := rfl
@[simp] theorem State.begin_win (w : Window) : s.begin.exch.win w = s.exch.win w := rfl
@[simp] theorem State.begin_ports : s.begin.exch.ports = s.exch.ports := rfl
@[simp] theorem State.begin_port (p : Port) : s.begin.exch.port p = s.exch.port p := rfl
@[simp] theorem State.begin_carry : s.begin.exch.carry = s.exch.carry := rfl
@[simp] theorem State.begin_outstanding : s.begin.exch.outstanding = s.exch.outstanding := rfl
@[simp] theorem State.begin_raised : s.begin.exch.raised = s.exch.raised := rfl
@[simp] theorem State.begin_answers : s.begin.exch.answers = [] := rfl
@[simp] theorem State.begin_portReady (p : Port) : s.begin.portReady p = s.portReady p := rfl
@[simp] theorem State.begin_linkPorts : s.begin.linkPorts = s.linkPorts := rfl

variable (f : Frame)

@[simp] theorem State.setFrame_exch : (s.setFrame f).exch = s.exch := rfl
@[simp] theorem State.setFrame_time : (s.setFrame f).time = s.time := rfl
@[simp] theorem State.setFrame_events : (s.setFrame f).events = s.events := rfl
@[simp] theorem State.setFrame_memPort : (s.setFrame f).memPort = s.memPort := rfl
@[simp] theorem State.setFrame_choices : (s.setFrame f).choices = s.choices := rfl
@[simp] theorem State.setFrame_pending : (s.setFrame f).pending = s.pending := rfl
@[simp] theorem State.setFrame_frame : (s.setFrame f).mgmt.frame = f := rfl
@[simp] theorem State.setFrame_snapshot : (s.setFrame f).mgmt.snapshot = s.mgmt.snapshot := rfl

@[simp] theorem State.flush_resetAsserted : s.flush.resetAsserted = s.resetAsserted := rfl
@[simp] theorem State.flush_time : s.flush.time = s.time := rfl
@[simp] theorem State.flush_memTimeout : s.flush.memTimeout = s.memTimeout := rfl
@[simp] theorem State.flush_eventEnable : s.flush.eventEnable = s.eventEnable := rfl
@[simp] theorem State.flush_memPort : s.flush.memPort = s.memPort := rfl
@[simp] theorem State.flush_mgmt : s.flush.mgmt = s.mgmt := rfl
@[simp] theorem State.flush_issued : s.flush.issued = s.issued := rfl
@[simp] theorem State.flush_pending : s.flush.pending = s.pending := rfl
@[simp] theorem State.flush_win (w : Window) : s.flush.exch.win w = s.exch.win w := rfl
@[simp] theorem State.flush_port (p : Port) : s.flush.exch.port p = s.exch.port p := rfl
@[simp] theorem State.flush_carry : s.flush.exch.carry = s.exch.carry := rfl
@[simp] theorem State.flush_outstanding : s.flush.exch.outstanding = s.exch.outstanding := rfl
@[simp] theorem State.flush_answers : s.flush.exch.answers = s.exch.answers := rfl
@[simp] theorem State.flush_raised : s.flush.exch.raised = [] := rfl

end

end Sys2Proof.Machine
end

