-- ==== Sys2Proof/Laws/Contexts.lean ====
section
/-!
SUPPORT. What an operation on one context can do to its shape: no slot record and no reader binding appears or goes, and the
next sequence number stays different from 0 (R8, R17).
-/

namespace Sys2Proof.Machine

/-- The contexts have the same slot records and reader bindings, and a next sequence number that is not 0 stays so. -/
structure Context.SameShape (c d : Context) : Prop where
  slots : ∀ k, (d.slot? k).isSome = (c.slot? k).isSome
  readers : ∀ p, (d.reader? p).isSome = (c.reader? p).isSome
  nextSeq : c.nextSeq ≠ 0 → d.nextSeq ≠ 0

theorem Context.SameShape.refl (c : Context) : c.SameShape c := ⟨fun _ => rfl, fun _ => rfl, id⟩

theorem Context.SameShape.trans {c d e : Context} (h : c.SameShape d) (i : d.SameShape e) : c.SameShape e :=
  ⟨fun k => (i.slots k).trans (h.slots k), fun p => (i.readers p).trans (h.readers p), fun n => i.nextSeq (h.nextSeq n)⟩

/-- Fields other than the tables and the next sequence number do not matter to the shape. -/
theorem Context.SameShape.of_tables {c d : Context} (h : d.slots = c.slots) (i : d.readers = c.readers)
    (n : d.nextSeq = c.nextSeq) : c.SameShape d :=
  ⟨fun k => by simp [Context.slot?, h], fun p => by simp [Context.reader?, i], fun m => by rwa [n]⟩

/-- Dropping in fields around a context of the same shape. -/
theorem Context.SameShape.then_tables {c d e : Context} (h : c.SameShape d) (i : e.slots = d.slots) (j : e.readers = d.readers)
    (n : e.nextSeq = d.nextSeq) : c.SameShape e := h.trans (.of_tables i j n)

theorem Context.setSlot_shape (c : Context) (k : SlotId) {sl sl' : Slot} (h : c.slot? k = some sl) :
    c.SameShape (c.setSlot k sl') := by
  refine ⟨fun j => ?_, fun _ => rfl, id⟩
  by_cases e : j = k
  · subst e; simp [h]
  · simp [e]

theorem Context.modSlot_shape (c : Context) (k : SlotId) (f : Slot → Slot) : c.SameShape (c.modSlot k f) := by
  unfold Context.modSlot; split
  · next h => exact c.setSlot_shape k h
  · exact .refl c

theorem Context.setReader_shape (c : Context) (p : Port) {b b' : ReaderBinding} (h : c.reader? p = some b) :
    c.SameShape (c.setReader p b') := by
  refine ⟨fun _ => rfl, fun q => ?_, id⟩
  by_cases e : q = p
  · subst e; simp [h]
  · simp [e]

theorem Context.modReader_shape (c : Context) (p : Port) (f : ReaderBinding → ReaderBinding) :
    c.SameShape (c.modReader p f) := by
  unfold Context.modReader; split
  · next h => exact c.setReader_shape p h
  · exact .refl c

theorem Context.modWriter_shape (c : Context) (f : WriterBinding → WriterBinding) : c.SameShape (c.modWriter f) :=
  .of_tables rfl rfl rfl

theorem Context.settle_shape (c : Context) (k : SlotId) : c.SameShape (c.settle k) :=
  (c.modSlot_shape k _).then_tables rfl rfl rfl

theorem Context.retire_shape (c : Context) (k : SlotId) : c.SameShape (c.retire k) :=
  (c.modSlot_shape k _).then_tables rfl rfl rfl

theorem Context.dropReference_shape (c : Context) (k : SlotId) : c.SameShape (c.dropReference k) := by
  have h := c.modSlot_shape k fun sl => { sl with carryRef := false }
  unfold Context.dropReference
  dsimp only
  split
  · split
    · exact h.trans (Context.settle_shape _ k)
    · exact h
  · exact h

theorem Context.dropSlot_shape (c : Context) (k : SlotId) : c.SameShape (c.dropSlot k) :=
  (c.modSlot_shape k _).then_tables rfl rfl rfl

theorem Context.openSlot_shape (c : Context) (k : SlotId) (now : Word) (t : Half) (fl : FrameFlags) :
    c.SameShape (c.openSlot k now t fl) :=
  (c.modSlot_shape k _).then_tables rfl rfl rfl

theorem Context.supersede_shape (c : Context) (k : SlotId) : c.SameShape (c.supersede k) := by
  unfold Context.supersede; split
  · split
    · exact c.settle_shape k
    · exact c.retire_shape k
  · exact .refl c

theorem Context.foldl_supersede_shape (l : List SlotId) (c : Context) : c.SameShape (l.foldl Context.supersede c) := by
  induction l generalizing c with
  | nil => exact .refl c
  | cons k l ih => exact (c.supersede_shape k).trans (ih _)

/-- No sequence number after one is 0 (R17). -/
theorem nextSequence_ne_zero (q : Word) : nextSequence q ≠ 0 := by
  unfold nextSequence
  split
  · decide
  · next h =>
    intro e
    apply h
    simp only [Word.top]
    bv_omega

theorem Context.commit_shape (c : Context) (g : Geometry) (k : SlotId) (tag : Half) (auto : Bool) (now : Word) :
    c.SameShape (c.commit g k tag auto now) := by
  have h1 : c.SameShape (match g.delivery with
      | .stream => c
      | .latest => c.ready.foldl Context.supersede c) := by
    split
    · exact .refl c
    · exact Context.foldl_supersede_shape _ c
  unfold Context.commit
  dsimp only
  refine (h1.trans (Context.modSlot_shape _ k _)).trans ⟨fun _ => rfl, fun _ => rfl, fun _ => ?_⟩
  exact nextSequence_ne_zero _

theorem Context.abandon_shape (c : Context) (k : SlotId) : c.SameShape (c.abandon k) :=
  (c.settle_shape k).then_tables rfl rfl rfl

theorem Context.acquire_shape (c : Context) (p : Port) (k : SlotId) (t : Half) : c.SameShape (c.acquire p k t) := by
  unfold Context.acquire; split
  · next h => exact (c.setSlot_shape k h).trans (Context.modReader_shape _ p _)
  · exact .refl c

theorem Context.giveBackSlot_shape (c : Context) (d : Delivery) (p : Port) (k : SlotId) :
    c.SameShape (c.giveBackSlot d p k) := by
  unfold Context.giveBackSlot
  split
  · exact .refl c
  · next sl h =>
    dsimp only
    have h1 : ∀ sl', c.SameShape (c.setSlot k sl') := fun sl' => c.setSlot_shape k h
    have h2 : ∀ sl', c.SameShape ((c.setSlot k sl').settle k) := fun sl' => (h1 sl').trans (Context.settle_shape _ k)
    have h3 : ∀ sl', c.SameShape ((c.setSlot k sl').retire k) := fun sl' => (h1 sl').trans (Context.retire_shape _ k)
    repeat' split
    all_goals first | exact h1 _ | exact h2 _ | exact h3 _

theorem Context.giveBack_shape (c : Context) (d : Delivery) (p : Port) (a : ReaderState) :
    c.SameShape (c.giveBack d p a) := by
  unfold Context.giveBack
  split
  · exact .refl c
  · next b h =>
    dsimp only
    have h1 : c.SameShape (match b.state with
        | .holding k => c.giveBackSlot d p k
        | _ => c) := by
      split
      · exact c.giveBackSlot_shape d p _
      · exact .refl c
    have hb := h1.readers p
    rw [h] at hb
    obtain ⟨b', hb'⟩ := Option.isSome_iff_exists.mp hb
    exact h1.trans (Context.setReader_shape _ p hb')

theorem Context.endWait_shape (c : Context) (p : Port) (k : WaitKind) : c.SameShape (c.endWait p k) := by
  cases k
  · exact .of_tables rfl rfl rfl
  · exact c.modReader_shape p _

theorem Context.tick_shape (c : Context) : c.SameShape c.tick :=
  ⟨fun _ => rfl, fun p => by simp [Context.tick, Context.reader?], id⟩

/-- The context ENABLE builds has its shape from the descriptor (R104). -/
theorem Context.start_slots (g : Geometry) (k : SlotId) :
    ((Context.start g).slot? k).isSome = decide (SlotId.number k < g.slotCount) := by
  cases k <;> simp only [Context.start, Context.slot?, PerSlot.get, SlotId.number] <;> split <;> simp [*]

theorem Context.start_readers (g : Geometry) (p : Port) : ((Context.start g).reader? p).isSome = g.readers.get p := by
  simp only [Context.start, Context.reader?, PerPort.get_ofFn]
  split <;> simp_all

end Sys2Proof.Machine
end

