-- ==== Sys2Proof/Laws/Ops.lean ====
section
/-!
SUPPORT. What each operation of the exchange can do at most, said once: ports keep PRST and their links, and leave IN_RESET
only with PRST deasserted; descriptors keep their locked fields; no window is enabled, and a live context keeps its shape; a
DISABLED window gains no staged value; the outstanding list keeps its requests; records and answers are only added.
-/

namespace Sys2Proof.Machine

/-- What holds of a window across every operation of the exchange but ENABLE and the register writes. -/
structure WindowUnit.Keeps (u v : WindowUnit) : Prop where
  geom : v.geom = u.geom
  disabled : u.life = .disabled → v.life = .disabled
  shape : ∀ d, v.ctx? = some d → ∃ c, u.ctx? = some c ∧ c.SameShape d
  staged : (u.life = .disabled → u.staged = .none) → v.life = .disabled → v.staged = .none

/-- What holds of a port across every operation of the exchange. -/
structure PortUnit.Keeps (u v : PortUnit) : Prop where
  prst : v.prst = u.prst
  link : v.link = u.link
  state : v.state = u.state ∨ (u.prst = false ∧ v.state = .active)

/-- What holds across every operation of the exchange but ENABLE, register writes, grants, completions and resets. -/
structure Exchange.Keeps (x y : Exchange) : Prop where
  windows : ∀ w, (x.win w).Keeps (y.win w)
  ports : ∀ p, (x.port p).Keeps (y.port p)
  mems : y.outstanding.map Entry.mem = x.outstanding.map Entry.mem
  raised : ∃ l, y.raised = x.raised ++ l
  answers : ∃ l, y.answers = x.answers ++ l

/-! ### Composition -/

theorem WindowUnit.Keeps.refl (u : WindowUnit) : u.Keeps u := ⟨rfl, id, fun d h => ⟨d, h, .refl d⟩, id⟩

theorem WindowUnit.Keeps.trans {u v z : WindowUnit} (h : u.Keeps v) (i : v.Keeps z) : u.Keeps z := by
  refine ⟨i.geom.trans h.geom, fun e => i.disabled (h.disabled e), fun e he => ?_, fun s => i.staged (h.staged s)⟩
  obtain ⟨d, hd, sd⟩ := i.shape e he
  obtain ⟨c, hc, sc⟩ := h.shape d hd
  exact ⟨c, hc, sc.trans sd⟩

theorem PortUnit.Keeps.refl (u : PortUnit) : u.Keeps u := ⟨rfl, rfl, .inl rfl⟩

theorem PortUnit.Keeps.trans {u v z : PortUnit} (h : u.Keeps v) (i : v.Keeps z) : u.Keeps z := by
  refine ⟨i.prst.trans h.prst, i.link.trans h.link, ?_⟩
  rcases i.state with e | ⟨a, b⟩
  · rcases h.state with e' | ⟨a, b⟩
    · exact .inl (e.trans e')
    · exact .inr ⟨a, e.trans b⟩
  · exact .inr ⟨h.prst ▸ a, b⟩

theorem Exchange.Keeps.refl (x : Exchange) : x.Keeps x :=
  ⟨fun _ => .refl _, fun _ => .refl _, rfl, ⟨[], (List.append_nil _).symm⟩, ⟨[], (List.append_nil _).symm⟩⟩

theorem Exchange.Keeps.trans {x y z : Exchange} (h : x.Keeps y) (i : y.Keeps z) : x.Keeps z := by
  refine ⟨fun w => (h.windows w).trans (i.windows w), fun p => (h.ports p).trans (i.ports p), i.mems.trans h.mems, ?_, ?_⟩
  · obtain ⟨a, ha⟩ := h.raised
    obtain ⟨b, hb⟩ := i.raised
    exact ⟨a ++ b, by rw [hb, ha, List.append_assoc]⟩
  · obtain ⟨a, ha⟩ := h.answers
    obtain ⟨b, hb⟩ := i.answers
    exact ⟨a ++ b, by rw [hb, ha, List.append_assoc]⟩

/-- A fold of operations keeps what each keeps. -/
theorem Exchange.foldl_keeps {α : Type} (f : Exchange → α → Exchange) (h : ∀ (x : Exchange) (a : α), x.Keeps (f x a)) (l : List α) (x : Exchange) :
    x.Keeps (l.foldl f x) := by
  induction l generalizing x with
  | nil => exact .refl x
  | cons a l ih => exact (h x a).trans (ih _)

/-! ### The plain updates -/

/-- Only the engine, or marks in the outstanding list, change. -/
theorem Exchange.keeps_of_marks {x y : Exchange} (hw : y.windows = x.windows) (hp : y.ports = x.ports)
    (hm : y.outstanding.map Entry.mem = x.outstanding.map Entry.mem) (hr : y.raised = x.raised) (ha : y.answers = x.answers) :
    x.Keeps y :=
  ⟨fun w => by simp only [Exchange.win, hw]; exact .refl _, fun p => by simp only [Exchange.port, hp]; exact .refl _, hm,
    ⟨[], by simp [hr]⟩, ⟨[], by simp [ha]⟩⟩

theorem Exchange.modWin_keeps (x : Exchange) (w : Window) (f : WindowUnit → WindowUnit) (h : (x.win w).Keeps (f (x.win w))) :
    x.Keeps (x.modWin w f) := by
  refine ⟨fun v => ?_, fun _ => .refl _, rfl, ⟨[], by simp⟩, ⟨[], by simp⟩⟩
  by_cases e : v = w
  · subst e; simpa using h
  · simpa [e] using .refl _

theorem WindowUnit.mapCtx_keeps (u : WindowUnit) (g : Context → Context) (h : ∀ c : Context, c.SameShape (g c)) :
    u.Keeps (u.mapCtx g) := by
  refine ⟨by simp, (u.mapCtx_disabled (g := g)).mpr, fun d hd => ?_, fun s e => ?_⟩
  · simp only [WindowUnit.ctx?_mapCtx, Option.map_eq_some_iff] at hd
    obtain ⟨c, hc, rfl⟩ := hd
    exact ⟨c, hc, h c⟩
  · simpa using s ((u.mapCtx_disabled (g := g)).mp e)

theorem Exchange.modCtx_keeps (x : Exchange) (w : Window) (g : Context → Context) (h : ∀ c : Context, c.SameShape (g c)) :
    x.Keeps (x.modCtx w g) := x.modWin_keeps w _ (WindowUnit.mapCtx_keeps _ g h)

theorem Exchange.count_keeps (x : Exchange) (w : Window) (f : Counters → Counters) : x.Keeps (x.count w f) :=
  x.modWin_keeps w _ ⟨rfl, id, fun d h => ⟨d, h, .refl d⟩, id⟩

theorem Exchange.modPort_keeps (x : Exchange) (p : Port) (f : PortUnit → PortUnit) (h : (x.port p).Keeps (f (x.port p))) :
    x.Keeps (x.modPort p f) := by
  refine ⟨fun _ => .refl _, fun q => ?_, rfl, ⟨[], by simp⟩, ⟨[], by simp⟩⟩
  by_cases e : q = p
  · subst e; simpa using h
  · simpa [e] using .refl _

theorem Exchange.setHand_keeps (x : Exchange) (p : Port) (h : Hand) : x.Keeps (x.setHand p h) :=
  x.modPort_keeps p _ ⟨rfl, rfl, .inl rfl⟩

theorem Exchange.raise_keeps (x : Exchange) (r : EventRecord) : x.Keeps (x.raise r) :=
  ⟨fun _ => .refl _, fun _ => .refl _, rfl, ⟨[r], rfl⟩, ⟨[], (List.append_nil _).symm⟩⟩

theorem Exchange.answer_keeps (x : Exchange) (p : Port) (a : Response) : x.Keeps (x.answer p a) := by
  have h := x.setHand_keeps p .none
  exact ⟨h.windows, h.ports, h.mems, h.raised, ⟨[(p, a)], rfl⟩⟩

theorem Exchange.answerWord_keeps (x : Exchange) (p : Port) (v : Word) : x.Keeps (x.answerWord p v) := x.answer_keeps p _

theorem Exchange.refuse_keeps (x : Exchange) (now : Word) (p : Port) (cause : RefuseCause) (w : Option Window) (a : Word) :
    x.Keeps (x.refuse now p cause w a) := (x.answer_keeps p _).trans (Exchange.raise_keeps _ _)

/-! ### Presenting, timers, carry -/

theorem Exchange.raiseInFlight_keeps (x : Exchange) (w : Window) (k : SlotId) : x.Keeps (x.raiseInFlight w k) :=
  x.modCtx_keeps w _ fun c => c.modSlot_shape k _

theorem Exchange.present_keeps (x : Exchange) (p : Port) (w : Window) (k : SlotId) (r : Request) (b : Bool) :
    x.Keeps (x.present p w k r b) := (x.setHand_keeps p _).trans (Exchange.raiseInFlight_keeps _ w k)

theorem Exchange.armFill_keeps (x : Exchange) (w : Window) : x.Keeps (x.armFill w) :=
  x.modCtx_keeps w _ fun c => c.modWriter_shape _

theorem Exchange.stopFill_keeps (x : Exchange) (w : Window) : x.Keeps (x.stopFill w) :=
  x.modCtx_keeps w _ fun c => c.modWriter_shape _

theorem Exchange.carry_keeps (x : Exchange) (e : Engine) : x.Keeps { x with carry := e } :=
  Exchange.keeps_of_marks rfl rfl rfl rfl rfl

/-- A mark on entries of the outstanding list changes no request. -/
theorem map_mem_mark (l : List Entry) (q : Entry → Bool) :
    (l.map fun e => if q e then { e with discarded := true } else e).map Entry.mem = l.map Entry.mem := by
  simp only [List.map_map]
  apply List.map_congr_left
  intro e _
  simp only [Function.comp_apply]
  split <;> rfl

theorem Exchange.cancelJob_keeps (x : Exchange) (w : Window) : x.Keeps (x.cancelJob w) := by
  unfold Exchange.cancelJob
  split
  · exact .refl x
  · refine Exchange.keeps_of_marks rfl rfl ?_ rfl rfl
    exact map_mem_mark x.outstanding fun e => e.mem.origin = .carry && e.mem.window = some w

theorem Exchange.dropSource_keeps (x : Exchange) (w : Window) : x.Keeps (x.dropSource w) := by
  unfold Exchange.dropSource
  split
  · exact .refl x
  · split
    · exact x.modCtx_keeps w _ fun c => c.dropReference_shape _
    · exact .refl x

/-! ### The staged set and DISABLED -/

theorem Staged.eq_none (g : Staged) (h : g.isPending = false) : g = .none := by
  obtain ⟨a, b, c, d⟩ := g
  simp only [Staged.isPending, Bool.or_eq_false_iff, Option.isSome_eq_false_iff, Option.isNone_iff_eq_none] at h
  obtain ⟨⟨⟨h1, h2⟩, h3⟩, h4⟩ := h
  subst h1 h2 h3 h4; rfl

/-- After an application no staged value is held, whether one was or not (R118). -/
theorem Exchange.applyStaged_staged (x : Exchange) (now : Word) (w : Window) (c : ApplyCause) (q : Word) :
    ((x.applyStaged now w c q).win w).staged = .none := by
  unfold Exchange.applyStaged
  dsimp only
  split
  · simp
  · next h => exact Staged.eq_none _ (by simpa using h)

theorem Exchange.applyStaged_keeps (x : Exchange) (now : Word) (w : Window) (c : ApplyCause) (q : Word) :
    x.Keeps (x.applyStaged now w c q) := by
  unfold Exchange.applyStaged
  dsimp only
  split
  · exact (x.modWin_keeps w _ ⟨rfl, id, fun d h => ⟨d, h, .refl d⟩, fun _ _ => rfl⟩).trans (Exchange.raise_keeps _ _)
  · exact .refl x

theorem Exchange.endHeld_keeps (x : Exchange) (w : Window) : x.Keeps (x.endHeld w) := by
  apply Exchange.foldl_keeps
  intro y p
  split
  · exact y.answer_keeps p _
  · exact .refl y

theorem Exchange.raiseState_keeps (x : Exchange) (now : Word) (w : Window) (c : StateCause) : x.Keeps (x.raiseState now w c) :=
  x.raise_keeps _

/-- Becoming DISABLED: no context is left, and the staged set is gone (R110, R111, R118). -/
theorem Exchange.disableWindow_keeps (x : Exchange) (now : Word) (w : Window) (c : StateCause) :
    x.Keeps (x.disableWindow now w c) := by
  have h1 := (x.endHeld_keeps w).trans (Exchange.cancelJob_keeps _ w)
  refine h1.trans ?_
  unfold Exchange.disableWindow
  dsimp only
  generalize (x.endHeld w).cancelJob w = y
  have h2 := (Exchange.applyStaged_keeps (y.modWin w fun u => { u with life := .disabled }) now w .entry 0)
  refine ⟨fun v => ?_, fun p => ?_, ?_, ?_, ?_⟩
  · by_cases e : v = w
    · subst e
      have h3 := h2.windows v
      simp only [Exchange.win_modWin_self] at h3
      refine ⟨h3.geom, fun _ => h3.disabled rfl, fun d hd => ?_, fun _ _ => ?_⟩
      · obtain ⟨c, hc, -⟩ := h3.shape d hd
        simp [WindowUnit.ctx?] at hc
      · exact Exchange.applyStaged_staged _ now v .entry 0
    · have h3 := h2.windows v
      simpa [Exchange.raiseState, e] using h3
  · exact h2.ports p
  · exact h2.mems
  · obtain ⟨l, hl⟩ := h2.raised
    exact ⟨l ++ [_], by rw [Exchange.raiseState, Exchange.raise_raised, hl, List.append_assoc]; rfl⟩
  · exact h2.answers

theorem Exchange.drainTest_keeps (x : Exchange) (now : Word) (w : Window) : x.Keeps (x.drainTest now w) := by
  unfold Exchange.drainTest
  split
  · split
    · exact x.disableWindow_keeps now w _
    · exact .refl x
  · exact .refl x

/-! ### Acquire and commit -/

theorem Exchange.acquire_keeps (x : Exchange) (w : Window) (p : Port) (k : SlotId) : x.Keeps (x.acquire w p k) :=
  (x.modCtx_keeps w _ fun c => c.acquire_shape p k _).trans (Exchange.count_keeps _ w _)

theorem Exchange.serveReader_keeps (x : Exchange) (w : Window) (p : Port) : x.Keeps (x.serveReader w p) := by
  unfold Exchange.serveReader
  split
  · split
    · split
      · exact (x.acquire_keeps w p _).trans (Exchange.present_keeps _ p w _ _ _)
      · exact .refl x
    · exact .refl x
  · exact .refl x

theorem Exchange.commitFrame_keeps (x : Exchange) (now : Word) (w : Window) (k : SlotId) (tag : Half) (auto : Bool) :
    x.Keeps (x.commitFrame now w k tag auto) := by
  unfold Exchange.commitFrame
  split
  · exact .refl x
  · dsimp only
    refine Exchange.Keeps.trans ?_ (Exchange.foldl_keeps _ (fun y p => y.serveReader_keeps w p) _ _)
    refine Exchange.Keeps.trans ?_ (Exchange.raise_keeps _ _)
    refine Exchange.Keeps.trans ?_ (Exchange.count_keeps _ w _)
    refine Exchange.Keeps.trans ?_ (Exchange.applyStaged_keeps _ now w _ _)
    exact x.modCtx_keeps w _ fun c => c.commit_shape _ k tag auto now

theorem Exchange.takeCommit_keeps (x : Exchange) (now : Word) (w : Window) (p : Port) (k : SlotId) (tag : Half) (auto : Bool) :
    x.Keeps (x.takeCommit now w p k tag auto) :=
  ((x.commitFrame_keeps now w k tag auto).trans (Exchange.answer_keeps _ p _)).trans (Exchange.drainTest_keeps _ now w)

theorem Exchange.startCommit_keeps (x : Exchange) (now : Word) (w : Window) (p : Port) (k : SlotId) (tag : Half) (auto : Bool)
    (r : Request) : x.Keeps (x.startCommit now w p k tag auto r) := by
  unfold Exchange.startCommit
  split
  · exact x.takeCommit_keeps now w p k tag auto
  · exact (x.setHand_keeps p _).trans (Exchange.modCtx_keeps _ w _ fun c => c.modWriter_shape _)

/-! ### The writer's accesses and the open -/

theorem Exchange.writerPayload_keeps (x : Exchange) (w : Window) (p : Port) (k : SlotId) (r : Request) :
    x.Keeps (x.writerPayload w p k r) := by
  unfold Exchange.writerPayload
  dsimp only
  split
  · exact (x.present_keeps p w k r _).trans (Exchange.armFill_keeps _ w)
  · refine Exchange.Keeps.trans ?_ (Exchange.carry_keeps _ _)
    exact (x.setHand_keeps p _).trans (Exchange.stopFill_keeps _ w)

theorem Exchange.proceed_keeps (x : Exchange) (now : Word) (w : Window) (p : Port) (k : SlotId) (r : Request) :
    x.Keeps (x.proceed now w p k r) := by
  unfold Exchange.proceed
  split
  · exact x.writerPayload_keeps w p k r
  · exact x.startCommit_keeps now w p k _ _ r

theorem Exchange.openSlot_keeps (x : Exchange) (now : Word) (w : Window) (k : SlotId) : x.Keeps (x.openSlot now w k) := by
  unfold Exchange.openSlot
  split
  · exact .refl x
  · dsimp only
    split
    · exact x.modCtx_keeps w _ fun c => c.openSlot_shape k now _ _
    · refine Exchange.Keeps.trans ?_ (Exchange.carry_keeps _ _)
      split
      · refine Exchange.Keeps.trans ?_ (Exchange.modCtx_keeps _ w _ fun c => c.modSlot_shape _ _)
        exact x.modCtx_keeps w _ fun c => c.openSlot_shape k now _ _
      · exact x.modCtx_keeps w _ fun c => c.openSlot_shape k now _ _

theorem Exchange.refuseOpen_keeps (x : Exchange) (now : Word) (w : Window) (p : Port) (c : OpenRefusal) (a : Word) :
    x.Keeps (x.refuseOpen now w p c a) := (x.answer_keeps p _).trans (Exchange.raise_keeps _ _)

theorem Exchange.slotWait_keeps (x : Exchange) (w : Window) (p : Port) (r : Request) : x.Keeps (x.slotWait w p r) := by
  refine Exchange.Keeps.trans ?_ (Exchange.count_keeps _ w _)
  exact (x.setHand_keeps p _).trans (Exchange.modCtx_keeps _ w _ fun c => c.modWriter_shape _)

theorem Exchange.openAndProceed_keeps (x : Exchange) (now : Word) (w : Window) (p : Port) (k : SlotId) (r : Request) :
    x.Keeps (x.openAndProceed now w p k r) := (x.openSlot_keeps now w k).trans (Exchange.proceed_keeps _ now w p k r)

theorem Exchange.dropVictim_keeps (x : Exchange) (now : Word) (w : Window) (p : Port) (v : SlotId) :
    x.Keeps (x.dropVictim now w p v) := by
  unfold Exchange.dropVictim
  split
  · exact .refl x
  · refine Exchange.Keeps.trans ?_ (Exchange.raise_keeps _ _)
    exact (x.modCtx_keeps w _ fun c => c.dropSlot_shape v).trans (Exchange.count_keeps _ w _)

theorem Exchange.overflow_keeps (x : Exchange) (now : Word) (w : Window) (p : Port) (c : Context) (r : Request) :
    x.Keeps (x.overflow now w p c r) := by
  unfold Exchange.overflow
  split
  · exact x.slotWait_keeps w p r
  · exact x.refuseOpen_keeps now w p _ _
  · split
    · exact (x.dropVictim_keeps now w p _).trans (Exchange.openAndProceed_keeps _ now w p _ r)
    · exact x.refuseOpen_keeps now w p _ _

theorem Exchange.attemptOpen_keeps (x : Exchange) (now : Word) (w : Window) (p : Port) (r : Request) :
    x.Keeps (x.attemptOpen now w p r) := by
  unfold Exchange.attemptOpen
  split
  · exact x.refuseOpen_keeps now w p _ _
  · split
    · exact x.openAndProceed_keeps now w p _ r
    · exact x.slotWait_keeps w p r
    · exact x.overflow_keeps now w p _ r
  · exact .refl x

theorem Exchange.serveWriter_keeps (x : Exchange) (now : Word) (w : Window) : x.Keeps (x.serveWriter now w) := by
  unfold Exchange.serveWriter
  dsimp only
  split
  · split
    · split
      · exact x.openAndProceed_keeps now w _ _ _
      · exact .refl x
    · exact .refl x
  · exact .refl x

theorem Exchange.lowerInFlight_keeps (x : Exchange) (now : Word) (w : Window) (k : SlotId) :
    x.Keeps (x.lowerInFlight now w k) := by
  unfold Exchange.lowerInFlight
  split
  · exact .refl x
  · dsimp only
    split
    · exact (x.modCtx_keeps w _ fun c => c.modSlot_shape k _).trans (Exchange.serveWriter_keeps _ now w)
    · exact x.modCtx_keeps w _ fun c => c.modSlot_shape k _

/-! ### Abandon and give-back -/

theorem Exchange.abandon_keeps (x : Exchange) (now : Word) (w : Window) (c : AbandonCause) : x.Keeps (x.abandon now w c) := by
  unfold Exchange.abandon
  split
  · exact .refl x
  · split
    · dsimp only
      refine Exchange.Keeps.trans ?_ (Exchange.raise_keeps _ _)
      refine Exchange.Keeps.trans ?_ (Exchange.count_keeps _ w _)
      refine Exchange.Keeps.trans ?_ (Exchange.modCtx_keeps _ w _ fun c => c.abandon_shape _)
      exact (x.dropSource_keeps w).trans (Exchange.cancelJob_keeps _ w)
    · exact .refl x

theorem Exchange.giveBack_keeps (x : Exchange) (now : Word) (w : Window) (p : Port) (a : ReaderState) :
    x.Keeps (x.giveBack now w p a) :=
  (x.modCtx_keeps w _ fun c => c.giveBack_shape _ p a).trans (Exchange.serveWriter_keeps _ now w)

end Sys2Proof.Machine
end

