-- ==== Sys2Proof/Laws/Accesses.lean ====
section
/-!
SUPPORT. What taking a request, and a timer of the exchange, can do at most (Laws/Ops.lean says what `Keeps` means).
-/

namespace Sys2Proof.Machine

theorem Exchange.forward_keeps (x : Exchange) (p : Port) (r : Request) : x.Keeps (x.forward p r) := x.setHand_keeps p _

theorem Exchange.observe_keeps (x : Exchange) (now : Word) (p : Port) (r : Request) (w : Window) (c : Option RefuseCause)
    (v : Option Word) : x.Keeps (x.observe now p r w c v) := by
  have h1 : ∀ (y : Exchange) (c : RefuseCause), y.Keeps (y.reportObserved now p w r.addr c) := fun y _ => y.raise_keeps _
  have h2 : ∀ (y : Exchange) (v : Word), y.Keeps (y.observedCommit now p w v) := fun y _ =>
    (y.count_keeps w _).trans (Exchange.raise_keeps _ _)
  cases c <;> cases v
  · exact x.forward_keeps p r
  · exact (h2 x _).trans (Exchange.forward_keeps _ p r)
  · exact (h1 x _).trans (Exchange.forward_keeps _ p r)
  · exact ((h1 x _).trans (h2 _ _)).trans (Exchange.forward_keeps _ p r)

theorem Exchange.writerAccess_keeps (x : Exchange) (now : Word) (w : Window) (p : Port) (r : Request) :
    x.Keeps (x.writerAccess now w p r) := by
  unfold Exchange.writerAccess
  split
  · exact .refl x
  · split
    · exact x.proceed_keeps now w p _ r
    · exact x.attemptOpen_keeps now w p r
    · exact x.attemptOpen_keeps now w p r

theorem Exchange.writerHeaderRead_keeps (x : Exchange) (w : Window) (p : Port) (h : HeaderWord) :
    x.Keeps (x.writerHeaderRead w p h) := by
  unfold Exchange.writerHeaderRead
  split
  · exact .refl x
  · refine Exchange.Keeps.trans ?_ (Exchange.answerWord_keeps _ p _)
    unfold Exchange.rearmIfFilling
    split
    · exact .refl x
    · split
      · exact x.armFill_keeps w
      · exact .refl x
      · exact .refl x

theorem Exchange.writerAbandon_keeps (x : Exchange) (now : Word) (w : Window) (p : Port) :
    x.Keeps (x.writerAbandon now w p) := by
  unfold Exchange.writerAbandon
  split
  · exact .refl x
  · split
    · exact ((x.abandon_keeps now w _).trans (Exchange.answer_keeps _ p _)).trans (Exchange.drainTest_keeps _ now w)
    · exact x.answer_keeps p _
    · exact x.answer_keeps p _

theorem Exchange.frameWait_keeps (x : Exchange) (w : Window) (p : Port) (r : Request) : x.Keeps (x.frameWait w p r) := by
  refine Exchange.Keeps.trans ?_ (Exchange.count_keeps _ w _)
  exact (x.setHand_keeps p _).trans (Exchange.modCtx_keeps _ w _ fun c => c.modReader_shape p _)

theorem Exchange.implicitRead_keeps (x : Exchange) (now : Word) (w : Window) (p : Port) (c : Context) (r : Request) :
    x.Keeps (x.implicitRead now w p c r) := by
  unfold Exchange.implicitRead
  dsimp only
  split
  · split
    · exact (x.acquire_keeps w p _).trans (Exchange.present_keeps _ p w _ r _)
    · split
      · exact x.frameWait_keeps w p r
      · exact x.refuse_keeps now p _ _ _
  · exact x.refuse_keeps now p _ _ _

theorem Exchange.readerRead_keeps (x : Exchange) (now : Word) (w : Window) (p : Port) (r : Request) :
    x.Keeps (x.readerRead now w p r) := by
  unfold Exchange.readerRead
  split
  · exact .refl x
  · split
    · exact .refl x
    · split
      · exact x.present_keeps p w _ r _
      · exact x.refuse_keeps now p _ _ _
      · exact x.implicitRead_keeps now w p _ r
      · exact x.implicitRead_keeps now w p _ r

theorem Exchange.readerAcquire_keeps (x : Exchange) (now : Word) (w : Window) (p : Port) :
    x.Keeps (x.readerAcquire now w p) := by
  unfold Exchange.readerAcquire
  split
  · exact .refl x
  · next c _ =>
    dsimp only
    have h1 := x.modCtx_keeps w _ fun c => c.giveBack_shape (x.win w).geom.delivery p .idle
    generalize x.modCtx w (fun c => c.giveBack (x.win w).geom.delivery p .idle) = y at h1 ⊢
    generalize c.giveBack (x.win w).geom.delivery p .idle = d
    have h2 : x.Keeps (match d.available (x.win w).geom.delivery p with
        | some k => (y.acquire w p k).answerWord p (((d.slot? k).bind Slot.seq).getD 0)
        | none => y.answerWord p 0) := by
      split
      · exact (h1.trans (Exchange.acquire_keeps _ w p _)).trans (Exchange.answerWord_keeps _ p _)
      · exact h1.trans (Exchange.answerWord_keeps _ p _)
    split
    · exact (h2.trans (Exchange.serveWriter_keeps _ now w)).trans (Exchange.drainTest_keeps _ now w)
    · exact h2

theorem Exchange.readerRelease_keeps (x : Exchange) (now : Word) (w : Window) (p : Port) :
    x.Keeps (x.readerRelease now w p) := by
  unfold Exchange.readerRelease
  split
  · exact .refl x
  · split
    · exact .refl x
    · dsimp only
      split
      · refine Exchange.Keeps.trans ?_ (Exchange.drainTest_keeps _ now w)
        exact (x.giveBack_keeps now w p _).trans (Exchange.answerWord_keeps _ p _)
      · exact (x.modCtx_keeps w _ fun c => c.modReader_shape p _).trans (Exchange.answerWord_keeps _ p _)

theorem Exchange.readerStatus_keeps (x : Exchange) (w : Window) (p : Port) (h : HeaderWord) :
    x.Keeps (x.readerStatus w p h) := by
  unfold Exchange.readerStatus
  split
  · exact .refl x
  · exact x.answerWord_keeps p _

theorem Exchange.dispatch_keeps (x : Exchange) (now : Word) (p : Port) (r : Request) (c : RequestClass) :
    x.Keeps (x.dispatch now p r c) := by
  cases c
  · exact x.refuse_keeps now p _ _ _
  · exact x.forward_keeps p r
  · exact x.observe_keeps now p r _ _ _
  · exact x.writerAccess_keeps now _ p r
  · exact x.writerHeaderRead_keeps _ p _
  · exact x.writerAccess_keeps now _ p r
  · exact x.writerAbandon_keeps now _ p
  · exact x.readerRead_keeps now _ p r
  · exact x.readerAcquire_keeps now _ p
  · exact x.readerRelease_keeps now _ p
  · exact x.readerStatus_keeps _ p _

/-- Taking a request (R120, R124). -/
theorem Exchange.take_keeps (x : Exchange) (now : Word) (p : Port) (r : Request) : x.Keeps (x.take now p r) :=
  x.dispatch_keeps now p r _

/-! ### The exchange's timers -/

theorem Exchange.fillExpiry_keeps (x : Exchange) (now : Word) (w : Window) : x.Keeps (x.fillExpiry now w) := by
  unfold Exchange.fillExpiry
  split
  · exact .refl x
  · split
    · split
      · exact (x.abandon_keeps now w _).trans (Exchange.drainTest_keeps _ now w)
      · exact .refl x
    · exact .refl x
    · exact .refl x

theorem Exchange.evict_keeps (x : Exchange) (now : Word) (w : Window) (p : Port) (k : SlotId) (c : Context)
    (b : ReaderBinding) : x.Keeps (x.evict now w p k c b) := by
  refine Exchange.Keeps.trans ?_ (Exchange.drainTest_keeps _ now w)
  refine Exchange.Keeps.trans ?_ (Exchange.raise_keeps _ _)
  exact (x.giveBack_keeps now w p _).trans (Exchange.count_keeps _ w _)

theorem Exchange.holdExpiry_keeps (x : Exchange) (now : Word) (w : Window) (p : Port) : x.Keeps (x.holdExpiry now w p) := by
  unfold Exchange.holdExpiry
  split
  · exact .refl x
  · split
    · exact .refl x
    · split
      · split
        · exact x.evict_keeps now w p _ _ _
        · exact .refl x
      · exact .refl x

theorem Exchange.stallExpiry_keeps (x : Exchange) (now : Word) (p : Port) : x.Keeps (x.stallExpiry now p) := by
  unfold Exchange.stallExpiry
  split
  · split
    · split
      · dsimp only
        refine Exchange.Keeps.trans ?_ (Exchange.raise_keeps _ _)
        refine Exchange.Keeps.trans ?_ (Exchange.count_keeps _ _ _)
        exact (x.answer_keeps p _).trans (Exchange.modCtx_keeps _ _ _ fun c => c.endWait_shape p _)
      · exact .refl x
    · exact .refl x
  · exact .refl x

/-! ### Port reset in a window -/

theorem Exchange.resetRole_keeps (x : Exchange) (now : Word) (p : Port) (w : Window) : x.Keeps (x.resetRole now p w) := by
  unfold Exchange.resetRole
  dsimp only
  split
  · exact .refl x
  · exact .refl x
  · split
    · unfold Exchange.resetWriter
      split
      · exact .refl x
      · exact x.modCtx_keeps w _ fun c => c.modWriter_shape _
      · exact (x.abandon_keeps now w _).trans (Exchange.drainTest_keeps _ now w)
    · split
      · unfold Exchange.resetReader
        split
        · exact (x.giveBack_keeps now w p _).trans (Exchange.drainTest_keeps _ now w)
        · exact x.modCtx_keeps w _ fun c => c.modReader_shape p _
      · exact .refl x

theorem Exchange.resetHand_keeps (x : Exchange) (now : Word) (p : Port) : x.Keeps (x.resetHand now p) := by
  unfold Exchange.resetHand
  split
  · exact .refl x
  · exact x.setHand_keeps p _
  · dsimp only
    split
    · exact (x.setHand_keeps p _).trans (Exchange.lowerInFlight_keeps _ now _ _)
    · exact x.setHand_keeps p _
  · refine Exchange.keeps_of_marks rfl rfl ?_ rfl rfl
    simpa using map_mem_mark x.outstanding fun e => e.mem.origin = .port p

end Sys2Proof.Machine
end

