-- ==== Sys2Proof/Laws/Classes.lean ====
section
/-!
SUPPORT. What a class of R124 says of its request: the port's role, the region, and the access.
-/

namespace Sys2Proof.Machine

theorem WindowUnit.regionAt_cases {w v : Window} {u : WindowUnit} {a : Nat} {g : Region} (h : u.regionAt w a = some g)
    (hv : g.window? = some v) : v = w ∧ ((g = .header v ∨ g = .observedHeader v) ∧ u.geom.inHeader a = true ∨
      g ≠ .header v ∧ u.geom.inHeader a = false) := by
  unfold WindowUnit.regionAt at h
  repeat' split at h
  all_goals first | (cases h; done) | skip
  all_goals
    obtain rfl := Option.some.inj h
    obtain rfl := Option.some.inj hv
    simp_all

theorem regionAt_cases (ws : PerWindow WindowUnit) (a : Nat) (w : Window) :
    (regionAt ws a = .header w → (ws.get w).geom.inHeader a = true) ∧
      (regionAt ws a = .payload w → (ws.get w).geom.inHeader a = false) := by
  unfold regionAt
  cases h : Window.all.findSome? fun w => (ws.get w).regionAt w a with
  | none => exact ⟨fun e => (by cases e), fun e => (by cases e)⟩
  | some g =>
    obtain ⟨x, _, hx⟩ := List.exists_of_findSome?_eq_some h
    refine ⟨fun e => ?_, fun e => ?_⟩
    · obtain rfl : g = .header w := e
      obtain ⟨rfl, ⟨_, h⟩ | ⟨h, _⟩⟩ := WindowUnit.regionAt_cases hx rfl
      · exact h
      · exact absurd rfl h
    · obtain rfl : g = .payload w := e
      obtain ⟨rfl, ⟨h | h, _⟩ | ⟨_, h⟩⟩ := WindowUnit.regionAt_cases hx rfl
      · cases h
      · cases h
      · exact h

/-- A request of a class that is no refusal, no report and no PASS lies in the region of its first byte. -/
theorem classify_region {ws : PerWindow WindowUnit} {p : Port} {r : Request} {c : RequestClass} (h : classify ws p r = c)
    (hc : (∀ a w, c ≠ .refused a w) ∧ (∀ w a b, c ≠ .observed w a b) ∧ c ≠ .pass) :
    ∃ w, regionAt ws r.addr.toNat = .header w ∧ headerClass (ws.get w).geom w p r = some c ∧
        (ws.get w).geom.roleAllows p (Access.isWrite r.access) = true ∨
      regionAt ws r.addr.toNat = .payload w ∧ (c = if p = (ws.get w).geom.writer then .writerPayload w else .readerPayload w) ∧
        (ws.get w).geom.roleAllows p (Access.isWrite r.access) = true := by
  obtain ⟨h1, h2, h3⟩ := hc
  unfold classify at h
  split at h
  · exact absurd h.symm (h1 _ _)
  · dsimp only at h
    split at h
    · unfold regionClass at h
      split at h
      · exact absurd h.symm h3
      · exact absurd h.symm (h1 _ _)
      · next w e =>
        dsimp only at h
        split at h
        · next hr =>
          refine ⟨w, .inl ⟨e, ?_, hr⟩⟩
          cases hh : headerClass (ws.get w).geom w p r with
          | none => rw [hh] at h; exact absurd h.symm (h1 _ _)
          | some d => rw [hh] at h; exact congrArg some h
        · exact absurd h.symm (h1 _ _)
      · next w e =>
        dsimp only at h
        split at h
        · next hr => exact ⟨w, .inr ⟨e, h.symm, hr⟩⟩
        · exact absurd h.symm (h1 _ _)
      · unfold observedHeaderClass at h
        split at h
        · split at h <;> exact absurd h.symm (h2 _ _ _)
        · exact absurd h.symm (h2 _ _ _)
      · split at h <;> exact absurd h.symm (h2 _ _ _)
    · unfold straddleClass at h
      split at h
      · exact absurd h.symm h3
      · split at h
        · exact absurd h.symm (h1 _ _)
        · exact absurd h.symm (h2 _ _ _)

/-- A payload access of the writer (R124, R127). -/
theorem classify_writerPayload {ws : PerWindow WindowUnit} {p : Port} {r : Request} {w : Window}
    (h : classify ws p r = .writerPayload w) :
    p = (ws.get w).geom.writer ∧ (ws.get w).geom.inHeader r.addr.toNat = false := by
  obtain ⟨v, ⟨_, hc, _⟩ | ⟨hr, hc, _⟩⟩ := classify_region h (by simp)
  · unfold headerClass at hc
    repeat' split at hc
    all_goals cases hc
  · split at hc
    · next hp =>
      obtain rfl : w = v := by injection hc
      exact ⟨hp, (regionAt_cases ws _ w).2 hr⟩
    · cases hc

/-- A payload read of a reader (R124, R127). -/
theorem classify_readerPayload {ws : PerWindow WindowUnit} {p : Port} {r : Request} {w : Window}
    (h : classify ws p r = .readerPayload w) :
    p ≠ (ws.get w).geom.writer ∧ (ws.get w).geom.inHeader r.addr.toNat = false := by
  obtain ⟨v, ⟨_, hc, _⟩ | ⟨hr, hc, _⟩⟩ := classify_region h (by simp)
  · unfold headerClass at hc
    repeat' split at hc
    all_goals cases hc
  · split at hc
    · cases hc
    · next hp =>
      obtain rfl : w = v := by injection hc
      exact ⟨hp, (regionAt_cases ws _ w).2 hr⟩

/-- A CONTROL write of the writer (R124, R127, R128). -/
theorem classify_commit {ws : PerWindow WindowUnit} {p : Port} {r : Request} {w : Window} {v : Word}
    (h : classify ws p r = .commit w v) :
    p = (ws.get w).geom.writer ∧ (ws.get w).geom.inHeader r.addr.toNat = true ∧ r.access = .write (.word v) := by
  obtain ⟨u, ⟨hr, hc, ha⟩ | ⟨hr, hc, _⟩⟩ := classify_region h (by simp)
  · unfold headerClass at hc
    repeat' split at hc
    all_goals first | (cases hc; done) | skip
    next v' e _ =>
      obtain ⟨rfl, rfl⟩ : u = w ∧ v' = v := by injection hc with hc; injection hc with h1 h2; exact ⟨h1, h2⟩
      refine ⟨?_, (regionAt_cases ws _ _).1 hr, e⟩
      rw [e] at ha
      unfold Geometry.roleAllows at ha
      simpa [Access.isWrite] using ha
  · split at hc <;> cases hc

end Sys2Proof.Machine
end

