-- ==== Sys2Proof/Laws/Completions.lean ====
section
/-!
SUPPORT. What a completion, a grant and a window command can do at most (Laws/Ops.lean says what `Keeps` means).
-/

namespace Sys2Proof.Machine

/-! ### Completions -/

theorem Exchange.endDiscarded_keeps (x : Exchange) (p : Port) : x.Keeps (x.endDiscarded p) := by
  apply Exchange.modPort_keeps
  unfold PortUnit.leaveReset
  split
  · next h =>
    simp only [Bool.and_eq_true, Bool.not_eq_true', decide_eq_true_eq] at h
    exact ⟨rfl, rfl, .inr ⟨h.1.2, rfl⟩⟩
  · exact ⟨rfl, rfl, .inl rfl⟩

theorem Exchange.markFault_keeps (x : Exchange) (w : Window) (k : SlotId) : x.Keeps (x.markFault w k) :=
  x.modCtx_keeps w _ fun c => c.modSlot_shape k _

theorem Exchange.answerWriter_keeps (x : Exchange) (w : Window) (p : Port) (k : SlotId) (a : Response) :
    x.Keeps (x.answerWriter w p k a) := by
  refine Exchange.Keeps.trans ?_ (Exchange.answer_keeps _ p _)
  split
  · exact x.armFill_keeps w
  · exact .refl x

theorem Exchange.writeDone_keeps (x : Exchange) (now : Word) (w : Window) (p : Port) (k : SlotId) (c : Context) (r : Request) :
    x.Keeps (x.writeDone now w p k c r) := by
  unfold Exchange.writeDone
  dsimp only
  split
  · exact (x.modCtx_keeps w _ fun c => c.modWriter_shape _).trans (Exchange.startCommit_keeps _ now w p k _ _ r)
  · exact (x.modCtx_keeps w _ fun c => c.modWriter_shape _).trans (Exchange.answerWriter_keeps _ w p k _)

theorem Exchange.writerCompleted_keeps (x : Exchange) (now : Word) (w : Window) (p : Port) (k : SlotId) (a : Result) :
    x.Keeps (x.writerCompleted now w p k a) := by
  unfold Exchange.writerCompleted
  split
  · split
    · split
      · exact x.writeDone_keeps now w p k _ _
      · exact (x.markFault_keeps w k).trans (Exchange.answerWriter_keeps _ w p k _)
    · exact x.answerWriter_keeps w p k _
  · exact x.answer_keeps p _

theorem Exchange.readDone_keeps (x : Exchange) (now : Word) (w : Window) (p : Port) (b : ReaderBinding) (r : Request)
    (a : Response) : x.Keeps (x.readDone now w p b r a) := by
  unfold Exchange.readDone
  dsimp only
  split
  · refine Exchange.Keeps.trans ?_ (Exchange.drainTest_keeps _ now w)
    refine Exchange.Keeps.trans ?_ (Exchange.answer_keeps _ p _)
    exact (x.modCtx_keeps w _ fun c => c.modReader_shape p _).trans (Exchange.giveBack_keeps _ now w p _)
  · exact (x.modCtx_keeps w _ fun c => c.modReader_shape p _).trans (Exchange.answer_keeps _ p _)

theorem Exchange.readerCompleted_keeps (x : Exchange) (now : Word) (w : Window) (p : Port) (k : SlotId) (a : Result) :
    x.Keeps (x.readerCompleted now w p k a) := by
  unfold Exchange.readerCompleted
  split
  · split
    · exact x.readDone_keeps now w p _ _ _
    · exact x.answer_keeps p _
  · exact x.answer_keeps p _

theorem Exchange.releaseHeld_keeps (x : Exchange) (w : Window) (j : Job) : x.Keeps (x.releaseHeld w j) := by
  unfold Exchange.releaseHeld
  dsimp only
  split
  · split
    · exact x.present_keeps _ w _ _ _
    · exact .refl x
  · exact .refl x

theorem Exchange.completeJob_keeps (x : Exchange) (now : Word) (w : Window) (j : Job) : x.Keeps (x.completeJob now w j) := by
  unfold Exchange.completeJob
  dsimp only
  split
  · exact ((x.dropSource_keeps w).trans (Exchange.carry_keeps _ _)).trans (Exchange.takeCommit_keeps _ now w _ _ _ _)
  · exact (x.dropSource_keeps w).trans (Exchange.carry_keeps _ _)

theorem Exchange.endBlock_keeps (x : Exchange) (now : Word) (w : Window) (b : Nat) : x.Keeps (x.endBlock now w b) := by
  unfold Exchange.endBlock
  refine Exchange.Keeps.trans ?_ (Exchange.carry_keeps _ _)
  dsimp only
  split
  · exact x.carry_keeps _
  · split
    · exact ((x.carry_keeps _).trans (Exchange.releaseHeld_keeps _ w _)).trans (Exchange.completeJob_keeps _ now w _)
    · exact (x.carry_keeps _).trans (Exchange.releaseHeld_keeps _ w _)

theorem Exchange.carryCompleted_keeps (x : Exchange) (now : Word) (a : Result) : x.Keeps (x.carryCompleted now a) := by
  unfold Exchange.carryCompleted
  split
  · exact .refl x
  · split
    · exact x.carry_keeps _
    · exact x.endBlock_keeps now _ _
    · dsimp only
      refine Exchange.Keeps.trans ?_ (Exchange.endBlock_keeps _ now _ _)
      split
      · exact x.markFault_keeps _ _
      · exact .refl x

theorem Exchange.originTakes_keeps (x : Exchange) (now : Word) (e : Entry) (a : Result) : x.Keeps (x.originTakes now e a) := by
  unfold Exchange.originTakes
  split
  · split
    · exact .refl x
    · exact x.carryCompleted_keeps now a
  · split
    · exact x.endDiscarded_keeps _
    · split
      · exact x.writerCompleted_keeps now _ _ _ a
      · exact x.writerCompleted_keeps now _ _ _ a
      · exact x.readerCompleted_keeps now _ _ _ a
      · exact x.answer_keeps _ _

theorem Exchange.lowerEntry_keeps (x : Exchange) (now : Word) (e : Entry) : x.Keeps (x.lowerEntry now e) := by
  unfold Exchange.lowerEntry
  split
  · exact x.lowerInFlight_keeps now _ _
  · exact .refl x

/-- The completion of an entry that has left the list (R147, R148). -/
theorem Exchange.complete_keeps (x : Exchange) (now : Word) (e : Entry) (a : Result) : x.Keeps (x.complete now e a) := by
  unfold Exchange.complete
  dsimp only
  refine Exchange.Keeps.trans ?_ (Exchange.originTakes_keeps _ now e a)
  split
  · exact x.lowerEntry_keeps now e
  · exact (x.lowerEntry_keeps now e).trans (Exchange.raise_keeps _ _)

theorem Exchange.granted_keeps (x : Exchange) (c : Client) (m : MemRequest) : x.Keeps (x.granted c m) := by
  unfold Exchange.granted
  split
  · apply Exchange.modPort_keeps
    split
    · exact ⟨rfl, rfl, .inl rfl⟩
    · exact .refl _
  · dsimp only
    split
    · refine Exchange.Keeps.trans ?_ (Exchange.carry_keeps _ _)
      split
      · exact x.raiseInFlight_keeps _ _
      · exact .refl x
    · split
      · exact x.raiseInFlight_keeps _ _
      · exact .refl x

theorem Exchange.failGrant_keeps (x : Exchange) (now : Word) (c : Client) (m : MemRequest) :
    x.Keeps (x.failGrant now c m) := (x.granted_keeps c m).trans (Exchange.complete_keeps _ now _ _)

/-! ### Operations that change the outstanding list -/

/-- The same but for the outstanding list. -/
structure Exchange.KeepsButList (x y : Exchange) : Prop where
  windows : ∀ w, (x.win w).Keeps (y.win w)
  ports : ∀ p, (x.port p).Keeps (y.port p)
  raised : ∃ l, y.raised = x.raised ++ l
  answers : ∃ l, y.answers = x.answers ++ l

theorem Exchange.Keeps.butList {x y : Exchange} (h : x.Keeps y) : x.KeepsButList y := ⟨h.windows, h.ports, h.raised, h.answers⟩

theorem Exchange.KeepsButList.trans {x y z : Exchange} (h : x.KeepsButList y) (i : y.KeepsButList z) : x.KeepsButList z := by
  refine ⟨fun w => (h.windows w).trans (i.windows w), fun p => (h.ports p).trans (i.ports p), ?_, ?_⟩
  · obtain ⟨a, ha⟩ := h.raised
    obtain ⟨b, hb⟩ := i.raised
    exact ⟨a ++ b, by rw [hb, ha, List.append_assoc]⟩
  · obtain ⟨a, ha⟩ := h.answers
    obtain ⟨b, hb⟩ := i.answers
    exact ⟨a ++ b, by rw [hb, ha, List.append_assoc]⟩

theorem Exchange.list_keeps (x : Exchange) (l : List Entry) : x.KeepsButList { x with outstanding := l } :=
  ⟨fun _ => .refl _, fun _ => .refl _, ⟨[], (List.append_nil _).symm⟩, ⟨[], (List.append_nil _).symm⟩⟩

theorem Exchange.issue_keeps (x : Exchange) (limit : Half) (c : Client) (m : MemRequest) : x.KeepsButList (x.issue limit c m) :=
  (x.granted_keeps c m).butList.trans (Exchange.list_keeps _ _)

/-- A grant in READY adds its request at the end of the list (R144, R146). -/
theorem Exchange.issue_mems (x : Exchange) (limit : Half) (c : Client) (m : MemRequest) :
    (x.issue limit c m).outstanding.map Entry.mem = x.outstanding.map Entry.mem ++ [m] := by
  have h := (x.granted_keeps c m).mems
  simp [Exchange.issue, h]

theorem Exchange.failAll_keeps (n : Nat) (now : Word) (x : Exchange) : x.KeepsButList (Exchange.failAll n now x) := by
  induction n generalizing x with
  | zero => exact (Exchange.Keeps.refl x).butList
  | succ n ih =>
    unfold Exchange.failAll
    split
    · exact (Exchange.Keeps.refl x).butList
    · exact ((x.list_keeps _).trans (Exchange.complete_keeps _ now _ _).butList).trans (ih _)

/-- Failing every entry empties the list (R149). -/
theorem Exchange.failAll_outstanding (n : Nat) (now : Word) (x : Exchange) (h : x.outstanding.length ≤ n) :
    (Exchange.failAll n now x).outstanding = [] := by
  induction n generalizing x with
  | zero => exact List.length_eq_zero_iff.mp (Nat.le_zero.mp h)
  | succ n ih =>
    unfold Exchange.failAll
    split
    · next e => exact e
    · next e rest he =>
      apply ih
      have hm := congrArg List.length (Exchange.complete_keeps { x with outstanding := rest } now e (.error .timeout)).mems
      simp only [List.length_map] at hm
      rw [hm]
      have : x.outstanding.length = rest.length + 1 := by rw [he]; rfl
      omega

/-! ### Window commands -/

theorem Exchange.refuseWaiting_keeps (x : Exchange) (now : Word) (w : Window) : x.Keeps (x.refuseWaiting now w) := by
  unfold Exchange.refuseWaiting
  dsimp only
  split
  · split
    · exact (x.refuseOpen_keeps now w _ _ _).trans (Exchange.modCtx_keeps _ w _ fun c => c.modWriter_shape _)
    · exact .refl x
  · exact .refl x

/-- DRAIN of a live window (R108). -/
theorem Exchange.drainWindow_keeps (x : Exchange) (now : Word) (w : Window) {m : LiveMode} {c : Context}
    (h : (x.win w).life = .live m c) : x.Keeps (x.drainWindow now w c) := by
  have h1 : x.Keeps (x.modWin w fun u => { u with life := .live .draining c }) := by
    apply Exchange.modWin_keeps
    refine ⟨rfl, fun e => ?_, fun d hd => ?_, fun _ e => ?_⟩
    · rw [h] at e; cases e
    · simp only [WindowUnit.ctx?, Option.some.injEq] at hd
      subst hd
      exact ⟨c, by simp [WindowUnit.ctx?, h], .refl c⟩
    · cases e
  unfold Exchange.drainWindow
  dsimp only
  have h2 := (h1.trans (Exchange.refuseWaiting_keeps _ now w)).trans (Exchange.drainTest_keeps _ now w)
  split
  · exact h2
  · exact h2.trans (Exchange.raiseState_keeps _ now w _)

theorem Exchange.disableLive_keeps (x : Exchange) (now : Word) (w : Window) (c : StateCause) :
    x.Keeps (x.disableLive now w c) := by
  unfold Exchange.disableLive
  split
  · exact .refl x
  · exact x.disableWindow_keeps now w c

theorem Exchange.restart_keeps (x : Exchange) (now : Word) : x.Keeps (x.restart now) := by
  unfold Exchange.restart
  exact (Exchange.foldl_keeps _ (fun y w => y.disableWindow_keeps now w _) _ x).trans (Exchange.raise_keeps _ _)

end Sys2Proof.Machine
end

