-- ==== Sys2Proof/Laws/Events.lean ====
section
/-!
SUPPORT. How an event ends: the order of its records, what the event queue holds after it, and the requests taken from the
links.
-/

namespace Sys2Proof.Machine

/-! ### Orders -/

theorem insertAt_perm {α : Type} (l : List α) (n : Nat) (x : α) : (insertAt l n x).Perm (x :: l) := by
  induction l generalizing n with
  | nil => exact .refl _
  | cons y l ih =>
    cases n with
    | zero => exact .refl _
    | succ n => exact ((ih n).cons y).trans (.swap x y l)

/-- Whatever the choice, the order has the same elements. -/
theorem permute_perm {α : Type} (l : List α) (c : Nat) : (permute l c).Perm l := by
  induction l generalizing c with
  | nil => exact .refl _
  | cons x l ih => exact (insertAt_perm _ _ x).trans ((ih _).cons x)

theorem orderRecords_perm (c : Nat) (l : List EventRecord) : (orderRecords c l).Perm l := by
  cases l with
  | nil => exact .refl _
  | cons r l =>
    simp only [orderRecords]
    split
    · exact (permute_perm l c).cons r
    · exact permute_perm (r :: l) c

@[simp] theorem orderRecords_nil (c : Nat) : orderRecords c [] = [] := rfl

@[simp] theorem orderRecords_single (c : Nat) (r : EventRecord) : orderRecords c [r] = [r] := by
  simp only [orderRecords]
  split <;> rfl

@[simp] theorem choicesUsed_zero : choicesUsed 0 = 0 := rfl
@[simp] theorem choicesUsed_one : choicesUsed 1 = 0 := rfl

/-! ### The event queue -/

/-- A record offered to a sound event unit leaves it sound (R176, R177). -/
theorem EventUnit.offer_sound (u : EventUnit) (r : EventRecord) (h : u.Sound) : (u.offer r).Sound := by
  obtain ⟨h1, h2⟩ := h
  unfold EventUnit.offer EventUnit.isFull Config.eventCapacity
  split
  · next e =>
    simp only [decide_eq_true_eq] at e
    exact ⟨h1, fun _ => Nat.le_antisymm h1 e⟩
  · next e =>
    simp only [decide_eq_true_eq] at e
    refine ⟨by simp only [List.length_append, List.length_singleton]; omega, fun n => ?_⟩
    have := h2 n
    omega

theorem EventUnit.foldl_offer_sound (l : List EventRecord) (u : EventUnit) (h : u.Sound) :
    (l.foldl EventUnit.offer u).Sound := by
  induction l generalizing u with
  | nil => exact h
  | cons r l ih => exact ih _ (u.offer_sound r h)

/-- The removal of a head record leaves a sound event unit sound (R178). -/
theorem EventUnit.removeHead_sound (u : EventUnit) (now : Word) (h : u.Sound) : (u.removeHead now).Sound := by
  obtain ⟨h1, h2⟩ := h
  unfold EventUnit.removeHead
  split
  · next e =>
    exact ⟨by simp only [List.length_tail]; omega, fun m => absurd e m⟩
  · next e =>
    have := h2 e
    refine ⟨by simp only [List.length_append, List.length_tail, List.length_singleton]; omega, fun m => absurd rfl m⟩

theorem State.flush_sound (s : State) (h : s.events.Sound) : s.flush.events.Sound := EventUnit.foldl_offer_sound _ _ h

/-- An event without a record ends with nothing stored and no choice used up. -/
theorem State.flush_of_none (s : State) (h : s.exch.raised = []) : s.flush = s := by
  unfold State.flush State.offered
  rw [h]
  obtain ⟨_, _, _, _, ⟨_, _, _, _, _, _⟩, _, _, _, _, _, _⟩ := s
  simp only at h
  subst h
  rfl

/-- An event with one record stores or loses that one. -/
theorem State.flush_of_one (s : State) (r : EventRecord) (h : s.exch.raised = [r]) :
    s.flush = { s with exch := { s.exch with raised := [] }, events := s.record r } := by
  unfold State.flush State.offered State.record
  rw [h]
  simp only [orderRecords_single, List.filter_cons, List.filter_nil, List.length_singleton, choicesUsed_one, Nat.add_zero]
  split <;> rfl

/-! ### The links -/

theorem State.takeLinked_of_none (n : Nat) (s : State) (h : s.linkPorts = []) : State.takeLinked n s = s := by
  cases n with
  | zero => rfl
  | succ n => unfold State.takeLinked; rw [h]

theorem State.takeLinks_of_none (s : State) (h : s.linkPorts = []) : s.takeLinks = s := s.takeLinked_of_none _ h

theorem State.linkPorts_of_empty (s : State) (h : ∀ p, (s.exch.port p).link = []) : s.linkPorts = [] := by
  simp [State.linkPorts, h, Port.all]

/-- Taking the front of a link changes nothing but the exchange, the event unit and the choices, and takes one request off. -/
theorem State.takeFront_link (s : State) (p q : Port) :
    ((s.takeFront p).exch.port q).link = if q = p then (s.exch.port p).link.tail else (s.exch.port q).link := by
  unfold State.takeFront
  split
  · next h =>
    split
    · next e => subst e; simp [h]
    · rfl
  · next r rest h =>
    have hk := (Exchange.take_keeps (s.exch.modPort p fun u => { u with link := rest }) s.time.ticks p r).ports q
    simp only [State.flush_port]
    rw [hk.link]
    split
    · next e => subst e; simp [h]
    · next e => simp [e]

/-- Taking the links of a state leaves none that could be taken: the number of waiting requests bounds the rounds. -/
theorem State.takeFront_linkCount (s : State) (p : Port) (h : (s.exch.port p).link ≠ []) :
    (s.takeFront p).linkCount + 1 = s.linkCount := by
  have hp : 0 < (s.exch.port p).link.length := List.length_pos_iff.mpr h
  simp only [State.linkCount, Port.all, List.map_cons, List.map_nil, List.sum_cons, List.sum_nil, State.takeFront_link]
  cases p <;> simp <;> omega

theorem State.takeLinked_done (n : Nat) (s : State) (h : s.linkCount ≤ n) : (State.takeLinked n s).linkPorts = [] := by
  induction n generalizing s with
  | zero =>
    apply State.linkPorts_of_empty
    intro p
    have : (s.exch.port p).link.length = 0 := by
      simp only [State.linkCount, Port.all, List.map_cons, List.map_nil, List.sum_cons, List.sum_nil] at h
      cases p <;> omega
    exact List.length_eq_zero_iff.mp this
  | succ n ih =>
    unfold State.takeLinked
    split
    · next e => exact e
    · next p ps e =>
      dsimp only
      apply ih
      generalize hq : (p :: ps).getD (Config.freeChoice s.choices % (ps.length + 1)) p = q
      have hmem : q ∈ s.linkPorts := by
        rw [e, ← hq, List.getD_eq_getElem _ _ (by simpa using Nat.mod_lt _ (Nat.succ_pos _))]
        exact List.getElem_mem _
      have hne : (s.exch.port q).link ≠ [] := by
        simp only [State.linkPorts, List.mem_filter, Bool.and_eq_true, Bool.not_eq_true', List.isEmpty_eq_false_iff] at hmem
        exact hmem.2.2
      have := State.takeFront_linkCount { s with choices := s.choices + choicesUsed (ps.length + 1) } q hne
      have h' : ({ s with choices := s.choices + choicesUsed (ps.length + 1) } : State).linkCount = s.linkCount := rfl
      omega

/-! ### A property that every round of taking keeps -/

/-- What a flush and the taking of one request keep, the end of every event keeps. -/
theorem State.takeLinked_induct {P : State → Prop} (hf : ∀ s p, P s → P (s.takeFront p))
    (hc : ∀ (s : State) (n : Nat), P s → P { s with choices := n }) (n : Nat) (s : State) (h : P s) :
    P (State.takeLinked n s) := by
  induction n generalizing s with
  | zero => exact h
  | succ n ih =>
    unfold State.takeLinked
    split
    · exact h
    · exact ih _ (hf _ _ (hc _ _ h))

theorem State.finish_induct {P : State → Prop} (hs : ∀ s, P s → P s.flush) (hf : ∀ s p, P s → P (s.takeFront p))
    (hc : ∀ (s : State) (n : Nat), P s → P { s with choices := n }) (s : State) (h : P s) : P s.finish :=
  State.takeLinked_induct hf hc _ _ (hs s h)

/-- The end of an event changes only the exchange, the event unit and the choices. -/
theorem State.finish_frame (s : State) :
    s.finish.resetAsserted = s.resetAsserted ∧ s.finish.time = s.time ∧ s.finish.memTimeout = s.memTimeout ∧
      s.finish.eventEnable = s.eventEnable ∧ s.finish.memPort = s.memPort ∧ s.finish.mgmt = s.mgmt ∧
      s.finish.issued = s.issued ∧ s.finish.pending = s.pending := by
  refine State.finish_induct
    (P := fun t => t.resetAsserted = s.resetAsserted ∧ t.time = s.time ∧ t.memTimeout = s.memTimeout ∧
      t.eventEnable = s.eventEnable ∧ t.memPort = s.memPort ∧ t.mgmt = s.mgmt ∧ t.issued = s.issued ∧ t.pending = s.pending)
    (fun _ h => h) (fun t p h => ?_) (fun _ _ h => h) s ⟨rfl, rfl, rfl, rfl, rfl, rfl, rfl, rfl⟩
  unfold State.takeFront
  split
  · exact h
  · exact h

/-- The end of an event with nothing raised and no request that a port could take changes nothing. -/
theorem State.finish_of_none (s : State) (h : s.exch.raised = []) (l : s.linkPorts = []) : s.finish = s := by
  unfold State.finish
  rw [s.flush_of_none h, s.takeLinks_of_none l]

/-- The end of an event with one record, no request waiting on a link. -/
theorem State.finish_of_one (s : State) (r : EventRecord) (h : s.exch.raised = [r]) (l : ∀ p, (s.exch.port p).link = []) :
    s.finish = { s with exch := { s.exch with raised := [] }, events := s.record r } := by
  unfold State.finish
  rw [s.flush_of_one r h, State.takeLinks_of_none]
  exact State.linkPorts_of_empty _ l

/-- The end of any event with no request waiting on a link. -/
theorem State.finish_of_links (s : State) (l : ∀ p, (s.exch.port p).link = []) : s.finish = s.flush :=
  State.takeLinks_of_none _ (State.linkPorts_of_empty _ l)

/-- Taking the front of a link keeps what taking a request keeps (Laws/Accesses.lean). -/
theorem State.takeFront_windows (s : State) (p : Port) (w : Window) : (s.exch.win w).Keeps ((s.takeFront p).exch.win w) := by
  unfold State.takeFront
  split
  · exact .refl _
  · next r rest _ =>
    exact (Exchange.take_keeps (s.exch.modPort p fun u => { u with link := rest }) s.time.ticks p r).windows w

theorem State.takeFront_mems (s : State) (p : Port) :
    (s.takeFront p).exch.outstanding.map Entry.mem = s.exch.outstanding.map Entry.mem := by
  unfold State.takeFront
  split
  · rfl
  · next r rest _ =>
    exact (Exchange.take_keeps (s.exch.modPort p fun u => { u with link := rest }) s.time.ticks p r).mems

theorem State.finish_windows (s : State) (w : Window) : (s.exch.win w).Keeps (s.finish.exch.win w) :=
  State.finish_induct (P := fun t => (s.exch.win w).Keeps (t.exch.win w)) (fun _ h => h)
    (fun t p h => h.trans (t.takeFront_windows p w)) (fun _ _ h => h) s (.refl _)

theorem State.finish_mems (s : State) : s.finish.exch.outstanding.map Entry.mem = s.exch.outstanding.map Entry.mem :=
  State.finish_induct (P := fun t => t.exch.outstanding.map Entry.mem = s.exch.outstanding.map Entry.mem) (fun _ h => h)
    (fun t p h => (t.takeFront_mems p).trans h) (fun _ _ h => h) s rfl

end Sys2Proof.Machine
end

