-- ==== Sys2Proof/Laws/Exec.lean ====
section
/-!
SUPPORT. What `exec` does, said once: the effect of the command between the beginning and the end of its event.
-/

namespace Sys2Proof.Machine

/-- The effect of a command between the beginning and the end of its event. -/
def effect : Instr → State → State
  | .pinReset, s => s.pinReset
  | .pinResetRelease, s => s.pinRelease
  | .tick, s => s.unlessReset State.tickBoundary
  | .portReset p, s => s.assertPrst p
  | .portResetRelease p, s => s.deassertPrst p
  | .passThrough p r, s => s.arrive p r
  | .writerPayloadAccess p r, s => s.arrive p r
  | .writerHeaderRead p a, s => s.arrive p (wordRead a)
  | .explicitCommit p a v, s => s.arrive p (wordWrite a v)
  | .explicitAbandon p a v, s => s.arrive p (wordWrite a v)
  | .explicitAcquire p a, s => s.arrive p (wordRead a)
  | .explicitRelease p a, s => s.arrive p (wordRead a)
  | .readerPayloadRead p a z, s => s.arrive p { addr := a, access := .read z }
  | .arbiterGrant, s => s.unlessReset State.grant
  | .memoryResponse a, s => s.unlessReset fun s => s.respond a
  | .responseTimerExpiry i, s => s.unlessReset fun s => s.responseExpiry i
  | .recoveryPulseExpiry, s => s.unlessReset State.pulseExpiry
  | .fillTimerExpiry w, s => s.unlessReset fun s => s.onExchange fun now x => x.fillExpiry now w
  | .holdTimerExpiry w p, s => s.unlessReset fun s => s.onExchange fun now x => x.holdExpiry now w p
  | .stallTimerExpiry p, s => s.unlessReset fun s => s.onExchange fun now x => x.stallExpiry now p
  | .spiFrameEnd, s => s.frameEnd
  | .readRegisters (.taken a n), s => s.send [0x01, a, n]
  | .readRegisters .nextRegister, s => s.nextRegister
  | .writeRegisters e, s => s.send (0x02 :: e.addr :: e.count :: e.data)
  | .registerWrite a v, s => s.sendWord a.toNat v
  | .lockedRegisterWrite w r v, s => s.sendWord (windowAddress w (LockedReg.offset r)) v
  | .stagedRegisterWrite w r v, s => s.sendWord (windowAddress w (StagedReg.offset r)) v
  | .tbDivWrite v, s => s.sendWord 0x00 v
  | .memTimeoutWrite v, s => s.sendWord 0x01 v
  | .eventEnableWrite v, s => s.sendWord 0x02 v
  | .enable w m, s => s.send [0x10, w, m]
  | .drain w, s => s.send [0x11, w]
  | .disable w, s => s.send [0x12, w]
  | .snapshot w, s => s.send [0x18, w]
  | .readSnapshot, s => s.send [0x19]
  | .discardSnapshot, s => s.send [0x1A]
  | .readEvents n, s => s.send [0x20, n]
  | .clearCounters w, s => s.send [0x28, w]
  | .restart, s => s.send [0x30]
  | .recoverMemoryPort, s => s.send [0x31]
  | .readTime, s => s.send [0x38]
  | .unknownCommand c, s => s.send [c]
  | .snapshotConsumed, s => s.restOfSnapshot
  | .eventRecordRemoval, s => s.restOfRecord
  | .classifierRefusal p r, s => s.arrive p r
  | .spiFrameStart .edge, s => s.frameStart
  | .spiFrameStart .firstBit, s => s.beginByte
  | .spiFrameStart (.byte b), s => s.clockByte b

theorem State.request_eq (s : State) (p : Port) (r : Request) (h : r.wellFormed = true) :
    s.request p r = .next (s.begin.arrive p r).finish := by
  unfold State.request State.event; rw [if_pos h]

/-- A next state of `exec` is the command's effect between the beginning and the end of its event. -/
theorem exec_next {i : Instr} {s t : State} (h : exec i s = .next t) : t = (effect i s.begin).finish := by
  have req : ∀ {p r}, s.request p r = .next t → t = (s.begin.arrive p r).finish := by
    intro p r e
    unfold State.request at e
    split at e
    · cases e; rfl
    · cases e
  cases i
  case passThrough => exact req h
  case writerPayloadAccess => exact req h
  case writerHeaderRead => exact req h
  case explicitCommit => exact req h
  case explicitAbandon => exact req h
  case explicitAcquire => exact req h
  case explicitRelease => exact req h
  case readerPayloadRead => exact req h
  case classifierRefusal => exact req h
  case memoryResponse =>
    simp only [exec, execMemoryResponse] at h
    split at h
    · cases h; rfl
    · cases h
  case unknownCommand =>
    simp only [exec, execUnknownCommand] at h
    split at h
    · cases h
    · cases h; rfl
  case readRegisters e => cases e <;> cases h <;> rfl
  case spiFrameStart e => cases e <;> cases h <;> rfl
  all_goals cases h; rfl

end Sys2Proof.Machine
end

