-- ==== Sys2Proof/Laws/Spi.lean ====
section
/-!
SUPPORT. What the bytes of an SPI frame do: which command a code picks, what a whole command comes to in a frame that awaits
one, and how a settled response goes out.
-/

namespace Sys2Proof.Machine

/-- A code picks no command exactly when it is not in the table (R155). -/
theorem commandOf_eq_none (code : Byte) : commandOf code = none ↔ commandCodes.contains code = false := by
  revert code; decide

/-- The four bytes of a word make that word. -/
@[simp] theorem wordOfBytes_wordBytes (v : Word) : wordOfBytes (wordBytes v) = v := by
  simp only [wordOfBytes, wordBytes]
  apply BitVec.eq_of_getLsbD_eq
  intro i hi
  simp only [BitVec.getLsbD_or, BitVec.getLsbD_shiftLeft, BitVec.getLsbD_setWidth, BitVec.truncate_eq_setWidth,
    BitVec.getLsbD_extractLsb']
  by_cases h1 : i < 8
  · simp [h1, hi, show i < 24 by omega, show i < 16 by omega]
  · by_cases h2 : i < 16
    · simp [h1, h2, hi, show i < 24 by omega, show i - 8 < 8 by omega, show i - 8 < 32 by omega,
        show 8 + (i - 8) = i by omega]
    · by_cases h3 : i < 24
      · simp [h1, h2, h3, hi, show ¬ i - 8 < 8 by omega, show i - 16 < 8 by omega, show i - 16 < 32 by omega,
          show 16 + (i - 16) = i by omega]
      · simp [h1, h2, h3, hi, show ¬ i - 8 < 8 by omega, show ¬ i - 16 < 8 by omega, show i - 24 < 8 by omega,
          show i - 24 < 32 by omega, show 24 + (i - 24) = i by omega]

/-! ### The frame is no operand of a command's effect -/

variable (s : State) (f g : Frame)

@[simp] theorem State.setFrame_setFrame : (s.setFrame f).setFrame g = s.setFrame g := rfl

theorem State.setFrame_enableWindow (w m : Byte) :
    (s.setFrame f).enableWindow w m = ((s.enableWindow w m).1.setFrame f, (s.enableWindow w m).2) := by
  unfold State.enableWindow
  simp only [State.setFrame_exch]
  split
  · next v _ _ _ =>
    by_cases e : (s.exch.win v).life = .disabled
    · simp only [e, ne_eq, not_true_eq_false, if_false]
      split
      · rfl
      · by_cases e' : s.exch.attributed v = true
        · simp only [e', if_true]
        · simp only [e', Bool.false_eq_true, if_false]; rfl
    · simp only [ne_eq, e, not_false_eq_true, if_true]
  · rfl

theorem State.setFrame_drainWindow (w : Byte) :
    (s.setFrame f).drainWindow w = ((s.drainWindow w).1.setFrame f, (s.drainWindow w).2) := by
  unfold State.drainWindow
  simp only [State.setFrame_exch]
  split
  · rfl
  · split <;> rfl

theorem State.setFrame_disableWindow (w : Byte) :
    (s.setFrame f).disableWindow w = ((s.disableWindow w).1.setFrame f, (s.disableWindow w).2) := by
  unfold State.disableWindow
  split <;> rfl

theorem State.setFrame_takeSnapshot (w : Byte) :
    (s.setFrame f).takeSnapshot w = ((s.takeSnapshot w).1.setFrame f, (s.takeSnapshot w).2) := by
  unfold State.takeSnapshot
  simp only [State.setFrame_snapshot]
  split
  · rfl
  · split <;> rfl

theorem State.setFrame_clearCounters (w : Byte) :
    (s.setFrame f).clearCounters w = ((s.clearCounters w).1.setFrame f, (s.clearCounters w).2) := by
  unfold State.clearCounters
  split
  · rfl
  · split <;> rfl

theorem State.setFrame_writeRegister (r : Register) (v : Word) :
    (s.setFrame f).writeRegister r v = ((s.writeRegister r v).1.setFrame f, (s.writeRegister r v).2) := by
  cases r
  case locked w r =>
    simp only [State.writeRegister, State.writeLocked, State.setFrame_exch]
    by_cases e : (s.exch.win w).life = .disabled
    · simp only [e, if_true]; rfl
    · simp only [e, if_false]
  all_goals rfl

/-! ### Whole commands in a frame that awaits one (R155) -/

variable {s} {h : FrameState}

/-- In a frame of which nothing has arrived, the bytes of a command are all of them. -/
theorem State.send_of_awaits (ha : s.awaits h) (bytes : List Byte) : s.send bytes = s.clock bytes := by
  obtain ⟨h1, h2, h3, h4, -⟩ := ha
  simp [State.send, h1, FrameState.received, h2, h3, h4]

/-- A byte that arrives before the command is taken is a byte of the command; MISO carries the filler. -/
theorem State.clockByte_of_untaken (hf : s.mgmt.frame = .running h) (ht : h.taken = false) (b : Byte) :
    s.clockByte b = s.mosiByte h b := by
  have hb : s.beginByte = s := by simp [State.beginByte, hf, ht]
  simp [State.clockByte, hb, hf, ht]

theorem State.clockByte_setFrame (t : State) {g : FrameState} (b : Byte) (ht : g.taken = false) :
    (t.setFrame (.running g)).clockByte b = (t.setFrame (.running g)).mosiByte g b :=
  State.clockByte_of_untaken (State.setFrame_frame ..) ht b

/-- The code of a command without arguments takes it. -/
theorem State.send_code (ha : s.awaits h) {code : Byte} {c : MgmtCommand} (hc : commandOf code = some c) :
    s.send [code] = s.arrived { h with code := some code } c := by
  obtain ⟨h1, h2, h3, h4, -⟩ := id ha
  rw [State.send_of_awaits ha]
  show s.clockByte code = _
  rw [State.clockByte_of_untaken h1 h4]
  simp [State.mosiByte, FrameState.receive, h2, hc]

/-- A code that is not in the table is answered UNKNOWN_COMMAND (R155). -/
theorem State.send_unknown (ha : s.awaits h) {code : Byte} (hc : commandOf code = none) :
    s.send [code] = FrameState.take { h with code := some code } (s, { status := .unknownCommand }) := by
  obtain ⟨h1, h2, h3, h4, -⟩ := id ha
  rw [State.send_of_awaits ha]
  show s.clockByte code = _
  rw [State.clockByte_of_untaken h1 h4]
  simp [State.mosiByte, FrameState.receive, h2, hc]

/-- The code of a command with arguments is kept until they arrive (R154, R155). -/
theorem State.clock_code (ha : s.awaits h) {code : Byte} {c : MgmtCommand} (hc : commandOf code = some c)
    (hw : ∀ g : FrameState, g.args = [] → g.todo = .nothing → s.arrived g c = s.setFrame (.running g)) (bytes : List Byte) :
    s.send (code :: bytes) = (s.setFrame (.running { h with code := some code })).clock bytes := by
  obtain ⟨h1, h2, h3, h4, h5⟩ := id ha
  rw [State.send_of_awaits ha]
  show (s.clockByte code).clock bytes = _
  rw [State.clockByte_of_untaken h1 h4]
  simp [State.mosiByte, FrameState.receive, h2, hc, hw, h3, h5]

/-- A command with one argument byte: code and argument take it (R155). -/
theorem State.send_one (ha : s.awaits h) {code : Byte} {c : MgmtCommand} (hc : commandOf code = some c)
    {act : State → Byte → State × Reply} (hw : ∀ (t : State) (g : FrameState), t.arrived g c = t.withOne g (act t))
    (hact : ∀ fr a, act (s.setFrame fr) a = ((act s a).1.setFrame fr, (act s a).2)) (a : Byte) :
    s.send [code, a] = FrameState.take { h with code := some code, args := [a] } (act s a) := by
  obtain ⟨h1, h2, h3, h4, h5⟩ := id ha
  rw [State.clock_code ha hc (fun g e _ => by simp [hw, State.withOne, e])]
  show (State.clockByte _ a) = _
  rw [State.clockByte_setFrame (g := { h with code := some code }) _ _ h4]
  simp [State.mosiByte, FrameState.receive, hc, hw, State.withOne, h3, hact, FrameState.take]

/-- A command with two argument bytes: code and arguments take it (R155). -/
theorem State.send_two (ha : s.awaits h) {code : Byte} {c : MgmtCommand} (hc : commandOf code = some c)
    {act : State → Byte → Byte → State × Reply} (hw : ∀ (t : State) (g : FrameState), t.arrived g c = t.withTwo g (act t))
    (hact : ∀ fr a b, act (s.setFrame fr) a b = ((act s a b).1.setFrame fr, (act s a b).2)) (a b : Byte) :
    s.send [code, a, b] = FrameState.take { h with code := some code, args := [a, b] } (act s a b) := by
  obtain ⟨h1, h2, h3, h4, h5⟩ := id ha
  rw [State.clock_code ha hc (fun g e _ => by simp [hw, State.withTwo, e])]
  show ((State.clockByte _ a).clockByte b) = _
  rw [State.clockByte_setFrame (g := { h with code := some code }) _ _ h4]
  simp only [State.mosiByte, FrameState.receive, Option.bind_some, hc, hw, State.withTwo, h3, List.nil_append]
  rw [State.clockByte_setFrame (g := { h with code := some code, args := [a] }) _ _ h4]
  simp [State.mosiByte, FrameState.receive, hc, hw, State.withTwo, hact, FrameState.take]

/-! ### A response that is settled goes out (R154, R156) -/

/-- Bytes of a settled response, but for its last one, move the position and nothing else. -/
theorem State.clock_within (hf : s.mgmt.frame = .running h) (ht : h.taken = true) (bytes : List Byte)
    (hl : h.position + bytes.length < h.response.length) :
    s.clock bytes = s.setFrame (.running { h with position := h.position + bytes.length }) := by
  induction bytes generalizing s h with
  | nil =>
    obtain ⟨_, _, _, _, _, _, _, ⟨fr, _⟩, _, _, _⟩ := s
    cases hf
    rfl
  | cons b bytes ih =>
    rw [List.length_cons] at hl
    have hb : s.beginByte = s := by
      have : h.position ≠ h.response.length := by omega
      simp [State.beginByte, hf, this]
    have h1 : s.clockByte b = s.setFrame (.running { h with position := h.position + 1 }) := by
      have : h.position + 1 ≠ h.response.length := by omega
      simp [State.clockByte, hb, hf, ht, State.byteOut, this]
    show (s.clockByte b).clock bytes = _
    rw [h1, ih (h := { h with position := h.position + 1 }) (State.setFrame_frame ..) ht (by simp only; omega)]
    simp [Nat.add_assoc, Nat.add_comm 1]

/-- What one byte keeps, any number of bytes keep. -/
theorem State.clock_induct {P : State → Prop} (hb : ∀ t b, P t → P (t.clockByte b)) (bytes : List Byte) (t : State) (h : P t) :
    P (t.clock bytes) := by
  induction bytes generalizing t with
  | nil => exact h
  | cons b bytes ih => exact ih _ (hb t b h)

end Sys2Proof.Machine
end

