-- ==== Sys2Proof/Laws/Safety.lean ====
section
/-!
SUPPORT. The written-out forms of Safety.lean are what the model computes: the drain condition, the staged set, the entry to
DISABLED, the records of an event, and the layouts of the management port.
-/

namespace Sys2Proof.Machine

/-! ### The drain condition (R109) -/

theorem PortSet.isEmpty_iff (t : PortSet) : t.isEmpty = true ↔ t = noPorts := by
  obtain ⟨a, b, c, d⟩ := t
  cases a <;> cases b <;> cases c <;> cases d <;> decide

/-- The drain condition of R109 is the model's test. -/
theorem Context.drainMet_iff (c : Context) (d : Delivery) : c.DrainMet d ↔ c.drained d = true := by
  simp only [Context.DrainMet, Context.drained, Context.slot?, Bool.and_eq_true, List.all_eq_true, Option.all_eq_true,
    decide_eq_true_eq, Bool.or_eq_true, List.isEmpty_iff, PortSet.isEmpty_iff]
  refine and_congr ⟨fun h k _ sl e => h k sl e, fun h k sl e => h k k.mem_all sl e⟩ ⟨fun h => ?_, fun h e => ?_⟩
  · cases d
    · exact .inr (h rfl)
    · exact .inl rfl
  · exact h.resolve_left (by rw [e]; decide)

/-! ### The staged set (R5, R118, R188) -/

theorem Staged.isPending_iff (g : Staged) : g.isPending = true ↔ g ≠ .none := by
  obtain ⟨a, b, c, d⟩ := g
  cases a <;> cases b <;> cases c <;> cases d <;> simp [Staged.isPending, Staged.none]

theorem Staged.mask_eq (g : Staged) : g.mask = g.bits := by
  unfold Staged.mask Staged.bits
  cases g.policy.isSome <;> cases g.fillPattern.isSome <;> cases g.timersA.isSome <;> cases g.tStall.isSome <;> decide

theorem WindowUnit.afterApplying_of_none (u : WindowUnit) (h : u.staged = .none) : u.afterApplying = u := by
  obtain ⟨g, e, st, k, l⟩ := u
  obtain rfl : st = .none := h
  rfl

/-- The staged set, if pending, comes into effect with its record, and nothing else changes. -/
theorem Exchange.applyStaged_eq (x : Exchange) (now : Word) (w : Window) (cause : ApplyCause) (q : Word) :
    (x.applyStaged now w cause q).win w = (x.win w).afterApplying ∧
      (∀ v, v ≠ w → (x.applyStaged now w cause q).win v = x.win v) ∧
      (x.applyStaged now w cause q).raised = x.raised ++ (x.win w).applyRecords now w cause q ∧
      (x.applyStaged now w cause q).ports = x.ports ∧ (x.applyStaged now w cause q).carry = x.carry ∧
      (x.applyStaged now w cause q).outstanding = x.outstanding ∧ (x.applyStaged now w cause q).answers = x.answers := by
  by_cases h : (x.win w).staged = .none
  · have e : x.applyStaged now w cause q = x := by
      unfold Exchange.applyStaged
      exact if_neg (by rw [h]; decide)
    rw [e, WindowUnit.afterApplying_of_none _ h]
    exact ⟨rfl, fun _ _ => rfl, by rw [WindowUnit.applyRecords, if_pos h, List.append_nil], rfl, rfl, rfl, rfl⟩
  · have e : x.applyStaged now w cause q =
        (x.modWin w WindowUnit.afterApplying).raise
          { EventRecord.plain now (.configApplied cause) with window := some w, seq := q, detail := (x.win w).staged.bits } := by
      rw [← Staged.mask_eq]
      unfold Exchange.applyStaged
      exact if_pos ((Staged.isPending_iff _).mpr h)
    rw [e]
    refine ⟨x.win_modWin_self w _, fun v hv => x.win_modWin_ne w _ hv, ?_, rfl, rfl, rfl, rfl⟩
    rw [WindowUnit.applyRecords, if_neg h]
    rfl

/-! ### Becoming DISABLED (R110, R111, R114) -/

theorem Exchange.cancelJob_eq (x : Exchange) (w : Window) :
    (x.carry.job? w = none ∧ x.cancelJob w = x) ∨ (x.carry.job? w ≠ none ∧ x.cancelJob w = x.afterCancel w) := by
  unfold Exchange.cancelJob
  cases h : x.carry.job? w with
  | none => exact .inl ⟨rfl, rfl⟩
  | some j => refine .inr ⟨by simp, ?_⟩; simp [Exchange.afterCancel]

/-- Every access held for the window is answered ERROR, in port order, and no other hand changes. -/
theorem Exchange.endHeld_eq (x : Exchange) (w : Window) :
    (x.endHeld w).windows = x.windows ∧ (x.endHeld w).carry = x.carry ∧ (x.endHeld w).outstanding = x.outstanding ∧
      (x.endHeld w).raised = x.raised ∧
      (∀ p, (x.endHeld w).port p = if (x.port p).heldFor w then { x.port p with hand := .none } else x.port p) ∧
      (x.endHeld w).answers =
        x.answers ++ (Port.all.filter fun p => (x.port p).heldFor w).map (fun p => (p, Response.error)) := by
  have step : ∀ (ps : List Port) (y : Exchange), ps.Nodup → (∀ p, p ∈ ps → y.port p = x.port p) →
      let z := ps.foldl (fun y p => if (y.port p).heldFor w then y.answer p .error else y) y
      z.windows = y.windows ∧ z.carry = y.carry ∧ z.outstanding = y.outstanding ∧ z.raised = y.raised ∧
        (∀ p, z.port p = if p ∈ ps ∧ (x.port p).heldFor w then { x.port p with hand := .none } else y.port p) ∧
        z.answers = y.answers ++ (ps.filter fun p => (x.port p).heldFor w).map (fun p => (p, Response.error)) := by
    intro ps
    induction ps with
    | nil => intro y _ _; simp
    | cons q ps ih =>
      intro y hn hy
      obtain ⟨hq, hn⟩ := List.nodup_cons.mp hn
      have hqx := hy q (by simp)
      simp only [List.foldl_cons, hqx]
      by_cases h : (x.port q).heldFor w = true
      · rw [if_pos h]
        obtain ⟨a, b, c, d, e, f⟩ := ih (y.answer q .error) hn fun p hp => by
          rw [Exchange.port_answer_ne _ _ _ (by rintro rfl; exact hq hp), hy p (by simp [hp])]
        refine ⟨a, b, c, d, fun p => ?_, ?_⟩
        · rw [e]
          by_cases hpq : p = q
          · subst hpq; simp [hq, h, hqx]
          · simp [hpq]
        · rw [f]; simp [h]
      · rw [if_neg h]
        obtain ⟨a, b, c, d, e, f⟩ := ih y hn fun p hp => hy p (by simp [hp])
        refine ⟨a, b, c, d, fun p => ?_, ?_⟩
        · rw [e]
          by_cases hpq : p = q
          · subst hpq; simp [hq, h]
          · simp [hpq]
        · rw [f]; simp [h]
  obtain ⟨a, b, c, d, e, f⟩ := step Port.all x (by decide) fun _ _ => rfl
  refine ⟨a, b, c, d, fun p => ?_, f⟩
  rw [Exchange.endHeld, e]; simp [Port.mem_all]

/-- A window that becomes DISABLED: what R111 lists, and the records of it. -/
theorem Exchange.disableWindow_eq (x : Exchange) (now : Word) (w : Window) (cause : StateCause) :
    x.BecomesDisabled { x.disableWindow now w cause with raised := [] } w ∧
      (x.disableWindow now w cause).raised = x.raised ++ (x.win w).disableRecords now w cause := by
  obtain ⟨a, b, c, d, e, f⟩ := x.endHeld_eq w
  have hw : ∀ v, (x.endHeld w).win v = x.win v := fun v => by unfold Exchange.win; rw [a]
  have hc : ∀ v, ((x.endHeld w).cancelJob w).win v = x.win v := fun v => by
    rcases (x.endHeld w).cancelJob_eq w with ⟨_, h⟩ | ⟨_, h⟩ <;> rw [h]
    · exact hw v
    · exact hw v
  have hp : ∀ p, ((x.endHeld w).cancelJob w).port p = (x.endHeld w).port p := fun v => by
    rcases (x.endHeld w).cancelJob_eq w with ⟨_, h⟩ | ⟨_, h⟩
    · rw [h]
    · rw [h]; rfl
  have ha : ((x.endHeld w).cancelJob w).answers = (x.endHeld w).answers := by
    rcases (x.endHeld w).cancelJob_eq w with ⟨_, h⟩ | ⟨_, h⟩
    · rw [h]
    · rw [h]; rfl
  have hr : ((x.endHeld w).cancelJob w).raised = (x.endHeld w).raised := by
    rcases (x.endHeld w).cancelJob_eq w with ⟨_, h⟩ | ⟨_, h⟩
    · rw [h]
    · rw [h]; rfl
  let y := ((x.endHeld w).cancelJob w).modWin w fun u => { u with life := .disabled }
  have hy : y.win w = { x.win w with life := .disabled } := by
    show (Exchange.modWin _ w _).win w = _
    rw [Exchange.win_modWin_self, hc]
  obtain ⟨g1, g2, g3, g4, g5, g6, g7⟩ := y.applyStaged_eq now w .entry 0
  have recs : (y.win w).applyRecords now w .entry 0 = (x.win w).applyRecords now w .entry 0 := by rw [hy]; rfl
  refine ⟨⟨?_, fun v hv => ?_, fun p => ?_, ?_, ?_, rfl⟩, ?_⟩
  · show (y.applyStaged now w .entry 0).win w = _
    rw [g1, hy]; rfl
  · show (y.applyStaged now w .entry 0).win v = _
    rw [g2 v hv]
    exact (Exchange.win_modWin_ne _ _ _ hv).trans (hc v)
  · show (y.applyStaged now w .entry 0).port p = _
    unfold Exchange.port at *
    rw [g4, ← e p]
    exact hp p
  · show (y.applyStaged now w .entry 0).answers = _
    rw [g7, ← f]
    exact ha
  · show _ ∧ (y.applyStaged now w .entry 0).carry = _ ∧ (y.applyStaged now w .entry 0).outstanding = _ ∨
      _ ∧ (y.applyStaged now w .entry 0).carry = _ ∧ (y.applyStaged now w .entry 0).outstanding = _
    rw [g5, g6]
    show _ ∧ ((x.endHeld w).cancelJob w).carry = _ ∧ ((x.endHeld w).cancelJob w).outstanding = _ ∨
      _ ∧ ((x.endHeld w).cancelJob w).carry = _ ∧ ((x.endHeld w).cancelJob w).outstanding = _
    rcases (x.endHeld w).cancelJob_eq w with ⟨n, h⟩ | ⟨n, h⟩ <;> rw [b] at n <;> rw [h]
    · exact .inl ⟨n, b, c⟩
    · exact .inr ⟨n, by unfold Exchange.afterCancel; rw [b], by unfold Exchange.afterCancel; rw [c]⟩
  · show (y.applyStaged now w .entry 0).raised ++ [_] = _
    rw [g3, recs]
    show ((x.endHeld w).cancelJob w).raised ++ _ ++ [_] = _
    rw [hr, d, List.append_assoc]
    unfold WindowUnit.disableRecords
    rw [g1, hy]
    rfl

/-! ### The records of one event (R175, R176) -/

/-- What the event unit holds once the records of the event are offered. -/
theorem State.flush_offers (s : State) : s.Offers s.exch.raised s.flush.events :=
  ⟨_, orderRecords_perm _ _, rfl⟩

/-! ### The layouts of the management port (R186 to R189) -/

theorem bytesOf_eq (v : Word) : bytesOf v = wordBytes v := by
  unfold bytesOf wordBytes
  refine congrArg₂ _ ?_ (congrArg₂ _ ?_ (congrArg₂ _ ?_ (congrArg₂ _ ?_ rfl))) <;>
    exact BitVec.eq_of_getLsbD_eq fun i hi => by simp [hi]

theorem flagBit_eq (b : Bool) (n : Nat) : flagBit b n = if b then 1#32 <<< n else 0 := rfl

theorem Geometry.bits_eq (g : Geometry) : g.bits = g.geomWord := by
  obtain ⟨l, f, b, n, p, ⟨ra, rb, rc, rd⟩, d, c, i⟩ := g
  unfold Geometry.bits Geometry.geomWord portBits CarryMode.code
  simp only [flagBit_eq]
  cases p <;> cases d <;> cases c <;> rfl

theorem Geometry.ofBits_eq (g : Geometry) (v : Word) : g.ofBits v = g.withGeom v := by
  have h2 : ∀ (n : Nat), (v.extractLsb' n 2) = BitVec.ofNat 2 ((v.getLsbD n).toNat + 2 * (v.getLsbD (n + 1)).toNat) := by
    intro n
    refine BitVec.eq_of_getLsbD_eq fun i hi => ?_
    have : i = 0 ∨ i = 1 := by omega
    rcases this with rfl | rfl <;> cases h0 : v.getLsbD n <;> cases h1 : v.getLsbD (n + 1) <;> simp_all
  unfold Geometry.ofBits Geometry.withGeom portOfBits portsOfBits carryOfBits bitAt
  rw [h2 4, h2 16]
  congr 1
  · cases v.getLsbD 4 <;> cases v.getLsbD 5 <;> rfl
  · simp
  · cases v.getLsbD 16 <;> cases v.getLsbD 17 <;> rfl

theorem Policy.bits_eq (q : Policy) : q.bits = q.word := by
  obtain ⟨o, e, a, b⟩ := q
  cases o <;> cases e <;> cases a <;> cases b <;> decide

theorem Policy.ofBits_eq (v : Word) : Policy.ofBits v = Policy.ofWord v := by
  have h2 : v.extractLsb' 0 2 = BitVec.ofNat 2 ((v.getLsbD 0).toNat + 2 * (v.getLsbD 1).toNat) := by
    refine BitVec.eq_of_getLsbD_eq fun i hi => ?_
    have : i = 0 ∨ i = 1 := by omega
    rcases this with rfl | rfl <;> cases h0 : v.getLsbD 0 <;> cases h1 : v.getLsbD 1 <;> simp_all
  unfold Policy.ofBits Policy.ofWord overflowOfBits bitAt
  rw [h2]
  congr 1
  cases v.getLsbD 0 <;> cases v.getLsbD 1 <;> decide

theorem WindowUnit.bits_eq (u : WindowUnit) : u.bits = u.stateWord := by
  have h : (if u.staged = .none then (0 : Word) else 0x100) = flagBit u.staged.isPending 8 := by
    by_cases h : u.staged = .none
    · rw [if_pos h, h]; rfl
    · rw [if_neg h, (Staged.isPending_iff _).mpr h]; rfl
  unfold WindowUnit.bits WindowUnit.stateWord Life.code
  rw [← h]
  rfl

/-- What a register address shows is what the register named by it reads as. -/
theorem State.shows_eq (s : State) (a : Nat) : s.shows a = s.readRegister (registerAt a) := by
  have win : ∀ (w : Window) (n : Nat), n < 16 → (s.exch.win w).shows n = s.readRegister (windowRegister w n) := by
    intro w n hn
    obtain h | h | h | h : n = 3 ∨ n = 4 ∨ n = 8 ∨ (n ≠ 3 ∧ n ≠ 4 ∧ n ≠ 8) := by omega
    · subst h; exact Geometry.bits_eq _
    · subst h; exact Policy.bits_eq _
    · subst h; exact WindowUnit.bits_eq _
    · interval_cases n <;> first | (exfalso; omega) | rfl
  by_cases hs : a < 0x80
  · by_cases h8 : a < 8
    · obtain rfl | h5 : a = 5 ∨ a ≠ 5 := by omega
      · have bit : ∀ (u : PortUnit) (n : Nat),
            flagBit (decide (u.state = .inReset)) n = if u.state = .inReset then 1#32 <<< n else 0 := by
          intro u n
          by_cases h : u.state = .inReset <;> simp [flagBit, h]
        show _ = portBits (s.exch.ports.map fun u => decide (u.state = .inReset)) 0
        unfold portBits PerPort.map
        rw [bit, bit, bit, bit]
        rfl
      · interval_cases a <;> first | (exfalso; omega) | rfl
    · have e : registerAt a = .unnamed := by
        unfold registerAt globalRegister
        rw [if_pos hs]
        split <;> first | rfl | omega
      rw [e]
      unfold State.shows
      split <;> first | omega | exact if_pos hs
  · have e : registerAt a = match windowOfNat ((a - 0x80) / 16) with
        | some w => windowRegister w ((a - 0x80) % 16)
        | none => .unnamed := if_neg hs
    rw [e]
    have lt : (a - 0x80) % 16 < 16 := Nat.mod_lt _ (by decide)
    unfold State.shows
    split <;> try omega
    rw [if_neg hs]
    generalize (a - 0x80) % 16 = n at lt
    generalize (a - 0x80) / 16 = q
    by_cases h8 : q < 8
    · interval_cases q
      · exact win .W0 n lt
      · exact win .W1 n lt
      · exact win .W2 n lt
      · exact win .W3 n lt
      · exact win .W4 n lt
      · exact win .W5 n lt
      · exact win .W6 n lt
      · exact win .W7 n lt
    · have hn : windowOfNat q = none := by
        unfold windowOfNat
        split <;> first | rfl | omega
      rw [hn]
      split <;> first | rfl | omega

/-- The sixteen bytes of a record. -/
theorem EventRecord.layout_eq (r : EventRecord) : r.layout = r.bytes := by
  obtain ⟨k, o, w, p, sl, q, t, d⟩ := r
  unfold EventRecord.layout EventRecord.bytes
  rw [bytesOf_eq, bytesOf_eq, bytesOf_eq]
  have hk : k.encoding = (k.code, k.causeCode) := by
    cases k <;> first | rfl | (rename_i c; cases c <;> rfl)
  have hp : ∀ k : Option SlotId, (match k with
      | none => (0 : Byte)
      | some k => 0x08 ||| BitVec.ofNat 8 (SlotId.number k)) = match k with
      | none => 0
      | some k => byteBit true 3 ||| BitVec.ofNat 8 (SlotId.number k) := by
    intro k; cases k <;> rfl
  simp only [hk]
  cases o <;> cases w <;> rcases p with _ | p <;> first | rfl | (cases p <;> cases sl <;> rfl)

/-- A slot record of a snapshot. -/
theorem slotBytes_eq (o : Option Slot) :
    slotBytes o = match o with
      | none => List.replicate 14 0
      | some sl => sl.layout := by
  cases o with
  | none => rfl
  | some sl =>
    obtain ⟨st, q, tag, ⟨f1, f2, f3, f4⟩, t, ⟨a, b, c, d⟩, ⟨e, f, g, h⟩, r, n⟩ := sl
    have hb : ∀ (b : Bool) (n : Nat), byteBit b n = weight b (1#8 <<< n) := fun _ _ => rfl
    have half : halfBytes tag = [(tag >>> 8).truncate 8, tag.truncate 8] := by
      refine congrArg₂ _ ?_ (congrArg₂ _ ?_ rfl) <;> exact BitVec.eq_of_getLsbD_eq fun i hi => by simp [hi]
    unfold Slot.layout slotBytes portNibble
    simp only [bytesOf_eq, half]
    cases st <;> rfl

theorem slotBytes_length (o : Option Slot) : (slotBytes o).length = 14 := by cases o <;> rfl

/-- A reader binding of a snapshot. -/
theorem readerBytes_eq (p : Port) (b : ReaderBinding) : readerBytes p b = b.layout p := by
  obtain ⟨st, l, g, r, n, t⟩ := b
  unfold ReaderBinding.layout readerBytes
  rw [bytesOf_eq, bytesOf_eq, bytesOf_eq]
  cases t <;> cases p <;> cases st <;> rfl

theorem jobBytes_eq (o : Option Job) :
    jobBytes o = match o with
      | none => [0, 0, 0, 0, 0, 0, 0]
      | some j => j.layout := by
  cases o with
  | none => rfl
  | some j =>
    unfold jobBytes Job.layout
    simp only [bytesOf_eq, List.countP_eq_length_filter]
    cases h : j.work <;> simp [Job.source?, h, byteBit]

/-- The reader bindings' bytes: the bindings in port order, then zeros. -/
theorem readersBytes_eq (c : Context) :
    (readersBytes c).length = 42 ∧ ∀ i, i < 3 → ((readersBytes c).drop (14 * i)).take 14 =
      match (Port.all.filterMap fun p => (c.readers.get p).map fun r => r.layout p)[i]? with
      | none => List.replicate 14 0
      | some bytes => bytes := by
  have e : (Port.all.filterMap fun p => (c.readers.get p).map fun r => r.layout p) =
      Port.all.filterMap fun p => (c.reader? p).map (readerBytes p) := by
    simp only [← readerBytes_eq]; rfl
  have len : ∀ l, l ∈ (Port.all.filterMap fun p => (c.reader? p).map (readerBytes p)) → l.length = 14 := by
    intro l hl
    obtain ⟨p, -, h⟩ := List.mem_filterMap.mp hl
    obtain ⟨b, -, rfl⟩ := Option.map_eq_some_iff.mp h
    rfl
  rw [e]
  unfold readersBytes
  generalize (Port.all.filterMap fun p => (c.reader? p).map (readerBytes p)) = bs at len
  refine ⟨by simp, fun i hi => ?_⟩
  have take : ∀ (a : List Byte) (l : List Byte), a.length = 14 → (a ++ l).take 14 = a := fun a l h => List.take_left' h
  have drop : ∀ (a : List Byte) (l : List Byte) (n : Nat), a.length = 14 → (a ++ l).drop (14 + n) = l.drop n := by
    intro a l n h
    rw [← List.drop_drop, List.drop_left' h]
  rw [List.drop_take, List.take_take, show min 14 (42 - 14 * i) = 14 by omega]
  clear e
  induction bs generalizing i with
  | nil =>
    interval_cases i <;> rfl
  | cons a bs ih =>
    have ha := len a (by simp)
    cases i with
    | zero => simp only [List.flatten_cons, List.append_assoc]; exact take _ _ ha
    | succ i =>
      simp only [List.flatten_cons, List.append_assoc]
      rw [show 14 * (i + 1) = 14 + 14 * i by omega, drop _ _ _ ha]
      exact ih (fun l h => len l (by simp [h])) i (by omega)

/-- The ready queue's entries, two bits each. -/
theorem readyByte_eq (l : List SlotId) (i : Nat) (h : i < 4) :
    (readyByte l >>> (2 * i)) &&& 3 = match l[i]? with
      | none => 0
      | some k => BitVec.ofNat 8 (SlotId.number k) := by
  rcases l with _ | ⟨a, _ | ⟨b, _ | ⟨c, _ | ⟨d, l⟩⟩⟩⟩
  · interval_cases i <;> rfl
  · interval_cases i <;> cases a <;> rfl
  · interval_cases i <;> cases a <;> cases b <;> rfl
  · interval_cases i <;> cases a <;> cases b <;> cases c <;> rfl
  · have e : readyByte (a :: b :: c :: d :: l) = readyByte [a, b, c, d] := by
      unfold readyByte
      simp [List.zipIdx_cons]
    rw [e]
    interval_cases i <;> cases a <;> cases b <;> cases c <;> cases d <;> rfl

/-- The 128 bytes that SNAPSHOT latches. -/
theorem Exchange.snapshotBytes_shows (x : Exchange) (now : Word) (w : Window) : x.Shows now w (x.snapshotBytes now w) := by
  have st : weight (decide ((x.win w).staged ≠ .none)) 0x80 = byteBit (x.win w).staged.isPending 7 := by
    by_cases h : (x.win w).staged = .none
    · rw [h]; rfl
    · rw [(Staged.isPending_iff _).mpr h, decide_eq_true h]; rfl
  have b1 : (x.win w).bits.truncate 8 = (x.win w).life.code.truncate 8 := by
    rw [WindowUnit.bits_eq]
    unfold WindowUnit.stateWord flagBit
    rcases (x.win w).life with _ | ⟨m, c⟩
    · cases (x.win w).staged.isPending <;> rfl
    · cases m <;> cases (x.win w).staged.isPending <;> (simp only [Life.code]; decide)
  unfold Exchange.Shows
  rw [st, b1]
  cases h : (x.win w).life with
  | disabled =>
    have e : x.snapshotBytes now w =
        [BitVec.ofNat 8 (Window.number w), (Life.disabled).code.truncate 8 ||| byteBit (x.win w).staged.isPending 7] ++
          ([0, 0] ++ wordBytes now ++ List.replicate 120 0) := by
      unfold Exchange.snapshotBytes WindowUnit.ctx?
      simp only [h]
    rw [e]
    refine ⟨rfl, rfl, by rw [bytesOf_eq]; rfl, rfl, fun _ i hi => ?_, fun m c e => by cases e⟩
    by_cases h8 : i < 128
    · interval_cases i <;> first | rfl | (exfalso; omega)
    · exact List.getD_eq_default _ _ (by simp [wordBytes]; omega)
  | live m c =>
    have e : x.snapshotBytes now w =
        [BitVec.ofNat 8 (Window.number w), (Life.live m c).code.truncate 8 ||| byteBit (x.win w).staged.isPending 7] ++
          contextBytes now c (x.carry.job? w) := by
      unfold Exchange.snapshotBytes WindowUnit.ctx?
      simp only [h]
    obtain ⟨rl, rb⟩ := readersBytes_eq c
    have sl : ∀ k, (slotBytes (c.slot? k)).length = 14 := fun k => slotBytes_length _
    have take : ∀ (a l : List Byte), a.length = 14 → (a ++ l).take 14 = a := fun a l h => List.take_left' h
    have drop : ∀ (a l : List Byte) (n : Nat), a.length = 14 → (a ++ l).drop (14 + n) = l.drop n := by
      intro a l n h
      rw [← List.drop_drop, List.drop_left' h]
    have job : ∃ a b c d e f g, jobBytes (x.carry.job? w) = [a, b, c, d, e, f, g] := by
      cases x.carry.job? w <;> exact ⟨_, _, _, _, _, _, _, rfl⟩
    have je := jobBytes_eq (x.carry.job? w)
    rw [e]
    obtain ⟨j0, j1, j2, j3, j4, j5, j6, ej⟩ := job
    rw [ej] at je
    have tail : ([BitVec.ofNat 8 (Window.number w), (Life.live m c).code.truncate 8 ||| byteBit (x.win w).staged.isPending 7] ++
        contextBytes now c (x.carry.job? w)).drop 28 =
        slotBytes (c.slot? .s0) ++ (slotBytes (c.slot? .s1) ++ (slotBytes (c.slot? .s2) ++
          (slotBytes (c.slot? .s3) ++ (readersBytes c ++ [0, 0])))) := by
      unfold contextBytes
      rw [ej]
      simp only [SlotId.all, List.map_cons, List.map_nil, List.flatten_cons, List.flatten_nil, List.append_nil,
        List.append_assoc]
      rfl
    have from28 : ∀ n, ([BitVec.ofNat 8 (Window.number w),
          (Life.live m c).code.truncate 8 ||| byteBit (x.win w).staged.isPending 7] ++
        contextBytes now c (x.carry.job? w)).drop (28 + n) =
        (slotBytes (c.slot? .s0) ++ (slotBytes (c.slot? .s1) ++ (slotBytes (c.slot? .s2) ++
          (slotBytes (c.slot? .s3) ++ (readersBytes c ++ [0, 0]))))).drop n := by
      intro n
      rw [← List.drop_drop, tail]
    have from84 : ∀ n, ([BitVec.ofNat 8 (Window.number w),
          (Life.live m c).code.truncate 8 ||| byteBit (x.win w).staged.isPending 7] ++
        contextBytes now c (x.carry.job? w)).drop (84 + n) = (readersBytes c ++ [0, 0]).drop n := by
      intro n
      rw [show 84 + n = 28 + (14 + (14 + (14 + (14 + n)))) by omega, from28, drop _ _ _ (sl _), drop _ _ _ (sl _),
        drop _ _ _ (sl _), drop _ _ _ (sl _)]
    refine ⟨?_, rfl, ?_, rfl, fun e => (by cases e), fun m' c' e' => ?_⟩
    · have l1 := congrArg List.length tail
      simp only [List.length_drop, List.length_append, sl, rl, List.length_cons, List.length_nil] at l1 ⊢
      omega
    · rw [bytesOf_eq]; rfl
    · cases e'
      refine ⟨?_, fun i hi => readyByte_eq _ i hi, by rw [bytesOf_eq]; rfl, ?_, ?_, ?_, ?_, fun k => ?_, fun i hi => ?_, ?_⟩
      · clear tail from28 from84 rl rb sl e h
        obtain ⟨_, _, _, _, base, _⟩ := c
        cases base <;> rfl
      · show writerByte c.writer = _
        unfold writerByte
        cases c.writer.fillTimer <;> rfl
      · refine Eq.trans ?_ je
        unfold contextBytes
        rw [ej]
        rfl
      · unfold contextBytes
        rw [ej, bytesOf_eq]; rfl
      · unfold contextBytes
        rw [ej, bytesOf_eq]; rfl
      · rw [from28]
        have hk := slotBytes_eq (c.slot? k)
        refine Eq.trans ?_ hk
        cases k
        · exact take _ _ (sl _)
        · show List.take 14 (List.drop (14 + 0) _) = _
          rw [drop _ _ _ (sl _)]; exact take _ _ (sl _)
        · show List.take 14 (List.drop (14 + (14 + 0)) _) = _
          rw [drop _ _ _ (sl _), drop _ _ _ (sl _)]; exact take _ _ (sl _)
        · show List.take 14 (List.drop (14 + (14 + (14 + 0))) _) = _
          rw [drop _ _ _ (sl _), drop _ _ _ (sl _), drop _ _ _ (sl _)]; exact take _ _ (sl _)
      · rw [from84]
        refine Eq.trans ?_ (rb i hi)
        rw [List.drop_append_of_le_length (by omega), List.take_append_of_le_length]
        rw [List.length_drop]; omega
      · rw [show 126 = 84 + 42 from rfl, from84, List.drop_left' rl]

end Sys2Proof.Machine
end

