-- ==== Sys2Proof/Laws/Effects.lean ====
section
/-!
SUPPORT. The effects written out in Safety.lean are what the model computes: the frame available to a reader, an open, a commit,
the serving of a waiting writer, the drain test, and the parts of a completion. A statement about one of them is a statement about
the model's operation.
-/

namespace Sys2Proof.Machine

/-! ### Updates of one entry -/

theorem PerWindow.set_set {α : Type} (t : PerWindow α) (w : Window) (a b : α) : (t.set w a).set w b = t.set w b := by
  cases w <;> rfl

theorem PerWindow.set_get {α : Type} (t : PerWindow α) (w : Window) : t.set w (t.get w) = t := by cases w <;> rfl

theorem PerSlot.set_set {α : Type} (t : PerSlot α) (k : SlotId) (a b : α) : (t.set k a).set k b = t.set k b := by
  cases k <;> rfl

theorem PerSlot.set_get {α : Type} (t : PerSlot α) (k : SlotId) : t.set k (t.get k) = t := by cases k <;> rfl

theorem PerSlot.set_comm {α : Type} (t : PerSlot α) {k j : SlotId} (h : j ≠ k) (a b : α) :
    (t.set k a).set j b = (t.set j b).set k a := by
  cases k <;> cases j <;> first | rfl | exact absurd rfl h

theorem PerPort.set_set {α : Type} (t : PerPort α) (p : Port) (a b : α) : (t.set p a).set p b = t.set p b := by
  cases p <;> rfl

theorem PerPort.set_get {α : Type} (t : PerPort α) (p : Port) : t.set p (t.get p) = t := by cases p <;> rfl

/-- Two changes of one window are one change. -/
theorem Exchange.modWin_modWin (x : Exchange) (w : Window) (f g : WindowUnit → WindowUnit) :
    (x.modWin w f).modWin w g = x.modWin w fun u => g (f u) := by
  simp only [Exchange.modWin, PerWindow.get_set_self, PerWindow.set_set]

/-- Only the window's own unit matters to a change of it. -/
theorem Exchange.modWin_congr (x : Exchange) (w : Window) {f g : WindowUnit → WindowUnit} (h : f (x.win w) = g (x.win w)) :
    x.modWin w f = x.modWin w g := by
  unfold Exchange.modWin
  unfold Exchange.win at h
  rw [h]

/-- A change of the context of a live window is a change of its life. -/
theorem Exchange.modCtx_of_live (x : Exchange) (w : Window) {m : LiveMode} {c : Context} (h : (x.win w).life = .live m c)
    (f : Context → Context) : x.modCtx w f = x.modWin w fun u => { u with life := .live m (f c) } :=
  x.modWin_congr w (by simp only [WindowUnit.mapCtx, h])

theorem Exchange.ctx?_of_live (x : Exchange) (w : Window) {m : LiveMode} {c : Context} (h : (x.win w).life = .live m c) :
    x.ctx? w = some c := by simp only [Exchange.ctx?, WindowUnit.ctx?, h]

theorem Context.modSlot_of (c : Context) (k : SlotId) {sl : Slot} (h : c.slots.get k = some sl) (f : Slot → Slot) :
    c.modSlot k f = { c with slots := c.slots.set k (some (f sl)) } := by
  simp only [Context.modSlot, Context.slot?, h, Context.setSlot]

theorem Context.modReader_of (c : Context) (p : Port) {b : ReaderBinding} (h : c.readers.get p = some b)
    (f : ReaderBinding → ReaderBinding) : c.modReader p f = { c with readers := c.readers.set p (some (f b)) } := by
  simp only [Context.modReader, Context.reader?, h, Context.setReader]

/-! ### The frame available to a reader (R18) -/

theorem Context.available_of (c : Context) (d : Delivery) (p : Port) (k : SlotId) (h : c.Available d p k) :
    c.available d p = some k := by
  cases d with
  | stream =>
    obtain ⟨pre, post, sl, hr, hk, hp, hpre⟩ := h
    show c.ready.find? _ = some k
    rw [hr, List.find?_append, List.find?_eq_none.mpr, List.find?_cons_of_pos]
    · rfl
    · simp [Context.slot?, hk, hp]
    · intro j hj
      simp only [Context.slot?, Option.any_eq_true, not_exists, not_and]
      intro sl' hs
      simpa using hpre j sl' hj hs
  | latest =>
    obtain ⟨post, hr⟩ := h
    show c.ready.head? = some k
    rw [hr]; rfl

theorem Context.available_none (c : Context) (d : Delivery) (p : Port) (h : c.NoneAvailable d p) : c.available d p = none := by
  cases d with
  | stream =>
    refine List.find?_eq_none.mpr fun j hj => ?_
    simp only [Context.slot?, Option.any_eq_true, not_exists, not_and]
    intro sl' hs
    simpa using h j sl' hj hs
  | latest =>
    show c.ready.head? = none
    rw [show c.ready = [] from h]; rfl

/-! ### The choice of a slot (R21) -/

theorem Context.baseIs_iff (c : Context) (carry : CarryMode) (st : SlotState) :
    c.BaseIs carry st ↔ carry = .copy ∧ ∃ b, c.base = some b ∧ c.slotIs b st = true := by
  simp only [Context.BaseIs, Context.slotIs, Context.slot?, Option.any_eq_true, decide_eq_true_eq, exists_and_left]

/-- Without a base slot that decides, the choice is made among all slots. -/
theorem Context.chooseSlot_of_base (c : Context) (carry : CarryMode) (hf : ¬c.BaseIs carry .free)
    (hr : ¬c.BaseIs carry .releasing) : c.chooseSlot carry = c.chooseFree := by
  rw [Context.baseIs_iff] at hf hr
  unfold Context.chooseSlot
  split
  · next b hb =>
    rw [if_neg fun h => hf ⟨rfl, b, hb, h⟩, if_neg fun h => hr ⟨rfl, b, hb, h⟩]
  · rfl

theorem SlotId.lt_of_before {a b : List SlotId} {k j : SlotId} (h : SlotId.all = a ++ k :: b) (hj : j ∈ a) :
    SlotId.number j < SlotId.number k := by
  obtain _ | ⟨a0, _ | ⟨a1, _ | ⟨a2, _ | ⟨a3, a⟩⟩⟩⟩ := a <;> simp [SlotId.all] at h hj
  · obtain ⟨rfl, rfl, _⟩ := h; subst hj; decide
  · obtain ⟨rfl, rfl, rfl, _⟩ := h; rcases hj with rfl | rfl <;> decide
  · obtain ⟨rfl, rfl, rfl, rfl, _⟩ := h; rcases hj with rfl | rfl | rfl <;> decide

theorem Context.chooseSlot_take (c : Context) (carry : CarryMode) (k : SlotId) (sl : Slot) (h : c.SlotFor carry k sl) :
    c.chooseSlot carry = .take k := by
  obtain ⟨hk, hf, ⟨hc, hb⟩ | ⟨nf, nr, low⟩⟩ := h
  · subst hc
    simp only [Context.chooseSlot, hb]
    rw [if_pos (by simp [Context.slotIs, Context.slot?, hk, hf])]
  · rw [c.chooseSlot_of_base carry nf nr]
    have hs : c.slotIs k .free = true := by simp [Context.slotIs, Context.slot?, hk, hf]
    have hl : ∀ j, SlotId.number j < SlotId.number k → c.slotIs j .free = false := by
      intro j hj
      simp only [Context.slotIs, Context.slot?, Option.any_eq_false]
      intro sl' h'
      simpa using low j sl' hj h'
    have : SlotId.all.find? (fun k => c.slotIs k .free) = some k := by
      rw [List.find?_eq_some_iff_append]
      obtain ⟨a, b, hab⟩ := List.append_of_mem k.mem_all
      exact ⟨hs, a, b, hab, fun j hj => by simp [hl j (SlotId.lt_of_before hab hj)]⟩
    simp only [Context.chooseFree, this]

theorem Context.chooseSlot_wait (c : Context) (carry : CarryMode) (h : c.SlotWait carry) : c.chooseSlot carry = .wait := by
  by_cases hr : c.BaseIs carry .releasing
  · obtain ⟨rfl, b, base, hb, hs, hst⟩ := hr
    simp only [Context.chooseSlot, hb]
    rw [if_neg (by simp [Context.slotIs, Context.slot?, hs, hst]), if_pos (by simp [Context.slotIs, Context.slot?, hs, hst])]
  · obtain ⟨nf, k, sl, hk, hst⟩ := h.resolve_left hr
    rw [c.chooseSlot_of_base carry (fun ⟨_, b, base, _, hs, hst⟩ => nf b base hs hst) hr]
    have h1 : SlotId.all.find? (fun k => c.slotIs k .free) = none := by
      refine List.find?_eq_none.mpr fun j _ => ?_
      simp only [Context.slotIs, Context.slot?, Option.any_eq_true, not_exists, not_and]
      intro sl' hs
      simpa using nf j sl' hs
    have h2 : (SlotId.all.any fun k => c.slotIs k .releasing) = true :=
      List.any_eq_true.mpr ⟨k, k.mem_all, by simp [Context.slotIs, Context.slot?, hk, hst]⟩
    simp only [Context.chooseFree, h1]
    rw [if_pos h2]

theorem Context.chooseSlot_overflow (c : Context) (carry : CarryMode) (h : c.NoSlot) : c.chooseSlot carry = .overflow := by
  rw [c.chooseSlot_of_base carry (fun ⟨_, b, base, _, hs, hst⟩ => (h b base hs).1 hst)
    (fun ⟨_, b, base, _, hs, hst⟩ => (h b base hs).2 hst)]
  have h1 : ∀ st, (∀ k sl, c.slots.get k = some sl → sl.state ≠ st) → ∀ k, c.slotIs k st = false := by
    intro st hn k
    simp only [Context.slotIs, Context.slot?, Option.any_eq_false]
    intro sl' h'
    simpa using hn k sl' h'
  have h2 : SlotId.all.find? (fun k => c.slotIs k .free) = none :=
    List.find?_eq_none.mpr fun j _ => by simp [h1 .free (fun k sl hk => (h k sl hk).1) j]
  have h3 : ¬(SlotId.all.any fun k => c.slotIs k .releasing) = true := by
    simp [h1 .releasing (fun k sl hk => (h k sl hk).2)]
  simp only [Context.chooseFree, h2]
  rw [if_neg h3]

/-! ### Opening (R23, R24) -/

theorem WindowUnit.opensWith_eq (u : WindowUnit) (c : Context) (k : SlotId) : carryDecision u c k = u.opensWith c.base k := by
  unfold carryDecision WindowUnit.opensWith
  cases u.geom.carry <;> cases c.base <;> rfl

/-- The source of a COPY job that an open creates is not the slot it opens. -/
theorem WindowUnit.opensWith_source (u : WindowUnit) (base : Option SlotId) (k b : SlotId)
    (h : (u.opensWith base k).2 = some (.copy b)) : b ≠ k := by
  unfold WindowUnit.opensWith at h
  split at h
  · cases h
  · dsimp only at h
    split at h
    · cases h
    · next hb => injection h with h; injection h with h; exact h ▸ hb
  · injection h with h; cases h

theorem Exchange.openSlot_eq (x : Exchange) (now : Word) (w : Window) (k : SlotId) {m : LiveMode} {c : Context} {sl : Slot}
    (h : (x.win w).life = .live m c) (hk : c.slots.get k = some sl) :
    x.openSlot now w k =
      { x.modWin w (fun u => { u with life := .live m (c.afterOpen (x.win w) k sl now) }) with
        carry := x.carry.afterOpen w k ((x.win w).opensWith c.base k).2 } := by
  have hs := (x.win w).opensWith_source c.base k
  unfold Exchange.openSlot
  simp only [x.ctx?_of_live w h, WindowUnit.opensWith_eq, x.modCtx_of_live w h]
  unfold Context.afterOpen
  generalize (x.win w).opensWith c.base k = d at *
  obtain ⟨fl, work⟩ := d
  have ho : c.openSlot k now (x.win w).eff.timersA.tFill fl =
      { c with
        slots := c.slots.set k (some (sl.afterOpening now fl)),
        writer := { c.writer with
          state := .filling k, bytesWritten := 0, fillTimer := .arm (x.win w).eff.timersA.tFill, commitPending := false } } := by
    unfold Context.openSlot
    rw [c.modSlot_of k hk]; rfl
  cases work with
  | none => simp only [ho]; rfl
  | some work =>
    cases work with
    | fill v => simp only [ho]; rfl
    | copy b =>
      have hb := hs b rfl
      simp only [ho]
      rw [Exchange.modCtx_of_live _ w (m := m) (by rw [Exchange.win_modWin_self]), Exchange.modWin_modWin]
      dsimp only
      cases hbs : c.slots.get b with
      | none =>
        simp only [Context.modSlot, Context.slot?, PerSlot.get_set_ne _ _ hb, hbs]; rfl
      | some base =>
        rw [Context.modSlot_of (sl := base) _ _ (by simpa [hb] using hbs)]; rfl

/-! ### Committing (R31 to R34, R49) -/

/-- The exchange of a commit after which the readers with a request in f have been served. -/
def Exchange.committedWith (x : Exchange) (now : Word) (w : Window) (m : LiveMode) (c : Context) (k : SlotId) (sl : Slot)
    (tag : Half) (auto : Bool) (f : PerPort (Option Request)) : Exchange :=
  let g := (x.win w).geom
  let u := (x.win w).afterApplying
  let c1 := c.commit g k tag auto now
  let served := Port.all.filter fun q => (f.get q).isSome
  { x with
    windows := x.windows.set w { u with
      counters := { u.counters with
        committed := u.counters.committed + 1, acquired := u.counters.acquired + BitVec.ofNat 32 served.length },
      life := .live m { c1 with
        slots := c1.slots.set k (some { sl.afterCommit g c.nextSeq tag auto now with
          holders := PerPort.ofFn fun q => (f.get q).isSome || sl.holders.get q,
          inFlight := sl.inFlight + served.length }),
        readers := PerPort.ofFn fun q => (c.readers.get q).map fun b =>
          if (f.get q).isSome then b.afterAcquire k c.nextSeq u.eff.timersA.tHold else b } },
    ports := PerPort.ofFn fun q => match f.get q with
      | none => x.port q
      | some r => { x.port q with hand := .presented r (translated g w q k .readerRead r) false },
    raised := x.raised ++ (x.win w).applyRecords now w .commit c.nextSeq ++
      [{ EventRecord.plain now .frameCommitted with
          window := some w, port := some g.writer, slot := some k, seq := c.nextSeq, detail := tag.zeroExtend 32 }] }

theorem Exchange.afterCommit_eq_with (x : Exchange) (now : Word) (w : Window) (m : LiveMode) (c : Context) (k : SlotId) (sl : Slot)
    (tag : Half) (auto : Bool) :
    x.afterCommit now w m c k sl tag auto =
      x.committedWith now w m c k sl tag auto (PerPort.ofFn fun q => x.waitingRead w c q) := by
  simp only [Exchange.committedWith, PerPort.get_ofFn]; rfl

theorem served_set (f : PerPort (Option Request)) (p : Port) (r : Request) (h : f.get p = none) :
    (Port.all.filter fun q => ((f.set p (some r)).get q).isSome).length =
      (Port.all.filter fun q => (f.get q).isSome).length + 1 := by
  obtain ⟨a, b, c, d⟩ := f
  cases p <;> cases a <;> cases b <;> cases c <;> cases d <;> first | rfl | cases h

/-- A LATEST commit leaves the ready queue without the slots it held before. -/
theorem Context.supersede_ready (c : Context) (k : SlotId) (h : c.slots.get k ≠ none) :
    (c.supersede k).ready = c.ready.filter (· ≠ k) ∧ ∀ j, (c.supersede k).slots.get j = none ↔ c.slots.get j = none := by
  obtain ⟨sl, hk⟩ := Option.ne_none_iff_exists'.mp h
  have e : (c.supersede k).slots = (c.modSlot k (fun _ => sl)).slots.set k ((c.supersede k).slots.get k) := by
    simp only [Context.supersede, Context.slot?, hk]
    split <;> simp only [Context.settle, Context.retire, c.modSlot_of k hk, PerSlot.set_set, PerSlot.get_set_self]
  have n : (c.supersede k).slots.get k ≠ none := by
    simp only [Context.supersede, Context.slot?, hk]
    split <;> simp [Context.settle, Context.retire, c.modSlot_of k hk]
  refine ⟨?_, fun j => ?_⟩
  · simp only [Context.supersede, Context.slot?, hk]
    split <;> rfl
  · by_cases hj : j = k
    · subst hj; simp [n, hk]
    · rw [e, c.modSlot_of k hk]; simp [hj]

theorem Context.foldl_supersede_ready' (c : Context) (l : List SlotId) (h : ∀ j, j ∈ l → c.slots.get j ≠ none)
    (s : ∀ j, j ∈ c.ready → j ∈ l) : (l.foldl Context.supersede c).ready = [] := by
  have step : ∀ (l : List SlotId) (c : Context), (∀ j, j ∈ l → c.slots.get j ≠ none) →
      (l.foldl Context.supersede c).ready = c.ready.filter fun j => decide (j ∉ l) := by
    intro l
    induction l with
    | nil => intro c _; simp
    | cons k l ih =>
      intro c h
      obtain ⟨hr, hs⟩ := c.supersede_ready k (h k (by simp))
      rw [List.foldl_cons, ih _ fun j hj => by rw [ne_eq, hs]; exact h j (by simp [hj]), hr, List.filter_filter]
      congr 1
      funext j
      by_cases hjk : j = k <;> simp [hjk]
  rw [step l c h, List.filter_eq_nil_iff]
  intro j hj
  simp [s j hj]

theorem Context.foldl_supersede_ready_self (c : Context) (h : ∀ j, j ∈ c.ready → c.slots.get j ≠ none) :
    (c.ready.foldl Context.supersede c).ready = [] := c.foldl_supersede_ready' c.ready h fun _ hj => hj

/-- Superseding the ready queue leaves slot k, which is not in it, and all but slots and ready queue. -/
theorem Context.foldl_supersede_other (c : Context) (l : List SlotId) (k : SlotId) (h : k ∉ l) :
    (l.foldl Context.supersede c).slots.get k = c.slots.get k ∧ (l.foldl Context.supersede c).writer = c.writer ∧
      (l.foldl Context.supersede c).readers = c.readers ∧ (l.foldl Context.supersede c).base = c.base ∧
      (l.foldl Context.supersede c).nextSeq = c.nextSeq := by
  induction l generalizing c with
  | nil => exact ⟨rfl, rfl, rfl, rfl, rfl⟩
  | cons j l ih =>
    obtain ⟨hj, hl⟩ : k ≠ j ∧ k ∉ l := by simpa using h
    obtain ⟨a, b, d, e, f⟩ := ih (c.supersede j) hl
    rw [List.foldl_cons, a, b, d, e, f]
    have hm : ∀ g : Slot → Slot, (c.modSlot j g).slots.get k = c.slots.get k := fun g => c.slot?_modSlot_ne j g hj
    unfold Context.supersede
    split
    · split
      · exact ⟨hm _, c.modSlot_writer j _, c.modSlot_readers j _, c.modSlot_base j _, c.modSlot_nextSeq j _⟩
      · exact ⟨hm _, c.modSlot_writer j _, c.modSlot_readers j _, c.modSlot_base j _, c.modSlot_nextSeq j _⟩
    · exact ⟨rfl, rfl, rfl, rfl, rfl⟩

/-- The committed slot's record, and what stays of the rest. -/
theorem Context.commit_slot (c : Context) (g : Geometry) (k : SlotId) (tag : Half) (auto : Bool) (now : Word) {sl : Slot}
    (hk : c.slots.get k = some sl) (h : k ∉ c.ready) :
    (c.commit g k tag auto now).slots.get k = some (sl.afterCommit g c.nextSeq tag auto now) ∧
      (c.commit g k tag auto now).readers = c.readers := by
  have h1 : ∀ c1 : Context, c1.slots.get k = c.slots.get k → c1.readers = c.readers →
      (c1.modSlot k fun sl =>
          { sl with state := .ready, seq := some c.nextSeq, tag := tag, flags := { sl.flags with auto := auto }, time := now,
                    pending := if g.delivery = .stream then g.readers else sl.pending }).slots.get k =
        some (sl.afterCommit g c.nextSeq tag auto now) := by
    intro c1 e _
    rw [c1.modSlot_of k (e.trans hk), PerSlot.get_set_self]; rfl
  have h2 : (match g.delivery with
      | .stream => c
      | .latest => c.ready.foldl Context.supersede c).slots.get k = c.slots.get k ∧
      (match g.delivery with
      | .stream => c
      | .latest => c.ready.foldl Context.supersede c).readers = c.readers := by
    cases g.delivery with
    | stream => exact ⟨rfl, rfl⟩
    | latest => obtain ⟨a, _, b, _⟩ := c.foldl_supersede_other c.ready k h; exact ⟨a, b⟩
  exact ⟨h1 _ h2.1 h2.2, (Context.modSlot_readers _ k _).trans h2.2⟩

/-- After a commit the committed frame is available to each reader that waited (R18, R49). -/
theorem Context.commit_available (c : Context) (g : Geometry) (k : SlotId) (tag : Half) (auto : Bool) (now : Word) {sl : Slot}
    (hk : c.slots.get k = some sl) (h : k ∉ c.ready) (hr : ∀ j, j ∈ c.ready → c.slots.get j ≠ none) (d : Context) (q : Port)
    (hq : g.readers.get q = true) (hp : ∀ j sl', j ∈ c.ready → c.slots.get j = some sl' → sl'.pending.get q = false)
    (dr : d.ready = (c.commit g k tag auto now).ready)
    (ds : ∀ j, j ≠ k → d.slots.get j = (c.commit g k tag auto now).slots.get j)
    (dk : ∃ sl', d.slots.get k = some sl' ∧ sl'.pending = (sl.afterCommit g c.nextSeq tag auto now).pending) :
    d.available g.delivery q = some k := by
  apply Context.available_of
  obtain ⟨sl', dk, pk⟩ := dk
  cases hd : g.delivery with
  | stream =>
    refine ⟨c.ready, [], sl', ?_, dk, ?_, fun j sj hj hs => ?_⟩
    · rw [dr, Context.commit, hd]; rfl
    · rw [pk]; simpa [Slot.afterCommit, hd] using hq
    · have hjk : j ≠ k := by rintro rfl; exact h hj
      rw [ds j hjk, Context.commit, hd] at hs
      exact hp j sj hj ((c.slot?_modSlot_ne k _ hjk).symm.trans hs)
  | latest =>
    refine ⟨[], ?_⟩
    rw [dr, Context.commit, hd]
    show (c.ready.foldl Context.supersede c).ready ++ [k] = [k]
    rw [c.foldl_supersede_ready_self hr]; rfl

/-- The staged set as one change of the exchange (R118). -/
theorem Exchange.applyStaged_of (x : Exchange) (now : Word) (w : Window) (cause : ApplyCause) (q : Word) :
    x.applyStaged now w cause q =
      { x.modWin w WindowUnit.afterApplying with raised := x.raised ++ (x.win w).applyRecords now w cause q } := by
  by_cases h : (x.win w).staged = .none
  · have e : x.modWin w WindowUnit.afterApplying = x := by
      rw [x.modWin_congr (g := fun u => u) w (WindowUnit.afterApplying_of_none _ h)]
      simp only [Exchange.modWin, PerWindow.set_get]
    rw [e, WindowUnit.applyRecords, if_pos h, List.append_nil]
    exact if_neg (by rw [h]; decide)
  · rw [WindowUnit.applyRecords, if_neg h, ← Staged.mask_eq]
    exact if_pos ((Staged.isPending_iff _).mpr h)

theorem PerPort.ofFn_get {α : Type} (t : PerPort α) : PerPort.ofFn (fun q => t.get q) = t := rfl

/-- Before any reader is served. -/
theorem Exchange.committedWith_none (x : Exchange) (now : Word) (w : Window) (m : LiveMode) (c : Context) (k : SlotId) (sl : Slot)
    (tag : Half) (auto : Bool) (h : (x.win w).life = .live m c) (hk : c.slots.get k = some sl) (hr : k ∉ c.ready) :
    ((((x.modCtx w fun c => c.commit (x.win w).geom k tag auto now).applyStaged now w .commit c.nextSeq).count w
        Counters.addCommitted).raise
      { EventRecord.plain now .frameCommitted with
        window := some w, port := some (x.win w).geom.writer, slot := some k, seq := c.nextSeq, detail := tag.zeroExtend 32 }) =
      x.committedWith now w m c k sl tag auto ⟨none, none, none, none⟩ := by
  obtain ⟨cs, cr⟩ := c.commit_slot (x.win w).geom k tag auto now hk hr
  rw [x.modCtx_of_live w h, Exchange.applyStaged_of, Exchange.modWin_modWin]
  have hc : ({ c.commit (x.win w).geom k tag auto now with
      slots := (c.commit (x.win w).geom k tag auto now).slots.set k (some (sl.afterCommit (x.win w).geom c.nextSeq tag auto now)),
      readers := PerPort.ofFn fun q => (c.readers.get q).map fun b => b } : Context) = c.commit (x.win w).geom k tag auto now := by
    simp only [Option.map_id', PerPort.ofFn_get]
    rw [← cr, ← cs, PerSlot.set_get]
  have e : x.committedWith now w m c k sl tag auto ⟨none, none, none, none⟩ =
      { x with
        windows := x.windows.set w { (x.win w).afterApplying with
          counters := { (x.win w).afterApplying.counters with
            committed := (x.win w).afterApplying.counters.committed + 1,
            acquired := (x.win w).afterApplying.counters.acquired + 0#32 },
          life := .live m (c.commit (x.win w).geom k tag auto now) },
        raised := x.raised ++ (x.win w).applyRecords now w .commit c.nextSeq ++
          [{ EventRecord.plain now .frameCommitted with
              window := some w, port := some (x.win w).geom.writer, slot := some k, seq := c.nextSeq,
              detail := tag.zeroExtend 32 }] } := by
    rw [← hc]
    rfl
  rw [e, BitVec.add_zero]
  unfold Exchange.count Exchange.raise Exchange.modWin
  simp only [PerWindow.get_set_self, PerWindow.set_set, Exchange.win]
  rfl

theorem ReaderBinding.acquired_eq (b : ReaderBinding) (k : SlotId) (q : Word) (t : Half) :
    b.acquired k q t = b.afterAcquire k q t := by
  unfold ReaderBinding.acquired ReaderBinding.afterAcquire sequenceGap sequenceDistance
  congr 1
  split
  · rfl
  · split
    · rfl
    · split <;> rfl

/-- The serving of one port, as one change of the exchange (R49). -/
theorem Exchange.serveReader_of (y : Exchange) (w : Window) (q : Port) {m : LiveMode} {d : Context} {b : ReaderBinding} {h : Held}
    {k : SlotId} {sl : Slot} (hl : (y.win w).life = .live m d) (hb : d.readers.get q = some b) (bs : b.state = .waiting)
    (hh : (y.port q).hand = .held h) (hw : h.window = w) (hr : h.reason = .frame) (ha : d.available (y.win w).geom.delivery q = some k)
    (hk : d.slots.get k = some sl) :
    y.serveReader w q =
      { y with
        windows := y.windows.set w { y.win w with
          counters := { (y.win w).counters with acquired := (y.win w).counters.acquired + 1 },
          life := .live m { d with
            slots := d.slots.set k (some { sl with holders := sl.holders.insert q, inFlight := sl.inFlight + 1 }),
            readers := d.readers.set q (some (b.acquired k (sl.seq.getD 0) (y.win w).eff.timersA.tHold)) } },
        ports := y.ports.set q { y.port q with
          hand := .presented h.req (payloadRequest (y.win w).geom w q k h.req) false } } := by
  have h1 : (y.port q).heldRequest w .frame = some h.req := by simp [PortUnit.heldRequest, hh, hw, hr]
  have h2 : ((d.reader? q).any fun b => decide (b.state = .waiting)) = true := by simp [Context.reader?, hb, bs]
  unfold Exchange.serveReader
  simp only [y.ctx?_of_live w hl, h1, ha]
  rw [if_pos h2]
  have e : d.acquire q k (y.win w).eff.timersA.tHold =
      { d with
        slots := d.slots.set k (some { sl with holders := sl.holders.insert q }),
        readers := d.readers.set q (some (b.acquired k (sl.seq.getD 0) (y.win w).eff.timersA.tHold)) } := by
    simp only [Context.acquire, Context.slot?, hk]
    rw [Context.modReader_of (d.setSlot k _) q (b := b) hb]; rfl
  have a : y.acquire w q k = y.modWin w fun u => { u with
      counters := Counters.addAcquired u.counters,
      life := .live m { d with
        slots := d.slots.set k (some { sl with holders := sl.holders.insert q }),
        readers := d.readers.set q (some (b.acquired k (sl.seq.getD 0) (y.win w).eff.timersA.tHold)) } } := by
    unfold Exchange.acquire Exchange.count
    dsimp only
    rw [y.modCtx_of_live w hl, Exchange.modWin_modWin, e]
  rw [a]
  unfold Exchange.present Exchange.raiseInFlight
  rw [Exchange.modCtx_of_live (m := m) (c := { d with
        slots := d.slots.set k (some { sl with holders := sl.holders.insert q }),
        readers := d.readers.set q (some (b.acquired k (sl.seq.getD 0) (y.win w).eff.timersA.tHold)) }) (h := by simp),
    Context.modSlot_of (sl := { sl with holders := sl.holders.insert q }) _ k (PerSlot.get_set_self _ _ _)]
  unfold Exchange.setHand Exchange.modPort Exchange.modWin Exchange.port Exchange.win
  simp only [PerWindow.get_set_self, PerWindow.set_set, PerSlot.set_set, Counters.addAcquired]

theorem payloadRequest_eq (g : Geometry) (w : Window) (p : Port) (k : SlotId) (r : Request) :
    payloadRequest g w p k r =
      translated g w p k
        (if p = g.writer then (if Access.isWrite r.access then .writerWrite else .writerRead) else .readerRead) r := rfl

/-- Serving the port q, for which no request has been served before. -/
theorem Exchange.serveReader_committedWith (x : Exchange) (now : Word) (w : Window) (m : LiveMode) (c : Context) (k : SlotId)
    (sl : Slot) (tag : Half) (auto : Bool) (hk : c.slots.get k = some sl) (hc : x.CommitReady w c k)
    (hw : x.waitingRead w c (x.win w).geom.writer = none) (f : PerPort (Option Request)) (q : Port) (hf : f.get q = none) :
    (x.committedWith now w m c k sl tag auto f).serveReader w q =
      x.committedWith now w m c k sl tag auto (f.set q (x.waitingRead w c q)) := by
  obtain ⟨hr, hs, hq⟩ := hc
  let y := x.committedWith now w m c k sl tag auto f
  have hl : y.win w = _ := PerWindow.get_set_self x.windows w _
  have hg : (y.win w).geom = (x.win w).geom := by rw [hl]; rfl
  have he : (y.win w).eff = (x.win w).afterApplying.eff := by rw [hl]
  obtain ⟨d, hd⟩ : ∃ d, (y.win w).life = .live m d := ⟨_, congrArg WindowUnit.life hl⟩
  have hd' : d = _ := (Life.live.inj (hd.symm.trans (congrArg WindowUnit.life hl))).2
  have rd : d.readers.get q = (c.readers.get q) := by
    rw [hd']; simp [hf]
  have pq : y.port q = x.port q := by
    show (PerPort.ofFn _).get q = _
    simp [hf]
  cases hwq : x.waitingRead w c q with
  | none =>
    have ef : f.set q none = f := by rw [← hf, PerPort.set_get]
    rw [ef]
    show y.serveReader w q = y
    unfold Exchange.serveReader
    rw [y.ctx?_of_live w hd]
    split
    · next c' r hc' hr' =>
      injection hc' with hc'
      subst hc'
      rw [pq] at hr'
      rw [if_neg]
      intro hw'
      rw [Context.reader?, rd] at hw'
      obtain ⟨b, hb, bs⟩ := (Option.any_eq_true ..).mp hw'
      unfold PortUnit.heldRequest at hr'
      unfold Exchange.waitingRead at hwq
      split at hr'
      · next h hh =>
        rw [hb, hh] at hwq
        simp only [decide_eq_true_eq] at bs
        split at hr'
        · next hwr => simp_all
        · cases hr'
      · cases hr'
    · rfl
  | some r =>
    obtain ⟨b, h, hb, bs, hh, hhw, hhr, rfl⟩ : ∃ b h, c.readers.get q = some b ∧ b.state = .waiting ∧ (x.port q).hand = .held h ∧
        h.window = w ∧ h.reason = .frame ∧ h.req = r := by
      unfold Exchange.waitingRead at hwq
      split at hwq
      · next b h hb hh =>
        split at hwq
        · next c1 => exact ⟨b, h, hb, c1.1, hh, c1.2.1, c1.2.2, by simpa using hwq⟩
        · cases hwq
      · cases hwq
    obtain ⟨gr, gp⟩ := hq q (by rw [hwq]; simp)
    have qw : q ≠ (x.win w).geom.writer := by rintro rfl; rw [hwq] at hw; cases hw
    have av : d.available (y.win w).geom.delivery q = some k := by
      rw [hg]
      refine c.commit_available (x.win w).geom k tag auto now hk hr hs d q gr gp (by rw [hd']) (fun j hj => ?_) ?_
      · rw [hd']; simp [hj]
      · rw [hd']; exact ⟨_, PerSlot.get_set_self _ _ _, rfl⟩
    have dk := (congrArg (fun d : Context => d.slots.get k) hd').trans (PerSlot.get_set_self _ _ _)
    show y.serveReader w q = _
    rw [y.serveReader_of w q hd (rd.trans hb) bs (by rw [pq]; exact hh) hhw hhr av dk, payloadRequest_eq, hg, he, if_neg qw]
    have n := served_set f q h.req hf
    have e1 : PortSet.insert (PerPort.ofFn fun p => (f.get p).isSome || sl.holders.get p) q =
        PerPort.ofFn fun p => ((f.set q (some h.req)).get p).isSome || sl.holders.get p := by
      refine PerPort.ext_get fun p => ?_
      by_cases hp : p = q
      · subst hp; simp [PortSet.insert]
      · simp [PortSet.insert, hp]
    have e2 : d.readers.set q (some (b.acquired k c.nextSeq (x.win w).afterApplying.eff.timersA.tHold)) =
        PerPort.ofFn fun p => (c.readers.get p).map fun b => if ((f.set q (some h.req)).get p).isSome
          then b.afterAcquire k c.nextSeq (x.win w).afterApplying.eff.timersA.tHold else b := by
      rw [hd', ReaderBinding.acquired_eq]
      refine PerPort.ext_get fun p => ?_
      by_cases hp : p = q
      · subst hp; simp [hb]
      · simp [hp]
    have e3 : y.ports.set q { y.port q with
          hand := .presented h.req (translated (x.win w).geom w q k .readerRead h.req) false } =
        PerPort.ofFn fun p => match (f.set q (some h.req)).get p with
          | none => x.port p
          | some r => { x.port p with hand := .presented r (translated (x.win w).geom w p k .readerRead r) false } := by
      rw [pq]
      refine PerPort.ext_get fun p => ?_
      by_cases hp : p = q
      · subst hp; simp
      · simp [hp, y, Exchange.committedWith]
    have e4 : ∀ n : Nat, (x.win w).afterApplying.counters.acquired + BitVec.ofNat 32 n + 1 =
        (x.win w).afterApplying.counters.acquired + BitVec.ofNat 32 (n + 1) := by
      intro n
      rw [BitVec.add_assoc, BitVec.ofNat_add]; rfl
    rw [e3]
    unfold Exchange.committedWith
    dsimp only
    rw [n, ← e1, ← e2, ← e4, hl]
    simp only [Exchange.mk.injEq]
    refine ⟨?_, trivial, rfl, rfl, rfl, rfl⟩
    show (x.windows.set w _).set w _ = x.windows.set w _
    rw [PerWindow.set_set]
    congr 1
    rw [hd', PerSlot.set_set]
    rfl

/-- A commit but for its answer and its drain test: what R31 to R34 and R49 list. -/
theorem Exchange.commitFrame_eq (x : Exchange) (now : Word) (w : Window) (m : LiveMode) (c : Context) (k : SlotId)
    (sl : Slot) (tag : Half) (auto : Bool) (h : (x.win w).life = .live m c) (hk : c.slots.get k = some sl)
    (hc : x.CommitReady w c k) (hw : x.waitingRead w c (x.win w).geom.writer = none) :
    x.commitFrame now w k tag auto = x.afterCommit now w m c k sl tag auto := by
  have step := x.serveReader_committedWith now w m c k sl tag auto hk hc hw
  unfold Exchange.commitFrame
  simp only [x.ctx?_of_live w h]
  rw [x.committedWith_none now w m c k sl tag auto h hk hc.1, Exchange.afterCommit_eq_with]
  simp only [Port.all, List.foldl_cons, List.foldl_nil]
  rw [step _ .A rfl, step _ .B rfl, step _ .C rfl, step _ .D rfl]
  rfl

/-- The records of slots that no open touches. -/
theorem Context.afterOpen_slots (c : Context) (u : WindowUnit) (k : SlotId) (sl : Slot) (now : Word) :
    (c.afterOpen u k sl now).slots.get k = some (sl.afterOpening now (u.opensWith c.base k).1) ∧
      ∀ j, j ≠ k → (c.slots.get j = none ↔ (c.afterOpen u k sl now).slots.get j = none) ∧
        ∀ sj, (c.afterOpen u k sl now).slots.get j = some sj → ∃ si, c.slots.get j = some si ∧ sj.pending = si.pending := by
  have hs := u.opensWith_source c.base k
  unfold Context.afterOpen
  generalize u.opensWith c.base k = d at *
  obtain ⟨fl, work⟩ := d
  have hn : (c.slots.set k (some (sl.afterOpening now fl))).get k = some (sl.afterOpening now fl) := PerSlot.get_set_self _ _ _
  dsimp only
  split
  · next b =>
    have hb := hs b rfl
    split
    · next base hbase =>
      refine ⟨by rw [PerSlot.get_set_ne _ _ (Ne.symm hb)]; exact hn, fun j hj => ?_⟩
      by_cases hjb : j = b
      · subst hjb
        refine ⟨by simp [hbase], fun sj e => ⟨base, hbase, ?_⟩⟩
        rw [PerSlot.get_set_self] at e
        injection e with e; rw [← e]
      · refine ⟨by simp [hjb, hj], fun sj e => ⟨sj, by simpa [hjb, hj] using e, rfl⟩⟩
    · exact ⟨hn, fun j hj => ⟨by simp [hj], fun sj e => ⟨sj, by simpa [hj] using e, rfl⟩⟩⟩
  · exact ⟨hn, fun j hj => ⟨by simp [hj], fun sj e => ⟨sj, by simpa [hj] using e, rfl⟩⟩⟩

/-- A window that opens a slot keeps what a commit relies on. -/
theorem Exchange.CommitReady.afterOpen {x : Exchange} {w : Window} {c : Context} {k : SlotId} (h : x.CommitReady w c k) (sl : Slot)
    (now : Word) (u : WindowUnit) : x.CommitReady w (c.afterOpen u k sl now) k := by
  obtain ⟨hk, hs, hq⟩ := h
  obtain ⟨_, ho⟩ := c.afterOpen_slots u k sl now
  have hne : ∀ j, j ∈ c.ready → j ≠ k := fun j hj e => hk (e ▸ hj)
  refine ⟨hk, fun j hj e => hs j hj ((ho j (hne j hj)).1.mpr e), fun q e => ⟨(hq q e).1, fun j sj hj e' => ?_⟩⟩
  obtain ⟨si, hi, hp⟩ := (ho j (hne j hj)).2 sj e'
  rw [hp]
  exact (hq q e).2 j si hj hi

/-- A commit does not look at the life of its window, nor at its engine, which it keeps. -/
theorem Exchange.afterCommit_of_life (x : Exchange) (now : Word) (w : Window) (m : LiveMode) (c : Context) (k : SlotId)
    (sl : Slot) (tag : Half) (auto : Bool) (l : Life) :
    (x.modWin w fun u => { u with life := l }).afterCommit now w m c k sl tag auto = x.afterCommit now w m c k sl tag auto := by
  have e : (x.modWin w fun u => { u with life := l }).win w = { x.win w with life := l } := x.win_modWin_self w _
  unfold Exchange.afterCommit
  rw [e]
  show ({ x with windows := (x.windows.set w _).set w _, ports := _, raised := _ } : Exchange) = _
  rw [PerWindow.set_set]
  rfl

/-- The drain test changes nothing in a window that is not DRAINING. -/
theorem Exchange.drainTest_of_active (x : Exchange) (now : Word) (w : Window) {c : Context} (h : (x.win w).life = .live .active c) :
    x.drainTest now w = x := by
  unfold Exchange.drainTest
  rw [h]

theorem Exchange.afterCommit_life (x : Exchange) (now : Word) (w : Window) (m : LiveMode) (c : Context) (k : SlotId)
    (sl : Slot) (tag : Half) (auto : Bool) : ∃ d, ((x.afterCommit now w m c k sl tag auto).win w).life = .live m d :=
  ⟨_, congrArg WindowUnit.life (PerWindow.get_set_self x.windows w _)⟩

/-- No block of a job that has just been created is done. -/
theorem Job.isDone_new (w : Window) (work : CarryWork) (k : SlotId) (b : Nat) :
    Job.isDone { window := w, work := work, dest := k, pointer := 0, demands := [] } b = false := by
  simp [Job.isDone]

theorem Engine.choose_jobs (e : Engine) : e.choose.jobs = e.jobs := by
  unfold Engine.choose
  repeat' split
  all_goals rfl

/-- The job that an open creates is the window's job. -/
theorem Engine.afterOpen_job (e : Engine) (w : Window) (k : SlotId) (work : CarryWork) (h : e.job? w = none) :
    (e.afterOpen w k (some work)).job? w = some { window := w, work := work, dest := k, pointer := 0, demands := [] } := by
  unfold Engine.job? at *
  rw [Engine.afterOpen, Engine.choose_jobs, List.find?_append, h]
  simp

theorem touchedBlocks_ne_nil (a n : Nat) : touchedBlocks a n ≠ [] := by
  unfold touchedBlocks
  rw [List.range'_succ]
  exact List.cons_ne_nil _ _

theorem writerWork_eq (g : Geometry) (r : Request) :
    writerWork g r = if g.inHeader r.addr.toNat then .commit (Request.tag r) else .payload := by
  have e : tagOf (Request.value r) = Request.tag r := by
    obtain ⟨a, d | d⟩ := r
    · rfl
    · cases d <;> rfl
  unfold writerWork
  rw [e]

theorem Exchange.proceed_eq (x : Exchange) (now : Word) (w : Window) (p : Port) (k : SlotId) (r : Request) :
    x.proceed now w p k r =
      if (x.win w).geom.inHeader r.addr.toNat then x.startCommit now w p k (Request.tag r) false r
      else x.writerPayload w p k r := by
  unfold Exchange.proceed
  rw [writerWork_eq]
  by_cases h : (x.win w).geom.inHeader r.addr.toNat = true
  · simp only [if_pos h]
  · simp only [if_neg h]

/-- An open with what follows it: what R22 to R25, R28, R30 and R87 list. -/
theorem Exchange.openAndProceed_eq (x : Exchange) (now : Word) (w : Window) (k : SlotId) (r : Request) {c : Context} {sl : Slot}
    (h : (x.win w).life = .live .active c) (hk : c.slots.get k = some sl) (hj : x.carry.job? w = none)
    (hc : (x.win w).geom.inHeader r.addr.toNat = true → x.CommitReady w c k)
    (hw : ∀ h, (x.port (x.win w).geom.writer).hand = .held h → h.reason ≠ .frame) :
    x.openAndProceed now w (x.win w).geom.writer k r = x.afterServing now w c k sl r := by
  obtain ⟨ok, _⟩ := c.afterOpen_slots (x.win w) k sl now
  have hwr : ∀ d, x.waitingRead w d (x.win w).geom.writer = none := by
    intro d
    unfold Exchange.waitingRead
    split
    · next b h' _ hh => rw [if_neg]; intro e; exact hw h' hh e.2.2
    · rfl
  have hwk := x.openSlot_eq now w k h hk
  let y := x.modWin w fun u => { u with life := .live .active (c.afterOpen (x.win w) k sl now) }
  have hu : y.win w = { x.win w with life := .live .active (c.afterOpen (x.win w) k sl now) } := x.win_modWin_self w _
  have hy : (y.win w).life = .live .active (c.afterOpen (x.win w) k sl now) := by rw [hu]
  have hyc : y.carry = x.carry := rfl
  have hyw : ∀ d q, y.waitingRead w d q = x.waitingRead w d q := fun _ _ => rfl
  have hyh : ∀ p hand f, (y.setHand p hand).modWin w f =
      (x.setHand p hand).modWin w fun u => f { u with life := .live .active (c.afterOpen (x.win w) k sl now) } :=
    fun p hand f => (x.setHand p hand).modWin_modWin w
      (fun u => { u with life := .live .active (c.afterOpen (x.win w) k sl now) }) f
  have hyl : ∀ p hand, ((y.setHand p hand).win w).life = .live .active (c.afterOpen (x.win w) k sl now) := fun _ _ => hy
  have jb := fun work => x.carry.afterOpen_job w k work hj
  have hya := fun sl' tag => x.afterCommit_of_life now w .active (c.afterOpen (x.win w) k sl now) k sl' tag false
    (.live .active (c.afterOpen (x.win w) k sl now))
  change ∀ sl' tag, y.afterCommit now w .active _ k sl' tag false = _ at hya
  change _ = ({ y with carry := _ } : Exchange) at hwk
  unfold Exchange.openAndProceed
  rw [hwk, Exchange.proceed_eq]
  rw [show ({ y with carry := x.carry.afterOpen w k ((x.win w).opensWith c.base k).2 } : Exchange).win w = y.win w from rfl,
    show (y.win w).geom = (x.win w).geom by rw [hu]]
  unfold Exchange.afterServing
  dsimp only
  generalize Request.tag r = tag
  clear_value y
  generalize hd : (x.win w).opensWith c.base k = d at *
  obtain ⟨fl, work⟩ := d
  dsimp only at *
  by_cases hin : (x.win w).geom.inHeader r.addr.toNat = true
  · rw [if_pos hin, if_pos hin]
    cases work with
    | none =>
      rw [if_pos rfl]
      have e := y.commitFrame_eq now w .active (c.afterOpen (x.win w) k sl now) k _ tag false hy ok
        (by
          obtain ⟨a, b, d⟩ := (hc hin).afterOpen sl now (x.win w)
          exact ⟨a, b, fun q hq => ⟨by rw [hu]; exact (d q (by rwa [← hyw])).1, (d q (by rwa [← hyw])).2⟩⟩)
        (by rw [hu, hyw]; exact hwr _)
      have ey : ({ y with carry := x.carry.afterOpen w k none } : Exchange) = y := by rw [Engine.afterOpen, ← hyc]
      rw [ey]
      unfold Exchange.startCommit
      rw [hyc, hj]
      unfold Exchange.takeCommit
      dsimp only
      rw [e]
      obtain ⟨d, hd⟩ := y.afterCommit_life now w .active (c.afterOpen (x.win w) k sl now) k (sl.afterOpening now fl) tag false
      rw [Exchange.drainTest_of_active _ now w (c := d) (by simpa using hd), hya]
      rfl
    | some work =>
      rw [if_neg (by simp)]
      unfold Exchange.startCommit
      simp only [jb]
      show ({ (y.setHand _ _).modCtx w _ with carry := _ } : Exchange) = _
      rw [Exchange.modCtx_of_live (h := hyl _ _), hyh]
      rfl
  · rw [if_neg hin, if_neg hin]
    cases work with
    | none =>
      rw [if_pos rfl]
      have ey : ({ y with carry := x.carry.afterOpen w k none } : Exchange) = y := by rw [Engine.afterOpen, ← hyc]
      rw [ey]
      unfold Exchange.writerPayload
      rw [hyc, hj]
      dsimp only
      unfold Exchange.armFill Exchange.present Exchange.raiseInFlight
      rw [Exchange.modCtx_of_live (h := hyl _ _), Context.modSlot_of _ _ ok, hyh]
      dsimp only
      rw [Exchange.modCtx_of_live (h := by rw [Exchange.win_modWin_self]), Exchange.modWin_modWin, hu, payloadRequest_eq]
      simp only [if_pos, Exchange.win_modWin_self]
      rfl
    | some work =>
      rw [if_neg (by simp)]
      unfold Exchange.writerPayload
      simp only [jb, Job.isDone_new]
      rw [List.filter_eq_self.mpr (by simp)]
      have hgeo : ({ y with carry := x.carry.afterOpen w k (some work) } : Exchange).win w = y.win w := rfl
      rw [hgeo, show (y.win w).geom = (x.win w).geom by rw [hu]]
      obtain ⟨b, bs, hb⟩ := List.exists_cons_of_ne_nil
        (touchedBlocks_ne_nil ((x.win w).geom.payloadOffset r.addr) (Request.bytes r))
      rw [show touchedBlocks (r.addr.toNat - ((x.win w).geom.lbase.toNat + 32)) (Request.bytes r) = b :: bs from hb, hb]
      unfold Exchange.stopFill
      dsimp only
      have z : ∀ (e : Engine) p hand f, (({ y with carry := e } : Exchange).setHand p hand).modCtx w f =
          { (x.setHand p hand).modWin w
              (fun u => { u with life := .live .active (f (c.afterOpen (x.win w) k sl now)) }) with carry := e } := by
        intro e p hand f
        rw [Exchange.modCtx_of_live _ w (show ((({ y with carry := e } : Exchange).setHand p hand).win w).life = _ from hyl p hand)]
        exact congrArg (fun v : Exchange => { v with carry := e }) (hyh p hand fun u =>
          { u with life := .live .active (f (c.afterOpen (x.win w) k sl now)) })
      rw [z]
      rfl

/-! ### Serving a waiting writer, and the drain test (R22, R109) -/

theorem PortUnit.heldRequest_of (u : PortUnit) (w : Window) (reason : HoldReason) (r : Request) (t : Timer)
    (h : u.hand = .held { req := r, window := w, reason := reason, stall := t }) : u.heldRequest w reason = some r := by
  simp [PortUnit.heldRequest, h]

/-- The writer's slot choice made again, wherever `Serves` says what it gives. -/
theorem Exchange.serveWriter_eq (x : Exchange) (now : Word) (w : Window) (y : Exchange) (h : x.Serves now w y) :
    x.serveWriter now w = y := by
  unfold Exchange.Serves at h
  unfold Exchange.serveWriter
  cases hl : (x.win w).life with
  | disabled =>
    rw [hl] at h
    rw [show x.ctx? w = none by simp only [Exchange.ctx?, WindowUnit.ctx?, hl]]
    exact h.symm
  | live m c =>
    rw [hl] at h
    rw [x.ctx?_of_live w hl]
    dsimp only at h ⊢
    obtain ⟨hc, rfl⟩ | ⟨r, k, sl, rfl, ⟨hs, hj, t, hh⟩, hf, hc, rfl⟩ := h
    · split
      · next c' r e _ =>
        injection e with e; subst e
        by_cases hs : c.writer.state = .waiting
        · rw [if_pos hs]
          rcases hc.resolve_left (fun n => n hs) with h | h
          · rw [c.chooseSlot_wait _ h]
          · rw [c.chooseSlot_overflow _ h]
        · rw [if_neg hs]
      · rfl
    · rw [(x.port _).heldRequest_of w .slot r t hh]
      dsimp only
      rw [if_pos hs, c.chooseSlot_take _ k sl hf]
      exact x.openAndProceed_eq now w k r hl hf.1 hj hc fun h e => by rw [hh] at e; injection e with e; rw [← e]; exact HoldReason.noConfusion

/-- What a window that becomes DISABLED leaves is all that there is. -/
theorem Exchange.BecomesDisabled.unique {x y z : Exchange} {w : Window} (h : x.BecomesDisabled y w)
    (i : x.BecomesDisabled z w) : y = z := by
  obtain ⟨a, b, c, d, e, f⟩ := h
  obtain ⟨a', b', c', d', e', f'⟩ := i
  have hw : y.windows = z.windows := PerWindow.ext_get fun v => by
    by_cases hv : v = w
    · subst hv; exact a.trans a'.symm
    · exact (b v hv).trans (b' v hv).symm
  have hp : y.ports = z.ports := PerPort.ext_get fun p => (c p).trans (c' p).symm
  obtain ⟨e1, e2⟩ : y.carry = z.carry ∧ y.outstanding = z.outstanding := by
    rcases e with ⟨n, e⟩ | ⟨n, e⟩ <;> rcases e' with ⟨n', e'⟩ | ⟨n', e'⟩
    · exact ⟨e.1.trans e'.1.symm, e.2.trans e'.2.symm⟩
    · exact absurd n n'
    · exact absurd n' n
    · exact ⟨e.1.trans e'.1.symm, e.2.trans e'.2.symm⟩
  obtain ⟨yw, yp, yc, yo, yr, ya⟩ := y
  obtain ⟨zw, zp, zc, zo, zr, za⟩ := z
  dsimp only at *
  subst hw hp e1 e2 f f'
  rw [d, d']

/-- The drain test at the end of an event. -/
theorem Exchange.drainTest_iff (x : Exchange) (now : Word) (w : Window) (y : Exchange) :
    x.DrainTested now w y ↔ x.drainTest now w = y := by
  obtain ⟨hb, hr⟩ := x.disableWindow_eq now w .drained
  unfold Exchange.DrainTested Exchange.drainTest
  cases hl : (x.win w).life with
  | disabled => exact eq_comm
  | live m c =>
    cases m with
    | draining =>
      dsimp only
      by_cases hm : c.DrainMet (x.win w).geom.delivery
      · rw [if_pos ((c.drainMet_iff _).mp hm)]
        constructor
        · rintro (⟨n, _⟩ | ⟨_, z, hz, rfl⟩)
          · exact absurd hm n
          · rw [hz.unique hb, ← hr]
        · rintro rfl
          exact .inr ⟨hm, _, hb, by rw [← hr]⟩
      · rw [if_neg (fun e => hm ((c.drainMet_iff _).mpr e))]
        exact ⟨fun h => (h.resolve_right fun e => hm e.1).2.symm, fun e => .inl ⟨hm, e.symm⟩⟩
    | active => exact eq_comm
    | observe => exact eq_comm

/-! ### Completions (R147, R148) -/

/-- The first step of a completion, wherever `Falls` says what it gives. -/
theorem Exchange.lowerEntry_eq (x : Exchange) (now : Word) (e : Entry) (y : Exchange) (h : x.Falls now e y) :
    x.lowerEntry now e = y := by
  unfold Exchange.lowerEntry
  rcases h with ⟨h, rfl⟩ | ⟨w, k, m, c, sl, hw, hk, hl, hs, h⟩
  · split
    · next w k hw hk =>
      rcases h with h | h | ⟨v, hv, hd⟩
      · rw [hw] at h; cases h
      · rw [hk] at h; cases h
      · rw [hw] at hv; injection hv with hv; subst hv
        unfold Exchange.lowerInFlight
        rw [show y.ctx? w = none by simp only [Exchange.ctx?, WindowUnit.ctx?, hd]]
        rfl
    · rfl
  · rw [hw, hk]
    dsimp only
    unfold Exchange.lowerInFlight
    rw [x.ctx?_of_live w hl]
    simp only [Option.bind_some, Context.slot?, hs]
    rcases h with ⟨n, rfl⟩ | ⟨hr, hn, h⟩
    · rw [if_neg (by simp only [Bool.and_eq_true, decide_eq_true_eq]; exact fun e => n ⟨e.1, by omega⟩), x.modCtx_of_live w hl, c.modSlot_of k hs]
    · rw [if_pos (by simp only [Bool.and_eq_true, decide_eq_true_eq]; exact ⟨hr, by omega⟩), x.modCtx_of_live w hl, c.modSlot_of k hs,
        show sl.inFlight - 1 = 0 by omega]
      exact Exchange.serveWriter_eq _ now w y h

/-! ### The end of a block (R85 to R91) -/

/-- The carry reference dropped. -/
theorem Context.dropReference_eq (c : Context) (k : SlotId) {sl : Slot} (hk : c.slots.get k = some sl) :
    c.dropReference k = c.afterDrop k sl := by
  have hs : ({ c with slots := c.slots.set k (some { sl with carryRef := false }) } : Context).slots.get k =
      some { sl with carryRef := false } := PerSlot.get_set_self _ _ _
  unfold Context.dropReference Context.afterDrop
  rw [c.modSlot_of k hk]
  simp only [Context.slot?, hs]
  by_cases h : sl.state = .retired ∧ sl.holders = noPorts
  · rw [if_pos h, if_pos (by simp only [Bool.and_eq_true, decide_eq_true_eq, PortSet.isEmpty_iff]; exact h)]
    unfold Context.settle
    rw [Context.modSlot_of _ k hs]
    simp only [PerSlot.set_set]
    rfl
  · rw [if_neg h, if_neg (by simp only [Bool.and_eq_true, decide_eq_true_eq, PortSet.isEmpty_iff]; exact h)]

theorem Job.isDone_iff (j : Job) (b : Nat) : j.isDone b = true ↔ j.Done b := by
  unfold Job.isDone Job.Done
  simp only [Bool.or_eq_true, decide_eq_true_eq, List.any_eq_true, Bool.and_eq_true]
  refine or_congr_right ⟨?_, fun h => ⟨_, h, rfl, rfl⟩⟩
  rintro ⟨⟨b', d⟩, hm, rfl, hd⟩
  obtain rfl : d = true := hd
  exact hm

theorem Job.blockDone_window (j : Job) (b : Nat) : (j.blockDone b).window = j.window := rfl

theorem Job.blockDone_work (j : Job) (b : Nat) : (j.blockDone b).work = j.work := rfl

theorem Job.blockDone_dest (j : Job) (b : Nat) : (j.blockDone b).dest = j.dest := rfl

theorem Engine.job?_middle (e : Engine) (w : Window) {pre post : List Job} {j : Job} (h : e.jobs = pre ++ j :: post)
    (hw : j.window = w) (hn : ∀ i, i ∈ pre ++ post → i.window ≠ w) : e.job? w = some j := by
  unfold Engine.job?
  rw [h, List.find?_append, List.find?_eq_none.mpr, List.find?_cons_of_pos]
  · rfl
  · simpa using hw
  · intro i hi
    simpa using hn i (by simp [hi])

/-- The engine after the end of a block, before it chooses. -/
theorem Engine.endBlock_jobs (e : Engine) (w : Window) (b : Nat) {pre post : List Job} {j : Job} (h : e.jobs = pre ++ j :: post)
    (hw : j.window = w) (hn : ∀ i, i ∈ pre ++ post → i.window ≠ w) :
    e.endBlock w b = { jobs := pre ++ j.blockDone b :: post, order := e.order.filter (· ≠ (w, b)), current := none, buffer := none } := by
  have keep : ∀ l : List Job, (∀ i, i ∈ l → i.window ≠ w) → (l.map fun j => if j.window = w then j.blockDone b else j) = l := by
    intro l hl
    exact (List.map_congr_left (g := id) fun i hi => if_neg (hl i hi)).trans (List.map_id l)
  unfold Engine.endBlock
  rw [h, List.map_append, List.map_cons, keep pre fun i hi => hn i (by simp [hi]), keep post fun i hi => hn i (by simp [hi]),
    if_pos hw]

/-- Without its job, the rest of the queue is as it was. -/
theorem Engine.dropJob_middle (pre post : List Job) (j : Job) (order : List (Window × Nat)) (w : Window) (b : Nat)
    (hw : j.window = w) (hn : ∀ i, i ∈ pre ++ post → i.window ≠ w) :
    Engine.dropJob { jobs := pre ++ j :: post, order := order.filter (· ≠ (w, b)), current := none, buffer := none } w =
      { jobs := pre ++ post, order := order.filter fun d => d.1 ≠ w, current := none, buffer := none } := by
  unfold Engine.dropJob
  simp only [Engine.mk.injEq, and_true]
  refine ⟨?_, ?_⟩
  · rw [List.filter_append, List.filter_cons_of_neg (by simpa using hw), List.filter_eq_self.mpr, List.filter_eq_self.mpr]
    · intro i hi; simpa using hn i (by simp [hi])
    · intro i hi; simpa using hn i (by simp [hi])
  · rw [List.filter_filter]
    congr 1
    funext d
    by_cases hd : d.1 = w
    · simp [hd]
    · have : d ≠ (w, b) := by rintro rfl; exact hd rfl
      simp [hd, this]

/-- The drain test does not look at the engine, and leaves it, where the window has no job. -/
theorem Exchange.drainTest_carry (x : Exchange) (now : Word) (w : Window) (e : Engine) (h : x.carry.job? w = none)
    (he : e.job? w = none) :
    ({ x with carry := e } : Exchange).drainTest now w = { x.drainTest now w with carry := e } ∧
      (x.drainTest now w).carry = x.carry := by
  have hz := (x.drainTest_iff now w _).mpr rfl
  rw [← Exchange.drainTest_iff]
  unfold Exchange.DrainTested at hz ⊢
  generalize x.drainTest now w = z at *
  change (match (x.win w).life with
    | .live .draining c => _
    | _ => _) ∧ _
  cases hl : (x.win w).life with
  | disabled => rw [hl] at hz; exact ⟨by rw [hz], by rw [hz]⟩
  | live m c =>
    rw [hl] at hz
    cases m with
    | draining =>
      obtain ⟨n, rfl⟩ | ⟨hm, v, hv, rfl⟩ := hz
      · exact ⟨.inl ⟨n, rfl⟩, rfl⟩
      · obtain ⟨a, b, c, d, f, g⟩ := hv
        obtain ⟨-, fc, fo⟩ := f.resolve_right fun k => k.1 h
        exact ⟨.inr ⟨hm, { v with carry := e }, ⟨a, b, c, d, .inl ⟨he, rfl, fo⟩, g⟩, rfl⟩, fc⟩
    | active => exact ⟨by rw [hz], by rw [hz]⟩
    | observe => exact ⟨by rw [hz], by rw [hz]⟩

/-- The window's job without the rest of the completion: its source, and the queue (R90, R91). -/
theorem Exchange.dropSource_of (x : Exchange) (w : Window) {m : LiveMode} {c : Context} {j : Job} (hl : (x.win w).life = .live m c)
    (hj : x.carry.job? w = some j) (hs : ∀ src, j.work = .copy src → c.slots.get src ≠ none) :
    x.dropSource w = x.modWin w fun u => { u with life := .live m (c.afterJob j.work) } := by
  have hid : (x.modWin w fun u => { u with life := .live m c }) = x := by
    rw [x.modWin_congr (g := fun u => u) w (by rw [← hl])]
    simp only [Exchange.modWin, PerWindow.set_get]
  unfold Exchange.dropSource
  rw [hj]
  obtain ⟨jw, work, dest, pointer, demands⟩ := j
  cases work with
  | fill v => exact hid.symm
  | copy src =>
    obtain ⟨base, hb⟩ := Option.ne_none_iff_exists'.mp (hs src rfl)
    dsimp only [Job.source?, Context.afterJob]
    rw [x.modCtx_of_live w hl, c.dropReference_eq src hb, hb]

/-- The slots that the drop of a source leaves alone. -/
theorem Context.afterDrop_get (c : Context) {src k : SlotId} (base : Slot) (h : k ≠ src) :
    (c.afterDrop src base).slots.get k = c.slots.get k := by
  unfold Context.afterDrop
  split <;> simp [h]

theorem Exchange.releaseHeld_none (x : Exchange) (w : Window) (j : Job)
    (h : ∀ h, (x.port (x.win w).geom.writer).hand = .held h → h.window = w → h.reason = .carryBlock →
      ∃ n, n ∈ touchedBlocks (h.req.addr.toNat - ((x.win w).geom.lbase.toNat + 32)) (Request.bytes h.req) ∧ ¬j.Done n) :
    x.releaseHeld w j = x := by
  unfold Exchange.releaseHeld
  dsimp only
  split
  · next r hr =>
    unfold PortUnit.heldRequest at hr
    split at hr
    · next h' hh =>
      split at hr
      · next hc =>
        injection hr with hr; subst hr
        simp only [Bool.and_eq_true, decide_eq_true_eq] at hc
        obtain ⟨n, hn, hd⟩ := h h' hh hc.1 hc.2
        rw [if_neg]
        intro ha
        exact hd ((j.isDone_iff n).mp (List.all_eq_true.mp ha n hn))
      · cases hr
    · cases hr
  · rfl

theorem Exchange.releaseHeld_some (x : Exchange) (w : Window) (j : Job) (r : Request) (t : Timer)
    (h : (x.port (x.win w).geom.writer).hand = .held { req := r, window := w, reason := .carryBlock, stall := t })
    (hd : ∀ n, n ∈ touchedBlocks (r.addr.toNat - ((x.win w).geom.lbase.toNat + 32)) (Request.bytes r) → j.Done n) :
    x.releaseHeld w j = x.present (x.win w).geom.writer w j.dest r true := by
  unfold Exchange.releaseHeld
  dsimp only
  rw [PortUnit.heldRequest_of _ w .carryBlock r t h]
  exact if_pos (List.all_eq_true.mpr fun n hn => (j.isDone_iff n).mpr (hd n hn))

/-- A writer's access presented (R132). -/
theorem Exchange.present_writer (x : Exchange) (w : Window) (k : SlotId) (r : Request) (held : Bool) {m : LiveMode} {c : Context}
    {sl : Slot} (hl : (x.win w).life = .live m c) (hk : c.slots.get k = some sl) :
    x.present (x.win w).geom.writer w k r held =
      (x.modWin w fun u => { u with
        life := .live m { c with slots := c.slots.set k (some { sl with inFlight := sl.inFlight + 1 }) } }).setHand
        (x.win w).geom.writer
        (.presented r (translated (x.win w).geom w (x.win w).geom.writer k
          (if Access.isWrite r.access then .writerWrite else .writerRead) r) held) := by
  unfold Exchange.present Exchange.raiseInFlight
  rw [Exchange.modCtx_of_live (Exchange.setHand x _ _) w hl, c.modSlot_of k hk, payloadRequest_eq, if_pos rfl]
  rfl

/-- A payload read of a reader is presented, counted in flight (R50, R132). -/
theorem Exchange.present_reader (x : Exchange) (w : Window) (p : Port) (k : SlotId) (r : Request) (held : Bool) {m : LiveMode}
    {c : Context} {sl : Slot} (hp : p ≠ (x.win w).geom.writer) (hl : (x.win w).life = .live m c) (hk : c.slots.get k = some sl) :
    x.present p w k r held = (x.modWin w fun u =>
        { u with life := .live m { c with slots := c.slots.set k (some { sl with inFlight := sl.inFlight + 1 }) } }).setHand p
      (.presented r (translated (x.win w).geom w p k .readerRead r) held) := by
  unfold Exchange.present Exchange.raiseInFlight
  rw [Exchange.modCtx_of_live (Exchange.setHand x _ _) w hl, c.modSlot_of k hk, payloadRequest_eq, if_neg hp]
  rfl

/-- A reader that holds nothing has acquired slot k (R43). -/
theorem Exchange.acquire_eq (x : Exchange) (w : Window) (p : Port) (k : SlotId) {m : LiveMode} {c : Context} {sl : Slot}
    {b : ReaderBinding} {q : Word} (hl : (x.win w).life = .live m c) (hk : c.slots.get k = some sl) (hq : sl.seq = some q)
    (hb : c.readers.get p = some b) :
    x.acquire w p k = x.modWin w fun u =>
      { u with
        counters := { u.counters with acquired := u.counters.acquired + 1 },
        life := .live m { c with
          slots := c.slots.set k (some { sl with holders := sl.holders.set p true }),
          readers := c.readers.set p (some (b.afterAcquire k q (x.win w).eff.timersA.tHold)) } } := by
  unfold Exchange.acquire Exchange.count
  dsimp only
  rw [x.modCtx_of_live w hl, Exchange.modWin_modWin]
  refine x.modWin_congr w ?_
  unfold Context.acquire
  simp only [Context.slot?, hk, Context.setSlot]
  rw [Context.modReader_of { c with slots := c.slots.set k (some { sl with holders := sl.holders.insert p }) } p (b := b) hb,
    ReaderBinding.acquired_eq, hq]
  rfl

/-- The exchange once the window's job is complete, but for a commit that waits for it (R90). -/
theorem Exchange.completeJob_of (x : Exchange) (now : Word) (w : Window) {m : LiveMode} {c c1 : Context} {pre post : List Job}
    {j : Job} {order : List (Window × Nat)} {b : Nat} (hl : (x.win w).life = .live m c)
    (hx : x.carry = { jobs := pre ++ j :: post, order := order.filter (· ≠ (w, b)), current := none, buffer := none })
    (hw : j.window = w) (hn : ∀ i, i ∈ pre ++ post → i.window ≠ w) (hs : ∀ src, j.work = .copy src → c.slots.get src ≠ none)
    (hc : c1 = c.afterJob j.work) :
    let z : Exchange := { x.modWin w (fun u => { u with life := .live m c1 }) with
      carry := { jobs := pre ++ post, order := order.filter fun d => d.1 ≠ w, current := none, buffer := none } }
    x.completeJob now w j = match (x.port (x.win w).geom.writer).heldCommit w with
      | some (tag, auto) => z.takeCommit now w (x.win w).geom.writer j.dest tag auto
      | none => z := by
  have hj : x.carry.job? w = some j := Engine.job?_middle _ w (by rw [hx]) hw hn
  unfold Exchange.completeJob
  rw [x.dropSource_of w hl hj hs, ← hc]
  have e : ({ x.modWin w (fun u => { u with life := .live m c1 }) with
      carry := (x.modWin w fun u => { u with life := .live m c1 }).carry.dropJob w } : Exchange) =
    { x.modWin w (fun u => { u with life := .live m c1 }) with
      carry := { jobs := pre ++ post, order := order.filter fun d => d.1 ≠ w, current := none, buffer := none } } := by
    rw [show (x.modWin w fun u => { u with life := .live m c1 }).carry = x.carry from rfl, hx,
      Engine.dropJob_middle pre post j order w b hw hn]
  dsimp only at e ⊢
  rw [e] <;> rfl

theorem PortUnit.heldCommit_none (u : PortUnit) (w : Window)
    (h : ∀ h, u.hand = .held h → h.window = w → ∀ tag auto, h.reason ≠ .carryDone tag auto) : u.heldCommit w = none := by
  unfold PortUnit.heldCommit
  split
  · next h' hh =>
    split
    · next tag auto hr => exact if_neg fun e => h h' hh e tag auto hr
    · rfl
  · rfl

/-- A job's source and another slot are changed in either order. -/
theorem Context.afterJob_set (c : Context) (work : CarryWork) (k : SlotId) (sl : Slot) (h : ∀ src, work = .copy src → src ≠ k) :
    ({ c with slots := c.slots.set k (some sl) } : Context).afterJob work =
      { c.afterJob work with slots := (c.afterJob work).slots.set k (some sl) } := by
  cases work with
  | fill v => rfl
  | copy src =>
    have hk := h src rfl
    unfold Context.afterJob
    simp only [PerSlot.get_set_ne _ _ hk]
    cases c.slots.get src with
    | none => rfl
    | some base =>
      dsimp only
      unfold Context.afterDrop
      split
      · simp only [PerSlot.set_comm _ hk]
      · simp only [PerSlot.set_comm _ hk]

theorem Context.afterJob_get (c : Context) (work : CarryWork) (k : SlotId) (h : ∀ src, work = .copy src → src ≠ k) :
    (c.afterJob work).slots.get k = c.slots.get k := by
  unfold Context.afterJob
  split
  · rfl
  · next src =>
    split
    · exact c.afterDrop_get _ (h src rfl).symm
    · rfl

/-- The end of a block, wherever `BlockEnds` says what it gives. -/
theorem Exchange.endBlock_eq (x : Exchange) (now : Word) (w : Window) (b : Nat) (y : Exchange) (h : x.BlockEnds now w b y) :
    x.endBlock now w b = y := by
  obtain ⟨pre, j, post, m, c, dest, hjobs, hjw, hother, hl, hd, hsrc, h⟩ := h
  have he := x.carry.endBlock_jobs w b hjobs hjw hother
  have hj1 : (x.carry.endBlock w b).job? w = some (j.blockDone b) :=
    Engine.job?_middle _ w (by rw [he]) hjw hother
  let x1 : Exchange := { x with carry := x.carry.endBlock w b }
  have hid : (x.modWin w fun u => { u with life := .live m c }) = x := by
    rw [x.modWin_congr (g := fun u => u) w (by rw [← hl])]
    simp only [Exchange.modWin, PerWindow.set_get]
  unfold Exchange.endBlock
  dsimp only at h ⊢
  rw [hj1]
  dsimp only
  change (let x3 : Exchange := if (x.win w).geom.flen.toNat / 32 ≤ (j.blockDone b).pointer
    then (x1.releaseHeld w (j.blockDone b)).completeJob now w (j.blockDone b) else x1.releaseHeld w (j.blockDone b);
    ({ x3 with carry := x3.carry.choose } : Exchange)) = y
  by_cases last : (x.win w).geom.flen.toNat / 32 ≤ (j.blockDone b).pointer
  · simp only [if_pos last] at h ⊢
    unfold Engine.afterBlock at h
    rw [if_pos last] at h
    have hs : ∀ src, j.work = .copy src → c.slots.get src ≠ none := fun src e => (hsrc src e).2
    have hne : ∀ src, j.work = .copy src → src ≠ j.dest := fun src e => (hsrc src e).1
    have hget : (c.afterJob j.work).slots.get j.dest = some dest := (c.afterJob_get _ _ hne).trans hd
    let e3 : Engine :=
      { jobs := pre ++ post, order := x.carry.order.filter fun d => d.1 ≠ w, current := none, buffer := none }
    have hj : ∀ e : Engine, e.jobs = pre ++ post → e.job? w = none := fun e h => by
      rw [Engine.job?, h]; exact List.find?_eq_none.mpr fun i hi => by simpa using hother i hi
    rcases h with ⟨hh, rfl⟩ | ⟨r, t, hh, hn, rfl⟩ | ⟨r, tag, auto, t, -, hh, hc, h⟩
    · rw [x1.releaseHeld_none w _ fun h e1 e2 e3 => (hh h e1 e2).1 e3,
        x1.completeJob_of now w hl he hjw hother hs rfl,
        PortUnit.heldCommit_none (x1.port (x1.win w).geom.writer) w fun h e1 e2 => (hh h e1 e2).2 last, Job.blockDone_window, hjw]
      rfl
    · let c' : Context := { c with slots := c.slots.set j.dest (some { dest with inFlight := dest.inFlight + 1 }) }
      let hand : Hand := .presented r (translated (x.win w).geom w (x.win w).geom.writer j.dest
          (if Access.isWrite r.access then .writerWrite else .writerRead) r) true
      let x2 : Exchange := (x1.modWin w fun u => { u with life := .live m c' }).setHand (x.win w).geom.writer hand
      have e2 : x1.present (x1.win w).geom.writer w (j.blockDone b).dest r true = x2 :=
        x1.present_writer w (j.blockDone b).dest r true hl hd
      have u2 : x2.win w = { x.win w with life := .live m c' } :=
        x1.win_modWin_self w fun u => { u with life := .live m c' }
      have p2 : (x2.port (x.win w).geom.writer).hand = hand := by
        show ((Exchange.setHand _ _ _).port _).hand = _
        rw [Exchange.port_setHand_self]
      have z := x2.completeJob_of now w (c := c') (c1 := c'.afterJob j.work) (by rw [u2]) he hjw hother
        (fun src e => by
          show (c.slots.set _ _).get src ≠ none
          rw [PerSlot.get_set_ne _ _ (hne src e)]
          exact hs src e) rfl
      have g2 : (x2.win w).geom = (x.win w).geom := by rw [u2]
      rw [g2, PortUnit.heldCommit_none (x2.port (x.win w).geom.writer) w fun h e => by
        cases (show Hand.presented _ _ _ = Hand.held h from p2.symm.trans e)] at z
      rw [x1.releaseHeld_some w _ r t hh hn, e2, z, Job.blockDone_window, hjw]
      have ec := c.afterJob_set j.work j.dest { dest with inFlight := dest.inFlight + 1 } hne
      change c'.afterJob j.work = _ at ec
      rw [ec]
      exact congrArg (fun v : Exchange => { v.setHand (x.win w).geom.writer hand with carry := e3.choose })
        (x1.modWin_modWin w (fun u => { u with life := .live m c' }) fun u => { u with
          life := .live m { c.afterJob j.work with
            slots := (c.afterJob j.work).slots.set j.dest (some { dest with inFlight := dest.inFlight + 1 }) } })
    · let X : Exchange := { x1.modWin w (fun u => { u with life := .live m (c.afterJob j.work) }) with carry := e3 }
      have ux : X.win w = { x.win w with life := .live m (c.afterJob j.work) } :=
        x1.win_modWin_self w fun u => { u with life := .live m (c.afterJob j.work) }
      have gx : (X.win w).geom = (x.win w).geom := by rw [ux]
      have hw : X.waitingRead w (c.afterJob j.work) (X.win w).geom.writer = none := by
        rw [gx]
        show x.waitingRead w _ _ = none
        unfold Exchange.waitingRead
        rw [hh]
        split
        · next e => injection e with e; subst e; exact if_neg fun k => by cases k.2.2
        · rfl
      have cf := X.commitFrame_eq now w m (c.afterJob j.work) j.dest dest tag auto (by rw [ux]) hget
        (by obtain ⟨a, b, d⟩ := hc; exact ⟨a, b, fun q hq => by rw [gx]; exact d q hq⟩) hw
      have z := x1.completeJob_of now w (c1 := c.afterJob j.work) hl he hjw hother hs rfl
      have hcm : (x1.port (x1.win w).geom.writer).heldCommit w = some (tag, auto) := by
        unfold PortUnit.heldCommit
        rw [show (x1.port (x1.win w).geom.writer).hand = _ from hh]
        exact if_pos rfl
      rw [hcm] at z
      have nb : ∀ h, (x1.port (x1.win w).geom.writer).hand = .held h → h.window = w → h.reason = .carryBlock → False := by
        intro h e1 _ e3
        have e : Hand.held _ = Hand.held h := hh.symm.trans e1
        injection e with e
        rw [← e] at e3
        cases e3
      rw [x1.releaseHeld_none w _ fun h e1 e2 e3 => (nb h e1 e2 e3).elim, z]
      change ({ X.takeCommit now w (x.win w).geom.writer j.dest tag auto with
        carry := (X.takeCommit now w (x.win w).geom.writer j.dest tag auto).carry.choose } : Exchange) = y
      unfold Exchange.takeCommit
      rw [cf]
      obtain ⟨d1, d2⟩ := Exchange.drainTest_carry
        ((X.afterCommit now w m (c.afterJob j.work) j.dest dest tag auto).answer (x.win w).geom.writer (.okay none)) now w e3.choose
        (hj e3 rfl) (hj _ (Engine.choose_jobs e3))
      rw [d2]
      refine d1.symm.trans ((Exchange.drainTest_iff _ now w y).mp ?_)
      rw [Job.blockDone_window, hjw] at h
      exact h
  · simp only [if_neg last] at h ⊢
    unfold Engine.afterBlock at h
    rw [if_neg last] at h
    rcases h with ⟨hh, rfl⟩ | ⟨r, t, hh, hn, rfl⟩ | ⟨r, tag, auto, t, hlast, _⟩
    · rw [x1.releaseHeld_none w _ fun h e1 e2 e3 => (hh h e1 e2).1 e3, hid]
      show ({ x with carry := (x.carry.endBlock w b).choose } : Exchange) = _
      rw [he, Job.blockDone_window, hjw]
    · rw [x1.releaseHeld_some w _ r t hh hn]
      rw [x1.present_writer w (j.blockDone b).dest r true hl hd, Job.blockDone_window, hjw, ← he]
      rfl
    · exact absurd hlast last

/-! ### A completion that is ERROR -/

theorem Exchange.failureRecord_eq (x : Exchange) (now : Word) (e : Entry) (cause : ErrorCause) :
    x.memoryRecord now e (.memoryError cause) (x.errorSequence e) = x.failureRecord now e cause := by
  obtain ⟨⟨rq, origin, kind, window, slot⟩, discarded, timer⟩ := e
  unfold Exchange.memoryRecord Exchange.errorSequence Exchange.failureRecord
  cases window with
  | none => cases kind <;> rfl
  | some w =>
    cases hl : (x.win w).life with
    | disabled => cases origin <;> cases kind <;> cases slot <;> simp [Exchange.ctx?, WindowUnit.ctx?, hl]
    | live m c =>
      cases hj : x.carry.job? w <;> cases origin <;> cases kind <;> cases slot <;> cases discarded <;>
        simp [Exchange.ctx?, WindowUnit.ctx?, hl, Context.slot?, hj]

theorem PortUnit.leaveReset_eq (u : PortUnit) :
    PortUnit.leaveReset { u with hand := .none } =
      { u with hand := .none, state := if u.state = .inReset ∧ u.prst = false then .active else u.state } := by
  obtain ⟨prst, state, hand, link⟩ := u
  cases prst <;> cases state <;> rfl

/-- The answer to a writer access, given on the effects of an access that had been held for carry. -/
theorem Exchange.answerWriter_of (v : Exchange) (w : Window) (p : Port) (k : SlotId) {m : LiveMode} {c : Context} {r : Request}
    {b : Bool} (hl : (v.win w).life = .live m c) (hk : c.writer.state = .filling k) (hh : (v.port p).hand = .outstanding r b)
    (resp : Response) :
    v.answerWriter w p k resp = (v.modWin w fun u => { u with life := .live m { c with writer := { c.writer with
      fillTimer := if b then .arm u.eff.timersA.tFill else c.writer.fillTimer } } }).answer p resp := by
  unfold Exchange.answerWriter
  rw [hh, v.ctx?_of_live w hl]
  cases b with
  | false =>
    refine congrArg (fun x : Exchange => x.answer p resp) ?_
    have e : (v.modWin w fun u => { u with life := .live m c }) = v := by
      rw [v.modWin_congr (g := fun u => u) w (by rw [← hl])]
      simp only [Exchange.modWin, PerWindow.set_get]
    exact e.symm
  | true =>
    simp only [Hand.wasCarryHeld, Option.any_some, Context.isFilling, hk, decide_true, Bool.and_self, if_true]
    unfold Exchange.armFill
    rw [v.modCtx_of_live w hl]
    exact congrArg (fun x : Exchange => x.answer p resp) (v.modWin_congr w (by simp only [Context.modWriter, hk]))

/-- A completion that is ERROR, wherever `Fails` says what it gives. -/
theorem Exchange.complete_eq (x : Exchange) (now : Word) (e : Entry) (cause : ErrorCause) (y : Exchange)
    (h : x.Fails now e cause y) : x.complete now e (.error cause) = y := by
  obtain ⟨z, hz, h⟩ := h
  have lz := x.lowerEntry_eq now e z hz
  have hv : x.complete now e (.error cause) =
      ({ z with raised := z.raised ++ [x.failureRecord now e cause] } : Exchange).originTakes now e (.error cause) := by
    unfold Exchange.complete
    rw [lz, ← x.failureRecord_eq now e cause]
    rfl
  rw [hv]
  unfold Exchange.originTakes
  dsimp only at h
  generalize hV : ({ z with raised := z.raised ++ [x.failureRecord now e cause] } : Exchange) = v at h ⊢
  have vw : ∀ w, v.win w = z.win w := fun w => by rw [← hV]; rfl
  have vp : ∀ p, v.port p = z.port p := fun p => by rw [← hV]; rfl
  have vc : v.carry = z.carry := by rw [← hV]
  cases ho : e.mem.origin with
  | carry =>
    rw [ho] at h
    rcases h with ⟨hd, rfl⟩ | ⟨hd, w, b, ph, j, m, c, dest, hcur, hw, hc, hj, hl, hk, hb⟩
    · exact if_pos hd
    · simp only [hd, Bool.false_eq_true, if_false]
      unfold Exchange.carryCompleted
      rw [vc, hc, hcur]
      dsimp only
      rw [hj]
      dsimp only
      rw [← Exchange.endBlock_eq _ now w b y hb]
      congr 1
      unfold Exchange.markFault
      rw [v.modCtx_of_live w (by rw [vw]; exact hl), c.modSlot_of _ hk]
  | port p =>
    rw [ho] at h
    rcases h with ⟨hd, rfl⟩ | ⟨hd, h⟩
    · simp only [hd, if_true]
      exact congrArg (fun f => v.modPort p f) (funext PortUnit.leaveReset_eq)
    · simp only [hd, Bool.false_eq_true, if_false]
      have va : z.answers = v.answers := by rw [← hV]
      rw [va] at h
      rcases h with ⟨h, rfl⟩ | ⟨w, k, m, c, sl, r, b, hkind, hw, hk, hl, hf, hsl, hh, hz, rfl⟩
      · change _ = v.answer p .error
        have hwc : ∀ w k, e.mem.window = some w → e.mem.slot = some k →
            (∀ m c, (z.win w).life = .live m c → c.writer.state ≠ .filling k) →
            v.writerCompleted now w p k (.error cause) = v.answer p .error := by
          intro w k _ _ hn
          unfold Exchange.writerCompleted
          split
          · next c r hc hr =>
            have hcf : c.isFilling k = false := by
              unfold Exchange.ctx? WindowUnit.ctx? at hc
              rw [vw] at hc
              split at hc
              · cases hc
              · next m d hl => cases hc; exact decide_eq_false (hn _ _ hl)
            rw [hcf]
            show v.answerWriter w p k .error = _
            unfold Exchange.answerWriter
            rw [hc]
            simp [hcf]
          · rfl
        have hrc : ∀ w k, v.readerCompleted now w p k (.error cause) = v.answer p .error := by
          intro w k
          unfold Exchange.readerCompleted
          split
          · next hr => cases hr
          · rfl
        split
        · next w k hkind hw hk => exact hwc w k hw hk fun m c => h.resolve_left (fun h => h.1 hkind) w k m c hw hk
        · next w k hkind hw hk => exact hwc w k hw hk fun m c => h.resolve_left (fun h => h.2 hkind) w k m c hw hk
        · next w k _ _ _ => exact hrc w k
        · rfl
      · have hvp : (v.port p).hand = .outstanding r b := by rw [vp, hz]; exact hh
        have hvl : (v.win w).life = .live m c := by rw [vw]; exact hl
        have goal : v.writerCompleted now w p k (.error cause) = (v.modWin w fun u => { u with life := .live m { c with
              slots := c.slots.set k (some { sl with
                flags := { sl.flags with fault := if Access.isWrite r.access then true else sl.flags.fault } }),
              writer := { c.writer with fillTimer := if b then .arm u.eff.timersA.tFill else c.writer.fillTimer } } }).answer p
              .error := by
          unfold Exchange.writerCompleted
          rw [v.ctx?_of_live w hvl, hvp]
          cases hi : Access.isWrite r.access with
          | true =>
            simp only [Hand.request?, Context.isFilling, hf, decide_true, Bool.and_self, if_true, hi]
            let v1 := v.modWin w fun u => { u with life := .live m { c with
              slots := c.slots.set k (some { sl with flags := { sl.flags with fault := true } }) } }
            have e1 : v.markFault w k = v1 := by
              unfold Exchange.markFault
              rw [v.modCtx_of_live w hvl, c.modSlot_of _ hsl]
            have l1 : (v1.win w).life = _ := congrArg WindowUnit.life (v.win_modWin_self w _)
            rw [e1, v1.answerWriter_of w p k l1 hf hvp]
            let c1 : Context := { c with
              slots := c.slots.set k (some { sl with flags := { sl.flags with fault := true } }) }
            refine (congrArg (fun x : Exchange => x.answer p .error) (v.modWin_modWin w
              (fun u => { u with life := .live m c1 })
              (fun u => { u with life := .live m { c1 with writer := { c1.writer with
                fillTimer := if b then .arm u.eff.timersA.tFill else c1.writer.fillTimer } } }))).trans ?_
            simp only [c1, hf]
          | false =>
            simp only [Hand.request?, Context.isFilling, hi, Bool.and_false, Bool.false_eq_true, if_false]
            rw [show Result.response (.error cause) = Response.error from rfl, v.answerWriter_of w p k hvl hf hvp]
            have e2 : c.slots.set k (some { sl with flags := { sl.flags with fault := sl.flags.fault } }) = c.slots := by
              rw [← hsl]; exact PerSlot.set_get _ _
            rw [e2]
        change _ = Exchange.answer _ p .error
        rcases hkind with hkind | hkind <;> rw [hkind, hw, hk] <;> exact goal

/-- All outstanding entries fail, wherever `AllFail` says what that gives. -/
theorem Exchange.failAll_eq (now : Word) (n : Nat) (x y : Exchange) (h : Exchange.AllFail now n x y) :
    Exchange.failAll n now x = y := by
  induction n generalizing x with
  | zero => exact h.symm
  | succ n ih =>
    obtain ⟨e, rest, z, ho, hf, hz⟩ := h
    unfold Exchange.failAll
    rw [ho]
    dsimp only
    rw [Exchange.complete_eq _ now e .timeout z hf]
    exact ih z hz

/-! ### An abandon and a give-back -/

/-- An abandon of the FILLING frame, with or without a carry job (R38). -/
theorem Exchange.abandon_eq (x : Exchange) (now : Word) (w : Window) (m : LiveMode) (c : Context) (k : SlotId) (sl : Slot)
    (cause : AbandonCause) (x' : Exchange) (c1 : Context)
    (hl : (x.win w).life = .live m c) (hs : c.writer.state = .filling k) (hk : c.slots.get k = some sl) 
    (hx : (x.carry.job? w = none ∧ x' = x ∧ c1 = c ∨
        ∃ j, x.carry.job? w = some j ∧ (∀ src, j.work = .copy src → src ≠ k ∧ c.slots.get src ≠ none) ∧
          x' = x.afterCancel w ∧ c1 = c.afterJob j.work)) :
    x.abandon now w cause = { x'.modWin w (fun u =>
          { u with
            counters := { u.counters with abandoned := u.counters.abandoned + 1 },
            life := .live m (c1.afterAbandon k sl) }) with
        raised := x.raised ++ [{ EventRecord.plain now (.frameAbandoned cause) with
          window := some w, port := some (x.win w).geom.writer, slot := some k, detail := c.writer.bytesWritten }] } := by
  unfold Exchange.abandon
  rw [x.ctx?_of_live w hl]
  dsimp only
  rw [hs]
  dsimp only
  have cc : c1.abandon k = c1.afterAbandon k sl := by
    unfold Context.abandon Context.afterAbandon Context.settle
    have hk1 : c1.slots.get k = some sl := by
      rcases hx with ⟨_, _, rfl⟩ | ⟨j, _, hsrc, _, rfl⟩
      · exact hk
      · rw [Context.afterJob_get _ _ _ fun src e => (hsrc src e).1]; exact hk
    rw [c1.modSlot_of k hk1]
    rfl
  unfold Exchange.raise Exchange.count
  rcases hx with ⟨hj, rfl, rfl⟩ | ⟨j, hj, hsrc, rfl, rfl⟩
  · have d : (x'.dropSource w).cancelJob w = x' := by
      unfold Exchange.dropSource Exchange.cancelJob
      simp only [hj]
    rw [d, Exchange.modCtx_of_live _ w hl, Exchange.modWin_modWin, cc]
    rfl
  · have d : (x.dropSource w).cancelJob w = (x.afterCancel w).modWin w fun u => { u with life := .live m (c.afterJob j.work) } := by
      rw [x.dropSource_of w hl hj fun src e => (hsrc src e).2]
      rcases (x.modWin w fun u => { u with life := .live m (c.afterJob j.work) }).cancelJob_eq w with ⟨h, _⟩ | ⟨_, h⟩
      · rw [show (x.modWin w fun u => { u with life := .live m (c.afterJob j.work) }).carry.job? w = some j from hj] at h; cases h
      · rw [h]; rfl
    rw [d, Exchange.modCtx_of_live _ w (m := m) (c := c.afterJob j.work) (congrArg WindowUnit.life
        (Exchange.win_modWin_self (x.afterCancel w) w fun u => { u with life := .live m (c.afterJob j.work) })),
      Exchange.modWin_modWin, Exchange.modWin_modWin, cc]
    rfl

/-- A give-back, and the slot choice of a waiting writer made again (R22, R53). -/
theorem Exchange.giveBack_eq (x : Exchange) (now : Word) (w : Window) (p : Port) (after : ReaderState) {m : LiveMode} {c : Context}
    (hl : (x.win w).life = .live m c) (y : Exchange)
    (h : (x.modWin w fun u => { u with life := .live m (c.giveBack (x.win w).geom.delivery p after) }).Serves now w y) :
    x.giveBack now w p after = y := by
  unfold Exchange.giveBack
  dsimp only
  rw [x.modCtx_of_live w hl]
  exact Exchange.serveWriter_eq _ now w y h

/-! ### A port reset -/

/-- The request in hand is ended, wherever `HandEnds` says what that gives (R136). -/
theorem Exchange.resetHand_eq (x : Exchange) (now : Word) (p : Port) (y : Exchange) (h : x.HandEnds now p y) :
    x.resetHand now p = y := by
  unfold Exchange.HandEnds at h
  unfold Exchange.resetHand
  cases hh : (x.port p).hand with
  | none => rw [hh] at h; exact h.symm
  | held _ => rw [hh] at h; exact h.symm
  | presented r m b => rw [hh] at h; exact Exchange.lowerEntry_eq _ now _ y h
  | outstanding r b => rw [hh] at h; exact h.symm

/-- The windows that a port reset changes (R137). -/
theorem Exchange.mem_resetWindows (x : Exchange) (p : Port) (w : Window) : w ∈ x.resetWindows p ↔ x.RoleToEnd p w := by
  unfold Exchange.resetWindows Exchange.RoleToEnd
  rw [List.mem_filter]
  cases hl : (x.win w).life with
  | disabled => simp
  | live m c =>
    by_cases hp : p = (x.win w).geom.writer <;> cases m <;> simp [hp, Window.mem_all, Context.reader?, Option.any_eq_true]

/-- The windows that a port reset changes, in the order that the choice gives. -/
theorem Exchange.resetOrder (x : Exchange) (p : Port) (c : Nat) :
    (permute (x.resetWindows p) c).Nodup ∧ ∀ w, w ∈ permute (x.resetWindows p) c ↔ x.RoleToEnd p w := by
  have h := permute_perm (x.resetWindows p) c
  exact ⟨h.nodup_iff.mpr (List.Nodup.filter _ (by decide)), fun w => h.mem_iff.trans (x.mem_resetWindows p w)⟩

/-- The port's binding in one window is brought to rest, wherever `RoleEnds` says what that gives (R137). -/
theorem Exchange.resetRole_eq (x : Exchange) (now : Word) (p : Port) (w : Window) (y : Exchange) (h : x.RoleEnds now p w y) :
    x.resetRole now p w = y := by
  obtain ⟨m, c, hl, hm, h⟩ := h
  have e : x.resetRole now p w = if p = (x.win w).geom.writer then x.resetWriter now w c
      else if (x.win w).geom.readers.get p then x.resetReader now w p c else x := by
    unfold Exchange.resetRole
    dsimp only
    rw [hl]
    cases m with
    | observe => exact absurd rfl hm
    | active => rfl
    | draining => rfl
  rw [e]
  rcases h with ⟨hp, hs, rfl⟩ | ⟨k, sl, x', c1, hp, hs, hk, hx, hd⟩ | ⟨b, hp, hr, hb, h⟩
  · rw [if_pos hp]
    unfold Exchange.resetWriter
    rw [hs]
    exact x.modCtx_of_live w hl _
  · rw [if_pos hp]
    unfold Exchange.resetWriter
    rw [hs]
    dsimp only
    rw [x.abandon_eq now w m c k sl .portReset x' c1 hl hs hk hx, ← hp]
    exact (Exchange.drainTest_iff _ now w y).mp hd
  · rw [if_neg hp, if_pos hr]
    unfold Exchange.resetReader
    rcases h with ⟨k, z, hs, hz, hd⟩ | ⟨hs, rfl⟩
    · rw [if_pos (by simp [Context.holds, Context.reader?, hb, hs]), x.giveBack_eq now w p .idle hl z hz]
      exact (Exchange.drainTest_iff _ now w y).mp hd
    · rw [if_neg (by rcases hs with hs | hs <;> simp [Context.holds, Context.reader?, hb, hs]), x.modCtx_of_live w hl,
        c.modReader_of p hb]

/-- The port's bindings are brought to rest in one window after another. -/
theorem Exchange.resetRoles_eq (now : Word) (p : Port) (l : List Window) (x y : Exchange) (h : Exchange.RolesEnd now p l x y) :
    l.foldl (fun y w => y.resetRole now p w) x = y := by
  induction l generalizing x with
  | nil => exact h.symm
  | cons w l ih =>
    obtain ⟨z, hz, hy⟩ := h
    rw [List.foldl_cons, x.resetRole_eq now p w z hz]
    exact ih z hy

/-! ### The end of an event -/

/-- Where ports can take requests from their links, an event without a record ends with the taking of the first request of one of
them, and as every event ends after it (R120). -/
theorem State.finish_of_ports (s : State) (p : Port) (ps : List Port) (hr : s.exch.raised = []) (hp : s.linkPorts = p :: ps) :
    ∃ q r rest, q ∈ s.linkPorts ∧ (s.exch.port q).link = r :: rest ∧
      s.finish = ({ s with
        exch := (s.exch.modPort q fun u => { u with link := rest }).take s.time.ticks q r,
        choices := s.choices + choicesUsed (ps.length + 1) } : State).finish := by
  let q := (p :: ps).getD (Config.freeChoice s.choices % (ps.length + 1)) p
  have hq : q ∈ s.linkPorts := by
    rw [hp]
    show (p :: ps).getD _ p ∈ _
    rw [List.getD_eq_getElem _ _ (by simpa using Nat.mod_lt _ (Nat.succ_pos _))]
    exact List.getElem_mem _
  cases hl : (s.exch.port q).link with
  | nil => simp [State.linkPorts, hl] at hq
  | cons r rest =>
    refine ⟨q, r, rest, hq, hl, ?_⟩
    let t : State := { s with choices := s.choices + choicesUsed (ps.length + 1) }
    have hc : s.linkCount = (t.takeFront q).linkCount + 1 :=
      (t.takeFront_linkCount q (by rw [show t.exch.port q = s.exch.port q from rfl, hl]; exact List.cons_ne_nil _ _)).symm
    have ht : t.takeFront q =
        ({ t with exch := (s.exch.modPort q fun u => { u with link := rest }).take s.time.ticks q r } : State).flush := by
      unfold State.takeFront
      rw [show (t.exch.port q).link = r :: rest from hl]
    unfold State.finish
    rw [s.flush_of_none hr]
    unfold State.takeLinks
    rw [hc, State.takeLinked, hp]
    exact congrArg (fun v : State => State.takeLinked (t.takeFront q).linkCount v) rfl |>.trans (by rw [ht])

/-- The same where one port alone can. -/
theorem State.finish_of_link (s : State) (q : Port) (r : Request) (rest : List Request) (hr : s.exch.raised = [])
    (hq : s.linkPorts = [q]) (hl : (s.exch.port q).link = r :: rest) :
    s.finish =
      ({ s with exch := (s.exch.modPort q fun u => { u with link := rest }).take s.time.ticks q r } : State).finish := by
  obtain ⟨v, r', rest', hv, hl', h⟩ := s.finish_of_ports q [] hr hq
  obtain rfl : v = q := by rw [hq] at hv; exact List.mem_singleton.mp hv
  obtain ⟨rfl, rfl⟩ := List.cons.inj (hl.symm.trans hl')
  exact h

/-- A port takes requests while RESET_N is deasserted: ACTIVE, with nothing in hand (R120). -/
theorem State.portReady_iff (s : State) (h : s.resetAsserted = false) (q : Port) :
    s.portReady q = true ↔ (s.exch.port q).state = .active ∧ (s.exch.port q).hand = .none := by
  simp [State.portReady, PortUnit.takes, h]

/-- The ports that would take a request from their link now. -/
theorem State.mem_linkPorts (s : State) (h : s.resetAsserted = false) (q : Port) :
    q ∈ s.linkPorts ↔
      ((s.exch.port q).state = .active ∧ (s.exch.port q).hand = .none) ∧ (s.exch.port q).link ≠ [] := by
  unfold State.linkPorts
  rw [List.mem_filter, Bool.and_eq_true, s.portReady_iff h]
  simp only [Bool.not_eq_true', List.isEmpty_eq_false_iff]
  exact ⟨fun h => h.2, fun h => ⟨by cases q <;> decide, h⟩⟩

theorem State.linkPorts_single (s : State) (q : Port) (hq : q ∈ s.linkPorts) (ho : ∀ v, v ≠ q → v ∉ s.linkPorts) :
    s.linkPorts = [q] := by
  have nd : s.linkPorts.Nodup := List.Nodup.filter _ (by decide)
  refine List.perm_singleton.mp ((List.perm_ext_iff_of_nodup nd (List.nodup_singleton q)).mpr fun v => ⟨fun hv => ?_, fun hv => ?_⟩)
  · by_contra hn
    exact ho v (by simpa using hn) hv
  · rw [List.mem_singleton.mp hv]
    exact hq

/-- A request of a port that takes it now, whatever waits on the other links (R119, R120). -/
theorem State.exec_request_eq (i : Instr) (p : Port) (r : Request) (s : State) (hi : requestOf i = some (p, r))
    (hw : r.wellFormed = true) (ho : s.Open p) (hl : (s.exch.port p).link = []) :
    exec i s = .next ({ s.begin with exch := s.begin.exch.take s.time.ticks p r } : State).finish := by
  have e : exec i s = s.request p r := by
    cases i <;> simp only [requestOf, Option.some.injEq, Prod.mk.injEq, reduceCtorEq] at hi <;> obtain ⟨rfl, rfl⟩ := hi <;> rfl
  rw [e, s.request_eq p r hw]
  unfold State.arrive State.portReady PortUnit.takes
  have h1 : (s.begin.exch.port p).state = .active := ho.2.1
  have h2 : (s.begin.exch.port p).hand = .none := ho.2.2
  have h3 : (s.begin.exch.port p).link = [] := hl
  have h4 : s.begin.resetAsserted = false := ho.1
  rw [h1, h2, h3, h4]
  rfl

theorem State.flush_eq (s : State) :
    ∃ events choices, s.flush = { s with exch := { s.exch with raised := [] }, events := events, choices := choices } ∧
      s.Offers s.exch.raised events :=
  ⟨_, _, rfl, s.flush_offers⟩

/-- An event that changes the exchange alone, and leaves nothing on the links. -/
theorem State.endsIn_of (s : State) (i : Instr) (z : Exchange) (h : exec i s = .next ({ s.begin with exch := z } : State).finish)
    (l : ∀ p, (z.port p).link = []) : s.EndsIn i z := by
  obtain ⟨events, choices, e, o⟩ := ({ s.begin with exch := z } : State).flush_eq
  refine ⟨events, choices, ?_, o⟩
  rw [h, State.finish_of_links _ l, e]

/-- A request that a port takes (R120). -/
theorem State.endsIn_of_take (s : State) (i : Instr) (p : Port) (r : Request) (h : s.Takes i p r) :
    s.EndsIn i (s.begin.exch.take s.time.ticks p r) :=
  let ⟨hi, hw, ⟨_, hl⟩, ho⟩ := h
  s.endsIn_of i _ (State.exec_request_eq i p r s hi hw ho (hl p)) fun q =>
    ((s.begin.exch.take_keeps s.time.ticks p r).ports q).link.trans (hl q)

/-- An expiry that acts on the exchange alone. -/
theorem State.endsIn_of_exchange (s : State) (i : Instr) (f : Word → Exchange → Exchange)
    (h : exec i s = .next (s.event fun s => s.unlessReset fun s => s.onExchange f)) (hr : s.resetAsserted = false) (hq : s.Quiet)
    (k : s.begin.exch.KeepsButList (f s.time.ticks s.begin.exch)) : s.EndsIn i (f s.time.ticks s.begin.exch) := by
  refine s.endsIn_of i _ ?_ fun q => (k.ports q).link.trans (hq.2 q)
  rw [h]
  unfold State.event State.unlessReset
  have h1 : ¬s.begin.resetAsserted = true := by rw [show s.begin.resetAsserted = false from hr]; decide
  exact congrArg (fun t : State => Host.Outcome.next t.finish) (if_neg h1)

/-- A response that the memory port takes (R147). -/
theorem State.endsIn_of_response (s : State) (a : Response) (e : Entry) (rest : List Entry) (hr : s.resetAsserted = false)
    (hq : s.Quiet) (hs : s.memPort.state = .ready) (ho : s.exch.outstanding = e :: rest) (hw : a.wellFormed = true) :
    s.EndsIn (.memoryResponse a) (({ s.begin.exch with outstanding := rest } : Exchange).complete s.time.ticks e (Response.result a)) := by
  refine s.endsIn_of _ _ ?_ fun q =>
    (((Exchange.list_keeps s.begin.exch rest).trans (Exchange.complete_keeps _ s.time.ticks e _).butList).ports q).link.trans (hq.2 q)
  have h1 : ¬s.begin.resetAsserted = true := by rw [show s.begin.resetAsserted = false from hr]; decide
  refine (if_pos hw).trans (congrArg (fun t : State => Host.Outcome.next t.finish) ((if_neg h1).trans ?_))
  unfold State.respond
  dsimp only
  split
  · next e' rest' _ h => obtain ⟨rfl, rfl⟩ := List.cons.inj (ho.symm.trans h); rfl
  · next h => exact absurd ho (h e rest hs)

end Sys2Proof.Machine
end

