-- ==== Sys2Proof/Tests/Slice0.lean ====
section
/-!
SUPPORT. The model's own tests: ill-formed commands are refused, one-step results taken from the worked examples of spec/, and,
for every obligation with hypotheses, a concrete state and operands that meet them.
-/

namespace Sys2Proof.Tests

open Sys2Proof Sys2Proof.Machine

/-! ### Ill-formed commands -/

theorem test_burst_of_one_word_is_ill_formed : Instr.wellFormed (.readerPayloadRead .B 0 (.burst 1)) = false := by decide

theorem test_burst_of_nine_words_is_ill_formed :
    Instr.wellFormed (.passThrough .A { addr := 0, access := .write (.burst (List.replicate 9 0)) }) = false := by decide

theorem test_writer_burst_of_one_word_is_ill_formed :
    Instr.wellFormed (.writerPayloadAccess .A { addr := 0, access := .read (.burst 1) }) = false := by decide

theorem test_refusal_of_an_empty_burst_is_ill_formed :
    Instr.wellFormed (.classifierRefusal .A { addr := 0, access := .write (.burst []) }) = false := by decide

theorem test_response_of_nine_words_is_ill_formed :
    Instr.wellFormed (.memoryResponse (.okay (some (.burst (List.replicate 9 0))))) = false := by decide

theorem test_known_code_is_no_unknown_command : Instr.wellFormed (.unknownCommand 0x38) = false := by decide

theorem test_ill_formed_is_refused : exec (.unknownCommand 0x38) .reset = .refused .illFormed := rfl

theorem test_no_word_spells_a_command : decodeTableWord 8 0x10 = none := rfl

/-! ### Small states -/

/-- The window of the worked arithmetic of 01_windows_slots_and_frames.md, writer A and readers B and C, STREAM without carry. -/
def geo : Geometry :=
  { lbase := 0x00040000, flen := 4096, sbase := 0x00100000, slots := 3, writer := .A, readers := ⟨false, true, true, false⟩,
    delivery := .stream, carry := .none, implicitAcquire := false }

/-- A slot in that state, with the sequence number of its frame. -/
def slot (st : SlotState) (q : Option Word) : Slot := { Slot.start with state := st, seq := q, pending := geo.readers }

/-- A context with three slots. -/
def ctx (a b c : Slot) (ready : List SlotId) (next : Word) : Context :=
  { Context.start geo with slots := ⟨some a, some b, some c, none⟩, ready := ready, nextSeq := next }

/-- The reset state with window W0 as given. -/
def one (u : WindowUnit) : State := { State.reset with exch := .modWin .reset .W0 fun _ => u }

def unit (m : LiveMode) (c : Context) : WindowUnit :=
  { geom := geo, eff := .zero, staged := .none, counters := .zero, life := .live m c }

/-- An enabled window without a frame. -/
def fresh : WindowUnit := unit .active (.start geo)

/-- Slot 2 is FILLING. -/
def filling : Context :=
  let c := ctx (slot .free none) (slot .free none) { slot .filling none with pending := noPorts } [] 7
  { c with writer := { c.writer with state := .filling .s2, bytesWritten := 4092, fillTimer := .running 9 } }

/-- Frames 10 and 11 are READY in slots 0 and 1; B holds slot 0. -/
def held : Context :=
  let c := ctx { slot .ready (some 10) with holders := ⟨false, true, false, false⟩ } (slot .ready (some 11)) (slot .free none)
    [.s0, .s1] 12
  c.setReader .B { ReaderBinding.start with state := .holding .s0, lastSeq := 10, holdTimer := .running 5 }

/-- Every slot is READY, and nobody holds slot 1. -/
def full : Context :=
  { ctx { slot .ready (some 10) with holders := ⟨false, true, false, false⟩ } (slot .ready (some 11)) (slot .ready (some 12))
    [.s0, .s1, .s2] 13 with base := some .s2 }

/-- A frame in progress that waits for its command byte. -/
def frame : FrameState :=
  { code := none, args := [], taken := false, response := [], position := 0, filler := 0xFF, todo := .nothing }

/-- The state with a management frame in progress. -/
def framed (s : State) (f : FrameState) : State := { s with mgmt := { s.mgmt with frame := .running f } }

/-- The state with a request in hand at a port. -/
def handed (s : State) (p : Port) (h : Hand) : State := { s with exch := s.exch.setHand p h }

/-- The state with these requests outstanding. -/
def sent (s : State) (l : List Entry) : State := { s with exch := { s.exch with outstanding := l } }

/-- The state with these requests waiting on the link of a port. -/
def linked (s : State) (p : Port) (l : List Request) : State :=
  { s with exch := s.exch.modPort p fun u => { u with link := l } }

def burst8 : Data := .burst (List.replicate 8 0)

/-- The writer's payload access at payload byte 0, as its command. -/
def firstWrite : Request := { addr := 0x00040020, access := .write burst8 }

/-- The writer's access r waits for a slot of the window with that context. -/
def waitingFor (r : Request) (c : Context) : State :=
  handed (one (unit .active (c.modWriter fun b => { b with state := .waiting }))) .A
    (.held { req := r, window := .W0, reason := .slot, stall := .running 3 })

def waitingWriter (c : Context) : State := waitingFor firstWrite c

/-- B holds slot 0, whose frame no other reader is to see, and its hold timer is due; the other slots are as given. -/
def lastHolder (a b : Slot) (ready : List SlotId) : Context :=
  let sl := { slot .ready (some 10) with holders := ⟨false, true, false, false⟩, pending := ⟨false, true, false, false⟩ }
  (ctx sl a b ready 13).setReader .B { ReaderBinding.start with state := .holding .s0, lastSeq := 10, holdTimer := .running 0 }

/-- The other slots are READY: what B gives back is the one FREE slot. -/
def giving : Context := lastHolder (slot .ready (some 11)) (slot .ready (some 12)) [.s0, .s1, .s2]

/-- The other slots are FREE: what B gives back is all that a drain waits for. -/
def finishing : Context := lastHolder (slot .free none) (slot .free none) [.s0]

/-- Reads of slots given up long ago are in flight, and nothing else is left. -/
def releasing : Context :=
  let sl := { slot .releasing none with pending := noPorts, inFlight := 1 }
  ctx sl sl sl [] 9

/-- Reader C waits for a frame of a window with a staged set. -/
def waitingReader : State :=
  handed
    (one { unit .active ((Context.start geo).setReader .C { ReaderBinding.start with state := .waiting }) with
           staged := { Staged.none with fillPattern := some 5 } })
    .C (.held { req := wordRead 0x00040020, window := .W0, reason := .frame, stall := .stopped })

def carryEntry : Entry :=
  { mem := { request := { addr := 0x00102000, access := .write burst8 }, origin := .carry, kind := .carryWrite,
             window := some .W0, slot := some .s2 },
    discarded := false, timer := .running 5 }

/-- The carry job of the FILLING frame: a FILL with two blocks to go. -/
def lastJob : Job := { window := .W0, work := .fill 7, dest := .s2, pointer := 126, demands := [] }

/-- The FILLING window with a carry job at that block, of which the block in progress is outstanding. -/
def carrying (pointer : Nat) : State :=
  let s := sent (one (unit .active (filling.modSlot .s2 fun sl => { sl with inFlight := 1 }))) [carryEntry]
  { s with
    exch := { s.exch with
      carry := { jobs := [{ lastJob with pointer := pointer }], order := [],
                 current := some { window := .W0, block := pointer, phase := .write }, buffer := none } } }

/-- The same with a COPY job from slot 0, which is RETIRED. -/
def copyCarrying (pointer : Nat) (phase : Phase) : State :=
  let c := filling.setSlot .s0 { slot .retired (some 6) with pending := noPorts, carryRef := true }
  let k : SlotId := match phase with
    | .read => .s0
    | .write => .s2
  let kind : Kind := match phase with
    | .read => .carryRead
    | .write => .carryWrite
  let e : Entry := { carryEntry with mem := { carryEntry.mem with kind := kind, slot := some k } }
  let s := sent (one { unit .active (c.modSlot k fun sl => { sl with inFlight := 1 }) with
                        geom := { geo with carry := .copy } }) [e]
  { s with
    exch := { s.exch with
      carry := { jobs := [{ lastJob with work := .copy .s0, pointer := pointer }], order := [],
                 current := some { window := .W0, block := pointer, phase := phase }, buffer := none } } }

/-- A COPY window whose base slot 0 is READY; slot 1 is FREE. -/
def copyCtx : Context := { ctx (slot .ready (some 1)) (slot .free none) (slot .free none) [.s0] 2 with base := some .s0 }

def copying : State := one { unit .active copyCtx with geom := { geo with carry := .copy } }

/-! ### Tests from the worked examples -/

/-- R6's worked arithmetic: a burst at 0x00040A48 for FILLING slot 2 goes to 0x00102A28 and touches blocks 81 and 82. -/
theorem test_translation : geo.physical .s2 (geo.payloadOffset 0x00040A48) = 0x00102A28 := by decide

theorem test_touched_blocks : touchedBlocks (geo.payloadOffset 0x00040A48) 32 = [81, 82] := by decide

/-- The distance crosses the end of the cycle 1 to 0xFFFFFFFF: from 0xFFFFFFFE to 2 it is 3, so the gap is 2 (R17). -/
theorem test_gap_at_the_wrap : sequenceGap 0xFFFFFFFE 2 = 2 ∧ nextSequence 0xFFFFFFFF = 1 := by decide

/-- The table of "Worked example: classifying requests" (chapter 7). -/
theorem test_classification_table :
    let ws := (one fresh).exch.windows
    classify ws .B (wordRead 0x00040022) = .refused .align (some .W0) ∧
    classify ws .A { addr := 0x00040018, access := .read (.burst 4) } = .refused .straddle (some .W0) ∧
    classify ws .D { addr := 0x00102FFC, access := .read (.burst 2) } = .refused .straddle (some .W0) ∧
    classify ws .C (wordRead 0x00101004) = .refused .guard (some .W0) ∧
    classify ws .D (wordRead 0x00040020) = .refused .role (some .W0) ∧
    classify ws .C { addr := 0x00040100, access := .write (.byte 0) } = .refused .role (some .W0) := by decide

theorem test_classification_table_continued :
    let ws := (one fresh).exch.windows
    classify ws .B { addr := 0x0004000C, access := .read .half } = .refused .header (some .W0) ∧
    classify ws .B (wordRead 0x0004001C) = .refused .header (some .W0) ∧
    classify ws .A (wordWrite 0x00040010 0) = .refused .header (some .W0) ∧
    classify ws .C (wordRead 0x0004000C) = .release .W0 ∧
    classify ws .B (wordRead 0x00041000) = .readerPayload .W0 ∧
    classify ws .D { addr := 0x00103000, access := .write burst8 } = .pass := by decide

/-- The three attempts of "Worked example: enabling a second window" (chapter 6): reason 0x04, reason 0x08, none. -/
theorem test_descriptor_checks :
    let w1 : Geometry := { geo with lbase := 0x00041000, flen := 2048, sbase := 0x00103000, slots := 2, delivery := .latest }
    let ws (g : Geometry) := ((one fresh).exch.modWin .W1 fun u => { u with geom := g }).windows
    configReason (ws w1) .W1 = some 0x04 ∧ configReason (ws { w1 with slots := 4 }) .W1 = some 0x08 ∧
      configReason (ws { w1 with slots := 4, lbase := 0x00041020 }) .W1 = none := by decide

/-- DROP passes over slot 0, which has a holder, and takes slot 1 (chapter 4, "one open under each policy"). -/
theorem test_drop_victim : full.victim = some .s1 := by decide

/-- A reader's payload read without a held frame, IMPLICIT_ACQUIRE off, is answered ERROR (R47). -/
theorem test_read_without_a_frame :
    (match exec (.readerPayloadRead .B 0x00040020 .word) (one fresh) with
     | .next t => t.exch.answers
     | _ => []) = [(.B, .error)] := by decide

/-- EVENT_ENABLE, TB_DIV and MEM_TIMEOUT after pin reset (R186). -/
theorem test_reset_registers :
    State.reset.readRegister (registerAt 0x00) = 0x18 ∧ State.reset.readRegister (registerAt 0x01) = 0x3E8 ∧
      State.reset.readRegister (registerAt 0x02) = 0xFE := by decide

/-- GEOM of a STREAM window with SLOTS 3, WRITER C, READERS A and D reads as it was written (R187). -/
theorem test_geom_register :
    (Geometry.zero.withGeom 0x00000923).geomWord = 0x00000923 ∧ (Geometry.zero.withGeom 0x00000923).writer = .C ∧
      (Geometry.zero.withGeom 0x00030000).carry = .none := by decide

/-- A record on the wire: ACCESS_REFUSED, cause ALIGN, window 0, port B, no slot (R188). -/
theorem test_record_bytes :
    EventRecord.bytes { EventRecord.plain 5 (.accessRefused .align) with
      window := some .W0, port := some .B, detail := 0x00040022 } =
      [0x07, 0x01, 0x80, 0x90, 0, 0, 0, 0, 0, 0, 0, 5, 0x00, 0x04, 0x00, 0x22] := by decide

/-- An EVENTS_LOST record takes the freed place (chapter 10, "a full queue under load"). -/
theorem test_lost_records :
    let r := EventRecord.plain 0 .portReset
    let u : EventUnit := ((EventUnit.mk (List.replicate 32 r) 0).offer r).offer r
    u.lost = 2 ∧ (u.removeHead 9).queue.length = 32 ∧ (u.removeHead 9).lost = 0 := by decide

/-- Block ends of chapter 5's example: the pointer passes done entries 5, 6 and 7 when block 4 ends. -/
theorem test_pointer_passes_done_entries :
    let j : Job := { window := .W2, work := .copy .s0, dest := .s1, pointer := 4,
                     demands := [⟨5, true⟩, ⟨6, true⟩, ⟨7, true⟩] }
    (j.blockDone 4).pointer = 8 ∧ (j.blockDone 4).demands = [] := by decide

/-- The rotation after a grant to A (chapter 8, "rotation, timeout and recovery"). -/
theorem test_rotation : rotate Client.all (.port .A) = [.port .B, .port .C, .port .D, .carry, .port .A] := by decide

/-! ### Witnesses: the hypotheses of the obligations are met -/

/-- Every condition of `State.Takes`, as a test. -/
def takes (s : State) (i : Instr) (p : Port) (r : Request) : Bool :=
  decide (requestOf i = some (p, r)) && r.wellFormed && s.exch.raised.isEmpty &&
    (Port.all.all fun q => (s.exch.port q).link.isEmpty) && !s.resetAsserted &&
    decide ((s.exch.port p).state = .active) && decide ((s.exch.port p).hand = .none)

theorem quiet_of {s : State} (h : s.exch.raised = []) (l : ∀ p, (s.exch.port p).link = []) : s.Quiet := ⟨h, l⟩

theorem takes_of {s : State} {i : Instr} {p : Port} {r : Request} (h : takes s i p r = true) : s.Takes i p r := by
  simp only [takes, Bool.and_eq_true, decide_eq_true_eq, List.isEmpty_iff, Bool.not_eq_true', List.all_eq_true] at h
  obtain ⟨⟨⟨⟨⟨⟨h1, h2⟩, h3⟩, h4⟩, h5⟩, h6⟩, h7⟩ := h
  exact ⟨h1, h2, ⟨h3, fun q => h4 q (by cases q <;> decide)⟩, h5, h6, h7⟩

/-- Both conditions of `Exchange.RangesSound`, as a test. -/
def ranges (x : Exchange) : Bool :=
  Window.all.all fun w => (x.win w).life = .disabled ||
    (decide ((x.win w).geom.reason = none) &&
      Window.all.all fun v => v = w || (x.win v).life = .disabled || !(x.win v).geom.overlaps (x.win w).geom)

theorem ranges_of {x : Exchange} (h : ranges x = true) : x.RangesSound := by
  have all : ∀ w : Window, w ∈ Window.all := by intro w; cases w <;> decide
  simp only [ranges, List.all_eq_true, Bool.or_eq_true, Bool.and_eq_true, decide_eq_true_eq, Bool.not_eq_true'] at h
  refine ⟨fun w hw => ?_, fun v w hvw hv hw => ?_⟩
  · rcases h w (all w) with h | h
    · exact absurd h hw
    · exact h.1
  · rcases h w (all w) with h | h
    · exact absurd h hw
    · rcases h.2 v (all v) with (h | h) | h
      · exact absurd h hvw
      · exact absurd h hv
      · exact h

/-- No request waits on a link of these states. -/
theorem links_empty {s : State} (h : (Port.all.all fun p => (s.exch.port p).link.isEmpty) = true) :
    ∀ p, (s.exch.port p).link = [] := by
  simp only [List.all_eq_true, List.isEmpty_iff] at h
  exact fun p => h p (by cases p <;> decide)

/-- A frame has begun, and nothing of it has arrived. -/
theorem awaits_of (s : State) : (framed s frame).awaits frame := ⟨rfl, rfl, rfl, rfl, rfl⟩

theorem drainMet_of {c : Context} {d : Delivery} (h : c.drained d = true) : c.DrainMet d := (c.drainMet_iff d).mpr h

theorem not_drainMet_of {c : Context} {d : Delivery} (h : c.drained d = false) : ¬c.DrainMet d := fun m => by
  rw [(c.drainMet_iff d).mp m] at h; cases h

/-- The conditions of `Context.NoSlot`, as a test. -/
theorem noSlot_of {c : Context}
    (h : (SlotId.all.all fun k => (c.slots.get k).all fun sl => sl.state ≠ .free && sl.state ≠ .releasing) = true) : c.NoSlot := by
  intro k sl e
  have := List.all_eq_true.mp h k (by cases k <;> decide)
  rw [e] at this
  simpa using this

/-- The conditions of `Context.SlotFor`, as a test. -/
def slotFor (c : Context) (carry : CarryMode) (k : SlotId) (sl : Slot) : Bool :=
  decide (c.slots.get k = some sl) && decide (sl.state = .free) &&
    (decide (carry = .copy ∧ c.base = some k) ||
      ((carry ≠ .copy || c.base.all fun b => (c.slots.get b).all fun base => base.state ≠ .free && base.state ≠ .releasing) &&
        SlotId.all.all fun j => SlotId.number k ≤ SlotId.number j || (c.slots.get j).all fun sl' => sl'.state ≠ .free))

theorem slotFor_of {c : Context} {carry : CarryMode} {k : SlotId} {sl : Slot} (h : slotFor c carry k sl = true) :
    c.SlotFor carry k sl := by
  simp only [slotFor, Bool.and_eq_true, Bool.or_eq_true, decide_eq_true_eq, List.all_eq_true] at h
  obtain ⟨⟨hk, hf⟩, h⟩ := h
  refine ⟨hk, hf, h.imp id fun ⟨hb, hl⟩ => ⟨?_, ?_, fun j sl' hj e => ?_⟩⟩
  · rintro ⟨hc, b, base, eb, es, e⟩
    rcases hb with hb | hb
    · exact absurd hc hb
    · rw [eb] at hb; simp only [Option.all_some] at hb; rw [es] at hb; simp_all
  · rintro ⟨hc, b, base, eb, es, e⟩
    rcases hb with hb | hb
    · exact absurd hc hb
    · rw [eb] at hb; simp only [Option.all_some] at hb; rw [es] at hb; simp_all
  · rcases hl j (by cases j <;> decide) with h | h
    · omega
    · rw [e] at h; simpa using h

/-- Nobody waits for a frame of the window. -/
theorem commitReady_of {x : Exchange} {w : Window} {c : Context} {k : SlotId} (hk : k ∉ c.ready)
    (hr : (c.ready.all fun j => (c.slots.get j).isSome) = true)
    (hw : (Port.all.all fun q => (x.waitingRead w c q).isNone) = true) : x.CommitReady w c k := by
  refine ⟨hk, fun j hj e => ?_, fun q h => ?_⟩
  · have := List.all_eq_true.mp hr j hj
    rw [e] at this
    cases this
  · have := List.all_eq_true.mp hw q (by cases q <;> decide)
    exact absurd (Option.isNone_iff_eq_none.mp this) h

theorem serves_of {x : Exchange} {now : Word} {w : Window} {m : LiveMode} {c : Context} {y : Exchange}
    (hl : (x.win w).life = .live m c)
    (h : (c.writer.state ≠ .waiting ∨ c.SlotWait (x.win w).geom.carry ∨ c.NoSlot) ∧ y = x ∨
      ∃ r k sl, m = .active ∧ x.WriterWaits w c r ∧ c.SlotFor (x.win w).geom.carry k sl ∧
        ((x.win w).geom.inHeader r.addr.toNat = true → x.CommitReady w c k) ∧ y = x.afterServing now w c k sl r) :
    x.Serves now w y := by
  unfold Exchange.Serves
  rw [hl]
  exact h

theorem drainTested (x : Exchange) (now : Word) (w : Window) : ∃ z, x.DrainTested now w z :=
  ⟨_, (x.drainTest_iff now w _).mpr rfl⟩

/-! #### The block, reset and the invariants -/

theorem witness_StepTakesTheFrontCommand :
    State.reset.pending = [] ∧ ({ State.reset with pending := [.tick] } : State).pending = .tick :: [] := ⟨rfl, rfl⟩

theorem witness_CommandsComplete :
    Instr.wellFormed (.readerPayloadRead .B 0 (.burst 2)) = true ∧ Instr.wellFormed (.readerPayloadRead .B 0 (.burst 8)) = true ∧
      Instr.wellFormed (.unknownCommand 0x39) = true ∧ Instr.wellFormed (.unknownCommand 0x38) = false := by decide

/-- A full queue that has lost a record. -/
def losing : State :=
  { State.reset with
    events := { queue := List.replicate 32 (EventRecord.plain 0 .portReset), lost := 1 },
    pending := [.passThrough .A { addr := 1, access := .read .word }] }

theorem witness_EventUnitStaysSound : losing.events.Sound ∧ losing.events.lost ≠ 0 ∧ ∃ t, step losing = .next t :=
  ⟨⟨by decide, fun _ => by decide⟩, by decide, _, rfl⟩

def passEntry (p : Port) (t : Timer) : Entry :=
  { mem := passRequest p (wordRead 0x20), discarded := false, timer := t }

/-- Four requests outstanding, one of them the carry engine's. -/
def busy : State :=
  { sent .reset [passEntry .A (.running 1), passEntry .B .stopped, passEntry .C .stopped, carryEntry] with
    pending := [.memoryResponse (.okay none)] }

theorem witness_MemoryPortStaysSound : busy.MemorySound ∧ ∃ t, step busy = .next t :=
  ⟨⟨by decide, by decide, by decide, by decide⟩, _, rfl⟩

theorem witness_EveryCommandLeavesSettled : ∃ t, exec (.portResetRelease .A) busy = .next t := ⟨_, rfl⟩

theorem witness_WindowsStaySound :
    (one fresh).exch.RangesSound ∧ (∀ w, ((one fresh).exch.win w).ContextSound ∧ ((one fresh).exch.win w).StagedSound) ∧
      ∃ t, step { one fresh with pending := [.tick] } = .next t := by
  refine ⟨ranges_of (by decide), fun w => ⟨?_, ?_⟩, _, rfl⟩
  · intro c hc
    cases w
    case W0 =>
      obtain rfl : Context.start geo = c := by injection hc
      exact ⟨by intro k; cases k <;> decide, by intro p; cases p <;> decide, by decide⟩
    all_goals cases hc
  · cases w
    case W0 => intro h; cases h
    all_goals intro _; rfl

def inReset : State :=
  { State.reset with exch := .modPort .reset .A fun u => { u with prst := true, state := .inReset }, pending := [.tick] }

theorem witness_PrstHoldsThePort : inReset.PrstSound ∧ ∃ t, step inReset = .next t :=
  ⟨fun _ p h => (by cases p <;> first | rfl | cases h), _, rfl⟩

theorem witness_PinResetHoldsThePart :
    State.reset.pinReset.HeldInReset ∧ ∃ t, step { State.reset.pinReset with pending := [.spiFrameStart .edge] } = .next t :=
  ⟨fun _ => ⟨rfl, rfl, rfl, fun w => (by cases w <;> rfl), fun p => (by cases p <;> rfl), rfl, rfl, rfl, rfl, rfl, rfl,
    fun _ h => (by cases h), rfl, rfl⟩, _, rfl⟩

theorem witness_EnablesGovernRecordsAlone : ∃ t, exec (.portReset .A) .reset = .next t := ⟨_, rfl⟩

theorem witness_TimeMovesOnlyAtTicks :
    (∃ t, exec (.spiFrameStart .edge) .reset = .next t) ∧ Instr.spiFrameStart .edge ≠ .tick ∧
      Instr.spiFrameStart .edge ≠ .pinReset :=
  ⟨⟨_, rfl⟩, by decide, by decide⟩

theorem witness_TimerExpiresAtItsLimit : (0 : Half) = 0 ∧ (1 : Half) ≠ 0 ∧ (0xFFFF : Half) ≠ 0 := by decide

theorem witness_TickResult : (one (unit .active held)).resetAsserted = false ∧ (one (unit .active held)).Settled :=
  ⟨rfl, rfl, by decide⟩

/-- Nothing waits; one request waits; two wait, on one port or on two. -/
theorem witness_ResetReleases :
    let r := wordRead 0x24
    let off := State.reset.pinReset
    (requestOf (.explicitAcquire .A 0x24) = some (.A, r) ∧ r.wellFormed = true) ∧
    (∀ s, s ∈ [off, linked off .A [r], linked (linked off .A [r, r]) .B [r]] →
      s.Settled ∧ s.resetAsserted = true ∧ (s.exch.port .A).prst = false ∧ (s.exch.port .A).hand = .none) ∧
    (∀ q, (off.exch.port q).link = []) ∧
    (((linked off .A [r]).exch.port .A).link = [r] ∧ ∀ q, q ≠ .A → ((linked off .A [r]).exch.port q).link = []) ∧
    ((linked (linked off .A [r, r]) .B [r]).exch.port .A).link ≠ [] ∧
    (∀ s, s ∈ [inReset, linked inReset .A [r], linked inReset .A [r, r]] →
      s.Settled ∧ s.resetAsserted = false ∧ (s.exch.port .A).hand = .none) ∧
    (inReset.exch.port .A).link = [] ∧ ((linked inReset .A [r]).exch.port .A).link = r :: [] ∧
    ((linked inReset .A [r, r]).exch.port .A).link = r :: r :: [] ∧
    (State.reset.Settled ∧ State.reset.resetAsserted = false) ∧
    (handed inReset .A (.outstanding r false)).Settled ∧ ((handed inReset .A (.outstanding r false)).exch.port .A).hand ≠ .none := by
  refine ⟨⟨rfl, rfl⟩, fun s hs => ?_, links_empty (by decide), ⟨rfl, fun q h => ?_⟩, by decide, fun s hs => ?_, rfl, rfl, rfl,
    ⟨⟨rfl, by decide⟩, rfl⟩, ⟨rfl, by decide⟩, by decide⟩
  · fin_cases hs <;> exact ⟨⟨rfl, by decide⟩, rfl, rfl, rfl⟩
  · cases q <;> first | rfl | exact absurd rfl h
  · fin_cases hs <;> exact ⟨⟨rfl, by decide⟩, rfl, rfl⟩

/-- PRST rises while RESET_N is asserted, and at a port that is IN_RESET. -/
theorem witness_PortResetResult_levelAlone :
    (State.reset.pinReset.Quiet ∧ State.reset.pinReset.resetAsserted = true) ∧
      inReset.Quiet ∧ (inReset.exch.port .A).state ≠ .active :=
  ⟨⟨⟨rfl, links_empty (by decide)⟩, rfl⟩, ⟨rfl, links_empty (by decide)⟩, by decide⟩

theorem witness_PortResetResult :
    let s1 := one fresh
    let s2 := handed busy .A (.outstanding (wordRead 0x20) false)
    let s3 := handed s1 .A (.presented (wordRead 0x20) (passRequest .A (wordRead 0x20)) false)
    (s1.Quiet ∧ (s1.exch.port .A).state = .active ∧ s1.exch.resetWindows .A = [] ∧ (s1.exch.port .A).hand = .none) ∧
    (s2.Quiet ∧ (s2.exch.port .A).state = .active ∧ s2.exch.resetWindows .A = [] ∧
      ∃ r b, (s2.exch.port .A).hand = .outstanding r b) ∧
    (s3.Quiet ∧ (s3.exch.port .A).state = .active ∧ s3.exch.resetWindows .A = [] ∧
      ∃ r m b, (s3.exch.port .A).hand = .presented r m b ∧ m.window = none) :=
  ⟨⟨⟨rfl, links_empty (by decide)⟩, rfl, by decide, rfl⟩,
    ⟨⟨rfl, links_empty (by decide)⟩, rfl, by decide, _, _, rfl⟩,
    ⟨⟨rfl, links_empty (by decide)⟩, rfl, by decide, _, _, _, rfl, rfl⟩⟩

/-- The hypotheses of the second clause, as a test. -/
def resetCase (s : State) (p : Port) : Bool :=
  Window.all.all fun w =>
    match (s.exch.win w).life with
    | .disabled => true
    | .live .draining _ => false
    | .live m c =>
      (decide (c.writer.state ≠ .waiting) || decide ((s.exch.win w).geom.writer = p)) &&
        (m ≠ .active || decide ((s.exch.win w).geom.writer ≠ p) || match c.writer.state with
          | .filling k => (s.exch.carry.job? w).isNone && (c.slots.get k).isSome
          | _ => true)

theorem resetCase_of {s : State} {p : Port} (h : resetCase s p = true) :
    (∀ w, (s.exch.win w).mode? ≠ some .draining) ∧
    (∀ w c, s.exch.ctx? w = some c → c.writer.state = .waiting → (s.exch.win w).geom.writer = p) ∧
    ∀ w c k, (s.exch.win w).life = .live .active c → (s.exch.win w).geom.writer = p → c.writer.state = .filling k →
      s.exch.carry.job? w = none ∧ ∃ sl, c.slots.get k = some sl := by
  have h := List.all_eq_true.mp h
  refine ⟨fun w => ?_, fun w c => ?_, fun w c k hl hp hk => ?_⟩
  · have := h w (Window.mem_all w)
    unfold WindowUnit.mode?
    rcases e : (s.exch.win w).life with _ | ⟨m, c⟩
    · simp
    · rw [e] at this
      cases m <;> simp_all
  · have := h w (Window.mem_all w)
    unfold Exchange.ctx? WindowUnit.ctx?
    rcases e : (s.exch.win w).life with _ | ⟨m, c⟩
    · simp
    · rw [e] at this
      cases m <;> simp_all <;> rintro rfl hw <;> simp_all
  · have := h w (Window.mem_all w)
    rw [hl] at this
    simp_all [Option.isSome_iff_exists]

/-- The writer's access presented to the FILLING slot. -/
def presentedWrite : State :=
  handed (one (unit .active (filling.modSlot .s2 fun sl => { sl with inFlight := 1 }))) .A
    (.presented firstWrite (payloadRequest geo .W0 .A .s2 firstWrite) false)

/-- A writer with a frame, a reader with one, a writer that waits and a reader that waits. -/
theorem witness_PortResetResult_roles :
    ∀ c, c ∈ [(presentedWrite, Port.A), (one (unit .active held), .B), (waitingWriter full, .A), (waitingReader, .C)] →
      c.1.resetAsserted = false ∧ c.1.Quiet ∧ (c.1.exch.port c.2).state = .active ∧ c.1.exch.resetWindows c.2 = [.W0] ∧
        resetCase c.1 c.2 = true := by
  intro c hc
  fin_cases hc <;> exact ⟨rfl, ⟨rfl, links_empty (by decide)⟩, rfl, by decide, by decide⟩

/-- A reset that leaves a DRAINING window draining, and two that end its drain. -/
theorem witness_PortResetResult_draining :
    ∀ c, c ∈ [(one (unit .draining held), Port.B), (one (unit .draining finishing), .B), (one (unit .draining filling), .A)] →
      c.1.resetAsserted = false ∧ c.1.Quiet ∧ (c.1.exch.port c.2).state = .active ∧ c.1.exch.resetWindows c.2 = [.W0] ∧
        (c.1.exch.win .W0).mode? = some .draining ∧ (c.1.exch.port c.2).hand = .none ∧ c.1.exch.carry.job? .W0 = none := by
  intro c hc
  fin_cases hc <;> exact ⟨rfl, ⟨rfl, links_empty (by decide)⟩, rfl, by decide, rfl, rfl, rfl⟩

theorem witness_PortResetResult_drainMet :
    ¬(held.giveBack geo.delivery .B .idle).DrainMet geo.delivery ∧
      (finishing.giveBack geo.delivery .B .idle).DrainMet geo.delivery ∧ filling.writer.state = .filling .s2 ∧
      ∀ sl, filling.slots.get .s2 = some sl → (filling.afterAbandon .s2 sl).DrainMet geo.delivery := by
  refine ⟨not_drainMet_of (by decide), drainMet_of (by decide), rfl, fun sl h => ?_⟩
  obtain rfl := Option.some.inj h
  exact drainMet_of (by decide)

/-! #### Taking and classifying requests -/

theorem witness_RequestWaitsOnTheLink :
    let s := handed .reset .A (.outstanding (wordRead 0x20) false)
    requestOf (.explicitAcquire .A 0x24) = some (.A, wordRead 0x24) ∧ (wordRead 0x24).wellFormed = true ∧ s.Settled ∧
      s.portReady .A = false ∧ inReset.Settled ∧ inReset.portReady .A = false :=
  ⟨rfl, rfl, ⟨rfl, by decide⟩, by decide, ⟨rfl, by decide⟩, by decide⟩

theorem witness_PassThroughResult :
    (State.reset.Takes (.passThrough .D (wordRead 0xFFFFFFFC)) .D (wordRead 0xFFFFFFFC) ∧
      classify State.reset.exch.windows .D (wordRead 0xFFFFFFFC) = .pass) ∧
    (one fresh).Takes (.passThrough .D { addr := 0x00103000, access := .write burst8 }) .D
      { addr := 0x00103000, access := .write burst8 } ∧
    classify (one fresh).exch.windows .D { addr := 0x00103000, access := .write burst8 } = .pass :=
  ⟨⟨takes_of (by decide), by decide⟩, takes_of (by decide), by decide⟩

/-- An OBSERVE window. -/
def watched : State := one (unit .observe (.start geo))

theorem witness_ObservedResult :
    (watched.Takes (.passThrough .D (wordRead 0x0004101C)) .D (wordRead 0x0004101C) ∧
      classify watched.exch.windows .D (wordRead 0x0004101C) = .observed .W0 (some .role) none) ∧
    (watched.Takes (.readerPayloadRead .B 0x00040020 .word) .B (wordRead 0x00040020) ∧
      classify watched.exch.windows .B (wordRead 0x00040020) = .observed .W0 none none) ∧
    (watched.Takes (.explicitCommit .A 0x0004000C 0xFFFF0042) .A (wordWrite 0x0004000C 0xFFFF0042) ∧
      classify watched.exch.windows .A (wordWrite 0x0004000C 0xFFFF0042) = .observed .W0 none (some 0xFFFF0042)) ∧
    (watched.Takes (.passThrough .A { addr := 0x0003FFFC, access := .read (.burst 2) }) .A
        { addr := 0x0003FFFC, access := .read (.burst 2) } ∧
      classify watched.exch.windows .A { addr := 0x0003FFFC, access := .read (.burst 2) } =
        .observed .W0 (some .straddle) none) :=
  ⟨⟨takes_of (by decide), by decide⟩, ⟨takes_of (by decide), by decide⟩, ⟨takes_of (by decide), by decide⟩,
    takes_of (by decide), by decide⟩

/-- Of an OBSERVE window: its first payload word, its header words 5 and 6, and a burst that begins below it. -/
theorem witness_ObservedResult_classes :
    let x := watched.exch
    let across : Request := { addr := 0x0003FFFC, access := .read (.burst 2) }
    x.RangesSound ∧ (x.win .W0).mode? = some .observe ∧
    ((wordRead 0x00040020).wellFormed = true ∧ Request.aligned (wordRead 0x00040020) = true ∧
      (∀ i, i < 4 → 0x00040020 ≤ (wordRead 0x00040020).addr.toNat + i ∧ (wordRead 0x00040020).addr.toNat + i < 0x00041020)) ∧
    (∀ i, i < 4 → 0x00040000 ≤ (wordRead 0x00040014).addr.toNat + i ∧ (wordRead 0x00040018).addr.toNat + i < 0x00040020) ∧
    (Port.B ≠ geo.writer ∧ geo.readers.get .B = true ∧ geo.readers.get .D = false) ∧
    (across.wellFormed = true ∧ Request.aligned across = true ∧ across.addr.toNat + 4 = 0x00040000 ∧
      (∀ v, (x.win v).mode? ≠ some .active ∧ (x.win v).mode? ≠ some .draining) ∧
      (∀ j, j < 4 → across.addr.toNat + j < 0x00040000) ∧
      regionAt x.windows (across.addr.toNat + 3) ≠ regionAt x.windows (across.addr.toNat + 4)) :=
  ⟨ranges_of (by decide), rfl, ⟨by decide, by decide, by decide⟩, by decide, ⟨by decide, rfl, rfl⟩,
    ⟨by decide, by decide, by decide, fun v => by cases v <;> decide, by decide, by decide⟩⟩

theorem witness_RefusedRequestResult :
    (one fresh).Takes (.classifierRefusal .C (wordRead 0x00101004)) .C (wordRead 0x00101004) ∧
      classify (one fresh).exch.windows .C (wordRead 0x00101004) = .refused .guard (some .W0) :=
  ⟨takes_of (by decide), by decide⟩

theorem witness_MisalignedIsRefused :
    (one fresh).exch.RangesSound ∧
    ((one fresh).Takes (.classifierRefusal .B (wordRead 0x00040022)) .B (wordRead 0x00040022) ∧
      (wordRead 0x00040022).addr.toNat % 4 ≠ 0) ∧
    ((one fresh).Takes (.classifierRefusal .B { addr := 0xFFFFFFE4, access := .read (.burst 8) }) .B
        { addr := 0xFFFFFFE4, access := .read (.burst 8) } ∧
      (0xFFFFFFE4 : Word).toNat + Request.bytes { addr := 0xFFFFFFE4, access := .read (.burst 8) } > 0x100000000) ∧
    classify (one fresh).exch.windows .B (wordRead 0x00040022) = .refused .align (some .W0) :=
  ⟨ranges_of (by decide), ⟨takes_of (by decide), by decide⟩, ⟨takes_of (by decide), by decide⟩, by decide⟩

theorem witness_BlocksOfAnAccess :
    let last : Request := { addr := 0x00041000, access := .read (.burst 8) }
    let r : Request := { addr := 0x00040A48, access := .read (.burst 8) }
    geo.reason = none ∧ (r.wellFormed = true ∧ Request.aligned r = true ∧
      ∀ i, i < Request.bytes r → geo.inPayload (r.addr.toNat + i) = true) ∧
    last.wellFormed = true ∧ Request.aligned last = true ∧
      ∀ i, i < Request.bytes last → geo.inPayload (last.addr.toNat + i) = true :=
  ⟨by decide, ⟨by decide, by decide, by decide⟩, by decide, by decide, by decide⟩

theorem witness_WindowRangeGoesByRole :
    let x := (one fresh).exch
    x.RangesSound ∧ (x.win .W0).mode? = some .active ∧
    (∀ i, i < 4 → (x.win .W0).geom.inSlotArea (0x00100000 + i) = true) ∧
    (∀ i, i < 4 → (x.win .W0).geom.inSlotArea (0x00102FFC + i) = true) ∧
    (∀ i, i < 4 → (x.win .W0).geom.inPayload (0x00040020 + i) = true) ∧
    ((wordRead 0x00102FFC).wellFormed = true ∧ Request.aligned (wordRead 0x00102FFC) = true) ∧
    ((wordRead 0x00040020).wellFormed = true ∧ Request.aligned (wordRead 0x00040020) = true) :=
  ⟨ranges_of (by decide), rfl, by decide, by decide, by decide, by decide, by decide⟩

/-- A burst from the last word of the slot area, and the first word after it. -/
theorem witness_WindowRangeGoesByRole_straddle :
    let x := (one fresh).exch
    let r : Request := { addr := 0x00102FFC, access := .read (.burst 2) }
    (r.wellFormed = true ∧ Request.aligned r = true ∧ (regionAt x.windows (r.addr.toNat + 0)).window? = some .W0 ∧
      (regionAt x.windows (r.addr.toNat + 3)).isExchange = true ∧
      regionAt x.windows (r.addr.toNat + 4) ≠ regionAt x.windows (r.addr.toNat + 3)) ∧
    ∀ i, i < 4 → regionAt x.windows ((wordRead 0x00103000).addr.toNat + i) = .pass :=
  ⟨⟨by decide, by decide, by decide, by decide, by decide⟩, by decide⟩

theorem witness_HeaderWordGoesByTable :
    (one (unit .draining (.start geo))).exch.RangesSound ∧
      ((one (unit .draining (.start geo))).exch.win .W0).mode? = some .draining := ⟨ranges_of (by decide), rfl⟩

theorem witness_HeaderWordGoesByTable_sizes :
    let x := (one fresh).exch
    ∀ r, r ∈ [({ addr := 0x0004001F, access := .read .byte } : Request), { addr := 0x0004000C, access := .write (.half 1) },
        { addr := 0x00040000, access := .write burst8 }] →
      r.wellFormed = true ∧ Request.aligned r = true ∧ r.access.size ≠ .word ∧
        ∀ i, i < Request.bytes r → (x.win .W0).geom.inHeader (r.addr.toNat + i) = true := by decide

/-! #### The writer -/

theorem witness_WriterAccessPresented :
    let s := one (unit .active filling)
    s.Takes (.writerPayloadAccess .A firstWrite) .A firstWrite ∧ classify s.exch.windows .A firstWrite = .writerPayload .W0 ∧
      (s.exch.win .W0).life = .live .active filling ∧ filling.writer.state = .filling .s2 ∧
      (filling.slots.get .s2).isSome = true ∧ s.exch.carry.job? .W0 = none :=
  ⟨takes_of (by decide), by decide, rfl, rfl, rfl, rfl⟩

/-- The write of the last payload word. -/
def lastWrite : Request := wordWrite 0x0004101C 5

/-- With a job at block 126: block 0 is done, block 127 is not. -/
theorem witness_WriterAccessPresented_job :
    let s := carrying 126
    (s.Takes (.writerPayloadAccess .A firstWrite) .A firstWrite ∧ s.Takes (.writerPayloadAccess .A lastWrite) .A lastWrite) ∧
    (classify s.exch.windows .A firstWrite = .writerPayload .W0 ∧ classify s.exch.windows .A lastWrite = .writerPayload .W0) ∧
    s.exch.carry.job? .W0 = some lastJob ∧
    (touchedBlocks (firstWrite.addr.toNat - (0x00040000 + 32)) (Request.bytes firstWrite) = [0] ∧ 0 < lastJob.pointer) ∧
    touchedBlocks (lastWrite.addr.toNat - (0x00040000 + 32)) (Request.bytes lastWrite) = [127] ∧ ¬127 < lastJob.pointer ∧
    ({ block := 127, done := true } : Demand) ∉ lastJob.demands ∧ [127] ≠ [] ∧ [127].Sublist [127] :=
  ⟨⟨takes_of (by decide), takes_of (by decide)⟩, ⟨by decide, by decide⟩, rfl, ⟨by decide, by decide⟩, by decide, by decide,
    by decide, by decide, List.Sublist.refl _⟩

/-- The writer's CONTROL write with tag 0x0042. -/
def commit42 : Instr := .explicitCommit .A 0x0004000C 0xFFFF0042

theorem witness_WriterAccessOpens :
    let s := one fresh
    let c := Context.start geo
    s.Takes (.writerPayloadAccess .A firstWrite) .A firstWrite ∧ classify s.exch.windows .A firstWrite = .writerPayload .W0 ∧
      (s.exch.win .W0).life = .live .active c ∧ c.writer.state = .noSlot ∧ (s.exch.win .W0).geom.carry = .none ∧
      s.exch.carry.job? .W0 = none ∧ c.slots.get .s0 = some .start ∧ Slot.start.state = .free ∧
      ∀ j sl, SlotId.number j < SlotId.number .s0 → c.slots.get j = some sl → sl.state ≠ .free :=
  ⟨takes_of (by decide), by decide, rfl, rfl, rfl, rfl, rfl, rfl, fun j _ h => by cases j <;> exact absurd h (by decide)⟩

theorem witness_CopyOpenStartsAJob :
    copying.Takes (.writerPayloadAccess .A firstWrite) .A firstWrite ∧
      classify copying.exch.windows .A firstWrite = .writerPayload .W0 ∧
      (copying.exch.win .W0).life = .live .active copyCtx ∧ copyCtx.writer.state = .noSlot ∧
      (copying.exch.win .W0).geom.carry = .copy ∧ copying.exch.carry.job? .W0 = none ∧ copyCtx.base = some .s0 ∧
      copyCtx.slots.get .s0 = some (slot .ready (some 1)) ∧ copyCtx.slots.get .s1 = some (slot .free none) ∧
      ∀ j sl, SlotId.number j < SlotId.number .s1 → copyCtx.slots.get j = some sl → sl.state ≠ .free := by
  refine ⟨takes_of (by decide), by decide, rfl, rfl, rfl, rfl, rfl, rfl, rfl, fun j sl h e => ?_⟩
  cases j
  case s0 =>
    obtain rfl : slot .ready (some 1) = sl := by injection e
    decide
  all_goals exact absurd h (by decide)

/-- The engine is idle, or its current block is of window W1. -/
theorem witness_CopyOpenStartsAJob_engine :
    (copying.exch.carry.current = none ∧ copying.exch.carry.jobs = [] ∧ copying.exch.carry.order = []) ∧
    Window.W1 ≠ .W0 ∧
    ({ Engine.idle with jobs := [{ lastJob with window := .W1 }],
                        current := some { window := .W1, block := 126, phase := .write } } : Engine).job? .W0 = none :=
  ⟨⟨rfl, rfl, rfl⟩, by decide, rfl⟩

/-- A COPY window whose base slot 1 is FREE, as slot 0 is. -/
def freeBase : Context := { ctx (slot .free none) (slot .free none) (slot .ready (some 1)) [.s2] 2 with base := some .s1 }

def freeBased : State := one { unit .active freeBase with geom := { geo with carry := .copy } }

/-- The base slot of a COPY window that is FREE; a payload access under FILL; a CONTROL write in windows without and with carry. -/
theorem witness_WriterAccessOpens_carry :
    (freeBased.Takes (.writerPayloadAccess .A firstWrite) .A firstWrite ∧
      classify freeBased.exch.windows .A firstWrite = .writerPayload .W0 ∧
      (freeBased.exch.win .W0).life = .live .active freeBase ∧ freeBase.writer.state = .noSlot ∧
      freeBased.exch.carry.job? .W0 = none ∧ (freeBased.exch.win .W0).geom.carry = .copy ∧ freeBase.base = some .s1 ∧
      freeBase.slots.get .s1 = some (slot .free none) ∧ freeBase.SlotFor .copy .s1 (slot .free none)) ∧
    (∀ carry, carry ∈ [CarryMode.none, .copy, .fill] →
      let s := one { fresh with geom := { geo with carry := carry } }
      s.Takes (.writerPayloadAccess .A firstWrite) .A firstWrite ∧
      classify s.exch.windows .A firstWrite = .writerPayload .W0 ∧ geo.inHeader firstWrite.addr.toNat = false ∧
      s.Takes commit42 .A (wordWrite 0x0004000C 0xFFFF0042) ∧
      classify s.exch.windows .A (wordWrite 0x0004000C 0xFFFF0042) = .commit .W0 0xFFFF0042 ∧
      (Context.start geo).SlotFor carry .s0 .start ∧ s.exch.CommitReady .W0 (Context.start geo) .s0) := by
  refine ⟨⟨takes_of (by decide), by decide, rfl, rfl, rfl, rfl, rfl, rfl, slotFor_of (by decide)⟩, fun carry h => ?_⟩
  fin_cases h <;>
    exact ⟨takes_of (by decide), by decide, by decide, takes_of (by decide), by decide, slotFor_of (by decide),
      commitReady_of (by decide) (by decide) (by decide)⟩

/-- The base slot is RETIRED; FILL; COPY without a base slot. -/
theorem witness_CopyOpenStartsAJob_cases :
    let retired : Context := { ctx (slot .retired (some 1)) (slot .free none) (slot .free none) [] 2 with base := some .s0 }
    let s := one { unit .active retired with geom := { geo with carry := .copy } }
    (s.Takes (.writerPayloadAccess .A firstWrite) .A firstWrite ∧ classify s.exch.windows .A firstWrite = .writerPayload .W0 ∧
      retired.slots.get .s0 = some (slot .retired (some 1)) ∧ retired.slots.get .s1 = some (slot .free none) ∧
      (∀ j sl, SlotId.number j < SlotId.number .s1 → retired.slots.get j = some sl → sl.state ≠ .free)) ∧
    (∀ carry, carry ∈ [CarryMode.fill, .copy] →
      let s := one { fresh with geom := { geo with carry := carry } }
      s.Takes (.writerPayloadAccess .A firstWrite) .A firstWrite ∧
      classify s.exch.windows .A firstWrite = .writerPayload .W0 ∧ (Context.start geo).base = none ∧
      (Context.start geo).slots.get .s0 = some .start ∧ s.exch.carry.job? .W0 = none) := by
  refine ⟨⟨takes_of (by decide), by decide, rfl, rfl, fun j sl h e => ?_⟩, fun carry h => ?_⟩
  · cases j
    case s0 =>
      obtain rfl : slot .retired (some 1) = sl := by injection e
      decide
    all_goals exact absurd h (by decide)
  · fin_cases h <;> exact ⟨takes_of (by decide), by decide, rfl, rfl, rfl⟩

/-- The full window in that mode and under that overflow policy. -/
def fullState (m : LiveMode) (o : Overflow) : State :=
  one { unit m full with eff := { Effective.zero with policy := { Effective.zero.policy with overflow := o } } }

theorem full_ready : ∀ k sl, full.slots.get k = some sl → sl.state = .ready := by
  intro k sl e
  cases k <;> cases e <;> rfl

theorem witness_OpenWithoutASlot :
    (∀ k sl, full.slots.get k = some sl → sl.state = .ready) ∧
    ((fullState .active .hold).Takes (.writerPayloadAccess .A firstWrite) .A firstWrite ∧
      classify (fullState .active .hold).exch.windows .A firstWrite = .writerPayload .W0) ∧
    ((fullState .active .refuse).Takes (.writerPayloadAccess .A firstWrite) .A firstWrite ∧
      classify (fullState .active .refuse).exch.windows .A firstWrite = .writerPayload .W0) ∧
    ((fullState .draining .hold).Takes (.writerPayloadAccess .A firstWrite) .A firstWrite ∧
      classify (fullState .draining .hold).exch.windows .A firstWrite = .writerPayload .W0) ∧
    full.writer.state = .noSlot ∧ geo.delivery = .stream ∧ geo.carry = .none :=
  ⟨full_ready, ⟨takes_of (by decide), by decide⟩, ⟨takes_of (by decide), by decide⟩, ⟨takes_of (by decide), by decide⟩,
    rfl, rfl, rfl⟩

theorem witness_OpenWithoutASlot_commit :
    ∀ s, s ∈ [fullState .active .hold, fullState .active .refuse, fullState .draining .hold] →
      s.Takes (.explicitCommit .A 0x0004000C 7) .A (wordWrite 0x0004000C 7) ∧
        ∃ v, classify s.exch.windows .A (wordWrite 0x0004000C 7) = .commit .W0 v := by
  intro s hs
  rcases List.mem_cons.mp hs with rfl | hs
  · exact ⟨takes_of (by decide), 7, by decide⟩
  rcases List.mem_cons.mp hs with rfl | hs
  · exact ⟨takes_of (by decide), 7, by decide⟩
  · obtain rfl := List.mem_singleton.mp hs
    exact ⟨takes_of (by decide), 7, by decide⟩

/-- A SLOT wait, whatever else is there: the base slot of a COPY window is RELEASING, or a slot is RELEASING and none FREE. A DRAINING
window has FREE slots. Each for a payload access and for a CONTROL write. -/
theorem witness_OpenWithoutASlot_waits :
    let leaving := { slot .releasing none with inFlight := 1 }
    let base : Context := { ctx leaving (slot .free none) (slot .ready (some 1)) [.s2] 2 with base := some .s0 }
    let kept : Context := ctx leaving (slot .ready (some 1)) (slot .ready (some 2)) [.s1, .s2] 3
    (∀ s, s ∈ [one { unit .active base with geom := { geo with carry := .copy } }, one (unit .active kept),
        one (unit .draining (.start geo))] →
      (s.Takes (.writerPayloadAccess .A firstWrite) .A firstWrite ∧
        classify s.exch.windows .A firstWrite = .writerPayload .W0) ∧
      s.Takes commit42 .A (wordWrite 0x0004000C 0xFFFF0042) ∧
        classify s.exch.windows .A (wordWrite 0x0004000C 0xFFFF0042) = .commit .W0 0xFFFF0042) ∧
    (base.SlotWait .copy ∧ base.writer.state = .noSlot) ∧ (kept.SlotWait .none ∧ kept.writer.state = .noSlot) ∧
    full.NoSlot := by
  refine ⟨fun s hs => ?_, ⟨.inl ⟨rfl, _, _, rfl, rfl, rfl⟩, rfl⟩, ⟨.inr ⟨fun k sl e => ?_, .s0, _, rfl, rfl⟩, rfl⟩,
    noSlot_of (by decide)⟩
  · fin_cases hs <;> exact ⟨⟨takes_of (by decide), by decide⟩, takes_of (by decide), by decide⟩
  · cases k <;> cases e <;> decide

theorem witness_OpenDropsTheOldest :
    (fullState .active .drop).Takes (.writerPayloadAccess .A firstWrite) .A firstWrite ∧
      classify (fullState .active .drop).exch.windows .A firstWrite = .writerPayload .W0 ∧
      (∀ k sl, full.slots.get k = some sl → sl.state = .ready) ∧ full.ready = [.s0] ++ .s1 :: [.s2] ∧
      SlotId.s1 ∉ [SlotId.s0] ∧ SlotId.s1 ∉ [SlotId.s2] ∧
      (∀ j sl, j ∈ [SlotId.s0] → full.slots.get j = some sl → sl.holders ≠ noPorts ∨ sl.inFlight ≠ 0 ∨ sl.carryRef = true) ∧
      full.slots.get .s1 = some (slot .ready (some 11)) ∧ (slot .ready (some 11)).holders = noPorts := by
  refine ⟨takes_of (by decide), by decide, full_ready, rfl, by decide, by decide, fun j sl hj e => ?_, rfl, rfl⟩
  obtain rfl : j = .s0 := by simpa using hj
  obtain rfl : { slot .ready (some 10) with holders := ⟨false, true, false, false⟩ } = sl := by injection e
  exact .inl (by decide)

/-- Every slot of the queue has a holder. -/
def pinned : Context :=
  let sl := fun q => { slot .ready (some q) with holders := ⟨false, true, false, false⟩ }
  ctx (sl 10) (sl 11) (sl 12) [.s0, .s1, .s2] 13

/-- Under DROP: a CONTROL write that takes the victim, whose commit no reader waits for, and a window without a victim. -/
theorem witness_OpenDropsTheOldest_cases :
    let s := fullState .active .drop
    let freed : Slot := { slot .ready (some 11) with state := .free, pending := noPorts }
    let c1 : Context := { full with
      slots := full.slots.set .s1 (some freed), ready := [.s0] ++ [.s2], writer := { full.writer with dropped := 1 } }
    let kept := one { unit .active pinned with
      eff := { Effective.zero with policy := { Effective.zero.policy with overflow := .drop } } }
    (s.Takes commit42 .A (wordWrite 0x0004000C 0xFFFF0042) ∧
      classify s.exch.windows .A (wordWrite 0x0004000C 0xFFFF0042) = .commit .W0 0xFFFF0042 ∧ full.NoSlot ∧
      ∀ l, ({ s.begin.exch.modWin .W0 (fun u => { u with
          counters := { u.counters with dropped := u.counters.dropped + 1 }, life := .live .active c1 }) with
        raised := l } : Exchange).CommitReady .W0 c1 .s1) ∧
    (kept.Takes (.writerPayloadAccess .A firstWrite) .A firstWrite ∧
      classify kept.exch.windows .A firstWrite = .writerPayload .W0 ∧
      kept.Takes commit42 .A (wordWrite 0x0004000C 0xFFFF0042) ∧ pinned.NoSlot ∧
      ∀ j, j ∈ pinned.ready → ∃ sl, pinned.slots.get j = some sl ∧
        (sl.holders ≠ noPorts ∨ sl.inFlight ≠ 0 ∨ sl.carryRef = true)) := by
  refine ⟨⟨takes_of (by decide), by decide, noSlot_of (by decide),
      fun _ => commitReady_of (by decide) (by decide) rfl⟩,
    takes_of (by decide), by decide, takes_of (by decide), noSlot_of (by decide), fun j hj => ?_⟩
  fin_cases hj <;> exact ⟨_, rfl, .inl (by decide)⟩

theorem witness_WriterHeaderReadResult :
    ((one fresh).Takes (.writerHeaderRead .A 0x00040000) .A (wordRead 0x00040000) ∧
      classify (one fresh).exch.windows .A (wordRead 0x00040000) = .writerHeader .W0 .frameSeq ∧
      (Context.start geo).writer.state = .noSlot) ∧
    (one (unit .active filling)).Takes (.writerHeaderRead .A 0x00040014) .A (wordRead 0x00040014) ∧
      classify (one (unit .active filling)).exch.windows .A (wordRead 0x00040014) = .writerHeader .W0 .byteCount ∧
      filling.writer.state = .filling .s2 ∧ (filling.slots.get .s2).isSome = true :=
  ⟨⟨takes_of (by decide), by decide, rfl⟩, takes_of (by decide), by decide, rfl, rfl⟩

theorem witness_CommitTaken :
    let s := one (unit .active filling)
    s.Takes commit42 .A (wordWrite 0x0004000C 0xFFFF0042) ∧
      classify s.exch.windows .A (wordWrite 0x0004000C 0xFFFF0042) = .commit .W0 0xFFFF0042 ∧
      (s.exch.win .W0).life = .live .active filling ∧ geo.delivery = .stream ∧ filling.writer.state = .filling .s2 ∧
      (filling.slots.get .s2).isSome = true ∧ s.exch.carry.job? .W0 = none ∧ (s.exch.win .W0).staged = .none ∧
      ∀ q b, filling.readers.get q = some b → b.state ≠ .waiting := by
  refine ⟨takes_of (by decide), by decide, rfl, rfl, rfl, rfl, rfl, rfl, fun q b e => ?_⟩
  cases q <;> cases e <;> decide

/-- Slot 2 is FILLING, and reader C waits for its frame. -/
def awaited : Context := filling.setReader .C { ReaderBinding.start with state := .waiting, lastSeq := 5 }

/-- The same with a staged T_HOLD, and C's read held. -/
def awaitedState : State :=
  handed
    (one { unit .active awaited with staged := { Staged.none with timersA := some { tFill := 8, tHold := 9 } } })
    .C (.held { req := wordRead 0x00040020, window := .W0, reason := .frame, stall := .stopped })

theorem awaitedReady : awaitedState.exch.CommitReady .W0 awaited .s2 := by
  refine ⟨by decide, by decide, fun q h => ?_⟩
  cases q
  case C => exact ⟨rfl, fun j _ hj => absurd hj (by simp [awaited, filling, ctx, Context.setReader])⟩
  all_goals exact absurd rfl h

/-- Slot 2 is FILLING, and reader B still holds slot 0, which is RETIRED. -/
def retiredHeld : Context :=
  let sl := { slot .retired (some 5) with holders := ⟨false, true, false, false⟩, pending := noPorts }
  (filling.setSlot .s0 sl).setReader .B { ReaderBinding.start with state := .holding .s0, lastSeq := 5 }

def retiredState : State := one { unit .draining retiredHeld with geom := { geo with delivery := .latest } }

/-- A waiting reader and a staged set; a DRAINING LATEST window that a reader still holds a frame of. -/
theorem witness_CommitTaken_served :
    (awaitedState.Takes commit42 .A (wordWrite 0x0004000C 0xFFFF0042) ∧
      classify awaitedState.exch.windows .A (wordWrite 0x0004000C 0xFFFF0042) = .commit .W0 0xFFFF0042 ∧
      (awaitedState.exch.win .W0).life = .live .active awaited ∧ awaited.writer.state = .filling .s2 ∧
      (awaited.slots.get .s2).isSome = true ∧ awaitedState.exch.CommitReady .W0 awaited .s2 ∧
      awaitedState.exch.carry.job? .W0 = none ∧
      (awaitedState.exch.waitingRead .W0 awaited .C).isSome = true) ∧
    (retiredState.Takes commit42 .A (wordWrite 0x0004000C 0xFFFF0042) ∧
      classify retiredState.exch.windows .A (wordWrite 0x0004000C 0xFFFF0042) = .commit .W0 0xFFFF0042 ∧
      retiredHeld.writer.state = .filling .s2 ∧ (retiredHeld.slots.get .s2).isSome = true ∧
      retiredState.exch.CommitReady .W0 retiredHeld .s2 ∧ ¬retiredHeld.DrainMet .latest) ∧
    ∀ (x : Exchange) (now : Word), ∃ z, x.DrainTested now .W0 z :=
  ⟨⟨takes_of (by decide), by decide, rfl, rfl, rfl, awaitedReady, rfl, rfl⟩,
    ⟨takes_of (by decide), by decide, rfl, rfl, commitReady_of (by decide) (by decide) (by decide), not_drainMet_of (by decide)⟩,
    fun x now => drainTested x now .W0⟩

/-- The frame of `filling` is all that a DRAINING LATEST window still has. -/
def lastFrame : State := one { unit .draining filling with geom := { geo with delivery := .latest } }

theorem witness_CommitTaken_drain :
    lastFrame.exch.CommitReady .W0 filling .s2 ∧ lastFrame.Takes commit42 .A (wordWrite 0x0004000C 0xFFFF0042) ∧
    classify lastFrame.exch.windows .A (wordWrite 0x0004000C 0xFFFF0042) = .commit .W0 0xFFFF0042 ∧
    (lastFrame.exch.win .W0).life = .live .draining filling ∧ (lastFrame.exch.win .W0).geom.delivery = .latest ∧
    (filling.slots.get .s2).any (fun sl => sl.holders = noPorts) = true ∧ lastFrame.exch.carry.job? .W0 = none ∧
    (lastFrame.exch.win .W0).staged = .none ∧
    (∀ j sl', j ≠ .s2 → filling.slots.get j = some sl' → sl'.state ≠ .filling ∧ sl'.holders = noPorts) ∧
    (∀ q, (lastFrame.exch.port q).heldFor .W0 = false) := by
  refine ⟨commitReady_of (by decide) (by decide) (by decide), takes_of (by decide), by decide, rfl, rfl, by decide, rfl, rfl, fun j sl hj e => ?_, fun q => by cases q <;> rfl⟩
  cases j
  case s2 => exact absurd rfl hj
  all_goals cases e
  all_goals exact ⟨by decide, by decide⟩

/-- A CONTROL write that finds no frame, without carry and under FILL. -/
theorem witness_CommitTaken_open :
    let fill := one { fresh with geom := { geo with carry := .fill } }
    (one fresh).Takes commit42 .A (wordWrite 0x0004000C 0xFFFF0042) ∧
    classify (one fresh).exch.windows .A (wordWrite 0x0004000C 0xFFFF0042) = .commit .W0 0xFFFF0042 ∧
    fill.Takes commit42 .A (wordWrite 0x0004000C 0xFFFF0042) ∧
    classify fill.exch.windows .A (wordWrite 0x0004000C 0xFFFF0042) = .commit .W0 0xFFFF0042 ∧
    (Context.start geo).writer.state = .noSlot ∧ (Context.start geo).SlotFor .none .s0 .start ∧
    (Context.start geo).SlotFor .fill .s0 .start ∧ SlotId.s0 ∉ (Context.start geo).ready ∧ geo.carry = .none ∧ (fill.exch.win .W0).geom.carry = .fill ∧
    ∀ q b, (Context.start geo).readers.get q = some b → b.state ≠ .waiting := by
  refine ⟨takes_of (by decide), by decide, takes_of (by decide), by decide, rfl,
    slotFor_of (by decide), slotFor_of (by decide), by decide, rfl, rfl, fun q b e => ?_⟩
  cases q <;> cases e <;> decide

/-- Slot 1 is FILLING, and slot 0 is READY or was never committed. -/
theorem witness_CommitSupersedes :
    let g := { geo with delivery := .latest, slots := 4 }
    let c := ctx (slot .ready (some 3)) { slot .filling none with pending := noPorts } (slot .free none) [.s0] 4
    let first := ctx (slot .free none) { slot .filling none with pending := noPorts } (slot .free none) [] 1
    g.delivery = .latest ∧ c.ready = [.s0] ∧ SlotId.s0 ≠ .s1 ∧ c.slots.get .s0 = some (slot .ready (some 3)) ∧
      (c.slots.get .s1).isSome = true ∧ first.ready = [] ∧ (first.slots.get .s1).isSome = true :=
  ⟨rfl, rfl, by decide, rfl, rfl, rfl, rfl⟩

theorem witness_CommitHeldForCarry :
    (carrying 126).Takes commit42 .A (wordWrite 0x0004000C 0xFFFF0042) ∧
      classify (carrying 126).exch.windows .A (wordWrite 0x0004000C 0xFFFF0042) = .commit .W0 0xFFFF0042 ∧
      (carrying 126).exch.carry.job? .W0 = some lastJob ∧ filling.writer.state = .filling .s2 :=
  ⟨takes_of (by decide), by decide, rfl, rfl⟩

theorem witness_AbandonResult :
    ((one fresh).Takes (.explicitAbandon .A 0x00040000 5) .A (wordWrite 0x00040000 5) ∧
      classify (one fresh).exch.windows .A (wordWrite 0x00040000 5) = .abandon .W0 ∧
      (Context.start geo).writer.state = .noSlot) ∧
    (one (unit .active filling)).Takes (.explicitAbandon .A 0x00040000 5) .A (wordWrite 0x00040000 5) ∧
      classify (one (unit .active filling)).exch.windows .A (wordWrite 0x00040000 5) = .abandon .W0 ∧
      filling.writer.state = .filling .s2 ∧ (filling.slots.get .s2).isSome = true ∧ SlotId.s2 ∉ filling.ready ∧
      (one (unit .active filling)).exch.carry.job? .W0 = none :=
  ⟨⟨takes_of (by decide), by decide, rfl⟩, takes_of (by decide), by decide, rfl, rfl, by decide, rfl⟩

/-- The frame has a FILL job, or a COPY job from slot 0. -/
theorem witness_AbandonResult_job :
    ((carrying 126).Takes (.explicitAbandon .A 0x00040000 5) .A (wordWrite 0x00040000 5) ∧
      classify (carrying 126).exch.windows .A (wordWrite 0x00040000 5) = .abandon .W0 ∧
      (carrying 126).exch.carry.job? .W0 = some lastJob ∧ lastJob.work = .fill 7) ∧
    (copyCarrying 3 .write).Takes (.explicitAbandon .A 0x00040000 5) .A (wordWrite 0x00040000 5) ∧
      classify (copyCarrying 3 .write).exch.windows .A (wordWrite 0x00040000 5) = .abandon .W0 ∧
      ((copyCarrying 3 .write).exch.carry.job? .W0).map Job.work = some (.copy .s0) ∧ SlotId.s0 ≠ .s2 ∧
      (((copyCarrying 3 .write).exch.ctx? .W0).bind fun c => c.slots.get .s0).isSome = true :=
  ⟨⟨takes_of (by decide), by decide, rfl, rfl⟩, takes_of (by decide), by decide, rfl, by decide, rfl⟩

/-- The frame is the last of a DRAINING window. -/
theorem witness_AbandonResult_draining :
    let s := one (unit .draining filling)
    s.Takes (.explicitAbandon .A 0x00040000 5) .A (wordWrite 0x00040000 5) ∧
      classify s.exch.windows .A (wordWrite 0x00040000 5) = .abandon .W0 ∧ filling.writer.state = .filling .s2 ∧
      s.exch.carry.job? .W0 = none ∧ (∀ sl, filling.slots.get .s2 = some sl → (filling.afterAbandon .s2 sl).DrainMet .stream) ∧
      ∀ (x : Exchange) (now : Word), ∃ z, x.DrainTested now .W0 z := by
  refine ⟨takes_of (by decide), by decide, rfl, rfl, fun sl h => ?_, fun x now => drainTested x now .W0⟩
  obtain rfl := Option.some.inj h
  exact drainMet_of (by decide)

/-! #### The readers -/

/-- Reader C of the window of `held`, and reader C without a frame. -/
theorem witness_AcquireResult :
    let s := one (unit .active held)
    (s.Takes (.explicitAcquire .C 0x00040000) .C (wordRead 0x00040000) ∧
      classify s.exch.windows .C (wordRead 0x00040000) = .acquire .W0 ∧ held.readers.get .C = some .start ∧
      held.Available .stream .C .s0 ∧ (held.slots.get .s0).bind Slot.seq = some 10) ∧
    (one fresh).Takes (.explicitAcquire .C 0x00040000) .C (wordRead 0x00040000) ∧
      classify (one fresh).exch.windows .C (wordRead 0x00040000) = .acquire .W0 ∧
      (Context.start geo).NoneAvailable .stream .C :=
  ⟨⟨takes_of (by decide), by decide, rfl, ⟨[], [.s1], _, rfl, rfl, rfl, fun _ _ h => (by cases h)⟩, rfl⟩, takes_of (by decide),
    by decide, fun _ _ h => (by cases h)⟩

/-- The slot of `held` that B gives back, in its cases. -/
theorem witness_GiveBackEffect :
    let sl := { slot .ready (some 10) with holders := ⟨false, true, false, false⟩ }
    let alone := { sl with pending := ⟨false, true, false, false⟩ }
    (held.slots.get .s0 = some sl ∧ (held.readers.get .B).any (fun b => b.state = .holding .s0) = true) ∧
    (sl.pending.set .B false ≠ noPorts ∧ alone.pending.set .B false = noPorts) ∧
    (({ alone with carryRef := true } : Slot).carryRef = true ∧ alone.carryRef = false) ∧
    (({ alone with state := .retired } : Slot).state = .retired ∧ alone.holders.set .B false = noPorts) :=
  ⟨⟨rfl, by decide⟩, ⟨by decide, by decide⟩, ⟨rfl, rfl⟩, rfl, rfl⟩

/-- The window of `held` with reader B's binding as given. -/
def withB (b : ReaderBinding) : State := one (unit .active (held.setReader .B b))

theorem witness_ReleaseResult :
    ((withB .start).Takes (.explicitRelease .B 0x0004000C) .B (wordRead 0x0004000C) ∧
      classify (withB .start).exch.windows .B (wordRead 0x0004000C) = .release .W0 ∧ held.writer.state ≠ .waiting) ∧
    (withB { ReaderBinding.start with state := .evicted }).Takes (.explicitRelease .B 0x0004000C) .B (wordRead 0x0004000C) ∧
    ((one (unit .active held)).Takes (.explicitRelease .B 0x0004000C) .B (wordRead 0x0004000C) ∧
      classify (one (unit .active held)).exch.windows .B (wordRead 0x0004000C) = .release .W0 ∧
      (held.readers.get .B).any (fun b => b.state = .holding .s0) = true) :=
  ⟨⟨takes_of (by decide), by decide, by decide⟩, takes_of (by decide), takes_of (by decide), by decide, by decide⟩

/-- Every slot is READY, and B holds slot 0, whose frame is C's as well: what B gives back stays READY. -/
def keeping : Context := full.setReader .B { ReaderBinding.start with state := .holding .s0, lastSeq := 10, holdTimer := .running 0 }

/-- The given-back slot still has a read in flight. -/
def inFlightGiving : Context := giving.modSlot .s0 fun sl => { sl with inFlight := 1 }

/-- The writer waits with that request in a window of that CARRY. -/
def giver (r : Request) (carry : CarryMode) (c : Context) : State :=
  { waitingFor r c with exch := (waitingFor r c).exch.modWin .W0 fun u => { u with geom := { geo with carry := carry } } }

/-- The context with its writer waiting. -/
def waits (c : Context) : Context := c.modWriter fun b => { b with state := .waiting }

/-- The writer's CONTROL write, as the access that waits. -/
def control7 : Request := wordWrite 0x0004000C 7

/-- The writer waits with a payload access or a CONTROL write, in windows without and with carry, and the slot that B gives back is
the one it takes; or what B gives back stays READY, or becomes RELEASING. -/
def givers : List State :=
  [giver firstWrite .none giving, giver firstWrite .fill giving, giver control7 .none giving, giver control7 .fill giving,
   giver firstWrite .none keeping, giver control7 .none inFlightGiving]

/-- In each of them what a give-back by B leaves serves the writer or keeps it waiting. -/
theorem serves_givers (after : ReaderState) (ha : after = .idle ∨ after = .evicted) : ∀ s, s ∈ givers → ∃ c,
    (s.exch.win .W0).life = .live .active c ∧ (c.readers.get .B).any (fun b => b.holdTimer.due && b.state = .holding .s0) = true ∧
      ∃ y, (s.begin.exch.modWin .W0 fun u => { u with life := .live .active (c.giveBack geo.delivery .B after) }).Serves 0 .W0 y := by
  intro s hs
  have give : ∀ r carry, (r = firstWrite ∨ r = control7) → (carry = .none ∨ carry = .fill) →
      ((giver r carry giving).begin.exch.modWin .W0 fun u =>
        { u with life := .live .active ((waits giving).giveBack geo.delivery .B after) }).WriterWaits .W0
          ((waits giving).giveBack geo.delivery .B after) r ∧
      ((waits giving).giveBack geo.delivery .B after).SlotFor carry .s0 { slot .free (some 10) with pending := noPorts } ∧
      ((giver r carry giving).begin.exch.modWin .W0 fun u =>
        { u with life := .live .active ((waits giving).giveBack geo.delivery .B after) }).CommitReady .W0
          ((waits giving).giveBack geo.delivery .B after) .s0 := by
    intro r carry hr hc
    rcases ha with rfl | rfl <;> rcases hr with rfl | rfl <;> rcases hc with rfl | rfl <;>
      exact ⟨⟨rfl, rfl, _, rfl⟩, slotFor_of (by decide), commitReady_of (by decide) (by decide) (by decide)⟩
  have served : ∀ r carry, (r = firstWrite ∨ r = control7) → (carry = .none ∨ carry = .fill) → ∃ y,
      ((giver r carry giving).begin.exch.modWin .W0 fun u =>
        { u with life := .live .active ((waits giving).giveBack geo.delivery .B after) }).Serves 0 .W0 y := fun r carry hr hc =>
    ⟨_, serves_of (m := .active) rfl (.inr ⟨r, .s0, _, rfl, (give r carry hr hc).1, (give r carry hr hc).2.1,
      fun _ => (give r carry hr hc).2.2, rfl⟩)⟩
  fin_cases hs
  · exact ⟨waits giving, rfl, by decide, served _ _ (.inl rfl) (.inl rfl)⟩
  · exact ⟨waits giving, rfl, by decide, served _ _ (.inl rfl) (.inr rfl)⟩
  · exact ⟨waits giving, rfl, by decide, served _ _ (.inr rfl) (.inl rfl)⟩
  · exact ⟨waits giving, rfl, by decide, served _ _ (.inr rfl) (.inr rfl)⟩
  · refine ⟨waits keeping, rfl, by decide, _, serves_of (m := .active) rfl (.inl ⟨.inr (.inr ?_), rfl⟩)⟩
    rcases ha with rfl | rfl <;> exact noSlot_of (by decide)
  · refine ⟨waits inFlightGiving, rfl, by decide, _, serves_of (m := .active) rfl (.inl ⟨.inr (.inl (.inr ⟨fun k _ e => ?_, .s0, ?_⟩)), rfl⟩)⟩
    · rcases ha with rfl | rfl <;> cases k <;> cases e <;> decide
    · rcases ha with rfl | rfl <;> exact ⟨_, rfl, rfl⟩

/-- B releases while the writer waits, and while the window drains, which ends the drain or does not. -/
theorem witness_ReleaseResult_gives :
    (∀ s, s ∈ one (unit .draining finishing) :: one (unit .draining held) :: givers →
      s.Takes (.explicitRelease .B 0x0004000C) .B (wordRead 0x0004000C) ∧
        classify s.exch.windows .B (wordRead 0x0004000C) = .release .W0) ∧
    (∀ c, c ∈ [finishing, held] → ∃ y,
      ((one (unit .draining c)).begin.exch.modWin .W0 fun u =>
        { u with life := .live .draining (c.giveBack geo.delivery .B .idle) }).Serves 0 .W0 y) ∧
    (∀ s, s ∈ givers → ∃ c y, (s.exch.win .W0).life = .live .active c ∧
      (s.begin.exch.modWin .W0 fun u => { u with life := .live .active (c.giveBack geo.delivery .B .idle) }).Serves 0 .W0 y) ∧
    (finishing.giveBack geo.delivery .B .idle).DrainMet geo.delivery ∧
    ¬(held.giveBack geo.delivery .B .idle).DrainMet geo.delivery := by
  refine ⟨fun s hs => ?_, fun c hc => ?_, fun s hs => ?_, drainMet_of (by decide), not_drainMet_of (by decide)⟩
  · fin_cases hs <;> exact ⟨takes_of (by decide), by decide⟩
  · fin_cases hc <;> exact ⟨_, serves_of (m := .draining) rfl (.inl ⟨.inl (by decide), rfl⟩)⟩
  · obtain ⟨c, hl, -, y, hy⟩ := serves_givers .idle (.inl rfl) s hs
    exact ⟨c, y, hl, hy⟩

/-- B reads FRAME_SEQ while it holds slot 0: another frame is available, with and without a waiting writer; none is, with the end of a
drain. -/
theorem witness_AcquireResult_holding :
    (∀ s, s ∈ [one (unit .active held), giver firstWrite .none giving, one (unit .draining finishing)] →
      s.Takes (.explicitAcquire .B 0x00040000) .B (wordRead 0x00040000) ∧
        classify s.exch.windows .B (wordRead 0x00040000) = .acquire .W0 ∧
        (s.exch.ctx? .W0).any (fun c => (c.readers.get .B).any fun b => b.state = .holding .s0) = true) ∧
    ((held.giveBack .stream .B .idle).Available .stream .B .s1 ∧ (held.slots.get .s1).bind Slot.seq = some 11) ∧
    ((waits giving).giveBack .stream .B .idle).Available .stream .B .s1 ∧
    (finishing.giveBack .stream .B .idle).NoneAvailable .stream .B ∧
    (finishing.giveBack .stream .B .idle).DrainMet .stream := by
  refine ⟨fun s hs => ?_, ⟨⟨[.s0], [], _, rfl, rfl, rfl, fun j sl hj e => ?_⟩, rfl⟩, ⟨[], [.s2], _, rfl, rfl, rfl, fun j _ hj => ?_⟩,
    fun k sl hk => ?_, drainMet_of (by decide)⟩
  · fin_cases hs <;> exact ⟨takes_of (by decide), by decide, by decide⟩
  · obtain rfl : j = .s0 := by simpa using hj
    cases e; rfl
  · cases hj
  · cases hk

/-- The window of `held` with reader C's binding as given, IMPLICIT_ACQUIRE as given, and no frame for C if so asked. -/
def withC (b : ReaderBinding) (implicit : Bool) (e : EmptyRead) (c : Context) : State :=
  one { unit .active (c.setReader .C b) with
        geom := { geo with implicitAcquire := implicit },
        eff := { Effective.zero with policy := { Effective.zero.policy with emptyRead := e } } }

/-- Reader C's word read at the last payload word, as its command. -/
def readC : Instr := .readerPayloadRead .C 0x0004101C .word

theorem witness_ReaderReadResult :
    let cls := fun s : State => classify s.exch.windows .C (wordRead 0x0004101C) = .readerPayload .W0
    let ok := fun s : State => s.Takes readC .C (wordRead 0x0004101C) ∧ cls s
    ok (withC { ReaderBinding.start with state := .holding .s1 } false .wait held) ∧
    ok (withC { ReaderBinding.start with state := .evicted } false .wait held) ∧
    ok (withC .start false .wait held) ∧
    (ok (withC .start true .fail (.start geo)) ∧ ((Context.start geo).setReader .C .start).NoneAvailable .stream .C) ∧
    ok (withC .start true .wait (.start geo)) ∧
    (ok (withC .start true .wait held) ∧ (held.setReader .C .start).Available .stream .C .s0 ∧
      (held.slots.get .s0).bind Slot.seq = some 10) :=
  ⟨⟨takes_of (by decide), by decide⟩, ⟨takes_of (by decide), by decide⟩, ⟨takes_of (by decide), by decide⟩,
    ⟨⟨takes_of (by decide), by decide⟩, fun _ _ h => (by cases h)⟩, ⟨takes_of (by decide), by decide⟩,
    ⟨⟨takes_of (by decide), by decide⟩, ⟨[], [.s1], _, rfl, rfl, rfl, fun _ _ h => (by cases h)⟩, rfl⟩⟩

theorem witness_ReaderStatusResult :
    ((withB .start).Takes (.writerHeaderRead .B 0x00040014) .B (wordRead 0x00040014) ∧
      classify (withB .start).exch.windows .B (wordRead 0x00040014) = .readerStatus .W0 .byteCount) ∧
    (one (unit .active held)).Takes (.writerHeaderRead .B 0x00040004) .B (wordRead 0x00040004) ∧
      classify (one (unit .active held)).exch.windows .B (wordRead 0x00040004) = .readerStatus .W0 .frameInfo ∧
      (held.slots.get .s0).isSome = true :=
  ⟨⟨takes_of (by decide), by decide⟩, takes_of (by decide), by decide, rfl⟩

/-! #### The memory port -/

/-- A pass-through request presented by port B. -/
def presentedB : State := handed .reset .B (.presented (wordRead 0x20) (passRequest .B (wordRead 0x20)) false)

/-- A FILL block presented by the carry engine, nothing else. -/
def carryPresents : State := sent (carrying 126) []

theorem witness_GrantResult :
    (presentedB.Quiet ∧ presentedB.memPort.rotation = [.port .A] ++ .port .B :: [.port .C, .port .D, .carry] ∧
      presentedB.exch.presented? (.port .A) = none ∧
      presentedB.exch.presented? (.port .B) = some (passRequest .B (wordRead 0x20)) ∧
      presentedB.memPort.state = .ready ∧ presentedB.exch.outstanding.length < 4) ∧
    (carryPresents.Quiet ∧
      carryPresents.memPort.rotation = [.port .A, .port .B, .port .C, .port .D] ++ .carry :: [] ∧
      (∀ d, d ∈ [Client.port .A, .port .B, .port .C, .port .D] → carryPresents.exch.presented? d = none) ∧
      (carryPresents.exch.presented? .carry).isSome = true ∧ carryPresents.memPort.state = .ready) ∧
    4 ≤ (sent presentedB [passEntry .A .stopped, passEntry .C .stopped, passEntry .D .stopped, carryEntry]).exch.outstanding.length ∧
    ({ presentedB with memPort := { MemPort.reset with state := .fault } } : State).memPort.state ≠ .ready :=
  ⟨⟨⟨rfl, links_empty (by decide)⟩, rfl, rfl, rfl, rfl, by decide⟩,
    ⟨⟨rfl, links_empty (by decide)⟩, rfl, by decide, rfl, rfl⟩, by decide, by decide⟩

/-- The request that it presents. -/
def block126 : MemRequest :=
  { carryEntry.mem with request := { addr := 0x00102FC0, access := .write (.burst (List.replicate 8 7)) } }

/-- The memory port is in FAULT. -/
def faulted (s : State) : State := { s with memPort := { s.memPort with state := .fault } }

/-- The grant of a writer's payload write, and of a block of the carry engine, with the memory port in FAULT. -/
theorem witness_GrantResult_faulted :
    ((faulted presentedWrite).Quiet ∧ (faulted presentedWrite).memPort.state ≠ .ready ∧
      ((faulted presentedWrite).exch.port .A).hand = .presented firstWrite (payloadRequest geo .W0 .A .s2 firstWrite) false ∧
      ∃ y, ((faulted presentedWrite).begin.exch.setHand .A (.outstanding firstWrite false)).Fails 0
        { mem := payloadRequest geo .W0 .A .s2 firstWrite, discarded := false, timer := .stopped } .faulted y) ∧
    ((faulted carryPresents).Quiet ∧ (faulted carryPresents).memPort.state ≠ .ready ∧
      (faulted carryPresents).exch.presented? .carry = some block126 ∧
      ∃ c sl y, ((faulted carryPresents).exch.win .W0).life = .live .active c ∧ c.slots.get .s2 = some sl ∧
        ({ (faulted carryPresents).begin.exch.modWin .W0 (fun u => { u with
            life := .live .active { c with slots := c.slots.set .s2 (some { sl with inFlight := sl.inFlight + 1 }) } }) with
          carry := { (faulted carryPresents).exch.carry with buffer := none } } : Exchange).Fails 0
          { mem := block126, discarded := false, timer := .stopped } .faulted y) := by
  exact ⟨⟨⟨rfl, links_empty (by decide)⟩, by decide, rfl, _, _, .inr ⟨.W0, .s2, .active, _, _, rfl, rfl, rfl, rfl,
      .inl ⟨by decide, rfl⟩⟩, .inr ⟨rfl, .inr ⟨.W0, .s2, .active, _, _, _, _, .inr rfl, rfl, rfl, rfl, rfl, rfl, rfl, rfl, rfl⟩⟩⟩,
    ⟨rfl, links_empty (by decide)⟩, by decide, rfl, _, _, _, rfl, rfl, _, .inr ⟨.W0, .s2, .active, _, _, rfl, rfl, rfl, rfl,
      .inl ⟨by decide, rfl⟩⟩, .inr ⟨rfl, .W0, 126, .write, lastJob, .active, _, _, rfl, rfl, rfl, rfl, rfl, rfl,
      [], lastJob, [], .active, _, _, rfl, rfl, by decide, rfl, rfl, fun _ h => (by cases h), .inl ⟨fun _ h => (by cases h), rfl⟩⟩⟩

theorem witness_CarryEnginePresents :
    (∃ e, e ∈ (carrying 126).exch.outstanding ∧ e.mem.origin = .carry) ∧ State.reset.exch.carry.current = none ∧
    (∀ e, e ∈ carryPresents.exch.outstanding → e.mem.origin ≠ .carry) ∧
    carryPresents.exch.carry.current = some { window := .W0, block := 126, phase := .write } ∧
    carryPresents.exch.carry.job? .W0 = some lastJob ∧ lastJob.work = .fill 7 :=
  ⟨⟨carryEntry, by decide, rfl⟩, rfl, by decide, rfl, rfl, rfl⟩

/-- The clauses on the engine: an empty one, one with a demand, one with a job alone, and one whose current block is of W0. -/
theorem witness_CarryEnginePresents_engine :
    let asked : Job := { lastJob with demands := [⟨127, false⟩] }
    let queued : Engine := { Engine.idle with jobs := [asked], order := [(.W0, 127)] }
    let copy : Engine := (copyCarrying 3 .write).exch.carry
    (Engine.idle.current = none ∧ Engine.idle.jobs = [] ∧ Engine.idle.order = []) ∧
    (queued.current = none ∧ queued.order = (.W0, 127) :: [] ∧ queued.job? .W0 = some asked) ∧
    (({ Engine.idle with jobs := [lastJob] } : Engine).jobs = lastJob :: [] ∧ queued.jobs = [] ++ asked :: []) ∧
    ((carrying 126).exch.carry.current = some { window := .W0, block := 126, phase := .write } ∧
      (carrying 126).exch.carry.jobs = [] ++ { lastJob with pointer := 126 } :: [] ∧ (∀ d, d ∈ asked.demands → d.block ≠ 126)) ∧
    (copy.job? .W0).map Job.work = some (.copy .s0) ∧
    ((∀ d, d ∈ asked.demands → asked.pointer ≤ d.block) ∧ (asked.demands.map Demand.block).Nodup ∧
      ({ block := 127, done := false } : Demand) ∈ asked.demands ∧ 126 = asked.pointer) :=
  ⟨⟨rfl, rfl, rfl⟩, ⟨rfl, rfl, rfl⟩, ⟨rfl, rfl⟩, ⟨rfl, rfl, by decide⟩, rfl, by decide, by decide, by decide, rfl⟩

/-- B was evicted; its read of slot 0 is the last request there. -/
def evictedCtx : Context :=
  (ctx { slot .releasing none with pending := noPorts, inFlight := 1 } (slot .ready (some 11)) (slot .ready (some 12))
    [.s1, .s2] 13).setReader .B { ReaderBinding.start with state := .evicted, lastSeq := 10 }

/-- B's read of slot 0 is outstanding, discarded if so asked. -/
def readOf (s : State) (dis : Bool) : State :=
  let e : Entry := { mem := payloadRequest geo .W0 .B .s0 (wordRead 0x00040020), discarded := dis, timer := .running 0 }
  handed (sent s [e]) .B (.outstanding (wordRead 0x00040020) false)

/-- A discarded read whose end frees its slot for the writer that waits; a discarded block; a read of a DISABLED window. Each at
OKAY and at ERROR. -/
theorem witness_ResponseResult_falls :
    let freed := readOf (giver firstWrite .none evictedCtx) true
    let block := sent .reset [{ carryEntry with discarded := true }]
    let disabled := readOf .reset false
    (∀ s, s ∈ [freed, block, disabled] → s.Quiet ∧ s.resetAsserted = false ∧ s.memPort.state = .ready) ∧
    (∃ e y, freed.exch.outstanding = [e] ∧ e.mem.origin = .port .B ∧ e.discarded = true ∧
      ({ freed.begin.exch with outstanding := [] } : Exchange).Falls 0 e y) ∧
    (∃ e y, freed.exch.outstanding = [e] ∧ ({ freed.begin.exch with outstanding := [] } : Exchange).Fails 0 e .response y) ∧
    (∃ e y, block.exch.outstanding = [e] ∧ e.mem.origin = .carry ∧ e.discarded = true ∧
      ({ block.begin.exch with outstanding := [] } : Exchange).Falls 0 e y) ∧
    (∃ e y, disabled.exch.outstanding = [e] ∧ e.mem.window = some .W0 ∧ (disabled.exch.win .W0).life = .disabled ∧
      ({ disabled.begin.exch with outstanding := [] } : Exchange).Falls 0 e y) ∧
    ∃ e y, disabled.exch.outstanding = [e] ∧ ({ disabled.begin.exch with outstanding := [] } : Exchange).Fails 0 e .response y := by
  have frees : ∀ x : Exchange, x = { (readOf (giver firstWrite .none evictedCtx) true).begin.exch with outstanding := [] } →
      ∃ y, x.Falls 0
        { mem := payloadRequest geo .W0 .B .s0 (wordRead 0x00040020), discarded := true, timer := .running 0 } y := by
    rintro _ rfl
    exact ⟨_, .inr ⟨.W0, .s0, .active, _, _, rfl, rfl, rfl, rfl, .inr ⟨rfl, by decide,
      serves_of (m := .active) rfl (.inr ⟨firstWrite, .s0, { slot .free none with pending := noPorts }, rfl, ⟨rfl, rfl, _, rfl⟩,
        slotFor_of (by decide), fun h => absurd h (by decide), rfl⟩)⟩⟩⟩
  obtain ⟨y, hy⟩ := frees _ rfl
  refine ⟨fun s hs => ?_, ⟨_, y, rfl, rfl, rfl, hy⟩, ⟨_, _, rfl, y, hy, .inl ⟨rfl, rfl⟩⟩,
    ⟨_, _, rfl, rfl, rfl, .inl ⟨.inr (.inr ⟨.W0, rfl, rfl⟩), rfl⟩⟩, ⟨_, _, rfl, rfl, rfl, .inl ⟨.inr (.inr ⟨.W0, rfl, rfl⟩), rfl⟩⟩,
    ⟨_, _, rfl, _, .inl ⟨.inr (.inr ⟨.W0, rfl, rfl⟩), rfl⟩, .inr ⟨rfl, .inl ⟨.inl (by decide), rfl⟩⟩⟩⟩
  fin_cases hs <;> exact ⟨⟨rfl, links_empty (by decide)⟩, rfl, rfl⟩

theorem witness_ResponseResult :
    let s := handed (sent .reset [passEntry .B .stopped]) .B (.outstanding (wordRead 0x20) false)
    (s.Quiet ∧ s.resetAsserted = false ∧ s.memPort.state = .ready ∧
      s.exch.outstanding =
        { mem := { request := wordRead 0x20, origin := .port .B, kind := .passThrough, window := none, slot := none },
          discarded := false, timer := .stopped } :: []) ∧
    (Response.okay (some (.word 7))).wellFormed = true ∧ State.reset.exch.outstanding = [] :=
  ⟨⟨⟨rfl, links_empty (by decide)⟩, rfl, rfl, rfl⟩, rfl, rfl⟩

/-- A request waits behind a pass-through of an ACTIVE port, and behind a discarded one of a port whose reset is over. -/
theorem witness_ResponseResult_linked :
    let r := wordRead 0x24
    let s (e : Entry) (st : PortState) : State :=
      let t := handed (sent .reset [e]) .B (.outstanding (wordRead 0x20) false)
      { t with exch := t.exch.modPort .B fun u => { u with state := st, link := [r] } }
    (∀ c, c ∈ [s (passEntry .B .stopped) .active, s { passEntry .B .stopped with discarded := true } .inReset] →
      c.resetAsserted = false ∧ c.Settled ∧ c.memPort.state = .ready ∧ (c.exch.port .B).link = r :: [] ∧
        (c.exch.port .B).prst = false ∧
        c.exch.outstanding.map Entry.mem =
          [{ request := wordRead 0x20, origin := .port .B, kind := .passThrough, window := none, slot := none }]) ∧
    ((s (passEntry .B .stopped) .active).exch.port .B).state = .active ∧
    ((s { passEntry .B .stopped with discarded := true } .inReset).exch.port .B).state = .inReset ∧
    (Response.okay (some (.word 7))).wellFormed = true := by
  refine ⟨fun c hc => ?_, rfl, rfl, rfl⟩
  fin_cases hc <;> exact ⟨rfl, ⟨rfl, by decide⟩, rfl, rfl, rfl, rfl⟩

/-- The outstanding write of the FILLING frame's last word, AUTO_COMMIT as given. -/
def writing (auto : Bool) : State :=
  let e : Entry := { mem := payloadRequest geo .W0 .A .s2 (wordWrite 0x0004101C 5), discarded := false, timer := .stopped }
  let u := unit .active (filling.modSlot .s2 fun sl => { sl with inFlight := 1 })
  handed (sent (one { u with eff := { u.eff with policy := { u.eff.policy with autoCommit := auto } } }) [e]) .A
    (.outstanding (wordWrite 0x0004101C 5) false)

theorem witness_WriterWriteCompletes :
    (writing false).Quiet ∧ (writing false).memPort.state = .ready ∧ (writing false).exch.outstanding.length = 1 ∧
      (payloadRequest geo .W0 .A .s2 (wordWrite 0x0004101C 5)).kind = .writerWrite ∧
      ((writing false).exch.port .A).hand = .outstanding (wordWrite 0x0004101C 5) false ∧
      ((writing false).exch.win .W0).eff.policy.autoCommit = false :=
  ⟨⟨rfl, links_empty (by decide)⟩, rfl, rfl, rfl, rfl, rfl⟩

/-- The outstanding payload read of the FILLING frame, an access that had been held for carry. -/
theorem witness_WriterWriteCompletes_read :
    let r := wordRead 0x00040020
    let e : Entry := { mem := payloadRequest geo .W0 .A .s2 r, discarded := false, timer := .stopped }
    let s := handed (sent (writing false) [e]) .A (.outstanding r true)
    s.Quiet ∧ s.memPort.state = .ready ∧ s.exch.outstanding = [e] ∧ e.mem.kind = .writerRead ∧ Access.isWrite r.access = false ∧
      (s.exch.port .A).hand = .outstanding r true ∧
      (s.exch.ctx? .W0).any (fun c => c.writer.state = .filling .s2 ∧
        (c.slots.get .s2).any fun sl => sl.state = .filling) = true ∧ (Response.okay (some (.word 7))).wellFormed = true :=
  ⟨⟨rfl, links_empty (by decide)⟩, rfl, rfl, rfl, rfl, rfl, by decide, rfl⟩

/-- The frame of the outstanding write was abandoned: its slot is RELEASING, and this was its last request. The window may be
DISABLED as well. -/
theorem witness_WriterWriteCompletes_abandoned :
    let e : Entry := { mem := payloadRequest geo .W0 .A .s2 firstWrite, discarded := false, timer := .stopped }
    let c := ctx (slot .free none) (slot .free none) { slot .releasing none with pending := noPorts, inFlight := 1 } [] 7
    let ended := fun s => handed (sent s [e]) .A (.outstanding firstWrite false)
    (∀ s, s ∈ [ended (one (unit .active c)), ended .reset] →
      s.Quiet ∧ s.memPort.state = .ready ∧ s.exch.outstanding = [e] ∧ (s.exch.port .A).hand = .outstanding firstWrite false) ∧
    (∃ y, ({ (ended (one (unit .active c))).begin.exch with outstanding := [] } : Exchange).Falls 0 e y ∧
      ∀ m d, (y.win .W0).life = .live m d → d.writer.state ≠ .filling .s2) ∧
    ∃ y, ({ (ended .reset).begin.exch with outstanding := [] } : Exchange).Falls 0 e y ∧
      ∀ m d, (y.win .W0).life = .live m d → d.writer.state ≠ .filling .s2 := by
  refine ⟨fun s hs => ?_, ⟨_, .inr ⟨.W0, .s2, .active, _, _, rfl, rfl, rfl, rfl,
      .inr ⟨rfl, by decide, serves_of (m := .active) rfl (.inl ⟨.inl (by decide), rfl⟩)⟩⟩, fun m d h => ?_⟩,
    _, .inl ⟨.inr (.inr ⟨.W0, rfl, rfl⟩), rfl⟩, fun m d h => by cases h⟩
  · fin_cases hs <;> exact ⟨⟨rfl, links_empty (by decide)⟩, rfl, rfl, rfl⟩
  · cases h; decide

theorem witness_AutoCommitResult :
    (writing true).Quiet ∧ (writing true).memPort.state = .ready ∧
      ((writing true).exch.win .W0).eff.policy.autoCommit = true ∧ ((writing true).exch.win .W0).staged = .none ∧
      filling.writer.bytesWritten.toNat < geo.flen.toNat ∧ geo.flen.toNat ≤ filling.writer.bytesWritten.toNat + 4 ∧
      ((writing true).exch.ctx? .W0).any (fun c => c.writer.state = .filling .s2) = true :=
  ⟨⟨rfl, links_empty (by decide)⟩, rfl, rfl, rfl, by decide, by decide, rfl⟩

/-- The automatic commit of a DRAINING window's last frame, no reader waiting, by an access that had been held for carry. -/
theorem witness_AutoCommitResult_draining :
    let s := handed { writing true with exch := (writing true).exch.modWin .W0 fun u => { u with life := match u.life with
        | .live _ c => .live .draining c
        | .disabled => .disabled } } .A (.outstanding lastWrite true)
    let c0 : Context := { filling with writer := { filling.writer with bytesWritten := 4096 } }
    s.Quiet ∧ s.memPort.state = .ready ∧ (s.exch.port .A).hand = .outstanding lastWrite true ∧ s.exch.outstanding.length = 1 ∧
      (s.exch.win .W0).mode? = some .draining ∧ s.exch.carry.job? .W0 = none ∧ s.exch.CommitReady .W0 c0 .s2 :=
  ⟨⟨rfl, links_empty (by decide)⟩, rfl, rfl, rfl, rfl, rfl, commitReady_of (by decide) (by decide) (by decide)⟩

/-- The same with the frame's job in progress. -/
def writingCarried : State := { writing true with exch := { (writing true).exch with carry := (carrying 126).exch.carry } }

theorem witness_AutoCommitResult_job :
    writingCarried.Quiet ∧ writingCarried.memPort.state = .ready ∧ writingCarried.exch.carry.job? .W0 = some lastJob ∧
      (writingCarried.exch.win .W0).eff.policy.autoCommit = true ∧ writingCarried.exch.outstanding = (writing true).exch.outstanding :=
  ⟨⟨rfl, links_empty (by decide)⟩, rfl, rfl, rfl, rfl⟩

/-- B's outstanding read of the frame it holds, in a state whose window W0 has that context. -/
def readingIn (s : State) : State :=
  let e : Entry := { mem := payloadRequest geo .W0 .B .s0 (wordRead 0x00040020), discarded := false, timer := .stopped }
  handed (sent { s with exch := s.exch.modCtx .W0 fun c => c.modSlot .s0 fun sl => { sl with inFlight := 1 } } [e]) .B
    (.outstanding (wordRead 0x00040020) false)

def reading : State := readingIn (one (unit .active held))

/-- The same with the last word of the frame, under AUTO_RELEASE. -/
def releasingRead (s : State) : State :=
  let t := readingIn s
  { t with
    exch := t.exch.modWin .W0 fun u =>
      { u with
        eff := { u.eff with policy := { u.eff.policy with autoRelease := true } },
        life := match u.life with
          | .live m c => .live m (c.modReader .B fun b => { b with bytesRead := 4092 })
          | .disabled => .disabled } }

theorem witness_ReaderReadCompletes :
    reading.Quiet ∧ reading.memPort.state = .ready ∧ reading.exch.outstanding.length = 1 ∧
      (payloadRequest geo .W0 .B .s0 (wordRead 0x00040020)).kind = .readerRead ∧
      (reading.exch.port .B).hand = .outstanding (wordRead 0x00040020) false ∧
      (reading.exch.win .W0).eff.policy.autoRelease = false ∧ (Response.okay (some (.word 7))).wellFormed = true :=
  ⟨⟨rfl, links_empty (by decide)⟩, rfl, rfl, rfl, rfl, rfl, rfl⟩

/-- The read that releases, of a frame that stays, of one for whose slot the writer waits (with a payload access, or with a CONTROL
write, without and with carry), and of the last frame of a drain. -/
theorem witness_ReaderReadCompletes_release :
    (∀ s, s ∈ [one (unit .active held), giver firstWrite .none giving, giver control7 .none giving, giver control7 .fill giving,
        one (unit .draining finishing)] →
      (releasingRead s).Quiet ∧ (releasingRead s).memPort.state = .ready ∧ (releasingRead s).exch.outstanding.length = 1 ∧
        ((releasingRead s).exch.port .B).hand = .outstanding (wordRead 0x00040020) false ∧
        ((releasingRead s).exch.win .W0).eff.policy.autoRelease = true ∧
        ((releasingRead s).exch.ctx? .W0).any (fun c => (c.readers.get .B).any fun b =>
          b.state = .holding .s0 ∧ b.bytesRead.toNat < geo.flen.toNat ∧
            geo.flen.toNat ≤ b.bytesRead.toNat + Request.bytes (wordRead 0x00040020)) = true) ∧
    (∀ carry, carry = .none ∨ carry = .fill →
      let c1 := (waits giving).giveBack .stream .B .idle
      let x := (releasingRead (giver control7 carry giving)).begin.exch.modWin .W0 fun u => { u with life := .live .active c1 }
      ∃ y, ({ x with outstanding := [] } : Exchange).Serves 0 .W0 y) ∧
    (finishing.giveBack geo.delivery .B .idle).DrainMet geo.delivery := by
  refine ⟨fun s hs => ?_, fun carry hc => ?_, drainMet_of (by decide)⟩
  · fin_cases hs <;> exact ⟨⟨rfl, links_empty (by decide)⟩, rfl, rfl, rfl, rfl, by decide⟩
  · rcases hc with rfl | rfl <;>
      exact ⟨_, serves_of (m := .active) rfl (.inr ⟨control7, .s0, { slot .free (some 10) with pending := noPorts }, rfl,
        ⟨rfl, rfl, _, rfl⟩, slotFor_of (by decide), fun _ => commitReady_of (by decide) (by decide) (by decide), rfl⟩)⟩

/-- A read of slot 0 completes once its reader was evicted: the slot is RELEASING, and this was its last request. -/
theorem witness_ReaderReadCompletes_evicted :
    ∀ s, s ∈ [one (unit .active evictedCtx), giver firstWrite .none evictedCtx] →
      (readingIn s).Quiet ∧ (readingIn s).memPort.state = .ready ∧
        ((readingIn s).exch.ctx? .W0).any (fun c => (c.readers.get .B).any fun b => b.state ≠ .holding .s0) = true ∧
        ∃ e y, (readingIn s).exch.outstanding = [e] ∧ e.discarded = false ∧ e.mem.kind = .readerRead ∧
          ({ (readingIn s).begin.exch with outstanding := [] } : Exchange).Falls 0 e y := by
  intro s hs
  fin_cases hs
  · exact ⟨⟨rfl, links_empty (by decide)⟩, rfl, by decide, _, _, rfl, rfl, rfl, .inr ⟨.W0, .s0, .active, _, _, rfl, rfl, rfl, rfl,
      .inr ⟨rfl, by decide, serves_of (m := .active) rfl (.inl ⟨.inl (by decide), rfl⟩)⟩⟩⟩
  · exact ⟨⟨rfl, links_empty (by decide)⟩, rfl, by decide, _, _, rfl, rfl, rfl, .inr ⟨.W0, .s0, .active, _, _, rfl, rfl, rfl, rfl,
      .inr ⟨rfl, by decide, serves_of (m := .active) rfl (.inr ⟨firstWrite, .s0, { slot .free none with pending := noPorts }, rfl,
        ⟨rfl, rfl, _, rfl⟩, slotFor_of (by decide), fun h => absurd h (by decide), rfl⟩)⟩⟩⟩

/-- The commit of a waiting writer that an automatic release serves is answered before the read (R51, R55, R133). -/
theorem test_release_answers_the_commit_first :
    (match exec (.memoryResponse (.okay (some (.word 7)))) (releasingRead (waitingFor (wordWrite 0x0004000C 7) giving)) with
     | .next t => t.exch.answers
     | _ => []) = [(.A, .okay none), (.B, .okay (some (.word 7)))] := by decide

theorem witness_CarryBlockResult :
    ((carrying 126).Quiet ∧ (carrying 126).exch.outstanding = [carryEntry] ∧ (carrying 126).exch.carry.jobs = [lastJob] ∧
      (∀ h, ((carrying 126).exch.port .A).hand ≠ .held h) ∧ 126 + 1 < geo.flen.toNat / 32) ∧
    (carrying 127).Quiet ∧ ¬ 127 + 1 < geo.flen.toNat / 32 :=
  ⟨⟨⟨rfl, links_empty (by decide)⟩, rfl, rfl, fun _ h => (by cases h), by decide⟩, ⟨rfl, links_empty (by decide)⟩, by decide⟩

/-- The writer's access held for the job of `carrying`, at that block. -/
def carryHeld (pointer : Nat) (r : Request) (reason : HoldReason) : State :=
  handed (carrying pointer) .A (.held { req := r, window := .W0, reason := reason, stall := .stopped })

/-- A reset of a writer whose access is held for its FILL job; of a writer with a COPY job; of a reader whose give-back frees the slot
that the writer waits for; of a reader whose withdrawn read does; of a reader with a request outstanding whose give-back ends a
drain. In each the roles to end are those of W0 alone. -/
theorem witness_PortResetResult_ends :
    let r := wordRead 0x00040020
    let withdrawn := handed (giver firstWrite .none evictedCtx) .B (.presented r (payloadRequest geo .W0 .B .s0 r) false)
    let drains := handed (sent (one (unit .draining finishing)) [passEntry .B .stopped]) .B (.outstanding (wordRead 0x20) false)
    ∀ c, c ∈ [(carryHeld 126 firstWrite .carryBlock, Port.A), (copyCarrying 3 .write, .A), (giver firstWrite .none giving, .B),
        (withdrawn, .B), (drains, .B)] →
      c.1.resetAsserted = false ∧ c.1.Quiet ∧ (c.1.exch.port c.2).state = .active ∧
      ∃ x, (c.1.begin.exch.modPort c.2 fun u => { u with prst := true, state := .inReset }).HandEnds 0 c.2 x ∧
        (∀ w, w ∈ [Window.W0] ↔ x.RoleToEnd c.2 w) ∧
        ∃ z, Exchange.RolesEnd 0 c.2 [.W0]
          { x with raised := x.raised ++ [{ EventRecord.plain 0 .portReset with
              port := some c.2, detail := if (c.1.exch.port c.2).hand = .none then 0 else 1 }] } z := by
  intro r withdrawn drains c hc
  have roles : ∀ (x : Exchange) (p : Port), x.resetWindows p = [.W0] → ∀ w, w ∈ [Window.W0] ↔ x.RoleToEnd p w := fun x p h w => by
    rw [← h]; exact x.mem_resetWindows p w
  fin_cases hc
  · refine ⟨rfl, ⟨rfl, links_empty (by decide)⟩, rfl, _, rfl, roles _ _ (by decide), ?_⟩
    obtain ⟨z, hz⟩ := drainTested _ 0 .W0
    exact ⟨z, z, ⟨.active, _, rfl, by decide, .inr (.inl ⟨.s2, _, _, _, rfl, rfl, rfl,
      .inr ⟨_, rfl, fun _ h => (by cases h), rfl, rfl⟩, hz⟩)⟩, rfl⟩
  · refine ⟨rfl, ⟨rfl, links_empty (by decide)⟩, rfl, _, rfl, roles _ _ (by decide), ?_⟩
    obtain ⟨z, hz⟩ := drainTested _ 0 .W0
    exact ⟨z, z, ⟨.active, _, rfl, by decide, .inr (.inl ⟨.s2, _, _, _, rfl, rfl, rfl,
      .inr ⟨_, rfl, fun _ h => (by cases h; exact ⟨by decide, by decide⟩), rfl, rfl⟩, hz⟩)⟩, rfl⟩
  · refine ⟨rfl, ⟨rfl, links_empty (by decide)⟩, rfl, _, rfl, roles _ _ (by decide), ?_⟩
    exact ⟨_, _, ⟨.active, _, rfl, by decide, .inr (.inr ⟨_, by decide, rfl, rfl, .inl ⟨.s0, _, rfl,
      serves_of (m := .active) rfl (.inr ⟨firstWrite, .s0, { slot .free (some 10) with pending := noPorts }, rfl, ⟨rfl, rfl, _, rfl⟩,
        slotFor_of (by decide), fun h => absurd h (by decide), rfl⟩), (drainTested _ 0 .W0).choose_spec⟩⟩)⟩, rfl⟩
  · refine ⟨rfl, ⟨rfl, links_empty (by decide)⟩, rfl, _, .inr ⟨.W0, .s0, .active, _, _, rfl, rfl, rfl, rfl, .inr ⟨rfl, by decide,
      serves_of (m := .active) rfl (.inr ⟨firstWrite, .s0, { slot .free none with pending := noPorts }, rfl, ⟨rfl, rfl, _, rfl⟩,
        slotFor_of (by decide), fun h => absurd h (by decide), rfl⟩)⟩⟩, roles _ _ (by decide), ?_⟩
    exact ⟨_, _, ⟨.active, _, rfl, by decide, .inr (.inr ⟨_, by decide, rfl, rfl, .inr ⟨.inr rfl, rfl⟩⟩)⟩, rfl⟩
  · refine ⟨rfl, ⟨rfl, links_empty (by decide)⟩, rfl, _, rfl, roles _ _ (by decide), ?_⟩
    exact ⟨_, _, ⟨.draining, _, rfl, by decide, .inr (.inr ⟨_, by decide, rfl, rfl, .inl ⟨.s0, _, rfl,
      serves_of (m := .draining) rfl (.inl ⟨.inl (by decide), rfl⟩), (drainTested _ 0 .W0).choose_spec⟩⟩)⟩, rfl⟩

/-- A COPY block that is read, one that is written, the last one; accesses that the block that ends lets go or does not; a commit
held to the last block. -/
theorem witness_CarryBlockResult_cases :
    (∀ s, s ∈ [copyCarrying 3 .read, copyCarrying 3 .write, copyCarrying 127 .write, carryHeld 126 firstWrite .carryBlock,
        carryHeld 126 lastWrite .carryBlock, carryHeld 127 (wordWrite 0x0004000C 7) (.carryDone 7 false)] →
      s.Quiet ∧ s.memPort.state = .ready ∧ s.exch.outstanding.length = 1 ∧ s.exch.carry.jobs.length = 1 ∧
        s.exch.carry.order = []) ∧
    ((copyCarrying 3 .read).exch.carry.current = some { window := .W0, block := 3, phase := .read } ∧
      ((copyCarrying 3 .read).exch.ctx? .W0).any (fun c =>
        (c.slots.get .s0).any fun sl => sl.state = .retired && sl.carryRef) = true) ∧
    ((copyCarrying 127 .write).exch.carry.current = some { window := .W0, block := 127, phase := .write } ∧
      ¬127 + 1 < geo.flen.toNat / 32 ∧ 3 + 1 < geo.flen.toNat / 32) ∧
    (∀ b, b ∈ touchedBlocks (firstWrite.addr.toNat - (0x00040000 + 32)) (Request.bytes firstWrite) → b ≤ 126) ∧
    (∃ b, b ∈ touchedBlocks (lastWrite.addr.toNat - (0x00040000 + 32)) (Request.bytes lastWrite) ∧ 126 < b) ∧
    (∀ o b, filling.readers.get o = some b → b.state ≠ .waiting) ∧ SlotId.s0 ≠ .s2 := by
  refine ⟨fun s hs => ?_, ⟨rfl, by decide⟩, ⟨rfl, by decide, by decide⟩, by decide, ⟨127, by decide, by decide⟩,
    fun o b e => ?_, by decide⟩
  · fin_cases hs <;> exact ⟨⟨rfl, links_empty (by decide)⟩, rfl, rfl, rfl, rfl⟩
  · cases o <;> cases e <;> decide

/-- The block of W0 in progress at the front of the list, with a job of window W1 before its own. -/
def twoJobs (s : State) : State :=
  { s with exch := { s.exch with carry := { s.exch.carry with jobs := { lastJob with window := .W1 } :: s.exch.carry.jobs } } }

/-- The end of a block with another job in the queue: with nothing held, with an access that it lets go, and, at the last block of a
COPY job, with a held commit; and a block answered ERROR. -/
theorem witness_CarryBlockResult_general :
    let falls := fun (s : State) (ready : Exchange → Prop) => ∃ y, s.exch.outstanding.length = 1 ∧
      (∀ e, e ∈ s.exch.outstanding → ({ s.begin.exch with outstanding := [] } : Exchange).Falls 0 e y) ∧ ready y
    let ends := fun (b : Nat) (y : Exchange) =>
      y.carry.current = some { window := .W0, block := b, phase := .write } ∧ ∃ z, y.BlockEnds 0 .W0 b z
    let done := handed (copyCarrying 127 .write) .A
      (.held { req := control7, window := .W0, reason := .carryDone 7 false, stall := .stopped })
    (∀ s, s ∈ [twoJobs (carrying 126), twoJobs (carryHeld 126 firstWrite .carryBlock), twoJobs done] →
      s.Quiet ∧ s.memPort.state = .ready) ∧
    falls (twoJobs (carrying 126)) (ends 126) ∧ falls (twoJobs (carryHeld 126 firstWrite .carryBlock)) (ends 126) ∧
    falls (twoJobs done) (ends 127) ∧
    ∃ z, ({ (twoJobs (carrying 126)).begin.exch with outstanding := [] } : Exchange).Fails 0 carryEntry .response z := by
  intro falls ends done
  have touched : ∀ n, n ∈ touchedBlocks (firstWrite.addr.toNat - (geo.lbase.toNat + 32)) (Request.bytes firstWrite) →
      n < (lastJob.blockDone 126).pointer := by decide
  have lowered : ∀ s : State, s.exch.outstanding = [carryEntry] → ∀ y,
      ({ s.begin.exch with outstanding := [] } : Exchange).Falls 0 carryEntry y →
      ∀ e, e ∈ s.exch.outstanding → ({ s.begin.exch with outstanding := [] } : Exchange).Falls 0 e y := by
    intro s hs y hy e he
    rw [hs] at he
    obtain rfl := List.mem_singleton.mp he
    exact hy
  refine ⟨fun s hs => ?_, ⟨_, rfl, lowered _ rfl _ (.inr ⟨.W0, .s2, .active, _, _, rfl, rfl, rfl, rfl, .inl ⟨by decide, rfl⟩⟩), rfl, _,
      [_], lastJob, [], .active, _, _, rfl, rfl, by decide, rfl, rfl, fun _ h => (by cases h), .inl ⟨fun _ h => (by cases h), rfl⟩⟩,
    ⟨_, rfl, lowered _ rfl _ (.inr ⟨.W0, .s2, .active, _, _, rfl, rfl, rfl, rfl, .inl ⟨by decide, rfl⟩⟩), rfl, _,
      [_], lastJob, [], .active, _, _, rfl, rfl, by decide, rfl, rfl, fun _ h => (by cases h),
      .inr (.inl ⟨firstWrite, .stopped, rfl, fun n h => .inl (touched n h), rfl⟩)⟩,
    ⟨_, rfl, lowered _ rfl _ (.inr ⟨.W0, .s2, .active, _, _, rfl, rfl, rfl, rfl, .inl ⟨by decide, rfl⟩⟩), rfl, _,
      [_], { lastJob with work := .copy .s0, pointer := 127 }, [], .active, _, _, rfl, rfl, by decide, rfl, rfl,
      fun _ h => (by cases h; exact ⟨by decide, by decide⟩),
      .inr (.inr ⟨control7, 7, false, .stopped, by decide, rfl, commitReady_of (by decide) (by decide) (by decide),
        (Exchange.drainTest_iff _ 0 .W0 _).mpr rfl⟩)⟩,
    _, _, .inr ⟨.W0, .s2, .active, _, _, rfl, rfl, rfl, rfl, .inl ⟨by decide, rfl⟩⟩,
    .inr ⟨rfl, .W0, 126, .write, lastJob, .active, _, _, rfl, rfl, rfl, rfl, rfl, rfl,
      [_], lastJob, [], .active, _, _, rfl, rfl, by decide, rfl, rfl, fun _ h => (by cases h), .inl ⟨fun _ h => (by cases h), rfl⟩⟩⟩
  fin_cases hs <;> exact ⟨⟨rfl, links_empty (by decide)⟩, rfl⟩

/-- Of two requests outstanding, the second is due. -/
theorem witness_ResponseTimeoutResult_several :
    let s := sent .reset [passEntry .C .stopped, passEntry .B (.running 0)]
    s.Quiet ∧ s.memPort.state = .ready ∧ s.exch.outstanding[(1 : Fin 4).val]? = some (passEntry .B (.running 0)) ∧
      (passEntry .B (.running 0)).timer.due = true ∧
      ∀ f, f ∈ s.exch.outstanding → f.discarded = false ∧ f.mem.kind = .passThrough ∧ f.mem.window = none ∧
        f.mem.slot = none ∧ f.mem.origin ≠ .carry :=
  ⟨⟨rfl, links_empty (by decide)⟩, rfl, rfl, rfl, by decide⟩

/-- The list holds a payload write of the FILLING frame and a block of a job, and the write is due. -/
theorem witness_ResponseTimeoutResult_all :
    let e : Entry := { mem := payloadRequest geo .W0 .A .s2 lastWrite, discarded := false, timer := .running 0 }
    let s := handed (sent (carrying 126) [e, carryEntry]) .A (.outstanding lastWrite false)
    s.Quiet ∧ s.resetAsserted = false ∧ s.memPort.state = .ready ∧ s.exch.outstanding[(0 : Fin 4).val]? = some e ∧
      e.timer.due = true ∧
      ∃ y, Exchange.AllFail 0 s.exch.outstanding.length { s.begin.exch with
        raised := [{ s.exch.failureRecord 0 e .timeout with kind := .memoryTimeout, seq := 0 }] } y :=
  ⟨⟨rfl, links_empty (by decide)⟩, rfl, rfl, rfl, rfl, _, _, _, _, rfl,
    ⟨_, .inr ⟨.W0, .s2, .active, _, _, rfl, rfl, rfl, rfl, .inl ⟨by decide, rfl⟩⟩,
      .inr ⟨rfl, .inr ⟨.W0, .s2, .active, _, _, _, _, .inr rfl, rfl, rfl, rfl, rfl, rfl, rfl, rfl, rfl⟩⟩⟩,
    _, _, _, rfl,
    ⟨_, .inr ⟨.W0, .s2, .active, _, _, rfl, rfl, rfl, rfl, .inl ⟨by decide, rfl⟩⟩,
      .inr ⟨rfl, .W0, 126, .write, lastJob, .active, _, _, rfl, rfl, rfl, rfl, rfl, rfl,
        [], lastJob, [], .active, _, _, rfl, rfl, by decide, rfl, rfl, fun _ h => (by cases h),
        .inl ⟨fun _ h => (by cases h), rfl⟩⟩⟩, rfl⟩

theorem witness_ResponseTimeoutResult :
    let s := handed (sent .reset [passEntry .B (.running 0)]) .B (.outstanding (wordRead 0x20) false)
    (s.Quiet ∧ s.resetAsserted = false ∧ s.memPort.state = .ready ∧
      s.exch.outstanding[(0 : Fin 4).val]? = some (passEntry .B (.running 0)) ∧
      (passEntry .B (.running 0)).timer.due = true) ∧
    (passEntry .B (.running 1)).timer.due = false ∧ (passEntry .B .stopped).timer.due = false :=
  ⟨⟨⟨rfl, links_empty (by decide)⟩, rfl, rfl, rfl, rfl⟩, rfl, rfl⟩

theorem witness_RecoveryResult :
    let fault : State := { framed .reset frame with memPort := { MemPort.reset with state := .fault } }
    let last : State := { State.reset with memPort := { MemPort.reset with state := .recovering, pulse := .running 0 } }
    (fault.Settled ∧ fault.awaits frame ∧ fault.memPort.state = .fault) ∧
    ((framed .reset frame).Settled ∧ (framed .reset frame).awaits frame ∧ (framed .reset frame).memPort.state ≠ .fault) ∧
    (last.Settled ∧ last.memPort.state = .recovering ∧ last.memPort.pulse.due = true) ∧
    (Timer.running 1).due = false :=
  ⟨⟨⟨rfl, by decide⟩, awaits_of _, rfl⟩, ⟨⟨rfl, by decide⟩, awaits_of _, by decide⟩, ⟨⟨rfl, by decide⟩, rfl, rfl⟩, rfl⟩

/-! #### The timers of the exchange -/

/-- The FILLING window with its fill timer due. -/
def fillDue : Context := filling.modWriter fun b => { b with fillTimer := .running 0 }

theorem witness_FillExpiryResult :
    ((one (unit .active fillDue)).Settled ∧ ((one (unit .active fillDue)).exch.win .W0).life = .live .active fillDue ∧
      fillDue.writer.fillTimer.due = true ∧ fillDue.writer.state = .filling .s2 ∧ (fillDue.slots.get .s2).isSome = true ∧
      SlotId.s2 ∉ fillDue.ready ∧ (one (unit .active fillDue)).exch.carry.job? .W0 = none) ∧
    filling.writer.fillTimer.due = false ∧ (Context.start geo).writer.state = .noSlot :=
  ⟨⟨⟨rfl, by decide⟩, rfl, rfl, rfl, rfl, by decide, rfl⟩, rfl, rfl⟩

/-- The fill timer is due while the frame has a job, a FILL one or a COPY one. -/
theorem witness_FillExpiryResult_job :
    ∀ s, s ∈ [carrying 126, copyCarrying 3 .write] →
      let t : State := { s with exch := s.exch.modCtx .W0 fun c => c.modWriter fun b => { b with fillTimer := .running 0 } }
      t.Settled ∧ (t.exch.ctx? .W0).any (fun c => c.writer.fillTimer.due && c.writer.state = .filling .s2) = true ∧
        (t.exch.carry.job? .W0).any (fun j => j.work = .fill 7 ∨ j.work = .copy .s0) = true := by
  intro s hs
  fin_cases hs <;> exact ⟨⟨rfl, by decide⟩, by decide, by decide⟩

/-- The fill timer is due in a DRAINING window. -/
theorem witness_FillExpiryResult_draining :
    let s := one (unit .draining fillDue)
    s.Quiet ∧ (s.exch.win .W0).life = .live .draining fillDue ∧ fillDue.writer.fillTimer.due = true ∧
      fillDue.writer.state = .filling .s2 ∧ s.exch.carry.job? .W0 = none ∧
      ∀ sl, fillDue.slots.get .s2 = some sl → (fillDue.afterAbandon .s2 sl).DrainMet .stream := by
  refine ⟨⟨rfl, links_empty (by decide)⟩, rfl, rfl, rfl, rfl, fun sl h => ?_⟩
  obtain rfl := Option.some.inj h
  exact drainMet_of (by decide)

/-- B's hold timer is due while the writer waits, and while the window drains. -/
theorem witness_HoldExpiryResult_gives :
    (∀ s, s ∈ one (unit .draining finishing) :: givers → s.Quiet ∧ s.resetAsserted = false ∧
      (s.exch.win .W0).geom.implicitAcquire = false ∧
      (s.exch.ctx? .W0).any (fun c => (c.readers.get .B).any fun b => b.holdTimer.due && b.state = .holding .s0) = true) ∧
    (∀ s, s ∈ givers → ∃ c y, (s.exch.win .W0).life = .live .active c ∧
      (s.begin.exch.modWin .W0 fun u => { u with life := .live .active (c.giveBack geo.delivery .B .evicted) }).Serves 0 .W0 y) ∧
    (finishing.giveBack geo.delivery .B .evicted).DrainMet geo.delivery := by
  refine ⟨fun s hs => ?_, fun s hs => ?_, drainMet_of (by decide)⟩
  · fin_cases hs <;> exact ⟨⟨rfl, links_empty (by decide)⟩, rfl, rfl, by decide⟩
  · obtain ⟨c, hl, -, y, hy⟩ := serves_givers .evicted (.inr rfl) s hs
    exact ⟨c, y, hl, hy⟩

theorem witness_HoldExpiryResult :
    let b := { ReaderBinding.start with state := .holding .s0, lastSeq := 10, holdTimer := .running 0 }
    ((withB b).Quiet ∧ ((withB b).exch.win .W0).life = .live .active (held.setReader .B b) ∧ b.holdTimer.due = true ∧
      b.state = .holding .s0 ∧ (held.slots.get .s0).isSome = true ∧ held.writer.state ≠ .waiting) ∧
    (one (unit .active held)).Quiet ∧ (Timer.running 5).due = false :=
  ⟨⟨⟨rfl, links_empty (by decide)⟩, rfl, rfl, rfl, rfl, by decide⟩, ⟨rfl, links_empty (by decide)⟩, rfl⟩

/-- A held access of window W0 with that reason and a stall timer that is due. -/
def heldAccess (reason : HoldReason) : Held :=
  { req := wordRead 0x00040020, window := .W0, reason := reason, stall := .running 0 }

theorem witness_StallExpiryResult :
    let s1 := handed (one (unit .active (full.modWriter fun b => { b with state := .waiting }))) .A (.held (heldAccess .slot))
    let s2 := handed (withC { ReaderBinding.start with state := .waiting } true .wait (.start geo)) .C
      (.held (heldAccess .frame))
    (s1.Quiet ∧ (s1.exch.port .A).hand = .held (heldAccess .slot) ∧ (heldAccess .slot).stall.due = true) ∧
    (s2.Quiet ∧ (s2.exch.port .C).hand = .held (heldAccess .frame) ∧
      ((s2.exch.ctx? .W0).bind fun c => c.readers.get .C) = some { ReaderBinding.start with state := .waiting }) ∧
    (Timer.running 1).due = false :=
  ⟨⟨⟨rfl, links_empty (by decide)⟩, rfl, rfl⟩, ⟨⟨rfl, links_empty (by decide)⟩, rfl, rfl⟩, rfl⟩

/-! #### The management port -/

/-- A frame whose command is taken, with the last of its three response bytes to go. -/
def answered : FrameState :=
  { frame with code := some 0x20, taken := true, response := [0x00, 0x01, 0x1F], position := 2 }

theorem witness_SpiFrameResult :
    (State.reset.Settled ∧ State.reset.mgmt.frame = .closed ∧ State.reset.resetAsserted = false) ∧
    (State.reset.pinReset.Settled ∧ State.reset.pinReset.mgmt.frame = .closed ∧ State.reset.pinReset.resetAsserted = true) ∧
    ((framed .reset frame).Settled ∧ (framed .reset frame).awaits frame ∧ (0x39 : Byte) ∉ commandCodes) ∧
    (∀ f, f ∈ [answered, { answered with position := 3 }] →
      (framed .reset f).mgmt.frame = .running f ∧ f.taken = true ∧ f.todo = .nothing) ∧
    (answered.response[answered.position]? = some 0x1F ∧ answered.response.length ≤ 3) ∧
    (framed .reset frame).mgmt.frame = .running frame ∧ frame.taken = false :=
  ⟨⟨⟨rfl, by decide⟩, rfl, rfl⟩, ⟨⟨rfl, by decide⟩, rfl, rfl⟩, ⟨⟨rfl, by decide⟩, awaits_of _, by decide⟩,
    by decide, ⟨rfl, by decide⟩, rfl, rfl⟩

/-- DRAIN of window W0 byte by byte: code, then argument, after which the response's status is on MISO (R154, R155). -/
theorem test_drain_byte_by_byte :
    (match exec (.spiFrameStart (.byte 0x11)) (framed (one fresh) frame) with
     | .next t => match exec (.spiFrameStart (.byte 0x00)) t with
       | .next u => [t.miso, u.miso, if (u.exch.win .W0).life = .disabled then some 1 else none]
       | _ => []
     | _ => []) = [some 0xFF, some 0x00, some 1] := by decide

theorem witness_RegisterFrameResult :
    let reading := { answered with todo := .registers 0xFF 1 }
    ((framed .reset frame).Settled ∧ (framed .reset frame).awaits frame) ∧
    (1 ≤ (64 : Byte).toNat ∧ (64 : Byte).toNat ≤ 64 ∧ (0xC0 : Byte).toNat + (64 : Byte).toNat ≤ 256) ∧
    (256 < (0xC1 : Byte).toNat + (64 : Byte).toNat ∧ 64 < (65 : Byte).toNat ∧ (0 : Byte).toNat = 0) ∧
    ((0 : Byte).toNat < (1 : Byte).toNat ∧ ∃ t, exec (.writeRegisters ⟨0xFF, 1, []⟩) (framed .reset frame) = .next t) ∧
    ((framed .reset reading).mgmt.frame = .running reading ∧ reading.taken = true ∧
      reading.todo = .registers 0xFF (0 + 1) ∧ reading.position ≤ reading.response.length) ∧
    ({ reading with position := 3 } : FrameState).position = reading.response.length :=
  ⟨⟨⟨rfl, by decide⟩, awaits_of _⟩, by decide, by decide, ⟨by decide, _, rfl⟩, ⟨rfl, rfl, rfl, by decide⟩, rfl⟩

/-- A WRITE REGISTERS frame that waits for the data of so many registers from that address. -/
def writeFrame (next count : Nat) : FrameState :=
  { frame with code := some 0x02, args := [BitVec.ofNat 8 next, BitVec.ofNat 8 count], todo := .writes next count false }

theorem witness_RegisterWriteResult :
    (framed (one fresh) (writeFrame 0x83 1)).Settled ∧
      (framed (one fresh) (writeFrame 0x83 1)).mgmt.frame = .running (writeFrame 0x83 1) ∧
      ((writeFrame 0x83 1).code = some 0x02 ∧ (writeFrame 0x83 1).taken = false ∧ (writeFrame 0x83 1).args.length = 2) ∧
      ((writeFrame 0x83 1).todo = .writes 0x83 (0 + 1) false ∧ (writeFrame 0xF7 2).todo = .writes 0xF7 (1 + 1) false) ∧
      0x83 = 0x80 + 16 * Window.number .W0 + LockedReg.offset .geom ∧
      0xF7 = 0x80 + 16 * Window.number .W7 + StagedReg.offset .timersB ∧
      ((0x83 : Byte).toNat = 0x83 ∧ 0x08 + 8 * 0 < 0x80 ∧ 8 ≤ 0xFF % 16) ∧
      bytesOf 0x01020304 = [0x01, 0x02, 0x03] ++ 0x04 :: [] ∧ bytesOf 0x01020304 = [] ++ 0x01 :: [0x02, 0x03, 0x04] ∧
      ((one fresh).exch.win .W0).life ≠ .disabled ∧ ((one fresh).exch.win .W7).life = .disabled :=
  ⟨⟨rfl, by decide⟩, rfl, ⟨rfl, rfl, rfl⟩, ⟨rfl, rfl⟩, rfl, rfl, by decide, by decide, by decide, by decide, rfl⟩

/-- The next register is one of the global settings; the byte of its address, and of another. -/
theorem witness_RegisterWriteResult_settings :
    ∀ a, a ∈ [(0x00 : Byte), 0x01, 0x02] →
      let g := writeFrame a.toNat 1
      (framed .reset g).Settled ∧ (framed .reset g).mgmt.frame = .running g ∧ g.code = some 0x02 ∧ g.taken = false ∧
        g.args.length = 2 ∧ g.todo = .writes a.toNat (0 + 1) false ∧ (0x03 : Byte).toNat ≠ a.toNat := by
  intro a ha
  fin_cases ha <;> exact ⟨⟨rfl, by decide⟩, rfl, rfl, rfl, rfl, rfl, by decide⟩

/-- Window W1 with the descriptor of chapter 6's third attempt, DISABLED. -/
def programmed : State :=
  { one fresh with
    exch := (one fresh).exch.modWin .W1 fun u =>
      { u with geom :=
          { geo with lbase := 0x00041020, flen := 2048, sbase := 0x00103000, slots := 4, delivery := .latest } } }

theorem witness_EnableResult :
    (framed programmed frame).Settled ∧ (framed programmed frame).awaits frame ∧
    (8 ≤ (8 : Byte).toNat ∧ 2 ≤ (2 : Byte).toNat ∧ (1 : Byte).toNat = Window.number .W1) ∧
    (programmed.exch.win .W0).life ≠ .disabled ∧ (programmed.exch.win .W1).life = .disabled ∧
    configReason programmed.exch.windows .W2 = some 0x01 ∧ configReason programmed.exch.windows .W1 = none ∧
    programmed.exch.attributed .W1 = false ∧
    (sent programmed [{ carryEntry with mem := { carryEntry.mem with window := some .W1 } }]).exch.attributed .W1 = true :=
  ⟨⟨rfl, by decide⟩, awaits_of _, by decide, by decide, rfl, by decide, by decide, by decide, by decide⟩

theorem witness_WindowsAreDisabled :
    ((framed (one fresh) frame).Quiet ∧ (framed (one fresh) frame).awaits frame ∧ (0 : Byte).toNat = Window.number .W0 ∧
      8 ≤ (8 : Byte).toNat ∧ ((one fresh).exch.win .W1).mode? ≠ some .active ∧ ((one fresh).exch.win .W1).life = .disabled) ∧
    (((one fresh).exch.win .W0).life = .live .active (.start geo) ∧ (Context.start geo).writer.state ≠ .waiting ∧
      (Context.start geo).DrainMet .stream ∧ ¬held.DrainMet .stream ∧ held.writer.state ≠ .waiting) ∧
    ((framed (waitingWriter full) frame).Quiet ∧ ¬full.DrainMet .stream ∧ releasing.DrainMet .stream ∧
      ((waitingWriter full).exch.ctx? .W0).any (fun c => c.writer.state = .waiting) = true ∧
      ((waitingWriter full).exch.port .A).hand =
        .held { req := firstWrite, window := .W0, reason := .slot, stall := .running 3 }) ∧
    ((framed waitingReader frame).Quiet ∧ (waitingReader.exch.win .W0).staged ≠ .none ∧
      (waitingReader.exch.port .C).heldFor .W0 = true) ∧
    (framed (carrying 126) frame).Quiet ∧
    (∀ j, j ∈ (carrying 126).exch.carry.jobs → ((carrying 126).exch.win j.window).life ≠ .disabled) ∧
    (∀ d, d ∈ (carrying 126).exch.carry.order → (carrying 126).exch.carry.job? d.1 ≠ none) ∧
    (∀ cur, (carrying 126).exch.carry.current = some cur → (carrying 126).exch.carry.job? cur.window ≠ none) :=
  ⟨⟨⟨rfl, links_empty (by decide)⟩, awaits_of _, rfl, by decide, by decide, rfl⟩,
    ⟨rfl, by decide, drainMet_of (by decide), not_drainMet_of (by decide), by decide⟩,
    ⟨⟨rfl, links_empty (by decide)⟩, not_drainMet_of (by decide), drainMet_of (by decide), by decide, rfl⟩,
    ⟨⟨rfl, links_empty (by decide)⟩, by decide, rfl⟩, ⟨rfl, links_empty (by decide)⟩, by decide, by decide,
    fun cur h => by obtain rfl := Option.some.inj h; decide⟩

theorem witness_SnapshotResult :
    let full : State := { framed .reset frame with mgmt := { frame := .running frame, snapshot := some [1] } }
    let sending : FrameState := { answered with todo := .snapshot }
    ((framed .reset frame).Settled ∧ (framed .reset frame).awaits frame ∧ (framed .reset frame).mgmt.snapshot = none) ∧
    (full.Settled ∧ full.awaits frame ∧ full.mgmt.snapshot ≠ none) ∧
    ((7 : Byte).toNat = Window.number .W7 ∧ 8 ≤ (8 : Byte).toNat) ∧
    ((framed full sending).Settled ∧ (framed full sending).mgmt.frame = .running sending ∧ sending.taken = true ∧
      sending.todo = .snapshot ∧ sending.position + 1 = sending.response.length) ∧
    ({ sending with position := 1 } : FrameState).position + 1 < sending.response.length :=
  ⟨⟨⟨rfl, by decide⟩, awaits_of _, rfl⟩, ⟨⟨rfl, by decide⟩, ⟨rfl, rfl, rfl, rfl, rfl⟩, by decide⟩, by decide,
    ⟨⟨rfl, by decide⟩, rfl, rfl, rfl, rfl⟩, by decide⟩

theorem witness_EventReadResult :
    let s := framed losing frame
    let first : FrameState := { answered with todo := .records 1 false, position := 3 }
    let last : FrameState := { answered with todo := .records 1 true }
    (s.Settled ∧ s.awaits frame ∧ s.events.queue ≠ []) ∧ ((framed .reset frame).Settled ∧ (framed .reset frame).events.queue = []) ∧
    (1 ≤ (8 : Byte).toNat ∧ (8 : Byte).toNat ≤ 8 ∧ 8 < (9 : Byte).toNat ∧ (0 : Byte).toNat = 0) ∧
    ((framed losing first).mgmt.frame = .running first ∧ first.taken = true ∧ first.todo = .records (0 + 1) false ∧
      first.position = first.response.length) ∧
    ((framed losing last).mgmt.frame = .running last ∧ last.taken = true ∧ last.todo = .records (0 + 1) true ∧
      last.position + 1 = last.response.length ∧
      ({ last with position := 1 } : FrameState).position + 1 < last.response.length) ∧
    losing.events.queue = EventRecord.plain 0 .portReset :: List.replicate 31 (EventRecord.plain 0 .portReset) :=
  ⟨⟨⟨rfl, by decide⟩, awaits_of _, by decide⟩, ⟨⟨rfl, by decide⟩, rfl⟩, by decide, ⟨rfl, rfl, rfl, rfl⟩,
    ⟨rfl, rfl, rfl, rfl, by decide⟩, rfl⟩

theorem witness_ClearCountersResult :
    (framed (one fresh) frame).Settled ∧ (framed (one fresh) frame).awaits frame ∧ (7 : Byte).toNat = Window.number .W7 ∧
      8 ≤ (0xFE : Byte).toNat ∧ (0xFE : Byte) ≠ 0xFF :=
  ⟨⟨rfl, by decide⟩, awaits_of _, rfl, by decide, by decide⟩

end Sys2Proof.Tests
end

section
/-!
The blocks an access touches (R7): which they are and how many, for any stretch of payload bytes; what a descriptor that passes
R102 and a well-formed request of R119 say about that stretch; and the statement put together from them.
-/

namespace Sys2Proof.Machine

/-! ### The blocks of a stretch of payload bytes -/

theorem mem_touchedBlocks {x n b : Nat} :
    b ∈ touchedBlocks x n ↔ x / 32 ≤ b ∧ b < x / 32 + ((x + n - 1) / 32 - x / 32 + 1) :=
  List.mem_range'_1

/-- Byte i of the stretch that shows b is touched is its first byte, or the first byte of b where the stretch begins before b. -/
theorem mem_touchedBlocks_iff_holds_byte {x n : Nat} (hn : 0 < n) (b : Nat) :
    b ∈ touchedBlocks x n ↔ ∃ i, i < n ∧ 32 * b ≤ x + i ∧ x + i ≤ 32 * b + 31 := by
  rw [mem_touchedBlocks]
  constructor
  · rintro ⟨hfirst, hlast⟩
    exact ⟨32 * b - x, by omega, by omega, by omega⟩
  · rintro ⟨i, hi, hlow, hhigh⟩
    omega

theorem touchedBlocks_eq_singleton {x n : Nat} (h : (x + n - 1) / 32 = x / 32) : touchedBlocks x n = [x / 32] := by
  change List.range' (x / 32) ((x + n - 1) / 32 - x / 32 + 1) = [x / 32]
  rw [h, Nat.sub_self]
  rfl

theorem touchedBlocks_eq_pair {x n : Nat} (h : (x + n - 1) / 32 = x / 32 + 1) :
    touchedBlocks x n = [x / 32, x / 32 + 1] := by
  change List.range' (x / 32) ((x + n - 1) / 32 - x / 32 + 1) = [x / 32, x / 32 + 1]
  rw [h, Nat.add_sub_cancel_left]
  rfl

/-- A stretch no longer than a block crosses at most one block boundary. -/
theorem touchedBlocks_of_le_block {x n : Nat} (hn : 0 < n) (hle : n ≤ 32) :
    touchedBlocks x n = [x / 32] ∨ touchedBlocks x n = [x / 32, x / 32 + 1] := by
  have hends : (x + n - 1) / 32 = x / 32 ∨ (x + n - 1) / 32 = x / 32 + 1 := by omega
  exact hends.imp touchedBlocks_eq_singleton touchedBlocks_eq_pair

/-- A stretch aligned to its own length, a divisor of the block length, crosses no block boundary. -/
theorem touchedBlocks_of_aligned {x n : Nat} (hn : n ∣ 32) (hx : n ∣ x) : touchedBlocks x n = [x / 32] := by
  obtain ⟨m, hm⟩ := hn
  have hpos : 0 < n := Nat.pos_of_dvd_of_pos ⟨m, hm⟩ (by decide)
  have hlast : (x + n - 1) / n = x / n := by
    rw [Nat.add_sub_assoc hpos, Nat.add_div_of_dvd_right hx, Nat.div_eq_of_lt (Nat.sub_lt hpos Nat.one_pos), Nat.add_zero]
  refine touchedBlocks_eq_singleton ?_
  rw [hm, ← Nat.div_div_eq_div_mul, ← Nat.div_div_eq_div_mul, hlast]

/-! ### What the checks of R102 say of a descriptor -/

/-- Checks 1 and 5 of R102: the length of a frame, and where the payload begins. -/
theorem Geometry.flen_lbase_of_reason_none {g : Geometry} (h : g.reason = none) :
    g.flen.toNat % 32 = 0 ∧ 64 ≤ g.flen.toNat ∧ g.flen.toNat ≤ 1048576 ∧ g.lbase.toNat % 32 = 0 := by
  simp [Geometry.reason, ite_eq_iff] at h
  omega

theorem Geometry.blocks_mul_blockBytes {g : Geometry} (h : g.reason = none) : g.blocks * 32 = g.flen.toNat :=
  Nat.div_mul_cancel (Nat.dvd_of_mod_eq_zero (Geometry.flen_lbase_of_reason_none h).1)

theorem Geometry.blocks_bounds {g : Geometry} (h : g.reason = none) : 2 ≤ g.blocks ∧ g.blocks ≤ 32768 := by
  have hblocks := Geometry.blocks_mul_blockBytes h
  obtain ⟨-, hmin, hmax, -⟩ := Geometry.flen_lbase_of_reason_none h
  omega

theorem Geometry.inPayload_iff {g : Geometry} {a : Nat} :
    g.inPayload a = true ↔ g.lbase.toNat + 32 ≤ a ∧ a < g.lbase.toNat + 32 + g.flen.toNat := by
  unfold Geometry.inPayload
  rw [Bool.and_eq_true, decide_eq_true_eq, decide_eq_true_eq]
  rfl

theorem Geometry.payloadOffset_eq (g : Geometry) (a : Word) : g.payloadOffset a = a.toNat - (g.lbase.toNat + 32) := rfl

/-- Byte i of a request that lies in the payload is the payload byte i places after that of its address (R6). -/
theorem Geometry.payloadOffset_add_lt {g : Geometry} {a : Word} {i : Nat} (h0 : g.inPayload a.toNat = true)
    (hi : g.inPayload (a.toNat + i) = true) : g.payloadOffset a + i < g.flen.toNat := by
  rw [Geometry.inPayload_iff] at h0 hi
  rw [Geometry.payloadOffset_eq]
  omega

/-- The payload begins at a multiple of 32, so a payload byte has the alignment of its address. -/
theorem Geometry.dvd_payloadOffset {g : Geometry} {a : Word} {n : Nat} (h : g.reason = none) (hn : n ∣ 32)
    (ha : n ∣ a.toNat) : n ∣ g.payloadOffset a := by
  obtain ⟨-, -, -, hlbase⟩ := Geometry.flen_lbase_of_reason_none h
  exact Nat.dvd_sub ha ((hn.trans (Nat.dvd_of_mod_eq_zero hlbase)).add hn)

/-! ### The bytes of a request -/

/-- A well-formed size has a byte and fits a block: the longest burst is 8 words (R119). -/
theorem Size.bytes_bounds {z : Size} (h : z.wellFormed = true) : 0 < Size.bytes z ∧ Size.bytes z ≤ 32 := by
  cases z with
  | byte => decide
  | half => decide
  | word => decide
  | burst n =>
    simp only [Size.wellFormed, Bool.and_eq_true, decide_eq_true_eq] at h
    simp only [Size.bytes]
    omega

/-- Only a burst is longer than the unit it is aligned to, and the unit divides the block (R121). -/
theorem Size.bytes_eq_unit_or_burst (z : Size) : Size.bytes z = Size.unit z ∧ Size.unit z ∣ 32 ∨ ∃ n, z = .burst n := by
  cases z with
  | byte => exact .inl ⟨rfl, by decide⟩
  | half => exact .inl ⟨rfl, by decide⟩
  | word => exact .inl ⟨rfl, by decide⟩
  | burst n => exact .inr ⟨n, rfl⟩

theorem Request.unit_dvd_addr {r : Request} (h : Request.aligned r = true) : Size.unit r.access.size ∣ r.addr.toNat := by
  simp only [Request.aligned, Bool.and_eq_true, decide_eq_true_eq] at h
  exact Nat.dvd_of_mod_eq_zero h.1

/-! ### The blocks of a payload access -/

theorem touchedBlocks_lt_blocks {g : Geometry} {r : Request} (hg : g.reason = none) (hpos : 0 < Request.bytes r)
    (hin : ∀ i, i < Request.bytes r → g.inPayload (r.addr.toNat + i) = true) {b : Nat}
    (hb : b ∈ touchedBlocks (g.payloadOffset r.addr) (Request.bytes r)) : b < g.blocks := by
  obtain ⟨i, hi, hlow, -⟩ := (mem_touchedBlocks_iff_holds_byte hpos b).mp hb
  have hbyte : g.payloadOffset r.addr + i < g.flen.toNat := Geometry.payloadOffset_add_lt (hin 0 hpos) (hin i hi)
  have hblocks := Geometry.blocks_mul_blockBytes hg
  omega

theorem touchedBlocks_one_or_burst_pair {g : Geometry} {r : Request} (hg : g.reason = none) (hw : r.wellFormed = true)
    (ha : Request.aligned r = true) :
    ∃ b, touchedBlocks (g.payloadOffset r.addr) (Request.bytes r) = [b] ∨
      touchedBlocks (g.payloadOffset r.addr) (Request.bytes r) = [b, b + 1] ∧ ∃ n, r.access.size = .burst n := by
  refine ⟨g.payloadOffset r.addr / 32, ?_⟩
  obtain ⟨hunit, hblock⟩ | hburst := Size.bytes_eq_unit_or_burst r.access.size
  · left
    rw [Request.bytes, hunit]
    exact touchedBlocks_of_aligned hblock (Geometry.dvd_payloadOffset hg hblock (Request.unit_dvd_addr ha))
  · obtain ⟨hpos, hle⟩ := Size.bytes_bounds hw
    exact (touchedBlocks_of_le_block hpos hle).imp_right fun hpair => ⟨hpair, hburst⟩

/-- Settles O22: a stretch of bytes touches the blocks that hold one of its bytes; alignment keeps a BYTE, HALF or WORD in one
block, and a burst is no longer than a block. -/
theorem blocksOfAnAccess : Obligations.BlocksOfAnAccess := by
  refine ⟨fun g hg => ?_, fun g r hg hw ha hin => ?_⟩
  · obtain ⟨hmin, hmax⟩ := Geometry.blocks_bounds hg
    exact ⟨hmin, hmax, Geometry.blocks_mul_blockBytes hg⟩
  · have hpos : 0 < Request.bytes r := (Size.bytes_bounds hw).1
    exact ⟨mem_touchedBlocks_iff_holds_byte hpos, fun b => touchedBlocks_lt_blocks hg hpos hin,
      touchedBlocks_one_or_burst_pair hg hw ha⟩

end Sys2Proof.Machine
end

section
/-!
The refusal for ALIGN (R121): what a refusal by the classifier leaves of the state; which classes can carry the cause ALIGN; the
window that the record names; and the statement put together from them.
-/

namespace Sys2Proof.Machine

/-! ### The two tests of R121 -/

theorem Request.aligned_eq_false_iff {r : Request} :
    Request.aligned r = false ↔
      r.addr.toNat % Size.unit r.access.size ≠ 0 ∨ r.addr.toNat + Request.bytes r > 0x100000000 := by
  simp only [Request.aligned, Bool.and_eq_false_iff, decide_eq_false_iff_not, Nat.not_le, ne_eq, gt_iff_lt]

/-! ### A refusal by the classifier (R120, R130) -/

theorem Exchange.setHand_none_of_hand_none {x : Exchange} {p : Port} (h : (x.port p).hand = .none) :
    x.setHand p .none = x := by
  have hport : { x.ports.get p with hand := .none } = x.ports.get p :=
    congrArg (fun a => { x.ports.get p with hand := a }) h.symm
  rw [Exchange.setHand, Exchange.modPort, hport, PerPort.set_get]

/-- A refused access whose port has nothing in hand leaves the answer and the record, and nothing else (R130). -/
theorem Exchange.refuse_of_hand_none {x : Exchange} {p : Port} (h : (x.port p).hand = .none) (now : Word)
    (cause : RefuseCause) (w : Option Window) (addr : Word) :
    x.refuse now p cause w addr = { x with
      answers := x.answers ++ [(p, .error)]
      raised := x.raised ++ [{ EventRecord.plain now (.accessRefused cause) with
        window := w, port := some p, detail := addr }] } := by
  rw [Exchange.refuse, Exchange.answer, Exchange.setHand_none_of_hand_none h]
  rfl

/-- The event of a taking that gives answers and raises one record ends with these answers and the record offered. -/
theorem State.exec_of_take_eq {s : State} {i : Instr} {p : Port} {r : Request} {answers : List (Port × Response)}
    {record : EventRecord} (ht : s.Takes i p r)
    (hx : s.begin.exch.take s.time.ticks p r = { s.begin.exch with answers := answers, raised := [record] }) :
    exec i s = .next { s.begin with
      exch := { s.begin.exch with answers := answers }, events := s.record record } := by
  obtain ⟨hi, hwf, ⟨hraised, hlinks⟩, hopen⟩ := ht
  rw [State.exec_request_eq i p r s hi hwf hopen (hlinks p), hx, State.finish_of_one _ record]
  case h => rfl
  case l => exact hlinks
  exact congrArg (fun l : List EventRecord => Host.Outcome.next { s.begin with
    exch := { s.begin.exch with answers := answers, raised := l }, events := s.record record }) hraised.symm

theorem State.exec_of_classify_refused {s : State} {i : Instr} {p : Port} {r : Request} {cause : RefuseCause}
    {w : Option Window} (ht : s.Takes i p r) (hc : classify s.exch.windows p r = .refused cause w) :
    exec i s = .next { s.begin with
      exch := { s.begin.exch with answers := [(p, .error)] }
      events := s.record { EventRecord.plain s.time.ticks (.accessRefused cause) with
        window := w, port := some p, detail := r.addr } } := by
  refine State.exec_of_take_eq ht ?_
  obtain ⟨-, -, ⟨hraised, -⟩, -, -, hhand⟩ := ht
  have hbegin : (s.begin.exch.port p).hand = .none := hhand
  rw [Exchange.take, State.begin_windows, hc, Exchange.dispatch, Exchange.refuse_of_hand_none hbegin, State.begin_raised,
    hraised]
  rfl

/-! ### The classes with cause ALIGN (R124) -/

theorem headerClass_ne_refused (g : Geometry) (w : Window) (p : Port) (r : Request) (cause : RefuseCause) (o : Option Window) :
    headerClass g w p r ≠ some (.refused cause o) := by
  unfold headerClass
  split
  · split
    · simp
    · split <;> simp
  · simp
  · simp
  · simp

/-- A request in one region is refused with cause GUARD, ROLE or HEADER, or not at all (R126 to R128). -/
theorem regionClass_ne_refused_align (ws : PerWindow WindowUnit) (p : Port) (r : Request) (g : Region) (o : Option Window) :
    regionClass ws p r g ≠ .refused .align o := by
  cases g with
  | pass => simp [regionClass]
  | slotArea w => simp [regionClass]
  | header w =>
    simp only [regionClass]
    split
    · cases h : headerClass (ws.get w).geom w p r with
      | none => simp
      | some c => exact fun hc => headerClass_ne_refused _ w p r .align o (h.trans (congrArg some hc))
    · simp
  | payload w =>
    simp only [regionClass]
    split
    · split <;> simp
    · simp
  | observedHeader w =>
    simp only [regionClass, observedHeaderClass]
    split
    · split <;> simp
    · simp
  | observedPayload w =>
    simp only [regionClass]
    split <;> simp

theorem straddleClass_ne_refused_align (l : List Region) (o : Option Window) : straddleClass l ≠ .refused .align o := by
  unfold straddleClass
  split
  · simp
  · split <;> simp

theorem classify_of_misaligned {ws : PerWindow WindowUnit} {p : Port} {r : Request} (h : Request.aligned r = false) :
    classify ws p r = .refused .align (alignWindow ws r.addr.toNat) := by
  simp only [classify, h, Bool.not_false, if_true]

/-- The alignment test alone gives the cause ALIGN. -/
theorem aligned_eq_false_of_classify_align {ws : PerWindow WindowUnit} {p : Port} {r : Request} {o : Option Window}
    (h : classify ws p r = .refused .align o) : Request.aligned r = false := by
  cases ha : Request.aligned r with
  | false => rfl
  | true =>
    simp only [classify, ha, Bool.not_true, Bool.false_eq_true, if_false] at h
    split at h
    · exact absurd h (regionClass_ne_refused_align ws p r _ o)
    · exact absurd h (straddleClass_ne_refused_align _ o)

/-! ### The window of the record (R121) -/

/-- The byte lies in the logical range or the slot area of the descriptor (R6). -/
def Geometry.Holds (g : Geometry) (a : Nat) : Prop :=
  g.lbase.toNat ≤ a ∧ a < g.lbase.toNat + 32 + g.flen.toNat ∨
    g.sbase.toNat ≤ a ∧ a < g.sbase.toNat + g.slots.toNat * g.flen.toNat

/-- The header and the payload make up the logical range. -/
theorem Geometry.inHeader_or_inPayload_iff {g : Geometry} {a : Nat} :
    (g.inHeader a || g.inPayload a) = true ↔ g.lbase.toNat ≤ a ∧ a < g.lbase.toNat + 32 + g.flen.toNat := by
  rw [Bool.or_eq_true, Geometry.inPayload_iff, Geometry.inHeader, Bool.and_eq_true, decide_eq_true_eq, decide_eq_true_eq,
    Config.headerBytes]
  omega

theorem Geometry.inSlotArea_iff {g : Geometry} {a : Nat} :
    g.inSlotArea a = true ↔ g.sbase.toNat ≤ a ∧ a < g.sbase.toNat + g.slots.toNat * g.flen.toNat := by
  rw [Geometry.inSlotArea, Bool.and_eq_true, decide_eq_true_eq, decide_eq_true_eq]
  rfl

theorem Geometry.holds_iff {g : Geometry} {a : Nat} :
    (g.inHeader a || g.inPayload a || g.inSlotArea a) = true ↔ g.Holds a := by
  rw [Bool.or_eq_true, Geometry.inHeader_or_inPayload_iff, Geometry.inSlotArea_iff, Geometry.Holds]

/-- Two ranges that hold the same byte share it, whatever their order. -/
theorem sharesByte_of_mem {a b c d n : Nat} (h : a ≤ n ∧ n < b) (h' : c ≤ n ∧ n < d) : sharesByte a b c d = true := by
  simp only [sharesByte, Bool.and_eq_true, decide_eq_true_eq]
  omega

/-- Descriptors that hold the same byte fail check 0x08 against each other (R102). -/
theorem Geometry.overlaps_of_holds {g h : Geometry} {a : Nat} (hg : g.Holds a) (hh : h.Holds a) : g.overlaps h = true := by
  unfold Geometry.overlaps
  rw [Bool.or_eq_true, Bool.or_eq_true, Bool.or_eq_true]
  rcases hg with hg | hg <;> rcases hh with hh | hh
  · exact .inl (.inl (.inl (sharesByte_of_mem hg hh)))
  · exact .inl (.inr (sharesByte_of_mem hg hh))
  · exact .inr (sharesByte_of_mem hg hh)
  · exact .inl (.inl (.inr (sharesByte_of_mem hg hh)))

/-- At most one window that is not DISABLED holds a byte (R102). -/
theorem Exchange.window_eq_of_holds {x : Exchange} (hs : x.RangesSound) {v w : Window} {a : Nat}
    (hv : (x.win v).life ≠ .disabled ∧ (x.win v).geom.Holds a) (hw : (x.win w).life ≠ .disabled ∧ (x.win w).geom.Holds a) :
    v = w := by
  by_contra hne
  have hdisjoint := hs.2 v w hne hv.1 hw.1
  rw [Geometry.overlaps_of_holds hv.2 hw.2] at hdisjoint
  exact Bool.noConfusion hdisjoint

/-- A search for the one window that passes a test finds it. -/
theorem Window.find?_all_eq_some_iff {test : Window → Bool} (hone : ∀ v w, test v = true → test w = true → v = w) {v : Window} :
    Window.all.find? test = some v ↔ test v = true := by
  refine ⟨List.find?_some, fun hv => ?_⟩
  obtain ⟨w, hw⟩ := Option.isSome_iff_exists.mp (List.find?_isSome.mpr ⟨v, Window.mem_all v, hv⟩)
  rw [hw, hone w v (List.find?_some hw) hv]

theorem alignWindow_eq_some_iff {x : Exchange} (hs : x.RangesSound) {a : Nat} {v : Window} :
    alignWindow x.windows a = some v ↔ (x.win v).life ≠ .disabled ∧ (x.win v).geom.Holds a := by
  have htest (w : Window) : (decide ((x.win w).life ≠ .disabled) &&
      ((x.win w).geom.inHeader a || (x.win w).geom.inPayload a || (x.win w).geom.inSlotArea a)) = true ↔
      (x.win w).life ≠ .disabled ∧ (x.win w).geom.Holds a := by
    rw [Bool.and_eq_true, decide_eq_true_eq, Geometry.holds_iff]
  refine (Window.find?_all_eq_some_iff fun v w hv hw => ?_).trans (htest v)
  exact Exchange.window_eq_of_holds hs ((htest v).mp hv) ((htest w).mp hw)

/-- Settles O21: the alignment test comes first and alone gives the cause ALIGN; its refusal is that of any cause; and where no two
windows share a byte, the first window found to hold the first byte is the only one. -/
theorem misalignedIsRefused : Obligations.MisalignedIsRefused := by
  refine ⟨fun s i p r ht hmis => ?_, fun ws p r w hc => ?_⟩
  · have hc := classify_of_misaligned (ws := s.exch.windows) (p := p) (Request.aligned_eq_false_iff.mpr hmis)
    exact ⟨alignWindow s.exch.windows r.addr.toNat, State.exec_of_classify_refused ht hc,
      fun hs v => alignWindow_eq_some_iff hs⟩
  · exact Request.aligned_eq_false_iff.mp (aligned_eq_false_of_classify_align hc)

end Sys2Proof.Machine
end

section
/-!
CLEAR_COUNTERS (R168): what the counters of one window and of all windows become; the effect and the status for each argument;
the event of the command in a settled state; and the statement put together from them.
-/

namespace Sys2Proof.Machine

/-! ### The window a byte names (R162) -/

theorem windowOfNat_number (w : Window) : windowOfNat (Window.number w) = some w := by cases w <;> rfl

theorem Window.number_lt (w : Window) : Window.number w < 8 := by cases w <;> decide

theorem windowOfNat_eq_none {n : Nat} (h : 8 ≤ n) : windowOfNat n = none := by
  obtain ⟨k, rfl⟩ := Nat.exists_eq_add_of_le' h
  rfl

/-! ### Counters at zero (R168) -/

/-- The window with its six counters at 0, and nothing else changed. -/
def WindowUnit.cleared (u : WindowUnit) : WindowUnit := { u with counters := .zero }

@[simp] theorem WindowUnit.cleared_counters (u : WindowUnit) : u.cleared.counters = .zero := rfl

theorem Exchange.clearCounters_eq_modWin (x : Exchange) (w : Window) : x.clearCounters w = x.modWin w WindowUnit.cleared := rfl

/-- The list names every window once. -/
theorem Exchange.foldl_clearCounters_all (x : Exchange) :
    Window.all.foldl Exchange.clearCounters x = { x with windows := x.windows.map WindowUnit.cleared } := rfl

/-- The first occurrence after a clearing counts to 1. -/
theorem Exchange.committed_count_modWin_cleared (x : Exchange) (w : Window) :
    (((x.modWin w WindowUnit.cleared).count w Counters.addCommitted).win w).counters.committed = 1 := by
  rw [Exchange.win_count_self, Exchange.win_modWin_self, WindowUnit.cleared_counters]
  rfl

/-! ### The effect and the status for each argument (R168) -/

theorem State.clearCounters_of_all (s : State) :
    s.clearCounters 0xFF =
      ({ s with exch := { s.exch with windows := s.exch.windows.map WindowUnit.cleared } }, { status := .ok }) := by
  rw [State.clearCounters, if_pos rfl, State.onExchange, Exchange.foldl_clearCounters_all]

theorem State.clearCounters_of_number (s : State) {window : Byte} {w : Window} (h : window.toNat = Window.number w) :
    s.clearCounters window = ({ s with exch := s.exch.modWin w WindowUnit.cleared }, { status := .ok }) := by
  have hall : window ≠ 0xFF := by
    rintro rfl
    have hlt := Window.number_lt w
    rw [← h] at hlt
    exact absurd hlt (by decide)
  rw [State.clearCounters, if_neg hall, h, windowOfNat_number, ← Exchange.clearCounters_eq_modWin]
  rfl

theorem State.clearCounters_of_unnamed (s : State) {window : Byte} (h : 8 ≤ window.toNat) (hall : window ≠ 0xFF) :
    s.clearCounters window = (s, { status := .badArgument }) := by
  rw [State.clearCounters, if_neg hall, windowOfNat_eq_none h]

/-! ### The event of the command -/

/-- The frame once its command is taken is the reply: the filler tells BAD_ARGUMENT from every other status (R156). -/
theorem FrameState.running_answered (f : FrameState) (code : Byte) (args : List Byte) (r : Reply) :
    Frame.running ({ f with code := some code, args := args }.answered r) =
      f.reply code args (r.status.code :: r.more) r.todo := by
  obtain ⟨status, more, todo⟩ := r
  cases status <;> rfl

/-- An event in a settled state that changes the windows and the management port alone ends with these changes. -/
theorem State.Settled.finish_eq {s : State} (hs : s.Settled) (windows : PerWindow WindowUnit) (m : Mgmt) :
    ({ s.begin with exch := { s.begin.exch with windows := windows }, mgmt := m } : State).finish =
      { s.begin with exch := { s.begin.exch with windows := windows }, mgmt := m } := by
  obtain ⟨hraised, hlinks⟩ := hs
  exact State.finish_of_none _ hraised hlinks

/-- In a settled state, a CLEAR_COUNTERS that leaves these windows and answers this status does nothing else. -/
theorem State.exec_clearCounters {s : State} {f : FrameState} {window : Byte} {windows : PerWindow WindowUnit}
    {status : Status} (hs : s.Settled) (ha : s.awaits f)
    (heffect : s.begin.clearCounters window =
      ({ s.begin with exch := { s.begin.exch with windows := windows } }, { status := status })) :
    exec (.clearCounters window) s = .next { s.begin with
      exch := { s.begin.exch with windows := windows }
      mgmt := { s.mgmt with frame := f.reply 0x28 [window] [status.code] .nothing } } := by
  have hbegin : s.begin.awaits f := ha
  have hsend := State.send_one hbegin (code := 0x28) (c := .clearCounters) (act := State.clearCounters) rfl (fun _ _ => rfl)
    (fun fr a => State.setFrame_clearCounters s.begin fr a) window
  rw [heffect, FrameState.take, FrameState.running_answered] at hsend
  calc exec (.clearCounters window) s = .next (s.begin.send [0x28, window]).finish := rfl
    _ = _ := hsend ▸ congrArg Host.Outcome.next (hs.finish_eq windows _)

/-- Settles O60: the argument decides which windows are cleared and the status; the event changes nothing besides, and a counter
that is 0 counts its next occurrence to 1. -/
theorem clearCountersResult : Obligations.ClearCountersResult := by
  intro s f window hs ha
  refine ⟨fun hunnamed hall => ?_, fun hall => ?_, fun w hw => ?_⟩
  · exact State.exec_clearCounters hs ha (s.begin.clearCounters_of_unnamed hunnamed hall)
  · subst hall
    exact State.exec_clearCounters hs ha s.begin.clearCounters_of_all
  · exact ⟨_, State.exec_clearCounters hs ha (s.begin.clearCounters_of_number hw), rfl,
      Exchange.committed_count_modWin_cleared s.begin.exch w⟩

end Sys2Proof.Machine
end

section
/-!
The layer every statement about all commands goes through: what the bytes of an SPI frame and the effects of the commands can do to
a state at most, so that a property kept by each of a few operations is kept by every step.
-/

namespace Sys2Proof.Machine

/-! ### What the management commands do to the state at most -/

/-- ENABLE does nothing, or enables a DISABLED window whose descriptor passes every check (R101, R102, R104). -/
theorem State.enableWindow_cases (s : State) (window mode : Byte) :
    (s.enableWindow window mode).1 = s ∨
      ∃ w m, (s.exch.win w).life = .disabled ∧ configReason s.exch.windows w = none ∧
        (s.enableWindow window mode).1 = { s with exch := s.exch.enableWindow s.time.ticks w m } := by
  unfold State.enableWindow
  split
  · next w m _ _ =>
    split
    · exact .inl rfl
    · next hlife =>
      split
      · exact .inl rfl
      · next hreason =>
        split
        · exact .inl rfl
        · exact .inr ⟨w, m, Decidable.not_not.mp hlife, hreason, rfl⟩
  · exact .inl rfl

/-- DRAIN and DISABLE enable no window, CLEAR_COUNTERS and RESTART neither. -/
theorem State.drainWindow_cases (s : State) (window : Byte) :
    (s.drainWindow window).1 = s ∨ ∃ x, s.exch.Keeps x ∧ (s.drainWindow window).1 = { s with exch := x } := by
  unfold State.drainWindow
  split
  · exact .inl rfl
  · next w _ =>
    split
    · next c hlife => exact .inr ⟨_, s.exch.drainWindow_keeps s.time.ticks w hlife, rfl⟩
    · exact .inl rfl

theorem State.disableWindow_cases (s : State) (window : Byte) :
    (s.disableWindow window).1 = s ∨ ∃ x, s.exch.Keeps x ∧ (s.disableWindow window).1 = { s with exch := x } := by
  unfold State.disableWindow
  split
  · exact .inl rfl
  · next w _ => exact .inr ⟨_, s.exch.disableLive_keeps s.time.ticks w .disable, rfl⟩

theorem State.clearCounters_cases (s : State) (window : Byte) :
    (s.clearCounters window).1 = s ∨ ∃ x, s.exch.Keeps x ∧ (s.clearCounters window).1 = { s with exch := x } := by
  unfold State.clearCounters
  split
  · exact .inr ⟨_, s.exch.foldl_keeps Exchange.clearCounters (fun x w => x.count_keeps w _) Window.all, rfl⟩
  · split
    · exact .inl rfl
    · next w _ => exact .inr ⟨_, s.exch.count_keeps w _, rfl⟩

theorem State.takeSnapshot_cases (s : State) (window : Byte) :
    (s.takeSnapshot window).1 = s ∨
      ∃ b, (s.takeSnapshot window).1 = { s with mgmt := { s.mgmt with snapshot := b } } := by
  unfold State.takeSnapshot
  split
  · exact .inl rfl
  · split
    · exact .inl rfl
    · exact .inr ⟨_, rfl⟩

/-! ### A property that the parts of every event keep -/

/-- What the beginning and the end of events, the bytes of a frame, and the effects of the commands but PIN_RESET and TICK come to
keeps P. -/
structure KeptByEvents (P : State → Prop) : Prop where
  begin : ∀ s : State, P s → P s.begin
  flush : ∀ s : State, P s → P s.flush
  choices : ∀ (s : State) (n : Nat), P s → P { s with choices := n }
  link : ∀ (s : State) (p : Port) (l : List Request), P s → P { s with exch := s.exch.modPort p fun u => { u with link := l } }
  exchange : ∀ (s : State) (x : Exchange), s.exch.Keeps x → P s → P { s with exch := x }
  setFrame : ∀ (s : State) (f : Frame), P s → P (s.setFrame f)
  snapshot : ∀ (s : State) (b : Option (List Byte)), P s → P { s with mgmt := { s.mgmt with snapshot := b } }
  enable : ∀ (s : State) (w : Window) (m : LiveMode), (s.exch.win w).life = .disabled →
    configReason s.exch.windows w = none → P s → P { s with exch := s.exch.enableWindow s.time.ticks w m }
  recover : ∀ s : State, P s → P s.recover.1
  writeRegister : ∀ (s : State) (r : Register) (v : Word), P s → P (s.writeRegister r v).1
  removeHead : ∀ s : State, P s → P { s with events := s.events.removeHead s.time.ticks }
  pinRelease : ∀ s : State, P s → P s.pinRelease
  assertPrst : ∀ (s : State) (p : Port), P s → P (s.assertPrst p)
  deassertPrst : ∀ (s : State) (p : Port), P s → P (s.deassertPrst p)
  grant : ∀ s : State, P s → P s.grant
  respond : ∀ (s : State) (resp : Response), P s → P (s.respond resp)
  responseExpiry : ∀ (s : State) (place : Fin 4), P s → P (s.responseExpiry place)
  pulseExpiry : ∀ s : State, P s → P s.pulseExpiry

namespace KeptByEvents

variable {P : State → Prop} (k : KeptByEvents P) {s : State}

include k

/-! The management commands -/

theorem enableWindow (s : State) (w m : Byte) (h : P s) : P (s.enableWindow w m).1 := by
  obtain he | ⟨v, mode, hlife, hreason, he⟩ := s.enableWindow_cases w m
  · rwa [he]
  · rw [he]
    exact k.enable s v mode hlife hreason h

theorem drainWindow (s : State) (w : Byte) (h : P s) : P (s.drainWindow w).1 := by
  obtain he | ⟨x, hx, he⟩ := s.drainWindow_cases w
  · rwa [he]
  · rw [he]
    exact k.exchange s x hx h

theorem disableWindow (s : State) (w : Byte) (h : P s) : P (s.disableWindow w).1 := by
  obtain he | ⟨x, hx, he⟩ := s.disableWindow_cases w
  · rwa [he]
  · rw [he]
    exact k.exchange s x hx h

theorem clearCounters (s : State) (w : Byte) (h : P s) : P (s.clearCounters w).1 := by
  obtain he | ⟨x, hx, he⟩ := s.clearCounters_cases w
  · rwa [he]
  · rw [he]
    exact k.exchange s x hx h

theorem takeSnapshot (s : State) (w : Byte) (h : P s) : P (s.takeSnapshot w).1 := by
  obtain he | ⟨b, he⟩ := s.takeSnapshot_cases w
  · rwa [he]
  · rw [he]
    exact k.snapshot s b h

theorem emptySnapshot (s : State) (h : P s) : P s.emptySnapshot := k.snapshot s none h

theorem restart (s : State) (h : P s) : P s.restart.1 :=
  k.emptySnapshot _ (k.exchange s _ (s.exch.restart_keeps s.time.ticks) h)

/-! The bytes of a frame -/

theorem take (f : FrameState) {r : State × Reply} (h : P r.1) : P (f.take r) := k.setFrame _ _ h

theorem withOne (f : FrameState) {act : Byte → State × Reply} (h : P s) (hact : ∀ a, P (act a).1) : P (s.withOne f act) := by
  unfold State.withOne
  split
  · exact k.take f (hact _)
  · exact k.setFrame _ _ h

theorem withTwo (f : FrameState) {act : Byte → Byte → State × Reply} (h : P s) (hact : ∀ a b, P (act a b).1) :
    P (s.withTwo f act) := by
  unfold State.withTwo
  split
  · exact k.take f (hact _ _)
  · exact k.setFrame _ _ h

theorem writeCount (f : FrameState) (addr count : Byte) (h : P s) : P (s.writeCount f addr count) := by
  unfold State.writeCount
  split
  · exact k.setFrame _ _ h
  · exact k.take f h

theorem writeData (f : FrameState) (next left : Nat) (locked : Bool) (h : P s) : P (s.writeData f next left locked) := by
  unfold State.writeData
  split
  · dsimp only
    split
    · exact k.take f (k.writeRegister _ _ _ h)
    · exact k.setFrame _ _ (k.writeRegister _ _ _ h)
  · exact k.setFrame _ _ h

theorem writeByte (f : FrameState) (h : P s) : P (s.writeByte f) := by
  unfold State.writeByte
  split
  · exact k.writeData f _ _ _ h
  · exact k.writeCount f _ _ h
  · exact k.setFrame _ _ h

theorem arrived (f : FrameState) (c : MgmtCommand) (h : P s) : P (s.arrived f c) := by
  cases c with
  | readRegisters => exact k.withTwo f h fun _ _ => h
  | writeRegisters => exact k.writeByte f h
  | enable => exact k.withTwo f h fun a b => k.enableWindow s a b h
  | drain => exact k.withOne f h fun a => k.drainWindow s a h
  | disable => exact k.withOne f h fun a => k.disableWindow s a h
  | snapshot => exact k.withOne f h fun a => k.takeSnapshot s a h
  | readSnapshot => exact k.take f h
  | discardSnapshot => exact k.take f (k.emptySnapshot s h)
  | readEvents => exact k.withOne f h fun _ => h
  | clearCounters => exact k.withOne f h fun a => k.clearCounters s a h
  | restart => exact k.take f (k.restart s h)
  | recoverMemoryPort => exact k.take f (k.recover s h)
  | readTime => exact k.take f h

theorem mosiByte (f : FrameState) (mosi : Byte) (h : P s) : P (s.mosiByte f mosi) := by
  unfold State.mosiByte
  dsimp only
  split
  · exact k.arrived _ _ h
  · exact k.take _ h

theorem beginByte (h : P s) : P s.beginByte := by
  unfold State.beginByte
  split
  · split
    · split
      · exact k.setFrame _ _ h
      · exact k.setFrame _ _ h
      · exact h
    · exact h
  · exact h
  · exact h

theorem byteOut (f : FrameState) (h : P s) : P (s.byteOut f) := by
  unfold State.byteOut
  dsimp only
  split
  · exact k.setFrame _ _ (k.emptySnapshot s h)
  · exact k.setFrame _ _ (k.removeHead s h)
  · exact k.setFrame _ _ h

theorem clockByte (mosi : Byte) (h : P s) : P (s.clockByte mosi) := by
  have hb : P s.beginByte := k.beginByte h
  unfold State.clockByte
  dsimp only
  split
  · split
    · exact k.byteOut _ hb
    · exact k.mosiByte _ _ hb
  · exact hb
  · exact hb

theorem clock (bytes : List Byte) (h : P s) : P (s.clock bytes) :=
  State.clock_induct (fun _ b ht => k.clockByte b ht) bytes s h

theorem send (bytes : List Byte) (h : P s) : P (s.send bytes) := by
  unfold State.send
  split
  · split
    · exact k.clock _ h
    · exact h
  · exact h
  · exact h

theorem sendWord (addr : Nat) (v : Word) (h : P s) : P (s.sendWord addr v) := by
  unfold State.sendWord
  split
  · split
    · dsimp only
      split
      · exact k.clock _ h
      · exact h
    · exact h
  · exact h
  · exact h

theorem clockOut (f : FrameState) (more : Nat) (h : P s) : P (s.clockOut f more) := by
  unfold State.clockOut
  split
  · exact k.clock _ h
  · exact h

theorem nextRegister (h : P s) : P s.nextRegister := by
  unfold State.nextRegister
  split
  · split
    · exact k.beginByte (k.clockOut _ _ h)
    · exact h
  · exact h
  · exact h

theorem restOfSnapshot (h : P s) : P s.restOfSnapshot := by
  unfold State.restOfSnapshot
  split
  · split
    · exact k.clockOut _ _ h
    · exact h
  · exact h
  · exact h

theorem restOfRecord (h : P s) : P s.restOfRecord := by
  unfold State.restOfRecord
  split
  · split
    · exact k.clockOut _ _ h
    · exact h
  · exact h
  · exact h

theorem frameStart (h : P s) : P s.frameStart := by
  unfold State.frameStart
  split
  · exact k.setFrame _ _ h
  · exact h
  · exact h

theorem frameEnd (h : P s) : P s.frameEnd := k.setFrame _ _ h

/-! The requests on the links, and the end of an event -/

theorem arrive (p : Port) (r : Request) (h : P s) : P (s.arrive p r) := by
  unfold State.arrive
  split
  · exact k.exchange s _ (s.exch.take_keeps s.time.ticks p r) h
  · exact k.link s p ((s.exch.port p).link ++ [r]) h

theorem takeFront (p : Port) (h : P s) : P (s.takeFront p) := by
  unfold State.takeFront
  split
  · exact h
  · next r rest _ =>
    exact k.flush _ (k.exchange { s with exch := s.exch.modPort p fun u => { u with link := rest } } _
      (Exchange.take_keeps _ s.time.ticks p r) (k.link s p rest h))

theorem finish (h : P s) : P s.finish :=
  State.finish_induct k.flush (fun _ p ht => k.takeFront p ht) k.choices s h

end KeptByEvents

/-! ### The effects of the commands -/

theorem State.unlessReset_kept {P : State → Prop} {s : State} (f : State → State) (h : P s) (hf : P (f s)) :
    P (s.unlessReset f) := by
  unfold State.unlessReset
  split
  · exact h
  · exact hf

theorem KeptByEvents.effect {P : State → Prop} (k : KeptByEvents P) {i : Instr} {s : State} (h : P s)
    (hreset : i = .pinReset → P s.pinReset) (htick : i = .tick → P s.tickBoundary) : P (effect i s) := by
  cases i with
  | pinReset => exact hreset rfl
  | pinResetRelease => exact k.pinRelease s h
  | tick => exact State.unlessReset_kept State.tickBoundary h (htick rfl)
  | portReset p => exact k.assertPrst s p h
  | portResetRelease p => exact k.deassertPrst s p h
  | passThrough p r => exact k.arrive p r h
  | writerPayloadAccess p r => exact k.arrive p r h
  | writerHeaderRead p addr => exact k.arrive p _ h
  | explicitCommit p addr value => exact k.arrive p _ h
  | explicitAbandon p addr value => exact k.arrive p _ h
  | explicitAcquire p addr => exact k.arrive p _ h
  | explicitRelease p addr => exact k.arrive p _ h
  | readerPayloadRead p addr size => exact k.arrive p _ h
  | arbiterGrant => exact State.unlessReset_kept State.grant h (k.grant s h)
  | memoryResponse resp => exact State.unlessReset_kept (fun s => s.respond resp) h (k.respond s resp h)
  | responseTimerExpiry place => exact State.unlessReset_kept (fun s => s.responseExpiry place) h (k.responseExpiry s place h)
  | recoveryPulseExpiry => exact State.unlessReset_kept State.pulseExpiry h (k.pulseExpiry s h)
  | fillTimerExpiry w =>
    exact State.unlessReset_kept (fun s => s.onExchange fun now x => x.fillExpiry now w) h
      (k.exchange s _ (s.exch.fillExpiry_keeps s.time.ticks w) h)
  | holdTimerExpiry w p =>
    exact State.unlessReset_kept (fun s => s.onExchange fun now x => x.holdExpiry now w p) h
      (k.exchange s _ (s.exch.holdExpiry_keeps s.time.ticks w p) h)
  | stallTimerExpiry p =>
    exact State.unlessReset_kept (fun s => s.onExchange fun now x => x.stallExpiry now p) h
      (k.exchange s _ (s.exch.stallExpiry_keeps s.time.ticks p) h)
  | spiFrameEnd => exact k.frameEnd h
  | readRegisters e =>
    cases e with
    | taken addr count => exact k.send _ h
    | nextRegister => exact k.nextRegister h
  | writeRegisters e => exact k.send _ h
  | registerWrite addr value => exact k.sendWord _ _ h
  | lockedRegisterWrite w reg value => exact k.sendWord _ _ h
  | stagedRegisterWrite w reg value => exact k.sendWord _ _ h
  | tbDivWrite value => exact k.sendWord _ _ h
  | memTimeoutWrite value => exact k.sendWord _ _ h
  | eventEnableWrite value => exact k.sendWord _ _ h
  | enable window mode => exact k.send _ h
  | drain window => exact k.send _ h
  | disable window => exact k.send _ h
  | snapshot window => exact k.send _ h
  | readSnapshot => exact k.send _ h
  | discardSnapshot => exact k.send _ h
  | readEvents maximum => exact k.send _ h
  | clearCounters window => exact k.send _ h
  | restart => exact k.send _ h
  | recoverMemoryPort => exact k.send _ h
  | readTime => exact k.send _ h
  | unknownCommand code => exact k.send _ h
  | snapshotConsumed => exact k.restOfSnapshot h
  | eventRecordRemoval => exact k.restOfRecord h
  | classifierRefusal p r => exact k.arrive p r h
  | spiFrameStart e =>
    cases e with
    | edge => exact k.frameStart h
    | firstBit => exact k.beginByte h
    | byte mosi => exact k.clockByte mosi h

/-! ### Steps -/

/-- A step idles, or is the effect of the front command between the beginning and the end of its event. -/
theorem step_next {s t : State} (h : step s = .next t) :
    t = s ∨ ∃ i rest, s.pending = i :: rest ∧ t = (effect i ({ s with pending := rest } : State).begin).finish := by
  unfold step at h
  split at h
  · exact .inl (by cases h; rfl)
  · next i rest hp => exact .inr ⟨i, rest, hp, exec_next h⟩

/-- A property that the parts of every event keep, and PIN_RESET and TICK as well, is kept by every step. -/
theorem KeptByEvents.step {P : State → Prop} (k : KeptByEvents P)
    (hpending : ∀ (s : State) (l : List Instr), P s → P { s with pending := l }) (hreset : ∀ s : State, P s → P s.pinReset)
    (htick : ∀ s : State, P s → P s.tickBoundary) {s t : State} (h : P s) (hstep : step s = .next t) : P t := by
  obtain rfl | ⟨i, rest, -, rfl⟩ := step_next hstep
  · exact h
  · have hb := k.begin _ (hpending s rest h)
    exact k.finish (k.effect hb (fun _ => hreset _ hb) fun _ => htick _ hb)

/-- The same for a single command. -/
theorem KeptByEvents.exec {P : State → Prop} (k : KeptByEvents P) {i : Instr} {s t : State} (h : P s)
    (hreset : i = .pinReset → P s.begin.pinReset) (htick : i = .tick → P s.begin.tickBoundary)
    (hexec : exec i s = .next t) : P t := by
  obtain rfl := exec_next hexec
  exact k.finish (k.effect (k.begin s h) hreset htick)

/-- Settles O1: the definition of a step, by the queue. -/
theorem stepTakesTheFrontCommand : Obligations.StepTakesTheFrontCommand := by
  refine fun s => ⟨fun h => ?_, fun i rest h => ?_⟩
  · rw [step, h]
  · rw [step, h]

end Sys2Proof.Machine
end

section
/-!
What every step keeps outside the exchange, by the layer before: the queue of commands, the time (R1), the event unit (R176, R177);
and the end of every command, with no event in progress and no request left that a port could take (R120, R134).
-/

namespace Sys2Proof.Machine

/-! ### What the operations of the state leave of its queue, its event unit and its time -/

/-- The queue of commands, the event unit, the tick counter, the tick in progress and the count of REFCLK periods are the same. -/
structure State.SameFrame (s t : State) : Prop where
  pending : t.pending = s.pending
  events : t.events = s.events
  ticks : t.time.ticks = s.time.ticks
  tickDiv : t.time.tickDiv = s.time.tickDiv
  refclk : t.time.refclk = s.time.refclk

theorem State.SameFrame.refl (s : State) : s.SameFrame s := ⟨rfl, rfl, rfl, rfl, rfl⟩

theorem State.writeRegister_frame (s : State) (r : Register) (v : Word) : s.SameFrame (s.writeRegister r v).1 := by
  cases r with
  | locked w reg =>
    simp only [State.writeRegister, State.writeLocked]
    split
    · exact ⟨rfl, rfl, rfl, rfl, rfl⟩
    · exact .refl s
  | _ => exact ⟨rfl, rfl, rfl, rfl, rfl⟩

theorem State.unlessReset_frame {s t : State} {f : State → State} (h : s.SameFrame t) (hf : s.SameFrame (f t)) :
    s.SameFrame (t.unlessReset f) := by
  unfold State.unlessReset
  split
  · exact h
  · exact hf

theorem State.pinRelease_frame (s : State) : s.SameFrame s.pinRelease := by
  unfold State.pinRelease
  split
  · exact ⟨rfl, rfl, rfl, rfl, rfl⟩
  · exact .refl s

theorem State.assertPrst_frame (s : State) (p : Port) : s.SameFrame (s.assertPrst p) := by
  refine State.unlessReset_frame ⟨rfl, rfl, rfl, rfl, rfl⟩ ?_
  split <;> exact ⟨rfl, rfl, rfl, rfl, rfl⟩

theorem State.deassertPrst_frame (s : State) (p : Port) : s.SameFrame (s.deassertPrst p) :=
  State.unlessReset_frame ⟨rfl, rfl, rfl, rfl, rfl⟩ ⟨rfl, rfl, rfl, rfl, rfl⟩

theorem State.grant_frame (s : State) : s.SameFrame s.grant := by
  unfold State.grant
  split
  · exact .refl s
  · dsimp only
    split
    · split
      · exact ⟨rfl, rfl, rfl, rfl, rfl⟩
      · exact .refl s
    · exact ⟨rfl, rfl, rfl, rfl, rfl⟩

theorem State.respond_frame (s : State) (resp : Response) : s.SameFrame (s.respond resp) := by
  unfold State.respond
  split
  · exact ⟨rfl, rfl, rfl, rfl, rfl⟩
  · exact .refl s

theorem State.responseExpiry_frame (s : State) (place : Fin 4) : s.SameFrame (s.responseExpiry place) := by
  unfold State.responseExpiry
  split
  · split
    · exact ⟨rfl, rfl, rfl, rfl, rfl⟩
    · exact .refl s
  · exact .refl s

theorem State.pulseExpiry_frame (s : State) : s.SameFrame s.pulseExpiry := by
  unfold State.pulseExpiry
  split
  · exact ⟨rfl, rfl, rfl, rfl, rfl⟩
  · exact .refl s

theorem State.recover_frame (s : State) : s.SameFrame s.recover.1 := by
  unfold State.recover
  split
  · exact ⟨rfl, rfl, rfl, rfl, rfl⟩
  · exact .refl s

/-- A property of these fields is kept by events where the records offered and the removal of the head record keep it. -/
theorem KeptByEvents.of_frame {P : State → Prop} (hP : ∀ s t : State, s.SameFrame t → P s → P t)
    (hflush : ∀ s : State, P s → P s.flush)
    (hremove : ∀ s : State, P s → P { s with events := s.events.removeHead s.time.ticks }) : KeptByEvents P where
  begin s := hP s _ ⟨rfl, rfl, rfl, rfl, rfl⟩
  flush := hflush
  choices s _ := hP s _ ⟨rfl, rfl, rfl, rfl, rfl⟩
  link s _ _ := hP s _ ⟨rfl, rfl, rfl, rfl, rfl⟩
  exchange s _ _ := hP s _ ⟨rfl, rfl, rfl, rfl, rfl⟩
  setFrame s _ := hP s _ ⟨rfl, rfl, rfl, rfl, rfl⟩
  snapshot s _ := hP s _ ⟨rfl, rfl, rfl, rfl, rfl⟩
  enable s _ _ _ _ := hP s _ ⟨rfl, rfl, rfl, rfl, rfl⟩
  recover s := hP s _ s.recover_frame
  writeRegister s r v := hP s _ (s.writeRegister_frame r v)
  removeHead := hremove
  pinRelease s := hP s _ s.pinRelease_frame
  assertPrst s p := hP s _ (s.assertPrst_frame p)
  deassertPrst s p := hP s _ (s.deassertPrst_frame p)
  grant s := hP s _ s.grant_frame
  respond s resp := hP s _ (s.respond_frame resp)
  responseExpiry s place := hP s _ (s.responseExpiry_frame place)
  pulseExpiry s := hP s _ s.pulseExpiry_frame

/-! ### The event unit -/

/-- Settles O4: records enter the event unit at the end of an event and leave it at its head, and both keep it sound. -/
theorem eventUnitStaysSound : Obligations.EventUnitStaysSound := by
  have kept : KeptByEvents fun s => s.events.Sound :=
    .of_frame (fun s t h hs => h.events ▸ hs) State.flush_sound fun s hs => s.events.removeHead_sound s.time.ticks hs
  exact fun s t h hstep => kept.step (fun _ _ hs => hs) (fun _ _ => ⟨Nat.zero_le _, fun hl => absurd rfl hl⟩) (fun _ hs => hs) h hstep

/-! ### The end of a command -/

theorem State.flush_raised_eq (s : State) : s.flush.exch.raised = [] := rfl

theorem State.takeFront_raised {s : State} (p : Port) (h : s.exch.raised = []) : (s.takeFront p).exch.raised = [] := by
  unfold State.takeFront
  split
  · exact h
  · rfl

/-- Settles O6: an event ends with its records offered, and then takes requests from the links as long as there are any that a port
can take. -/
theorem everyCommandLeavesSettled : Obligations.EveryCommandLeavesSettled := by
  intro i s t h
  obtain rfl := exec_next h
  refine ⟨?_, State.takeLinked_done _ _ (Nat.le_refl _)⟩
  exact State.takeLinked_induct (P := fun t => t.exch.raised = []) (fun _ p ht => State.takeFront_raised p ht)
    (fun _ _ ht => ht) _ _ (State.flush_raised_eq _)

/-! ### Time -/

/-- Settles O11: of all commands PIN_RESET and TICK alone write these fields. -/
theorem timeMovesOnlyAtTicks : Obligations.TimeMovesOnlyAtTicks := by
  intro i s t h htick hreset
  have kept : KeptByEvents fun u =>
      u.time.ticks = s.time.ticks ∧ u.time.tickDiv = s.time.tickDiv ∧ u.time.refclk = s.time.refclk :=
    .of_frame (fun u v huv ⟨hticks, hdiv, hrefclk⟩ =>
        ⟨huv.ticks.trans hticks, huv.tickDiv.trans hdiv, huv.refclk.trans hrefclk⟩)
      (fun _ hu => hu) fun _ hu => hu
  exact kept.exec ⟨rfl, rfl, rfl⟩ (fun hi => absurd hi hreset) (fun hi => absurd hi htick) h

/-! ### Which commands have a next state -/

/-- The queue is no operand of any effect. -/
theorem exec_pending {i : Instr} {s t : State} (h : exec i s = .next t) : t.pending = s.pending := by
  have kept : KeptByEvents fun u => u.pending = s.pending :=
    .of_frame (fun u v huv hu => huv.pending.trans hu) (fun _ hu => hu) fun _ hu => hu
  exact kept.exec rfl (fun _ => rfl) (fun _ => rfl) h

theorem State.request_next_iff (s : State) (p : Port) (r : Request) :
    (r.wellFormed = true → ∃ t, s.request p r = .next t) ∧ (r.wellFormed = false → s.request p r = .refused .illFormed) := by
  refine ⟨fun h => ⟨_, s.request_eq p r h⟩, fun h => ?_⟩
  rw [State.request, h]
  rfl

theorem exec_next_or_refused (i : Instr) (s : State) :
    (i.wellFormed = true → ∃ t, exec i s = .next t) ∧ (i.wellFormed = false → exec i s = .refused .illFormed) := by
  have next {t : State} {o : Host.Outcome State Fault Refusal} (h : o = .next t) :
      (true = true → ∃ t, o = .next t) ∧ (true = false → o = .refused .illFormed) :=
    ⟨fun _ => ⟨t, h⟩, fun e => Bool.noConfusion e⟩
  cases i with
  | passThrough p r => exact s.request_next_iff p r
  | writerPayloadAccess p r => exact s.request_next_iff p r
  | classifierRefusal p r => exact s.request_next_iff p r
  | readerPayloadRead p a z => exact s.request_next_iff p { addr := a, access := .read z }
  | memoryResponse resp =>
    simp only [exec, execMemoryResponse, Instr.wellFormed]
    cases resp.wellFormed <;> simp
  | unknownCommand code =>
    simp only [exec, execUnknownCommand, Instr.wellFormed]
    cases commandCodes.contains code <;> simp
  | readRegisters e => cases e <;> exact next rfl
  | spiFrameStart e => cases e <;> exact next rfl
  | _ => exact next rfl

/-- Settles O2: the well-formedness tests of `exec` are those of the command, and no effect touches the queue. -/
theorem commandsComplete : Obligations.CommandsComplete := by
  intro i s
  obtain ⟨hnext, hrefused⟩ := exec_next_or_refused i s
  refine ⟨fun h => ?_, hrefused⟩
  obtain ⟨t, ht⟩ := hnext h
  exact ⟨t, ht, exec_pending ht⟩

end Sys2Proof.Machine
end

section
/-!
What every step keeps of the windows (R8, R17, R102, R117) and of the ports (R134, R140): which operations of the state leave the
outstanding list alone in changing, and what ENABLE and the register writes do to the descriptors.
-/

namespace Sys2Proof.Machine

/-! ### What the effects of the memory port and of PRST do to the exchange -/

theorem Exchange.KeepsButList.refl (x : Exchange) : x.KeepsButList x := (Exchange.Keeps.refl x).butList

theorem State.grant_keeps (s : State) : s.exch.KeepsButList s.grant.exch := by
  unfold State.grant
  split
  · exact .refl _
  · next c m _ =>
    dsimp only
    split
    · split
      · exact s.exch.issue_keeps s.memTimeout c m
      · exact .refl _
    · exact (s.exch.failGrant_keeps s.time.ticks c m).butList

theorem State.respond_keeps (s : State) (resp : Response) : s.exch.KeepsButList (s.respond resp).exch := by
  unfold State.respond
  split
  · next e rest _ _ => exact (s.exch.list_keeps rest).trans (Exchange.complete_keeps _ _ e _).butList
  · exact .refl _

theorem State.responseExpiry_keeps (s : State) (place : Fin 4) : s.exch.KeepsButList (s.responseExpiry place).exch := by
  unfold State.responseExpiry
  split
  · split
    · exact (s.exch.raise_keeps _).butList.trans (Exchange.failAll_keeps _ _ _)
    · exact .refl _
  · exact .refl _

theorem State.pulseExpiry_exch (s : State) : s.pulseExpiry.exch = s.exch := by
  unfold State.pulseExpiry
  split <;> rfl

theorem State.recover_exch (s : State) : s.recover.1.exch = s.exch := by
  unfold State.recover
  split <;> rfl

/-- A port reset puts the port IN_RESET, and beyond that does what every operation of the exchange can do. -/
theorem State.portReset_keeps (s : State) (p : Port) :
    (s.exch.modPort p fun u => { u with state := .inReset }).Keeps (s.portReset p).exch :=
  ((Exchange.resetHand_keeps _ s.time.ticks p).trans (Exchange.raise_keeps _ _)).trans
    (Exchange.foldl_keeps _ (fun x w => x.resetRole_keeps s.time.ticks p w) _ _)

/-- A write to a register changes the windows alone, in the exchange. -/
theorem State.writeRegister_port (s : State) (r : Register) (v : Word) (p : Port) :
    (s.writeRegister r v).1.exch.port p = s.exch.port p := by
  cases r with
  | locked w reg =>
    simp only [State.writeRegister, State.writeLocked]
    split <;> rfl
  | _ => rfl

theorem State.writeRegister_resetAsserted (s : State) (r : Register) (v : Word) :
    (s.writeRegister r v).1.resetAsserted = s.resetAsserted := by
  cases r with
  | locked w reg =>
    simp only [State.writeRegister, State.writeLocked]
    split <;> rfl
  | _ => rfl

/-! ### RESET_N -/

theorem State.recover_resetAsserted (s : State) : s.recover.1.resetAsserted = s.resetAsserted := by
  unfold State.recover
  split <;> rfl

theorem State.grant_resetAsserted (s : State) : s.grant.resetAsserted = s.resetAsserted := by
  unfold State.grant
  split
  · rfl
  · dsimp only
    split
    · split <;> rfl
    · rfl

theorem State.respond_resetAsserted (s : State) (resp : Response) : (s.respond resp).resetAsserted = s.resetAsserted := by
  unfold State.respond
  split <;> rfl

theorem State.responseExpiry_resetAsserted (s : State) (place : Fin 4) :
    (s.responseExpiry place).resetAsserted = s.resetAsserted := by
  unfold State.responseExpiry
  split
  · split <;> rfl
  · rfl

theorem State.pulseExpiry_resetAsserted (s : State) : s.pulseExpiry.resetAsserted = s.resetAsserted := by
  unfold State.pulseExpiry
  split <;> rfl

/-! ### The invariants of the windows -/

/-- The invariants of the windows (R8, R17, R102, R117). -/
def Exchange.WindowsSound (x : Exchange) : Prop :=
  x.RangesSound ∧ ∀ w, (x.win w).ContextSound ∧ (x.win w).StagedSound

theorem WindowUnit.Keeps.contextSound {u v : WindowUnit} (h : u.Keeps v) (hu : u.ContextSound) : v.ContextSound := by
  intro d hd
  obtain ⟨c, hc, hshape⟩ := h.shape d hd
  obtain ⟨hslots, hreaders, hseq⟩ := hu c hc
  rw [h.geom]
  exact ⟨fun k => (hshape.slots k).trans (hslots k), fun p => (hshape.readers p).trans (hreaders p), hshape.nextSeq hseq⟩

theorem Exchange.WindowsSound.of_keeps {x y : Exchange} (h : ∀ w, (x.win w).Keeps (y.win w)) (hx : x.WindowsSound) :
    y.WindowsSound := by
  have hlife (w : Window) (hw : (y.win w).life ≠ .disabled) : (x.win w).life ≠ .disabled := fun e => hw ((h w).disabled e)
  obtain ⟨⟨hreason, hdisjoint⟩, hwin⟩ := hx
  refine ⟨⟨fun w hw => ?_, fun v w hne hv hw => ?_⟩, fun w => ?_⟩
  · rw [(h w).geom]
    exact hreason w (hlife w hw)
  · rw [(h v).geom, (h w).geom]
    exact hdisjoint v w hne (hlife v hv) (hlife w hw)
  · exact ⟨(h w).contextSound (hwin w).1, (h w).staged (hwin w).2⟩

/-- Windows that are all DISABLED, with nothing staged, meet the invariants. -/
theorem Exchange.WindowsSound.of_disabled {x : Exchange} (h : ∀ w, (x.win w).life = .disabled ∧ (x.win w).staged = .none) :
    x.WindowsSound := by
  refine ⟨⟨fun w hw => absurd (h w).1 hw, fun v _ _ hv => absurd (h v).1 hv⟩, fun w => ⟨fun c hc => ?_, fun _ => (h w).2⟩⟩
  rw [WindowUnit.ctx?, (h w).1] at hc
  cases hc

/-- The windows after a change of one window: the ranges stay sound where the descriptor it ends with passes the checks. -/
theorem Exchange.WindowsSound.modWin {x : Exchange} (hx : x.WindowsSound) (w : Window) (f : WindowUnit → WindowUnit)
    (hreason : (f (x.win w)).life ≠ .disabled → (f (x.win w)).geom.reason = none)
    (hdisjoint : (f (x.win w)).life ≠ .disabled → ∀ v, v ≠ w → (x.win v).life ≠ .disabled →
      (f (x.win w)).geom.overlaps (x.win v).geom = false ∧ (x.win v).geom.overlaps (f (x.win w)).geom = false)
    (hcontext : (f (x.win w)).ContextSound) (hstaged : (f (x.win w)).StagedSound) : (x.modWin w f).WindowsSound := by
  obtain ⟨⟨hreason', hdisjoint'⟩, hwin⟩ := hx
  refine ⟨⟨fun v hv => ?_, fun u v hne hu hv => ?_⟩, fun v => ?_⟩
  · by_cases hvw : v = w
    · subst hvw
      rw [Exchange.win_modWin_self] at hv ⊢
      exact hreason hv
    · rw [Exchange.win_modWin_ne _ _ _ hvw] at hv ⊢
      exact hreason' v hv
  · by_cases huw : u = w
    · subst huw
      rw [Exchange.win_modWin_self] at hu ⊢
      rw [Exchange.win_modWin_ne _ _ _ (Ne.symm hne)] at hv ⊢
      exact (hdisjoint hu v (Ne.symm hne) hv).1
    · rw [Exchange.win_modWin_ne _ _ _ huw] at hu ⊢
      by_cases hvw : v = w
      · subst hvw
        rw [Exchange.win_modWin_self] at hv ⊢
        exact (hdisjoint hv u huw hu).2
      · rw [Exchange.win_modWin_ne _ _ _ hvw] at hv ⊢
        exact hdisjoint' u v hne hu hv
  · by_cases hvw : v = w
    · subst hvw
      rw [Exchange.win_modWin_self]
      exact ⟨hcontext, hstaged⟩
    · rw [Exchange.win_modWin_ne _ _ _ hvw]
      exact hwin v

/-! ### ENABLE and the register writes -/

/-- Sharing a byte does not depend on the order of the ranges. -/
theorem sharesByte_comm (a b c d : Nat) : sharesByte a b c d = sharesByte c d a b := by
  rw [Bool.eq_iff_iff]
  simp only [sharesByte, Bool.and_eq_true, decide_eq_true_eq]
  omega

theorem Geometry.overlaps_comm (g h : Geometry) : g.overlaps h = h.overlaps g := by
  unfold Geometry.overlaps
  rw [sharesByte_comm h.lbase.toNat, sharesByte_comm h.sbase.toNat h.slotAreaEnd g.sbase.toNat,
    sharesByte_comm h.lbase.toNat h.logicalEnd g.sbase.toNat, sharesByte_comm h.sbase.toNat h.slotAreaEnd g.lbase.toNat]
  cases sharesByte g.lbase.toNat g.logicalEnd h.lbase.toNat h.logicalEnd <;>
    cases sharesByte g.sbase.toNat g.slotAreaEnd h.sbase.toNat h.slotAreaEnd <;>
    cases sharesByte g.lbase.toNat g.logicalEnd h.sbase.toNat h.slotAreaEnd <;> simp

/-- A descriptor without a reason code passes checks 0x01 to 0x07, and 0x08 against every window that is not DISABLED (R102). -/
theorem configReason_eq_none_iff {ws : PerWindow WindowUnit} {w : Window} :
    configReason ws w = none ↔ (ws.get w).geom.reason = none ∧
      ∀ v, v ≠ w → (ws.get v).life ≠ .disabled → (ws.get w).geom.overlaps (ws.get v).geom = false := by
  unfold configReason
  split
  · next c hc => simp [hc]
  · next hc =>
    simp only [hc, ite_eq_right_iff, reduceCtorEq, imp_false, List.any_eq_true, Bool.and_eq_true, decide_eq_true_eq,
      not_exists, not_and, true_and, Bool.not_eq_true]
    exact ⟨fun h v hne hlive => h v (Window.mem_all v) ⟨hne, hlive⟩, fun h v _ hv => h v hv.1 hv.2⟩

theorem Context.start_nextSeq (g : Geometry) : (Context.start g).nextSeq = 1 := rfl

theorem Exchange.WindowsSound.enableWindow {x : Exchange} (hx : x.WindowsSound) (now : Word) {w : Window} (m : LiveMode)
    (hreason : configReason x.windows w = none) : (x.enableWindow now w m).WindowsSound := by
  obtain ⟨hchecks, hothers⟩ := configReason_eq_none_iff.mp hreason
  refine hx.modWin w (fun u => { u with life := .live m (Context.start u.geom) }) (fun _ => hchecks)
    (fun _ v hne hv => ?_) (fun c hc => ?_) (fun h => ?_)
  · have hfree := hothers v hne hv
    exact ⟨hfree, (Geometry.overlaps_comm _ _).trans hfree⟩
  · cases hc
    exact ⟨Context.start_slots _, Context.start_readers _, by rw [Context.start_nextSeq]; decide⟩
  · cases h

theorem WindowUnit.writeStaged_keeps (u : WindowUnit) (r : StagedReg) (v : Word) : u.Keeps (u.writeStaged r v) := by
  unfold WindowUnit.writeStaged
  split
  · exact ⟨rfl, id, fun d hd => ⟨d, hd, .refl d⟩, id⟩
  · next hlive => exact ⟨rfl, id, fun d hd => ⟨d, hd, .refl d⟩, fun _ he => absurd he hlive⟩

theorem State.writeRegister_windowsSound (s : State) (r : Register) (v : Word) (h : s.exch.WindowsSound) :
    (s.writeRegister r v).1.exch.WindowsSound := by
  cases r with
  | locked w reg =>
    simp only [State.writeRegister, State.writeLocked]
    split
    · next hlife =>
      refine h.modWin w _ (fun hlive => absurd hlife hlive) (fun hlive => absurd hlife hlive) (fun c hc => ?_) (h.2 w).2
      simp [WindowUnit.ctx?, hlife] at hc
    · exact h
  | staged w reg => exact h.of_keeps (s.exch.modWin_keeps w _ (WindowUnit.writeStaged_keeps _ reg v)).windows
  | _ => exact h

/-- What every event but PIN_RESET and TICK keeps of the windows. -/
theorem windowsSound_kept : KeptByEvents fun s => s.exch.WindowsSound where
  begin _ h := h
  flush _ h := h
  choices _ _ h := h
  link _ _ _ h := h
  exchange _ _ hx h := h.of_keeps hx.windows
  setFrame _ _ h := h
  snapshot _ _ h := h
  enable s _ m _ hreason h := h.enableWindow s.time.ticks m hreason
  recover s h := s.recover_exch ▸ h
  writeRegister s r v h := s.writeRegister_windowsSound r v h
  removeHead _ h := h
  pinRelease s h := by
    unfold State.pinRelease
    split <;> exact h
  assertPrst s p h := by
    refine State.unlessReset_kept (P := fun t => t.exch.WindowsSound) _ h ?_
    split
    · exact Exchange.WindowsSound.of_keeps (State.portReset_keeps _ p).windows h
    · exact h
  deassertPrst _ _ h := State.unlessReset_kept (P := fun t => t.exch.WindowsSound) _ h h
  grant s h := h.of_keeps s.grant_keeps.windows
  respond s resp h := h.of_keeps (s.respond_keeps resp).windows
  responseExpiry s place h := h.of_keeps (s.responseExpiry_keeps place).windows
  pulseExpiry s h := s.pulseExpiry_exch ▸ h

theorem Exchange.tick_windows (x : Exchange) (w : Window) : (x.win w).Keeps (x.tick.win w) := by
  rw [show x.tick.win w = (x.win w).mapCtx Context.tick from PerWindow.get_map ..]
  exact WindowUnit.mapCtx_keeps _ _ Context.tick_shape

theorem State.pinReset_win (s : State) (w : Window) : s.pinReset.exch.win w = .reset := by cases w <;> rfl

/-- Settles O7: ENABLE alone makes a window live, and tests the descriptor first; register writes spare the descriptor of a live
window; every other operation keeps descriptors and the shape of contexts. -/
theorem windowsStaySound : Obligations.WindowsStaySound := by
  intro s t h hstep
  refine windowsSound_kept.step (fun _ _ hs => hs) (fun u _ => ?_) (fun u hu => ?_) h hstep
  · exact .of_disabled fun w => by rw [u.pinReset_win w]; exact ⟨rfl, rfl⟩
  · exact hu.of_keeps u.exch.tick_windows

/-! ### The invariant of the ports -/

theorem PortUnit.Keeps.prstSound {u v : PortUnit} (h : u.Keeps v) (hu : u.prst = true → u.state = .inReset)
    (hv : v.prst = true) : v.state = .inReset := by
  have hprst : u.prst = true := h.prst ▸ hv
  obtain hstate | ⟨hfalse, -⟩ := h.state
  · rw [hstate]
    exact hu hprst
  · rw [hprst] at hfalse
    cases hfalse

theorem State.PrstSound.of_keeps {s t : State} (hreset : t.resetAsserted = s.resetAsserted)
    (hports : ∀ p, (s.exch.port p).Keeps (t.exch.port p)) (h : s.PrstSound) : t.PrstSound :=
  fun ht p hp => (hports p).prstSound (h (hreset ▸ ht) p) hp

theorem State.PrstSound.of_ports {s t : State} (hreset : t.resetAsserted = s.resetAsserted)
    (hports : ∀ p, (t.exch.port p).prst = (s.exch.port p).prst ∧ (t.exch.port p).state = (s.exch.port p).state)
    (h : s.PrstSound) : t.PrstSound := by
  intro ht p hp
  rw [(hports p).1] at hp
  rw [(hports p).2]
  exact h (hreset ▸ ht) p hp

/-- Only the port whose PRST moves needs an argument. -/
theorem State.PrstSound.of_modPort {s t : State} (p : Port) (hreset : t.resetAsserted = s.resetAsserted)
    (hothers : ∀ q, q ≠ p → t.exch.port q = s.exch.port q)
    (hport : (t.exch.port p).prst = true → (t.exch.port p).state = .inReset) (h : s.PrstSound) : t.PrstSound := by
  intro ht q hq
  by_cases hqp : q = p
  · subst hqp
    exact hport hq
  · rw [hothers q hqp] at hq ⊢
    exact h (hreset ▸ ht) q hq

theorem State.PrstSound.of_asserted {s : State} (h : s.resetAsserted = true) : s.PrstSound :=
  fun hr => by rw [h] at hr; cases hr

theorem portStateBy_true : portStateBy true = .inReset := rfl

theorem State.pinRelease_prstSound (s : State) (h : s.PrstSound) : s.pinRelease.PrstSound := by
  unfold State.pinRelease
  split
  · intro _ p hp
    rw [Exchange.port, PerPort.get_map] at hp ⊢
    exact (congrArg portStateBy hp).trans portStateBy_true
  · exact h

theorem PortUnit.state_eq_of_ne_active {u : PortUnit} (h : u.state ≠ .active) : u.state = .inReset := by
  cases hu : u.state with
  | active => exact absurd hu h
  | inReset => rfl

theorem State.assertPrst_prstSound (s : State) (p : Port) (h : s.PrstSound) : (s.assertPrst p).PrstSound := by
  unfold State.assertPrst State.unlessReset
  split
  · next hr => exact .of_asserted hr
  · dsimp only
    split
    · have hset : ({ s.setPrst p true with
          exch := (s.setPrst p true).exch.modPort p fun u => { u with state := .inReset } } : State).PrstSound := by
        refine State.PrstSound.of_modPort (s := s) p (by rfl) (fun q hq => ?_) (fun _ => ?_) h
        · simp [State.setPrst, hq]
        · simp
      exact .of_keeps (s := { s.setPrst p true with
        exch := (s.setPrst p true).exch.modPort p fun u => { u with state := .inReset } }) rfl (State.portReset_keeps _ p).ports hset
    · next hactive =>
      refine State.PrstSound.of_modPort (s := s) p (by rfl) (fun q hq => ?_) (fun _ => ?_) h
      · simp [State.setPrst, hq]
      · exact PortUnit.state_eq_of_ne_active hactive

theorem PortUnit.leaveReset_prst (u : PortUnit) : u.leaveReset.prst = u.prst := by
  unfold PortUnit.leaveReset
  split <;> rfl

theorem State.deassertPrst_prstSound (s : State) (p : Port) (h : s.PrstSound) : (s.deassertPrst p).PrstSound := by
  unfold State.deassertPrst State.unlessReset
  split
  · next hr => exact .of_asserted hr
  · dsimp only
    refine State.PrstSound.of_modPort (s := s) p (by rfl) (fun q hq => by simp [State.setPrst, hq]) (fun hp => ?_) h
    simp [State.setPrst, PortUnit.leaveReset_prst] at hp

/-- What every event but PIN_RESET and TICK keeps of the ports. -/
theorem prstSound_kept : KeptByEvents State.PrstSound where
  begin _ h := h
  flush _ h := h
  choices _ _ h := h
  link s p l h := State.PrstSound.of_ports (s := s) (by rfl) (h := h) fun q => by
    by_cases hq : q = p
    · subst hq
      simp
    · simp [hq]
  exchange s x hx h := .of_keeps (s := s) rfl hx.ports h
  setFrame _ _ h := h
  snapshot _ _ h := h
  enable _ _ _ _ _ h := h
  recover s h := h.of_ports s.recover_resetAsserted fun p => by simp [s.recover_exch]
  writeRegister s r v h := h.of_ports (s.writeRegister_resetAsserted r v) fun p => by simp [s.writeRegister_port r v p]
  removeHead _ h := h
  pinRelease s h := s.pinRelease_prstSound h
  assertPrst s p h := s.assertPrst_prstSound p h
  deassertPrst s p h := s.deassertPrst_prstSound p h
  grant s h := h.of_keeps s.grant_resetAsserted s.grant_keeps.ports
  respond s resp h := h.of_keeps (s.respond_resetAsserted resp) (s.respond_keeps resp).ports
  responseExpiry s place h := h.of_keeps (s.responseExpiry_resetAsserted place) (s.responseExpiry_keeps place).ports
  pulseExpiry s h := h.of_ports s.pulseExpiry_resetAsserted fun p => by simp [s.pulseExpiry_exch]

theorem Exchange.tick_port (x : Exchange) (p : Port) :
    x.tick.port p = { x.port p with hand := (x.port p).hand.tick } := PerPort.get_map ..

/-- Settles O8: a port leaves IN_RESET only with PRST deasserted, in every operation of the exchange; the commands that move PRST or
RESET_N set the state by its level. -/
theorem prstHoldsThePort : Obligations.PrstHoldsThePort := by
  intro s t h hstep
  refine prstSound_kept.step (fun _ _ hs => hs) (fun _ _ => .of_asserted rfl) (fun u hu => ?_) h hstep
  exact State.PrstSound.of_ports (s := u) (by rfl) (h := hu) fun p => by simp [State.tickBoundary, u.exch.tick_port p]

end Sys2Proof.Machine
end

section
/-!
RESET_N: a part that it holds in its pin-reset state ignores the bytes of a frame and takes no request (R115, R140, R154); what
PIN_RESET leaves (R115); and the memory port's invariant, which a request in hand under the name of the carry engine breaks.
-/

namespace Sys2Proof.Machine

/-! ### A management port without a running frame (R154) -/

/-- No frame is taken: CS_N is high, or the frame is one that is ignored. -/
def State.NoFrame (s : State) : Prop := ∀ f, s.mgmt.frame ≠ .running f

namespace State.NoFrame

variable {s : State} (h : s.NoFrame)

include h

theorem beginByte : s.beginByte = s := by
  unfold State.beginByte
  split
  · next f hf => exact absurd hf (h f)
  · rfl
  · rfl

theorem clockByte (mosi : Byte) : s.clockByte mosi = s := by
  unfold State.clockByte
  dsimp only
  rw [h.beginByte]
  split
  · next f hf => exact absurd hf (h f)
  · rfl
  · rfl

theorem send (bytes : List Byte) : s.send bytes = s := by
  unfold State.send
  split
  · next f hf => exact absurd hf (h f)
  · rfl
  · rfl

theorem sendWord (addr : Nat) (v : Word) : s.sendWord addr v = s := by
  unfold State.sendWord
  split
  · next f hf => exact absurd hf (h f)
  · rfl
  · rfl

theorem nextRegister : s.nextRegister = s := by
  unfold State.nextRegister
  split
  · next f hf => exact absurd hf (h f)
  · rfl
  · rfl

theorem restOfSnapshot : s.restOfSnapshot = s := by
  unfold State.restOfSnapshot
  split
  · next f hf => exact absurd hf (h f)
  · rfl
  · rfl

theorem restOfRecord : s.restOfRecord = s := by
  unfold State.restOfRecord
  split
  · next f hf => exact absurd hf (h f)
  · rfl
  · rfl

end State.NoFrame

/-! ### The pin-reset state -/

/-- RESET_N is asserted, and the part is in its pin-reset state (R115). -/
structure State.AtPinReset (s : State) : Prop where
  asserted : s.resetAsserted = true
  held : s.HeldInReset

theorem State.AtPinReset.noFrame {s : State} (h : s.AtPinReset) : s.NoFrame := by
  obtain ⟨-, -, -, -, -, -, -, -, -, -, -, hframe, -⟩ := h.held h.asserted
  exact hframe

theorem State.AtPinReset.raised {s : State} (h : s.AtPinReset) : s.exch.raised = [] := by
  obtain ⟨-, -, -, -, -, -, -, hraised, -⟩ := h.held h.asserted
  exact hraised

theorem State.linkPorts_of_asserted {s : State} (h : s.resetAsserted = true) : s.linkPorts = [] := by
  simp [State.linkPorts, State.portReady, h]

theorem State.AtPinReset.finish_eq {s : State} (h : s.AtPinReset) : s.finish = s :=
  s.finish_of_none h.raised (State.linkPorts_of_asserted h.asserted)

theorem State.unlessReset_of_asserted (f : State → State) {s : State} (h : s.resetAsserted = true) : s.unlessReset f = s :=
  if_pos h

theorem PortUnit.pinReset_hand (u : PortUnit) : u.pinReset.hand = .none := rfl

theorem State.pinReset_port (s : State) (p : Port) : s.pinReset.exch.port p = (s.exch.port p).pinReset := PerPort.get_map ..

theorem Frame.pinReset_ne_running (g : Frame) (f : FrameState) : g.pinReset ≠ .running f := by
  cases g <;> simp [Frame.pinReset]

theorem State.pinReset_atPinReset (s : State) : s.pinReset.AtPinReset := by
  refine ⟨rfl, fun _ => ⟨rfl, rfl, rfl, s.pinReset_win, fun p => ?_, rfl, rfl, rfl, rfl, rfl, rfl, ?_, rfl, rfl⟩⟩
  · rw [s.pinReset_port, PortUnit.pinReset_hand]
  · exact s.mgmt.frame.pinReset_ne_running

/-- PRST, the links and CS_N are the outside's, and may change under RESET_N. -/
theorem State.AtPinReset.of_outside {s t : State} (h : s.AtPinReset) (ports : PerPort PortUnit) (m : Mgmt)
    (ht : t = { s with exch := { s.exch with ports := ports }, mgmt := m })
    (hhand : ∀ p, (ports.get p).hand = .none) (hframe : ∀ f, m.frame ≠ .running f) (hsnapshot : m.snapshot = none) :
    t.AtPinReset := by
  obtain ⟨htime, htimeout, henable, hwin, -, hcarry, hout, hraised, hanswers, hmem, hevents, -, -, hissued⟩ :=
    h.held h.asserted
  subst ht
  exact ⟨h.asserted, fun _ =>
    ⟨htime, htimeout, henable, hwin, hhand, hcarry, hout, hraised, hanswers, hmem, hevents, hframe, hsnapshot, hissued⟩⟩

theorem State.AtPinReset.begin {s : State} (h : s.AtPinReset) : s.begin.AtPinReset := by
  obtain ⟨htime, htimeout, henable, hwin, hhand, hcarry, hout, hraised, -, hmem, hevents, hframe, hsnapshot, -⟩ :=
    h.held h.asserted
  exact ⟨h.asserted, fun _ =>
    ⟨htime, htimeout, henable, hwin, hhand, hcarry, hout, hraised, rfl, hmem, hevents, hframe, hsnapshot, rfl⟩⟩

/-- The level of PRST and the requests on the link of a port move, and nothing else of it. -/
theorem State.AtPinReset.modPort {s : State} (h : s.AtPinReset) (p : Port) (f : PortUnit → PortUnit)
    (hf : ∀ u, (f u).hand = u.hand) : ({ s with exch := s.exch.modPort p f } : State).AtPinReset := by
  obtain ⟨-, -, -, -, hhand, -, -, -, -, -, -, hframe, hsnapshot, -⟩ := h.held h.asserted
  refine h.of_outside (s.exch.modPort p f).ports s.mgmt rfl (fun q => ?_) hframe hsnapshot
  by_cases hq : q = p
  · subst hq
    exact (congrArg PortUnit.hand (Exchange.port_modPort_self s.exch q f)).trans ((hf _).trans (hhand q))
  · exact (congrArg PortUnit.hand (Exchange.port_modPort_ne s.exch p f hq)).trans (hhand q)

theorem State.AtPinReset.setFrame {s : State} (h : s.AtPinReset) {f : Frame} (hf : ∀ g, f ≠ .running g) :
    (s.setFrame f).AtPinReset := by
  obtain ⟨-, -, -, -, hhand, -, -, -, -, -, -, -, hsnapshot, -⟩ := h.held h.asserted
  exact h.of_outside s.exch.ports { s.mgmt with frame := f } rfl hhand hf hsnapshot

theorem State.AtPinReset.arrive {s : State} (h : s.AtPinReset) (p : Port) (r : Request) : (s.arrive p r).AtPinReset := by
  have hready : s.portReady p = false := by simp [State.portReady, h.asserted]
  rw [State.arrive, hready]
  exact h.modPort p _ fun _ => rfl

theorem State.AtPinReset.setPrst {s : State} (h : s.AtPinReset) (p : Port) (b : Bool) (f : State → State) :
    ((s.setPrst p b).unlessReset f).AtPinReset := by
  rw [State.unlessReset_of_asserted f (s := s.setPrst p b) h.asserted]
  exact h.modPort p _ fun _ => rfl

theorem State.AtPinReset.frameStart {s : State} (h : s.AtPinReset) : s.frameStart.AtPinReset := by
  unfold State.frameStart
  split
  · rw [if_pos h.asserted]
    exact h.setFrame fun _ hf => by cases hf
  · exact h
  · exact h

theorem State.AtPinReset.pinRelease_resetAsserted {s : State} (h : s.AtPinReset) : s.pinRelease.resetAsserted = false := by
  rw [State.pinRelease, if_pos h.asserted]

/-- Under RESET_N every command but PIN_RESET_RELEASE leaves the part in its pin-reset state. -/
theorem State.AtPinReset.effect {i : Instr} {s : State} (h : s.AtPinReset) (hi : i ≠ .pinResetRelease) :
    (effect i s).AtPinReset := by
  have of_eq {t : State} (ht : t = s) : t.AtPinReset := ht ▸ h
  have hf := h.noFrame
  cases i with
  | pinReset => exact s.pinReset_atPinReset
  | pinResetRelease => exact absurd rfl hi
  | tick => exact of_eq (State.unlessReset_of_asserted _ h.asserted)
  | portReset p => exact h.setPrst p true _
  | portResetRelease p => exact h.setPrst p false fun t => { t with exch := t.exch.modPort p PortUnit.leaveReset }
  | passThrough p r => exact h.arrive p r
  | writerPayloadAccess p r => exact h.arrive p r
  | writerHeaderRead p addr => exact h.arrive p _
  | explicitCommit p addr value => exact h.arrive p _
  | explicitAbandon p addr value => exact h.arrive p _
  | explicitAcquire p addr => exact h.arrive p _
  | explicitRelease p addr => exact h.arrive p _
  | readerPayloadRead p addr size => exact h.arrive p _
  | arbiterGrant => exact of_eq (State.unlessReset_of_asserted _ h.asserted)
  | memoryResponse resp => exact of_eq (State.unlessReset_of_asserted (fun s => s.respond resp) h.asserted)
  | responseTimerExpiry place =>
    exact of_eq (State.unlessReset_of_asserted (fun s => s.responseExpiry place) h.asserted)
  | recoveryPulseExpiry => exact of_eq (State.unlessReset_of_asserted _ h.asserted)
  | fillTimerExpiry w =>
    exact of_eq (State.unlessReset_of_asserted (fun s => s.onExchange fun now x => x.fillExpiry now w) h.asserted)
  | holdTimerExpiry w p =>
    exact of_eq (State.unlessReset_of_asserted (fun s => s.onExchange fun now x => x.holdExpiry now w p) h.asserted)
  | stallTimerExpiry p =>
    exact of_eq (State.unlessReset_of_asserted (fun s => s.onExchange fun now x => x.stallExpiry now p) h.asserted)
  | spiFrameEnd => exact h.setFrame fun _ hc => by cases hc
  | readRegisters e =>
    cases e with
    | taken addr count => exact of_eq (hf.send _)
    | nextRegister => exact of_eq hf.nextRegister
  | writeRegisters e => exact of_eq (hf.send _)
  | registerWrite addr value => exact of_eq (hf.sendWord _ _)
  | lockedRegisterWrite w reg value => exact of_eq (hf.sendWord _ _)
  | stagedRegisterWrite w reg value => exact of_eq (hf.sendWord _ _)
  | tbDivWrite value => exact of_eq (hf.sendWord _ _)
  | memTimeoutWrite value => exact of_eq (hf.sendWord _ _)
  | eventEnableWrite value => exact of_eq (hf.sendWord _ _)
  | enable window mode => exact of_eq (hf.send _)
  | drain window => exact of_eq (hf.send _)
  | disable window => exact of_eq (hf.send _)
  | snapshot window => exact of_eq (hf.send _)
  | readSnapshot => exact of_eq (hf.send _)
  | discardSnapshot => exact of_eq (hf.send _)
  | readEvents maximum => exact of_eq (hf.send _)
  | clearCounters window => exact of_eq (hf.send _)
  | restart => exact of_eq (hf.send _)
  | recoverMemoryPort => exact of_eq (hf.send _)
  | readTime => exact of_eq (hf.send _)
  | unknownCommand code => exact of_eq (hf.send _)
  | snapshotConsumed => exact of_eq hf.restOfSnapshot
  | eventRecordRemoval => exact of_eq hf.restOfRecord
  | classifierRefusal p r => exact h.arrive p r
  | spiFrameStart e =>
    cases e with
    | edge => exact h.frameStart
    | firstBit => exact of_eq hf.beginByte
    | byte mosi => exact of_eq (hf.clockByte mosi)

/-! ### RESET_N is asserted by PIN_RESET alone -/

theorem State.unlessReset_resetAsserted {s : State} {f : State → State} (hf : (f s).resetAsserted = s.resetAsserted) :
    (s.unlessReset f).resetAsserted = s.resetAsserted := by
  unfold State.unlessReset
  split
  · rfl
  · exact hf

theorem deasserted_kept : KeptByEvents fun s => s.resetAsserted = false where
  begin _ h := h
  flush _ h := h
  choices _ _ h := h
  link _ _ _ h := h
  exchange _ _ _ h := h
  setFrame _ _ h := h
  snapshot _ _ h := h
  enable _ _ _ _ _ h := h
  recover s h := s.recover_resetAsserted.trans h
  writeRegister s r v h := (s.writeRegister_resetAsserted r v).trans h
  removeHead _ h := h
  pinRelease s h := by rw [State.pinRelease, h]; exact h
  assertPrst s p h := by
    refine (State.unlessReset_resetAsserted ?_).trans h
    split <;> rfl
  deassertPrst s p h := (State.unlessReset_resetAsserted rfl).trans h
  grant s h := s.grant_resetAsserted.trans h
  respond s resp h := (s.respond_resetAsserted resp).trans h
  responseExpiry s place h := (s.responseExpiry_resetAsserted place).trans h
  pulseExpiry s h := s.pulseExpiry_resetAsserted.trans h

theorem State.finish_resetAsserted (s : State) : s.finish.resetAsserted = s.resetAsserted := s.finish_frame.1

theorem State.heldInReset_of_deasserted {s : State} (h : s.resetAsserted = false) : s.HeldInReset :=
  fun hr => by rw [h] at hr; cases hr

theorem State.HeldInReset.event {s : State} (h : s.HeldInReset) (i : Instr) :
    (Machine.effect i s.begin).finish.HeldInReset := by
  have of_end {t : State} (ht : t.AtPinReset) : t.finish.HeldInReset := by
    rw [ht.finish_eq]
    exact ht.held
  by_cases hreset : i = .pinReset
  · subst hreset
    exact of_end s.begin.pinReset_atPinReset
  · cases hr : s.resetAsserted with
    | false =>
      have hbegin : s.begin.resetAsserted = false := hr
      refine State.heldInReset_of_deasserted ((State.finish_resetAsserted _).trans ?_)
      exact deasserted_kept.effect hbegin (fun e => absurd e hreset) fun _ => hbegin
    | true =>
      have hs : s.begin.AtPinReset := State.AtPinReset.begin ⟨hr, h⟩
      by_cases hrelease : i = .pinResetRelease
      · subst hrelease
        exact State.heldInReset_of_deasserted ((State.finish_resetAsserted _).trans hs.pinRelease_resetAsserted)
      · exact of_end (hs.effect hrelease)

/-- Settles O9: only PIN_RESET asserts RESET_N, into the pin-reset state; under RESET_N no frame is taken and no port takes a
request, so that only PIN_RESET_RELEASE leads out. -/
theorem pinResetHoldsThePart : Obligations.PinResetHoldsThePart := by
  intro s t h hstep
  obtain rfl | ⟨i, rest, -, rfl⟩ := step_next hstep
  · exact h
  · exact State.HeldInReset.event (s := { s with pending := rest }) h i

/-! ### PIN_RESET -/

theorem Frame.pinReset_eq_closed_iff (f : Frame) : f.pinReset = .closed ↔ f = .closed := by
  cases f <;> simp [Frame.pinReset]

/-- Settles O14: the pin-reset state raises no record and no port takes a request under RESET_N, so that the event ends there. -/
theorem pinResetResult : Obligations.PinResetResult := by
  intro s
  have hend := State.pinReset_atPinReset s.begin
  refine ⟨s.begin.pinReset, congrArg Host.Outcome.next hend.finish_eq, hend.asserted, hend.held, fun p => ?_, ?_, rfl⟩
  · rw [State.pinReset_port]
    exact ⟨rfl, rfl⟩
  · exact s.mgmt.frame.pinReset_eq_closed_iff

/-! ### Requests of the carry engine -/

/-- A part in which port A presents a request to the memory port that bears the name of the carry engine, while one of the engine's
own is outstanding; the invariant says nothing of what the ports have in hand. -/
def State.misnamed : State :=
  let m : MemRequest :=
    { request := wordRead 0, origin := .carry, kind := .carryRead, window := some .W0, slot := some .s0 }
  { State.reset with
    exch := { (Exchange.reset.setHand .A (.presented (wordRead 0) m false)) with
      outstanding := [{ mem := m, discarded := false, timer := .stopped }] },
    pending := [.arbiterGrant] }

theorem State.misnamed_memorySound : State.misnamed.MemorySound :=
  ⟨by decide, by decide, fun h => absurd rfl h, .refl _⟩

theorem State.misnamed_step : ∃ t, step State.misnamed = .next t ∧ t.exch.carryEntries = 2 := ⟨_, rfl, by decide⟩

/-- Refutes O5: the invariant does not confine the requests that ports present, so a grant can issue a second request that bears the
name of the carry engine. -/
theorem not_memoryPortStaysSound : ¬ Obligations.MemoryPortStaysSound := by
  intro h
  obtain ⟨t, hstep, hcount⟩ := State.misnamed_step
  obtain ⟨-, hcarry, -⟩ := h State.misnamed t State.misnamed_memorySound hstep
  omega

end Sys2Proof.Machine
end

section
/-!
How an event that changes the exchange alone ends, with no record and with one; and the statements that need no more than that:
reset values (R186), timers (R3), TICK (R1), requests that wait on a link, pass through or are refused (R120, R130, R131).
-/

namespace Sys2Proof.Machine

/-! ### The end of an event that changes the exchange alone -/

/-- The command brings the exchange to z, where no port that takes requests has one on its link. -/
structure State.Reaches (s : State) (i : Instr) (z : Exchange) : Prop where
  exec : exec i s = .next ({ s.begin with exch := z } : State).finish
  links : ({ s.begin with exch := z } : State).linkPorts = []

theorem State.Reaches.endsIn {s : State} {i : Instr} {z : Exchange} (h : s.Reaches i z) : s.EndsIn i z := by
  obtain ⟨events, choices, hflush, hoffers⟩ := ({ s.begin with exch := z } : State).flush_eq
  refine ⟨events, choices, ?_, hoffers⟩
  rw [h.exec, State.finish, hflush]
  exact congrArg Host.Outcome.next (State.takeLinks_of_none _ h.links)

theorem State.Reaches.next_of_none {s : State} {i : Instr} {z : Exchange} (h : s.Reaches i z) (hr : z.raised = []) :
    Machine.exec i s = .next { s.begin with exch := z } := by
  rw [h.exec, State.finish_of_none _ hr h.links]

theorem State.Reaches.next_of_one {s : State} {i : Instr} {z : Exchange} (h : s.Reaches i z) (r : EventRecord)
    (hr : z.raised = [r]) :
    Machine.exec i s = .next { s.begin with exch := { z with raised := [] }, events := s.record r } := by
  rw [h.exec, State.finish, State.flush_of_one _ r hr]
  exact congrArg Host.Outcome.next (State.takeLinks_of_none _ h.links)

/-- A request that a port takes (R120). -/
theorem State.Takes.reaches {s : State} {i : Instr} {p : Port} {r : Request} (h : s.Takes i p r) :
    s.Reaches i (s.begin.exch.take s.time.ticks p r) := by
  obtain ⟨hi, hw, ⟨-, hlinks⟩, hopen⟩ := h
  refine ⟨State.exec_request_eq i p r s hi hw hopen (hlinks p), State.linkPorts_of_empty _ fun q => ?_⟩
  exact ((s.begin.exch.take_keeps s.time.ticks p r).ports q).link.trans (hlinks q)

/-- What a request of that class comes to. -/
theorem State.Takes.reaches_of_classify {s : State} {i : Instr} {p : Port} {r : Request} (h : s.Takes i p r) {c : RequestClass}
    (hc : classify s.exch.windows p r = c) : s.Reaches i (s.begin.exch.dispatch s.time.ticks p r c) := by
  have hreaches := h.reaches
  rwa [Exchange.take, State.begin_windows, hc] at hreaches

theorem State.Takes.raised {s : State} {i : Instr} {p : Port} {r : Request} (h : s.Takes i p r) : s.exch.raised = [] := by
  obtain ⟨-, -, ⟨hraised, -⟩, -⟩ := h
  exact hraised

theorem State.Takes.hand {s : State} {i : Instr} {p : Port} {r : Request} (h : s.Takes i p r) : (s.exch.port p).hand = .none := by
  obtain ⟨-, -, -, -, -, hhand⟩ := h
  exact hhand

theorem State.Takes.setHand_none {s : State} {i : Instr} {p : Port} {r : Request} (h : s.Takes i p r) :
    s.begin.exch.setHand p .none = s.begin.exch := Exchange.setHand_none_of_hand_none h.hand

/-! ### Requests that pass through, are refused, or wait -/

/-- Settles O18: a PASS request is forwarded, and raises no record. -/
theorem passThroughResult : Obligations.PassThroughResult := by
  intro s i p r ht hc
  exact (ht.reaches_of_classify hc).next_of_none ht.raised

/-- Settles O20: the effect of every refusal by the classifier. -/
theorem refusedRequestResult : Obligations.RefusedRequestResult := by
  intro s i p r cause w ht hc
  exact State.exec_of_classify_refused ht hc

theorem exec_of_requestOf {i : Instr} {p : Port} {r : Request} (hi : requestOf i = some (p, r)) (s : State)
    (hw : r.wellFormed = true) : exec i s = .next (s.begin.arrive p r).finish := by
  rw [← s.request_eq p r hw]
  cases i <;> simp only [requestOf, Option.some.injEq, Prod.mk.injEq, reduceCtorEq] at hi <;> obtain ⟨rfl, rfl⟩ := hi <;> rfl

/-- A request at the end of the link of a port that takes none makes no port take one. -/
theorem State.linkPorts_of_link {s : State} {p : Port} (hp : s.portReady p = false) (hnone : s.linkPorts = [])
    (l : List Request) : ({ s with exch := s.exch.modPort p fun u => { u with link := l } } : State).linkPorts = [] := by
  refine List.filter_eq_nil_iff.mpr fun q hq => ?_
  by_cases hqp : q = p
  · subst hqp
    have hsame : ({ s with exch := s.exch.modPort q fun u => { u with link := l } } : State).portReady q = s.portReady q := by
      simp [State.portReady, PortUnit.takes]
    rw [hsame, hp, Bool.false_and]
    exact Bool.false_ne_true
  · have hold := List.filter_eq_nil_iff.mp hnone q hq
    simpa [State.portReady, hqp] using hold

/-- Settles O17: a request that its port cannot take joins the link. -/
theorem requestWaitsOnTheLink : Obligations.RequestWaitsOnTheLink := by
  intro s i p r hi hw hs hp
  have hready : s.begin.portReady p = false := hp
  obtain ⟨hraised, hlinks⟩ := hs
  rw [exec_of_requestOf hi s hw, State.arrive, hready]
  refine congrArg Host.Outcome.next (State.finish_of_none _ hraised ?_)
  exact State.linkPorts_of_link hready hlinks _

/-! ### Reset values (R186) -/

theorem State.reset_windows_disabled (w : Window) : (State.reset.exch.win w).life = .disabled ∧
    (State.reset.exch.win w).staged = .none := by cases w <;> exact ⟨rfl, rfl⟩

theorem State.reset_readRegister_window (w : Window) (n : Nat) : State.reset.readRegister (windowRegister w n) = 0 := by
  unfold windowRegister
  split <;> cases w <;> rfl

theorem State.reset_readRegister_global (n : Nat) : State.reset.readRegister (globalRegister (n + 3)) = 0 := by
  rcases n with _ | _ | _ | _ | _ | n <;> rfl

theorem State.reset_readRegister (a : Nat) : State.reset.readRegister (registerAt a) =
    if a = 0 then 0x18 else if a = 1 then 0x3E8 else if a = 2 then 0xFE else 0 := by
  unfold registerAt
  split
  · rcases a with _ | _ | _ | n
    · rfl
    · rfl
    · rfl
    · simp [State.reset_readRegister_global n]
  · next ha =>
    rw [if_neg (by omega), if_neg (by omega), if_neg (by omega)]
    split
    · exact State.reset_readRegister_window _ _
    · rfl

/-- Settles O3: the value of every address, and the invariants on a state with every window DISABLED and nothing in hand. -/
theorem resetState : Obligations.ResetState := by
  obtain ⟨hranges, hwindows⟩ := Exchange.WindowsSound.of_disabled State.reset_windows_disabled
  refine ⟨fun a => State.reset_readRegister a.val, ⟨Nat.zero_le _, fun h => absurd rfl h⟩, ⟨by decide, by decide, fun _ => rfl, .refl _⟩, ⟨rfl, by decide⟩,
    hranges, hwindows, fun _ p hp => ?_, State.heldInReset_of_deasserted rfl⟩
  cases p <;> cases hp

/-! ### Timers (R3) -/

theorem Timer.tick_iterate_stopped (n : Nat) : Timer.tick^[n] .stopped = .stopped :=
  Function.iterate_fixed rfl n

theorem Timer.tick_iterate_running (n k : Nat) : Timer.tick^[n] (.running k) = .running (k - n) := by
  induction n generalizing k with
  | zero => rfl
  | succ n ih =>
    rw [Function.iterate_succ_apply, show Timer.tick (.running k) = .running (k - 1) from rfl, ih, Nat.sub_sub, Nat.add_comm]

/-- Settles O12: a running timer counts one down at each tick boundary, and stays at 0. -/
theorem timerExpiresAtItsLimit : Obligations.TimerExpiresAtItsLimit := by
  refine fun limit => ⟨fun h n => ?_, fun h n => ?_⟩
  · rw [Timer.arm, if_pos h, Timer.tick_iterate_stopped]
    rfl
  · rw [Timer.arm, if_neg h, Timer.tick_iterate_running]
    simp [Timer.due]
    omega

/-! ### TICK (R1, R3) -/

theorem State.tickBoundary_linkPorts (s : State) : s.tickBoundary.linkPorts = s.linkPorts := by
  refine List.filter_congr fun p _ => ?_
  have hport : s.tickBoundary.exch.port p = { s.exch.port p with hand := (s.exch.port p).hand.tick } := s.exch.tick_port p
  have htakes : ({ s.exch.port p with hand := (s.exch.port p).hand.tick } : PortUnit).takes = (s.exch.port p).takes := by
    cases h : (s.exch.port p).hand <;> simp [PortUnit.takes, h, Hand.tick]
  rw [State.portReady, State.portReady, hport, htakes]
  rfl

theorem Exchange.tick_win (x : Exchange) (w : Window) : x.tick.win w = (x.win w).mapCtx Context.tick := PerWindow.get_map ..

/-- Settles O13: a tick boundary raises no record, and leaves every port as ready to take requests as it was. -/
theorem tickResult : Obligations.TickResult := by
  intro s hr hs
  obtain ⟨hraised, hlinks⟩ := hs
  have hboundary : s.begin.unlessReset State.tickBoundary = s.begin.tickBoundary := by
    rw [State.unlessReset, State.begin_resetAsserted, hr]
    rfl
  refine ⟨s.begin.tickBoundary, ?_, rfl, fun p => ?_, fun w => ?_, rfl, rfl, rfl, rfl, rfl, rfl, rfl, rfl, rfl, hr, rfl⟩
  · refine congrArg Host.Outcome.next ((congrArg State.finish hboundary).trans (State.finish_of_none _ hraised ?_))
    exact s.begin.tickBoundary_linkPorts.trans hlinks
  · rw [show s.begin.tickBoundary.exch.port p = _ from s.begin.exch.tick_port p]
    refine ⟨rfl, rfl, rfl, ?_⟩
    rw [State.begin_port]
    cases (s.exch.port p).hand <;> rfl
  · have hw : s.begin.tickBoundary.exch.win w = (s.exch.win w).mapCtx Context.tick := s.begin.exch.tick_win w
    rw [Exchange.ctx?, Exchange.ctx?, hw]
    refine ⟨by simp, by simp, by simp, by simp, by simp, ?_⟩
    rw [WindowUnit.ctx?_mapCtx]
    rfl

end Sys2Proof.Machine
end

section
/-!
Operations on one context: what a give-back (R53) and a LATEST commit (R31, R32) do to each slot, to the ready queue and to the
bindings.
-/

namespace Sys2Proof.Machine

/-! ### Slots that settle or retire -/

section
variable (c : Context) (k : SlotId)

theorem Context.get_settle_self {sl : Slot} (h : c.slots.get k = some sl) : (c.settle k).slots.get k = some sl.settled :=
  (Context.slot?_modSlot_self c k Slot.settled).trans (congrArg (Option.map Slot.settled) h)

theorem Context.get_settle_ne {j : SlotId} (h : j ≠ k) : (c.settle k).slots.get j = c.slots.get j :=
  Context.slot?_modSlot_ne c k Slot.settled h

theorem Context.get_retire_self {sl : Slot} (h : c.slots.get k = some sl) :
    (c.retire k).slots.get k = some { sl with state := .retired } :=
  (Context.slot?_modSlot_self c k _).trans (congrArg (Option.map _) h)

theorem Context.get_retire_ne {j : SlotId} (h : j ≠ k) : (c.retire k).slots.get j = c.slots.get j :=
  Context.slot?_modSlot_ne c k _ h

/-- Nothing but one slot and the ready queue changes. -/
structure Context.SameButSlot (c d : Context) (k : SlotId) : Prop where
  slots : ∀ j, j ≠ k → d.slots.get j = c.slots.get j
  readers : d.readers = c.readers
  writer : d.writer = c.writer
  base : d.base = c.base
  nextSeq : d.nextSeq = c.nextSeq

theorem Context.SameButSlot.refl : c.SameButSlot c k := ⟨fun _ _ => rfl, rfl, rfl, rfl, rfl⟩

variable {c k} in
theorem Context.SameButSlot.trans {d e : Context} (h : c.SameButSlot d k) (i : d.SameButSlot e k) : c.SameButSlot e k :=
  ⟨fun j hj => (i.slots j hj).trans (h.slots j hj), i.readers.trans h.readers, i.writer.trans h.writer, i.base.trans h.base,
    i.nextSeq.trans h.nextSeq⟩

theorem Context.setSlot_same (sl : Slot) : c.SameButSlot (c.setSlot k sl) k :=
  ⟨fun _ hj => Context.slot?_setSlot_ne c k sl hj, rfl, rfl, rfl, rfl⟩

theorem Context.settle_same : c.SameButSlot (c.settle k) k :=
  ⟨fun _ hj => c.get_settle_ne k hj, c.modSlot_readers k _, c.modSlot_writer k _, c.modSlot_base k _, c.modSlot_nextSeq k _⟩

theorem Context.retire_same : c.SameButSlot (c.retire k) k :=
  ⟨fun _ hj => c.get_retire_ne k hj, c.modSlot_readers k _, c.modSlot_writer k _, c.modSlot_base k _, c.modSlot_nextSeq k _⟩

end

/-! ### Giving back (R53) -/

/-- The slot of a reader that gives it back, before it settles or retires. -/
def Slot.givenBack (sl : Slot) (d : Delivery) (p : Port) : Slot :=
  { sl with holders := sl.holders.set p false, pending := if d = .stream then sl.pending.set p false else sl.pending }

section
variable {c : Context} {k : SlotId} {sl : Slot} (d : Delivery) (p : Port)

theorem Context.giveBackSlot_stream_ready (hk : c.slots.get k = some sl) (hs : sl.state = .ready) :
    c.giveBackSlot .stream p k =
      if sl.pending.set p false = noPorts then
        if sl.carryRef = true then (c.setSlot k (sl.givenBack .stream p)).retire k
        else (c.setSlot k (sl.givenBack .stream p)).settle k
      else c.setSlot k (sl.givenBack .stream p) := by
  obtain ⟨_, _, _, _, _, _, _, _, _⟩ := sl
  cases hs
  rw [Context.giveBackSlot, Context.slot?, hk]
  simp only [← PortSet.isEmpty_iff]
  rfl

theorem Context.giveBackSlot_latest_ready (hk : c.slots.get k = some sl) (hs : sl.state = .ready) :
    c.giveBackSlot .latest p k = c.setSlot k (sl.givenBack .latest p) := by
  obtain ⟨_, _, _, _, _, _, _, _, _⟩ := sl
  cases hs
  rw [Context.giveBackSlot, Context.slot?, hk]
  rfl

theorem Context.giveBackSlot_retired (hk : c.slots.get k = some sl) (hs : sl.state = .retired) :
    c.giveBackSlot d p k =
      if sl.holders.set p false = noPorts ∧ sl.carryRef = false then (c.setSlot k (sl.givenBack d p)).settle k
      else c.setSlot k (sl.givenBack d p) := by
  obtain ⟨_, _, _, _, _, _, _, _, _⟩ := sl
  cases hs
  rw [Context.giveBackSlot, Context.slot?, hk]
  simp only [← PortSet.isEmpty_iff, ← Bool.not_eq_true', ← Bool.and_eq_true]
  cases d <;> rfl

theorem Context.giveBackSlot_other (hk : c.slots.get k = some sl) (hready : sl.state ≠ .ready) (hretired : sl.state ≠ .retired) :
    c.giveBackSlot d p k = c.setSlot k (sl.givenBack d p) := by
  rw [Context.giveBackSlot, Context.slot?, hk]
  obtain ⟨st, _, _, _, _, _, _, _, _⟩ := sl
  cases st with
  | ready => exact absurd rfl hready
  | retired => exact absurd rfl hretired
  | _ => cases d <;> rfl

/-- Whatever the slot is, a give-back changes it and the ready queue alone. -/
theorem Context.giveBackSlot_same (hk : c.slots.get k = some sl) : c.SameButSlot (c.giveBackSlot d p k) k := by
  have hset : c.SameButSlot (c.setSlot k (sl.givenBack d p)) k := c.setSlot_same k _
  by_cases hready : sl.state = .ready
  · cases d with
    | stream =>
      rw [Context.giveBackSlot_stream_ready p hk hready]
      split
      · split
        · exact hset.trans (Context.retire_same _ k)
        · exact hset.trans (Context.settle_same _ k)
      · exact hset
    | latest =>
      rw [Context.giveBackSlot_latest_ready p hk hready]
      exact hset
  · by_cases hretired : sl.state = .retired
    · rw [Context.giveBackSlot_retired d p hk hretired]
      split
      · exact hset.trans (Context.settle_same _ k)
      · exact hset
    · rw [Context.giveBackSlot_other d p hk hready hretired]
      exact hset

variable {b : ReaderBinding} (after : ReaderState)

theorem Context.giveBack_of_holding (hb : c.readers.get p = some b) (hs : b.state = .holding k) :
    c.giveBack d p after = (c.giveBackSlot d p k).setReader p { b with state := after, holdTimer := .stopped } := by
  rw [Context.giveBack, Context.reader?, hb]
  simp only [hs]

end

theorem Context.get_setSlot_self (c : Context) (k : SlotId) (sl : Slot) : (c.setSlot k sl).slots.get k = some sl :=
  Context.slot?_setSlot_self c k sl

/-- Settles O36: by the delivery mode and the state of the slot. -/
theorem giveBackEffect : Obligations.GiveBackEffect := by
  intro c p k sl b after hk hb hs
  have hgive (d : Delivery) := Context.giveBack_of_holding (c := c) d p after hb hs
  have hself (d : Delivery) : (c.setSlot k (sl.givenBack d p)).slots.get k = some (sl.givenBack d p) := c.get_setSlot_self k _
  refine ⟨fun hready hpending => ?_, fun hready hpending hcarry => ?_, fun hready hpending hcarry => ?_, fun hready => ?_,
    fun hretired hkeeps => ?_, fun hretired hholders hcarry => ?_, fun d => ?_⟩
  · rw [hgive, Context.giveBackSlot_stream_ready p hk hready, if_neg hpending]
    exact ⟨hself .stream, rfl⟩
  · rw [hgive, Context.giveBackSlot_stream_ready p hk hready, if_pos hpending, if_pos hcarry]
    refine ⟨(Context.get_retire_self _ k (hself .stream)).trans ?_, rfl⟩
    simp [Slot.givenBack, hpending]
  · rw [hgive, Context.giveBackSlot_stream_ready p hk hready, if_pos hpending, if_neg (by simp [hcarry])]
    refine ⟨(Context.get_settle_self _ k (hself .stream)).trans ?_, rfl⟩
    simp [Slot.givenBack, Slot.settled, hcarry]
  · rw [hgive, Context.giveBackSlot_latest_ready p hk hready]
    exact ⟨hself .latest, rfl⟩
  · rw [hgive, Context.giveBackSlot_retired .latest p hk hretired, if_neg]
    · exact hself .latest
    · rintro ⟨hholders, hcarry⟩
      obtain h | h := hkeeps
      · exact h hholders
      · rw [hcarry] at h
        cases h
  · rw [hgive, Context.giveBackSlot_retired .latest p hk hretired, if_pos ⟨hholders, hcarry⟩]
    refine (Context.get_settle_self _ k (hself .latest)).trans ?_
    simp [Slot.givenBack, Slot.settled, hcarry]
  · have hsame := Context.giveBackSlot_same d p hk
    rw [hgive]
    exact ⟨congrArg (fun t => PerPort.set t p _) hsame.readers, hsame.writer, hsame.base, hsame.nextSeq, hsame.slots⟩

/-! ### A LATEST commit (R31, R32) -/

theorem Context.supersede_eq {c : Context} {j : SlotId} {old : Slot} (h : c.slots.get j = some old) :
    c.supersede j = if old.holders ≠ noPorts ∨ old.carryRef = true then c.retire j else c.settle j := by
  rw [Context.supersede, Context.slot?, h]
  by_cases hfree : old.holders = noPorts ∧ old.carryRef = false
  · rw [if_neg (by simp [hfree.1, hfree.2])]
    simp [hfree.1, hfree.2, PortSet.isEmpty_iff]
  · rw [if_pos (by by_cases hh : old.holders = noPorts <;> simp_all)]
    dsimp only
    rw [if_neg]
    simpa [PortSet.isEmpty_iff] using hfree

/-- A superseded slot settles or retires, and leaves the ready queue. -/
theorem Context.supersede_same {c : Context} {j : SlotId} {old : Slot} (h : c.slots.get j = some old) :
    c.SameButSlot (c.supersede j) j ∧ (c.supersede j).ready = c.ready.filter (· ≠ j) := by
  rw [Context.supersede_eq h]
  split
  · exact ⟨c.retire_same j, rfl⟩
  · exact ⟨c.settle_same j, rfl⟩

theorem Context.get_supersede_self {c : Context} {j : SlotId} {old : Slot} (h : c.slots.get j = some old) :
    (c.supersede j).slots.get j = some (if old.holders ≠ noPorts ∨ old.carryRef = true then { old with state := .retired }
      else old.settled) := by
  rw [Context.supersede_eq h]
  split
  · exact c.get_retire_self j h
  · exact c.get_settle_self j h

section
variable {c : Context} {g : Geometry} (hg : g.delivery = .latest) (k : SlotId) (tag : Half) (auto : Bool) (now : Word)

include hg

/-- A LATEST commit supersedes the slots of the queue, and then changes slot k alone. -/
theorem Context.get_commit_latest_ne {i : SlotId} (hi : i ≠ k) :
    (c.commit g k tag auto now).slots.get i = (c.ready.foldl Context.supersede c).slots.get i := by
  rw [Context.commit, hg]
  exact Context.slot?_modSlot_ne _ k _ hi

theorem Context.get_commit_latest_self {sl : Slot} (h : (c.ready.foldl Context.supersede c).slots.get k = some sl) :
    (c.commit g k tag auto now).slots.get k = some { sl with
      state := .ready, seq := some c.nextSeq, tag := tag, flags := { sl.flags with auto := auto }, time := now } := by
  rw [Context.commit, hg]
  exact (Context.slot?_modSlot_self _ k _).trans (congrArg (Option.map _) h)

theorem Context.commit_latest_fields {d : Context} (hd : c.ready.foldl Context.supersede c = d)
    (hreaders : d.readers = c.readers) (hwriter : d.writer = c.writer) (hready : d.ready = []) :
    (c.commit g k tag auto now).ready = [k] ∧ (c.commit g k tag auto now).readers = c.readers ∧
      (c.commit g k tag auto now).writer =
        { c.writer with state := .noSlot, dropped := 0, fillTimer := .stopped, commitPending := false } := by
  rw [Context.commit, hg, hd]
  refine ⟨congrArg (· ++ [k]) hready, (Context.modSlot_readers d k _).trans hreaders, ?_⟩
  exact congrArg (fun b : WriterBinding =>
    { b with state := .noSlot, dropped := 0, fillTimer := .stopped, commitPending := false })
    ((Context.modSlot_writer d k _).trans hwriter)

end

theorem nextSequence_eq (q : Word) : nextSequence q = if q = 0xFFFFFFFF then 1 else q + 1 := rfl

/-- Settles O32: the slots of the queue are superseded first, then the committed slot is its one entry. -/
theorem commitSupersedes : Obligations.CommitSupersedes := by
  intro c g k sl tag auto now hg hk
  refine ⟨fun j old hready hjk hj _ => ?_, fun hready i hi => ?_, fun h => ?_⟩
  · have hfold : c.ready.foldl Context.supersede c = c.supersede j := by rw [hready]; rfl
    obtain ⟨hsame, -⟩ := Context.supersede_same hj
    refine ⟨?_, fun i hij hik => ?_⟩
    · rw [Context.get_commit_latest_ne hg k tag auto now hjk, hfold, Context.get_supersede_self hj]
      rfl
    · rw [Context.get_commit_latest_ne hg k tag auto now hik, hfold, hsame.slots i hij]
  · rw [Context.get_commit_latest_ne hg k tag auto now hi, hready]
    rfl
  · have hd : ∃ d, c.ready.foldl Context.supersede c = d ∧ d.slots.get k = some sl ∧ d.readers = c.readers ∧
        d.writer = c.writer ∧ d.ready = [] := by
      obtain hready | ⟨j, old, hready, hjk, hj, -⟩ := h
      · exact ⟨c, by rw [hready]; rfl, hk, rfl, rfl, hready⟩
      · obtain ⟨hsame, hqueue⟩ := Context.supersede_same hj
        exact ⟨c.supersede j, by rw [hready]; rfl, (hsame.slots k hjk.symm).trans hk, hsame.readers, hsame.writer,
          by rw [hqueue, hready]; simp⟩
    obtain ⟨d, hfold, hslot, hreaders, hwriter, hempty⟩ := hd
    obtain ⟨hqueue, hreaders', hwriter'⟩ :=
      Context.commit_latest_fields hg k tag auto now hfold hreaders hwriter hempty
    exact ⟨hqueue, Context.get_commit_latest_self hg k tag auto now (hfold ▸ hslot), rfl, hreaders', nextSequence_eq _, hwriter'⟩

end Sys2Proof.Machine
end

section
/-!
The regions (R123): which region a byte belongs to, where no two windows share a byte; what that makes of a request whose bytes lie
in one region, and of one that straddles (R124, R125); and the classes of an access to a window's ranges (R126 to R129).
-/

namespace Sys2Proof.Machine

/-! ### The region of one window (R123) -/

/-- The window is ACTIVE or DRAINING. -/
def WindowUnit.Exchanges (u : WindowUnit) : Prop := u.mode? = some .active ∨ u.mode? = some .draining

theorem WindowUnit.mode?_eq_none_iff {u : WindowUnit} : u.mode? = none ↔ u.life = .disabled := by
  unfold WindowUnit.mode?
  cases u.life <;> simp

theorem WindowUnit.Exchanges.live {u : WindowUnit} (h : u.Exchanges) : u.life ≠ .disabled := by
  intro e
  rw [WindowUnit.Exchanges, WindowUnit.mode?_eq_none_iff.mpr e] at h
  simp at h

theorem WindowUnit.live_of_observe {u : WindowUnit} (h : u.mode? = some .observe) : u.life ≠ .disabled := by
  intro e
  rw [WindowUnit.mode?_eq_none_iff.mpr e] at h
  cases h

/-- A window is DISABLED, observed, or takes part in the exchange. -/
theorem WindowUnit.mode_cases (u : WindowUnit) : u.mode? = none ∨ u.mode? = some .observe ∨ u.Exchanges := by
  unfold WindowUnit.Exchanges
  cases u.mode? with
  | none => exact .inl rfl
  | some m => cases m <;> simp

theorem WindowUnit.regionAt_of_disabled {u : WindowUnit} (h : u.mode? = none) (w : Window) (a : Nat) : u.regionAt w a = none := by
  rw [WindowUnit.regionAt, WindowUnit.mode?_eq_none_iff.mp h]

theorem WindowUnit.regionAt_of_observe {u : WindowUnit} (h : u.mode? = some .observe) (w : Window) (a : Nat) :
    u.regionAt w a = if u.geom.inHeader a then some (.observedHeader w)
      else if u.geom.inPayload a then some (.observedPayload w) else none := by
  unfold WindowUnit.mode? at h
  unfold WindowUnit.regionAt
  cases hl : u.life with
  | disabled => rw [hl] at h; cases h
  | live m c =>
    rw [hl] at h
    cases h
    rfl

theorem WindowUnit.regionAt_of_exchanges {u : WindowUnit} (h : u.Exchanges) (w : Window) (a : Nat) :
    u.regionAt w a = if u.geom.inHeader a then some (.header w)
      else if u.geom.inPayload a then some (.payload w)
      else if u.geom.inSlotArea a then some (.slotArea w) else none := by
  unfold WindowUnit.Exchanges WindowUnit.mode? at h
  unfold WindowUnit.regionAt
  cases hl : u.life with
  | disabled => rw [hl] at h; simp at h
  | live m c =>
    rw [hl] at h
    cases m with
    | observe => simp at h
    | active => rfl
    | draining => rfl

/-- A region of a window is that window's, and the window holds the byte. -/
theorem WindowUnit.holds_of_regionAt {u : WindowUnit} {w : Window} {a : Nat} {g : Region} (h : u.regionAt w a = some g) :
    g.window? = some w ∧ u.life ≠ .disabled ∧ u.geom.Holds a := by
  have holds (hin : (u.geom.inHeader a || u.geom.inPayload a || u.geom.inSlotArea a) = true) : u.geom.Holds a :=
    Geometry.holds_iff.mp hin
  obtain hm | hm | hm := u.mode_cases
  · rw [WindowUnit.regionAt_of_disabled hm] at h
    cases h
  · rw [WindowUnit.regionAt_of_observe hm] at h
    refine ⟨?_, WindowUnit.live_of_observe hm, ?_⟩ <;> repeat' split at h
    all_goals first | (cases h; done) | (cases h; rfl) | (cases h; exact holds (by simp [*]))
  · rw [WindowUnit.regionAt_of_exchanges hm] at h
    refine ⟨?_, hm.live, ?_⟩ <;> repeat' split at h
    all_goals first | (cases h; done) | (cases h; rfl) | (cases h; exact holds (by simp [*]))

/-! ### The region of a byte (R123) -/

section
variable {x : Exchange} {a : Nat}

/-- A search for the one window with a region finds its region. -/
theorem regionAt_eq_of_win (hs : x.RangesSound) {w : Window} {g : Region} (h : (x.win w).regionAt w a = some g) :
    regionAt x.windows a = g := by
  unfold regionAt
  have hone : ∀ v f, (x.win v).regionAt v a = some f → f = g := by
    intro v f hv
    obtain ⟨-, hholds⟩ := WindowUnit.holds_of_regionAt h
    obtain ⟨-, hholds'⟩ := WindowUnit.holds_of_regionAt hv
    obtain rfl := Exchange.window_eq_of_holds hs hholds hholds'
    exact Option.some.inj (hv.symm.trans h)
  cases hf : Window.all.findSome? fun v => (x.windows.get v).regionAt v a with
  | none => exact absurd (List.findSome?_eq_none_iff.mp hf w (Window.mem_all w)) (by
      rw [show (x.windows.get w).regionAt w a = some g from h]
      simp)
  | some f =>
    obtain ⟨v, -, hv⟩ := List.exists_of_findSome?_eq_some hf
    exact hone v f hv

theorem regionAt_eq_pass_iff : regionAt x.windows a = .pass ↔ ∀ w, (x.win w).regionAt w a = none := by
  unfold regionAt
  cases hf : Window.all.findSome? fun v => (x.windows.get v).regionAt v a with
  | none => exact ⟨fun _ w => List.findSome?_eq_none_iff.mp hf w (Window.mem_all w), fun _ => rfl⟩
  | some f =>
    obtain ⟨v, -, hv⟩ := List.exists_of_findSome?_eq_some hf
    obtain ⟨hwindow, -⟩ := WindowUnit.holds_of_regionAt hv
    refine ⟨fun (h : f = .pass) => ?_, fun h => ?_⟩
    · rw [h] at hwindow
      cases hwindow
    · rw [show (x.windows.get v).regionAt v a = none from h v] at hv
      cases hv

theorem regionAt_eq_iff (hs : x.RangesSound) {w : Window} {g : Region} (hg : g.window? = some w) :
    regionAt x.windows a = g ↔ (x.win w).regionAt w a = some g := by
  refine ⟨fun h => ?_, regionAt_eq_of_win hs⟩
  unfold regionAt at h
  cases hf : Window.all.findSome? fun v => (x.windows.get v).regionAt v a with
  | none =>
    rw [hf] at h
    rw [← show Region.pass = g from h] at hg
    cases hg
  | some f =>
    obtain ⟨v, -, hv⟩ := List.exists_of_findSome?_eq_some hf
    rw [hf] at h
    obtain rfl : f = g := h
    obtain ⟨hwindow, -⟩ := WindowUnit.holds_of_regionAt hv
    obtain rfl : v = w := Option.some.inj (hwindow.symm.trans hg)
    exact hv

end

/-! ### The ranges of a window as numbers (R6, R102) -/

theorem Geometry.inHeader_iff {g : Geometry} {a : Nat} :
    g.inHeader a = true ↔ g.lbase.toNat ≤ a ∧ a < g.lbase.toNat + 32 := by
  rw [Geometry.inHeader, Bool.and_eq_true, decide_eq_true_eq, decide_eq_true_eq]
  rfl

/-- Checks 6 and 7 of R102: the logical range ends within the address space and shares no byte with the slot area. -/
theorem Geometry.ranges_of_reason_none {g : Geometry} (h : g.reason = none) :
    g.lbase.toNat + 32 + g.flen.toNat ≤ 0x100000000 ∧
      ∀ a, g.lbase.toNat ≤ a → a < g.lbase.toNat + 32 + g.flen.toNat → g.inSlotArea a = false := by
  have hchecks : g.logicalEnd ≤ 0x100000000 ∧ sharesByte g.lbase.toNat g.logicalEnd g.sbase.toNat g.slotAreaEnd = false := by
    simp only [Geometry.reason, ite_eq_iff, reduceCtorEq, and_false, false_or, and_true] at h
    obtain ⟨-, -, -, -, -, hends, hshare⟩ := h
    simp only [Bool.or_eq_true, decide_eq_true_eq, not_or, not_lt, Bool.not_eq_true] at hends hshare
    exact ⟨hends.1, hshare⟩
  obtain ⟨hend, hshare⟩ := hchecks
  refine ⟨hend, fun a hlow hhigh => ?_⟩
  rw [Bool.eq_false_iff]
  intro hin
  obtain ⟨hslow, hshigh⟩ := Geometry.inSlotArea_iff.mp hin
  have hboth := sharesByte_of_mem (b := g.logicalEnd) (d := g.slotAreaEnd) ⟨hlow, hhigh⟩ ⟨hslow, hshigh⟩
  rw [hboth] at hshare
  cases hshare

theorem WindowUnit.not_exchanges_of_disabled {u : WindowUnit} (h : u.mode? = none) : ¬u.Exchanges := by
  simp [WindowUnit.Exchanges, h]

theorem WindowUnit.not_exchanges_of_observe {u : WindowUnit} (h : u.mode? = some .observe) : ¬u.Exchanges := by
  simp [WindowUnit.Exchanges, h]

theorem WindowUnit.Exchanges.ne_observe {u : WindowUnit} (h : u.Exchanges) : u.mode? ≠ some .observe :=
  fun e => WindowUnit.not_exchanges_of_observe e h

/-- The header comes before the payload, and both before the slot area. -/
theorem Geometry.inHeader_of_inPayload {g : Geometry} {a : Nat} (h : g.inPayload a = true) : g.inHeader a = false := by
  rw [Bool.eq_false_iff, ne_eq, Geometry.inHeader_iff]
  rw [Geometry.inPayload_iff] at h
  omega

theorem Geometry.outside_of_inSlotArea {g : Geometry} {a : Nat} (hg : g.reason = none) (h : g.inSlotArea a = true) :
    g.inHeader a = false ∧ g.inPayload a = false := by
  have hout : ¬(g.lbase.toNat ≤ a ∧ a < g.lbase.toNat + 32 + g.flen.toNat) := by
    rintro ⟨hlow, hhigh⟩
    rw [(Geometry.ranges_of_reason_none hg).2 a hlow hhigh] at h
    cases h
  rw [← Geometry.inHeader_or_inPayload_iff, Bool.or_eq_true, not_or, Bool.not_eq_true, Bool.not_eq_true] at hout
  exact hout

section
variable {u : WindowUnit} {w : Window} {a : Nat}

theorem WindowUnit.regionAt_eq_header_iff :
    u.regionAt w a = some (.header w) ↔ u.Exchanges ∧ u.geom.inHeader a = true := by
  obtain hm | hm | hm := u.mode_cases
  · simp [WindowUnit.regionAt_of_disabled hm, WindowUnit.not_exchanges_of_disabled hm]
  · rw [WindowUnit.regionAt_of_observe hm]
    simp [WindowUnit.not_exchanges_of_observe hm, ite_eq_iff]
  · rw [WindowUnit.regionAt_of_exchanges hm]
    simp [hm, ite_eq_iff]

theorem WindowUnit.regionAt_eq_payload_iff :
    u.regionAt w a = some (.payload w) ↔ u.Exchanges ∧ u.geom.inPayload a = true := by
  obtain hm | hm | hm := u.mode_cases
  · simp [WindowUnit.regionAt_of_disabled hm, WindowUnit.not_exchanges_of_disabled hm]
  · rw [WindowUnit.regionAt_of_observe hm]
    simp [WindowUnit.not_exchanges_of_observe hm, ite_eq_iff]
  · rw [WindowUnit.regionAt_of_exchanges hm]
    simp only [ite_eq_iff, Option.some.injEq, reduceCtorEq, and_false, and_true, or_false, false_or, hm, true_and, Bool.not_eq_true]
    exact ⟨fun h => h.2, fun h => ⟨Geometry.inHeader_of_inPayload h, h⟩⟩

theorem WindowUnit.regionAt_eq_slotArea_iff (hu : u.life ≠ .disabled → u.geom.reason = none) :
    u.regionAt w a = some (.slotArea w) ↔ u.Exchanges ∧ u.geom.inSlotArea a = true := by
  obtain hm | hm | hm := u.mode_cases
  · simp [WindowUnit.regionAt_of_disabled hm, WindowUnit.not_exchanges_of_disabled hm]
  · rw [WindowUnit.regionAt_of_observe hm]
    simp [WindowUnit.not_exchanges_of_observe hm, ite_eq_iff]
  · rw [WindowUnit.regionAt_of_exchanges hm]
    simp only [ite_eq_iff, Option.some.injEq, reduceCtorEq, and_false, and_true, or_false, false_or, hm, true_and, Bool.not_eq_true]
    refine ⟨fun ⟨_, _, h⟩ => h, fun h => ?_⟩
    obtain ⟨hheader, hpayload⟩ := Geometry.outside_of_inSlotArea (hu hm.live) h
    exact ⟨hheader, hpayload, h⟩

theorem WindowUnit.regionAt_eq_observedHeader_iff :
    u.regionAt w a = some (.observedHeader w) ↔ u.mode? = some .observe ∧ u.geom.inHeader a = true := by
  obtain hm | hm | hm := u.mode_cases
  · simp [WindowUnit.regionAt_of_disabled hm, hm]
  · rw [WindowUnit.regionAt_of_observe hm]
    simp [hm, ite_eq_iff]
  · rw [WindowUnit.regionAt_of_exchanges hm]
    simp [hm.ne_observe, ite_eq_iff]

theorem WindowUnit.regionAt_eq_observedPayload_iff :
    u.regionAt w a = some (.observedPayload w) ↔ u.mode? = some .observe ∧ u.geom.inPayload a = true := by
  obtain hm | hm | hm := u.mode_cases
  · simp [WindowUnit.regionAt_of_disabled hm, hm]
  · rw [WindowUnit.regionAt_of_observe hm]
    simp only [ite_eq_iff, Option.some.injEq, reduceCtorEq, and_false, and_true, or_false, false_or, hm, true_and, Bool.not_eq_true]
    exact ⟨fun h => h.2, fun h => ⟨Geometry.inHeader_of_inPayload h, h⟩⟩
  · rw [WindowUnit.regionAt_of_exchanges hm]
    simp [hm.ne_observe, ite_eq_iff]

theorem WindowUnit.regionAt_eq_none_iff :
    u.regionAt w a = none ↔
      (u.mode? = some .observe → u.geom.inHeader a = false ∧ u.geom.inPayload a = false) ∧
      (u.Exchanges → u.geom.inHeader a = false ∧ u.geom.inPayload a = false ∧ u.geom.inSlotArea a = false) := by
  obtain hm | hm | hm := u.mode_cases
  · simp [WindowUnit.regionAt_of_disabled hm, WindowUnit.not_exchanges_of_disabled hm, hm]
  · rw [WindowUnit.regionAt_of_observe hm]
    simp [hm, WindowUnit.not_exchanges_of_observe hm, ite_eq_iff]
  · rw [WindowUnit.regionAt_of_exchanges hm]
    simp [hm, hm.ne_observe, ite_eq_iff]

end

/-! ### Requests that lie in one region, and requests that straddle (R124, R125) -/

section
variable {ws : PerWindow WindowUnit} {p : Port} {r : Request}

theorem mem_requestRegions_iff {g : Region} :
    g ∈ requestRegions ws r ↔ ∃ i, i < Request.bytes r ∧ regionAt ws (r.addr.toNat + i) = g := by
  simp [requestRegions]

/-- A request all of whose bytes belong to one region goes by that region. -/
theorem classify_of_region (hw : r.wellFormed = true) (ha : Request.aligned r = true) {g : Region}
    (hg : ∀ i, i < Request.bytes r → regionAt ws (r.addr.toNat + i) = g) : classify ws p r = regionClass ws p r g := by
  have hfirst : regionAt ws r.addr.toNat = g := hg 0 (Size.bytes_bounds hw).1
  have hall : ((requestRegions ws r).all fun f => f = g) = true := by
    rw [List.all_eq_true]
    intro f hf
    obtain ⟨i, hi, rfl⟩ := mem_requestRegions_iff.mp hf
    rw [decide_eq_true_eq, hg i hi]
  simp only [classify, ha, hall, hfirst, Bool.not_true, Bool.false_eq_true, if_false, if_true]

/-- A request that touches two regions straddles. -/
theorem classify_of_two_regions (ha : Request.aligned r = true) {a b : Nat} (hla : a < Request.bytes r)
    (hlb : b < Request.bytes r) (hne : regionAt ws (r.addr.toNat + a) ≠ regionAt ws (r.addr.toNat + b)) :
    classify ws p r = straddleClass (requestRegions ws r) := by
  have hall : ((requestRegions ws r).all fun f => f = regionAt ws r.addr.toNat) = false := by
    rw [Bool.eq_false_iff, ne_eq, List.all_eq_true]
    intro h
    have hsame {i : Nat} (hi : i < Request.bytes r) := decide_eq_true_eq.mp (h _ (mem_requestRegions_iff.mpr ⟨i, hi, rfl⟩))
    exact hne ((hsame hla).trans (hsame hlb).symm)
  simp only [classify, ha, hall, Bool.not_true, Bool.false_eq_true, if_false]

/-- The window of the lowest byte that lies in one. -/
theorem findSome?_requestRegions {i : Nat} {v : Window} (hi : i < Request.bytes r)
    (hv : (regionAt ws (r.addr.toNat + i)).window? = some v)
    (hbelow : ∀ l, l < i → regionAt ws (r.addr.toNat + l) = .pass) :
    (requestRegions ws r).findSome? Region.window? = some v := by
  rw [requestRegions, List.findSome?_map, List.findSome?_eq_some_iff]
  refine ⟨List.range i, i, (List.range' (i + 1) (Request.bytes r - (i + 1))), ?_, hv, fun l hl => ?_⟩
  · rw [List.range_eq_range', List.range_eq_range', ← List.range'_succ]
    have happend := List.range'_append_1 (s := 0) (m := i) (n := Request.bytes r - (i + 1) + 1)
    rw [Nat.zero_add] at happend
    rw [happend]
    congr 1
    omega
  · rw [Function.comp_apply, hbelow l (List.mem_range.mp hl)]
    rfl

end

end Sys2Proof.Machine
end

section
/-!
The statements about the classification: regions and roles (R123 to R127), the header words (R128), the accesses to an OBSERVE window
(R106, R107, R129).
-/

namespace Sys2Proof.Machine

/-! ### Regions of bytes, as numbers -/

section
variable {x : Exchange} (hs : x.RangesSound) (w : Window) (a : Nat)

include hs

theorem regionAt_header_iff :
    regionAt x.windows a = .header w ↔ (x.win w).Exchanges ∧ (x.win w).geom.inHeader a = true :=
  (regionAt_eq_iff hs rfl).trans WindowUnit.regionAt_eq_header_iff

theorem regionAt_payload_iff :
    regionAt x.windows a = .payload w ↔ (x.win w).Exchanges ∧ (x.win w).geom.inPayload a = true :=
  (regionAt_eq_iff hs rfl).trans WindowUnit.regionAt_eq_payload_iff

theorem regionAt_slotArea_iff :
    regionAt x.windows a = .slotArea w ↔ (x.win w).Exchanges ∧ (x.win w).geom.inSlotArea a = true :=
  (regionAt_eq_iff hs rfl).trans (WindowUnit.regionAt_eq_slotArea_iff (hs.1 w))

theorem regionAt_observedHeader_iff :
    regionAt x.windows a = .observedHeader w ↔ (x.win w).mode? = some .observe ∧ (x.win w).geom.inHeader a = true :=
  (regionAt_eq_iff hs rfl).trans WindowUnit.regionAt_eq_observedHeader_iff

theorem regionAt_observedPayload_iff :
    regionAt x.windows a = .observedPayload w ↔ (x.win w).mode? = some .observe ∧ (x.win w).geom.inPayload a = true :=
  (regionAt_eq_iff hs rfl).trans WindowUnit.regionAt_eq_observedPayload_iff

end

/-- No byte outside a logical range is in the header or the payload. -/
theorem Geometry.outside_logical_iff {g : Geometry} {a : Nat} :
    (g.inHeader a = false ∧ g.inPayload a = false) ↔ ¬(g.lbase.toNat ≤ a ∧ a < g.lbase.toNat + 32 + g.flen.toNat) := by
  rw [← Geometry.inHeader_or_inPayload_iff, Bool.or_eq_true, not_or, Bool.not_eq_true, Bool.not_eq_true]

theorem regionAt_pass_iff (x : Exchange) (a : Nat) :
    regionAt x.windows a = .pass ↔ ∀ w,
      ((x.win w).mode? = some .observe → ¬((x.win w).geom.lbase.toNat ≤ a ∧
          a < (x.win w).geom.lbase.toNat + 32 + (x.win w).geom.flen.toNat)) ∧
      ((x.win w).Exchanges → ¬((x.win w).geom.lbase.toNat ≤ a ∧
          a < (x.win w).geom.lbase.toNat + 32 + (x.win w).geom.flen.toNat) ∧
        ¬((x.win w).geom.sbase.toNat ≤ a ∧
          a < (x.win w).geom.sbase.toNat + (x.win w).geom.slots.toNat * (x.win w).geom.flen.toNat)) := by
  refine regionAt_eq_pass_iff.trans (forall_congr' fun w => WindowUnit.regionAt_eq_none_iff.trans ?_)
  rw [Geometry.outside_logical_iff, ← and_assoc, Geometry.outside_logical_iff, ← Geometry.inSlotArea_iff, Bool.not_eq_true]

/-! ### Classes by region -/

theorem straddleClass_of_exchange {l : List Region} {v : Window} (hv : l.findSome? Region.window? = some v) {g : Region}
    (hg : g ∈ l) (hx : g.isExchange = true) : straddleClass l = .refused .straddle (some v) := by
  rw [straddleClass, hv]
  exact if_pos (List.any_eq_true.mpr ⟨g, hg, hx⟩)

theorem straddleClass_of_observed {l : List Region} {v : Window} (hv : l.findSome? Region.window? = some v)
    (hx : ∀ g, g ∈ l → g.isExchange = false) : straddleClass l = .observed v (some .straddle) none := by
  rw [straddleClass, hv]
  refine if_neg fun h => ?_
  obtain ⟨g, hg, hgx⟩ := List.any_eq_true.mp h
  rw [hx g hg] at hgx
  cases hgx

/-- The role check of R127. -/
theorem Geometry.roleAllows_iff {g : Geometry} {p : Port} {write : Bool} :
    g.roleAllows p write = true ↔ p = g.writer ∨ (g.readers.get p = true ∧ write = false) := by
  simp [Geometry.roleAllows]

theorem regionClass_payload (ws : PerWindow WindowUnit) (p : Port) (r : Request) (w : Window) :
    regionClass ws p r (.payload w) =
      if p = (ws.get w).geom.writer then .writerPayload w
      else if (ws.get w).geom.readers.get p = true ∧ Access.isWrite r.access = false then .readerPayload w
      else .refused .role (some w) := by
  simp only [regionClass, Geometry.roleAllows_iff]
  by_cases hp : p = (ws.get w).geom.writer
  · simp [hp]
  · simp [hp]

/-- Settles O23: the region of a byte, and the class of a request that lies in one region or straddles. -/
theorem windowRangeGoesByRole : Obligations.WindowRangeGoesByRole := by
  refine ⟨fun x a hs => ⟨fun w => ⟨?_, ?_, ?_, ?_, ?_⟩, regionAt_pass_iff x a⟩,
    fun x p r hw ha => ⟨fun hpass => ?_, fun i v j hi hv hbelow hj hx ⟨l, hl, hne⟩ => ?_⟩,
    fun x p r w hs hw ha hlive => ⟨fun hin => ?_, fun hin => ?_⟩⟩
  · rw [regionAt_header_iff hs, Geometry.inHeader_iff]
    rfl
  · rw [regionAt_payload_iff hs, Geometry.inPayload_iff]
    rfl
  · rw [regionAt_slotArea_iff hs, Geometry.inSlotArea_iff]
    rfl
  · rw [regionAt_observedHeader_iff hs, Geometry.inHeader_iff]
  · rw [regionAt_observedPayload_iff hs, Geometry.inPayload_iff]
  · exact classify_of_region hw ha hpass
  · rw [classify_of_two_regions ha hl hj hne]
    exact straddleClass_of_exchange (findSome?_requestRegions hi hv hbelow) (mem_requestRegions_iff.mpr ⟨j, hj, rfl⟩) hx
  · exact classify_of_region hw ha fun i hi => (regionAt_slotArea_iff hs w _).mpr ⟨hlive, hin i hi⟩
  · rw [classify_of_region hw ha fun i hi => (regionAt_payload_iff hs w _).mpr ⟨hlive, hin i hi⟩]
    exact regionClass_payload x.windows p r w

/-! ### Header words (R128) -/

theorem regionClass_header (ws : PerWindow WindowUnit) (p : Port) (r : Request) (w : Window) :
    regionClass ws p r (.header w) =
      if p = (ws.get w).geom.writer ∨ ((ws.get w).geom.readers.get p = true ∧ Access.isWrite r.access = false) then
        (headerClass (ws.get w).geom w p r).getD (.refused .header (some w))
      else .refused .role (some w) := by
  simp only [regionClass, Geometry.roleAllows_iff]

/-- The table of legal header accesses has single words alone. -/
theorem headerClass_of_size_ne_word {g : Geometry} {w : Window} {p : Port} {r : Request} (h : r.access.size ≠ .word) :
    headerClass g w p r = none := by
  unfold headerClass
  split
  · next ha _ => exact absurd (congrArg Access.size ha) h
  · next ha _ => exact absurd (congrArg Access.size ha) h
  · next ha _ => exact absurd (congrArg Access.size ha) h
  · rfl

theorem headerClass_read {g : Geometry} {w : Window} {p : Port} {r : Request} (h : r.access = .read .word) :
    headerClass g w p r = (HeaderWord.ofNumber ((r.addr.toNat - g.lbase.toNat) / 4)).map fun word =>
      if p = g.writer then .writerHeader w word
      else match word with
        | .frameSeq => .acquire w
        | .control => .release w
        | _ => .readerStatus w word := by
  rw [headerClass, h]
  cases HeaderWord.ofNumber ((r.addr.toNat - g.lbase.toNat) / 4) with
  | none => rfl
  | some word =>
    by_cases hp : p = g.writer
    · simp [hp]
    · cases word <;> simp [hp]

theorem headerClass_write {g : Geometry} {w : Window} {p : Port} {r : Request} {v : Word} (h : r.access = .write (.word v)) :
    headerClass g w p r = match HeaderWord.ofNumber ((r.addr.toNat - g.lbase.toNat) / 4) with
      | some .control => some (.commit w v)
      | some .frameSeq => some (.abandon w)
      | _ => none := by
  rw [headerClass, h]
  cases HeaderWord.ofNumber ((r.addr.toNat - g.lbase.toNat) / 4) with
  | none => rfl
  | some word => cases word <;> rfl

/-- Header word n of a descriptor that passes the checks lies at LBASE + 4×n, without wrap (R6, R102). -/
theorem Geometry.toNat_headerWord {g : Geometry} (hg : g.reason = none) {n : Nat} (hn : n < 8) :
    (g.lbase + BitVec.ofNat 32 (4 * n)).toNat = g.lbase.toNat + 4 * n := by
  obtain ⟨hend, -⟩ := Geometry.ranges_of_reason_none hg
  rw [BitVec.toNat_add, BitVec.toNat_ofNat]
  omega

/-- A single word at header word n lies in the header, and is aligned. -/
theorem Geometry.headerWord_request {g : Geometry} (hg : g.reason = none) {n : Nat} (hn : n < 8) {r : Request}
    (haddr : r.addr = g.lbase + BitVec.ofNat 32 (4 * n)) (hsize : r.access.size = .word) :
    Request.aligned r = true ∧ r.wellFormed = true ∧
      ∀ i, i < Request.bytes r → g.inHeader (r.addr.toNat + i) = true := by
  obtain ⟨hend, -⟩ := Geometry.ranges_of_reason_none hg
  obtain ⟨-, -, -, hlbase⟩ := Geometry.flen_lbase_of_reason_none hg
  have hnat : r.addr.toNat = g.lbase.toNat + 4 * n := by rw [haddr, Geometry.toNat_headerWord hg hn]
  have hbytes : Request.bytes r = 4 := by rw [Request.bytes, hsize]; rfl
  refine ⟨?_, by rw [Request.wellFormed, hsize]; rfl, fun i hi => Geometry.inHeader_iff.mpr (by omega)⟩
  rw [Request.aligned, hbytes, hsize, hnat, Bool.and_eq_true, decide_eq_true_eq, decide_eq_true_eq]
  simp only [Size.unit]
  omega

theorem classify_headerWord {x : Exchange} (hs : x.RangesSound) {w : Window} (hlive : (x.win w).Exchanges) {n : Nat}
    (hn : n < 8) {p : Port} {r : Request} (haddr : r.addr = (x.win w).geom.lbase + BitVec.ofNat 32 (4 * n))
    (hsize : r.access.size = .word) :
    classify x.windows p r = regionClass x.windows p r (.header w) ∧
      (r.addr.toNat - (x.win w).geom.lbase.toNat) / 4 = n := by
  have hg : (x.win w).geom.reason = none := hs.1 w hlive.live
  obtain ⟨ha, hw, hin⟩ := Geometry.headerWord_request hg hn haddr hsize
  refine ⟨classify_of_region hw ha fun i hi => (regionAt_header_iff hs w _).mpr ⟨hlive, hin i hi⟩, ?_⟩
  rw [haddr, Geometry.toNat_headerWord hg hn]
  omega

/-- Settles O24: the header region goes by the role check and then by the table. -/
theorem headerWordGoesByTable : Obligations.HeaderWordGoesByTable := by
  refine ⟨fun x p w n value hs hlive => ?_, fun x p r w hs hw ha hlive hsize hin => ?_⟩
  · cases value with
    | none =>
      obtain ⟨hclass, hnumber⟩ := classify_headerWord hs hlive n.isLt (p := p)
        (r := { addr := (x.win w).geom.lbase + BitVec.ofNat 32 (4 * n.val), access := .read .word }) rfl rfl
      rw [hclass, regionClass_header, headerClass_read rfl, show (x.windows.get w) = x.win w from rfl, hnumber]
      by_cases hp : p = (x.win w).geom.writer
      · cases HeaderWord.ofNumber n.val <;> simp [hp, Access.isWrite]
      · cases hword : HeaderWord.ofNumber n.val with
        | none => simp [hp, Access.isWrite]
        | some word => cases word <;> simp [hp, Access.isWrite]
    | some v =>
      obtain ⟨hclass, hnumber⟩ := classify_headerWord hs hlive n.isLt (p := p)
        (r := { addr := (x.win w).geom.lbase + BitVec.ofNat 32 (4 * n.val), access := .write (.word v) }) rfl rfl
      rw [hclass, regionClass_header, headerClass_write rfl, show (x.windows.get w) = x.win w from rfl, hnumber]
      by_cases hp : p = (x.win w).geom.writer
      · cases hword : HeaderWord.ofNumber n.val with
        | none => simp [hp]
        | some word => cases word <;> simp [hp]
      · simp [hp, Access.isWrite]
  · rw [classify_of_region hw ha fun i hi => (regionAt_header_iff hs w _).mpr ⟨hlive, hin i hi⟩, regionClass_header,
      headerClass_of_size_ne_word hsize]
    rfl

/-! ### Accesses to an OBSERVE window (R106, R107, R129) -/

theorem regionClass_observedPayload (ws : PerWindow WindowUnit) (p : Port) (r : Request) (w : Window) :
    regionClass ws p r (.observedPayload w) =
      if p = (ws.get w).geom.writer ∨ ((ws.get w).geom.readers.get p = true ∧ Access.isWrite r.access = false) then
        .observed w none none
      else .observed w (some .role) none := by
  simp only [regionClass, Geometry.roleAllows_iff]

theorem observedHeaderClass_of_role {g : Geometry} {r : Request} {w : Window} {p : Port}
    (hrole : ¬g.roleAllows p (Access.isWrite r.access) = true) : observedHeaderClass g w p r = .observed w (some .role) none := by
  rw [observedHeaderClass, if_neg hrole]

theorem HeaderWord.ofNumber_isSome {n : Nat} : (HeaderWord.ofNumber n).isSome = true ↔ n < 6 := by
  rcases n with _ | _ | _ | _ | _ | _ | n <;> simp [HeaderWord.ofNumber]

/-- An aligned word in the header is header word (addr - LBASE)/4. -/
theorem Geometry.headerWord_of_aligned {g : Geometry} (hg : g.reason = none) {r : Request} (ha : Request.aligned r = true)
    (hsize : r.access.size = .word) (hlow : g.lbase.toNat ≤ r.addr.toNat) :
    r.addr.toNat = g.lbase.toNat + 4 * ((r.addr.toNat - g.lbase.toNat) / 4) := by
  obtain ⟨-, -, -, hlbase⟩ := Geometry.flen_lbase_of_reason_none hg
  have hunit := Request.unit_dvd_addr ha
  rw [hsize] at hunit
  have hmod := Nat.mod_eq_zero_of_dvd hunit
  simp only [Size.unit] at hmod
  omega

/-- An access in the header of an OBSERVE window by a port that passes the role check: the words a window would answer are 0 to 5,
and the writes it would take are those of CONTROL and of FRAME_SEQ (R128). -/
theorem observedHeaderClass_of_allowed {g : Geometry} (hg : g.reason = none) {r : Request} (ha : Request.aligned r = true)
    (w : Window) {p : Port} (hrole : g.roleAllows p (Access.isWrite r.access) = true) (hlow : g.lbase.toNat ≤ r.addr.toNat) :
    observedHeaderClass g w p r = match r.access with
      | .read .word =>
        if r.addr.toNat < g.lbase.toNat + 24 then .observed w none none else .observed w (some .header) none
      | .write (.word v) =>
        if r.addr.toNat = g.lbase.toNat + 12 then .observed w none (some v)
        else if r.addr.toNat = g.lbase.toNat then .observed w none none
        else .observed w (some .header) none
      | _ => .observed w (some .header) none := by
  rw [observedHeaderClass, if_pos hrole]
  have other (hsize : r.access.size ≠ .word) := headerClass_of_size_ne_word (g := g) (w := w) (p := p) hsize
  cases hacc : r.access with
  | read z =>
    cases z with
    | word =>
      have hword := Geometry.headerWord_of_aligned hg ha (congrArg Access.size hacc) hlow
      rw [headerClass_read hacc]
      cases hn : HeaderWord.ofNumber ((r.addr.toNat - g.lbase.toNat) / 4) with
      | none =>
        have hlarge : ¬(r.addr.toNat - g.lbase.toNat) / 4 < 6 := by rw [← HeaderWord.ofNumber_isSome, hn]; simp
        exact (if_neg (by omega)).symm
      | some word =>
        have hsmall : (r.addr.toNat - g.lbase.toNat) / 4 < 6 := by rw [← HeaderWord.ofNumber_isSome, hn]; rfl
        refine Eq.trans ?_ (if_pos (by omega)).symm
        by_cases hp : p = g.writer
        · simp [hp]
        · cases word <;> simp [hp]
    | _ =>
      rw [other (by rw [hacc]; exact fun h => by cases h)]
  | write d =>
    cases d with
    | word v =>
      have hword := Geometry.headerWord_of_aligned hg ha (congrArg Access.size hacc) hlow
      rw [headerClass_write hacc]
      generalize (r.addr.toNat - g.lbase.toNat) / 4 = n at hword
      have hnumber : (n = 0 → r.addr.toNat = g.lbase.toNat) ∧ (n = 3 → r.addr.toNat = g.lbase.toNat + 12) ∧
          (n ≠ 0 → r.addr.toNat ≠ g.lbase.toNat) ∧ (n ≠ 3 → r.addr.toNat ≠ g.lbase.toNat + 12) := by omega
      rcases n with _ | _ | _ | _ | _ | _ | n <;> simp [HeaderWord.ofNumber] at hnumber ⊢ <;> simp [hnumber]
    | _ =>
      rw [other (by rw [hacc]; exact fun h => by cases h)]

/-- An access that counts as a commit is not reported. -/
theorem classify_observed_commit {ws : PerWindow WindowUnit} {p : Port} {r : Request} {w : Window}
    {report : Option RefuseCause} {v : Word} (h : classify ws p r = .observed w report (some v)) : report = none := by
  have hregion (g : Region) (hg : regionClass ws p r g = .observed w report (some v)) : report = none := by
    cases g with
    | pass => cases hg
    | slotArea u => cases hg
    | header u =>
      rw [regionClass_header] at hg
      split at hg
      · cases hh : headerClass (ws.get u).geom u p r with
        | none => rw [hh] at hg; cases hg
        | some c =>
          rw [hh] at hg
          obtain rfl : c = _ := hg
          unfold headerClass at hh
          repeat' split at hh
          all_goals cases hh
      · cases hg
    | payload u =>
      rw [regionClass_payload] at hg
      repeat' split at hg
      all_goals cases hg
    | observedPayload u =>
      rw [regionClass_observedPayload] at hg
      split at hg <;> cases hg
    | observedHeader u =>
      simp only [regionClass, observedHeaderClass] at hg
      repeat' split at hg
      all_goals first | (cases hg; done) | (cases hg; rfl)
  unfold classify at h
  split at h
  · cases h
  · dsimp only at h
    split at h
    · exact hregion _ h
    · unfold straddleClass at h
      repeat' split at h
      all_goals cases h

/-- The low 16 bits of a word, as a word. -/
theorem tagOf_zeroExtend (v : Word) : (tagOf v).zeroExtend 32 = v &&& 0xFFFF := by
  apply BitVec.eq_of_toNat_eq
  rw [BitVec.toNat_and, show (0xFFFF : Word).toNat = 2 ^ 16 - 1 from rfl, Nat.and_two_pow_sub_one_eq_mod]
  have hlt := v.isLt
  simp only [tagOf, BitVec.truncate_eq_setWidth, BitVec.toNat_setWidth]
  omega

/-- The window once an observed access has counted in COMMITTED, if it is a commit (R107). -/
def WindowUnit.afterObserving (u : WindowUnit) (commit : Option Word) : WindowUnit :=
  { u with counters := { u.counters with committed := u.counters.committed + if commit.isSome then 1 else 0 } }

theorem WindowUnit.afterObserving_none (u : WindowUnit) : u.afterObserving none = u := by
  simp [WindowUnit.afterObserving]

/-- What an observed access leaves of the exchange, but for the records it raises. -/
theorem Exchange.observe_fields (x : Exchange) (now : Word) (p : Port) (r : Request) (w : Window) (report : Option RefuseCause)
    (commit : Option Word) :
    (x.observe now p r w report commit).ports = (x.forward p r).ports ∧
      (∀ v, v ≠ w → (x.observe now p r w report commit).win v = x.win v) ∧
      (x.observe now p r w report commit).win w = (x.win w).afterObserving commit ∧
      (x.observe now p r w report commit).answers = x.answers ∧
      (x.observe now p r w report commit).outstanding = x.outstanding ∧
      (x.observe now p r w report commit).carry = x.carry := by
  cases commit with
  | none =>
    rw [WindowUnit.afterObserving_none]
    cases report <;> exact ⟨rfl, fun _ _ => rfl, rfl, rfl, rfl, rfl⟩
  | some v =>
    cases report <;> exact ⟨rfl, fun u hu => Exchange.win_count_ne _ w _ hu, Exchange.win_count_self _ w _, rfl, rfl, rfl⟩

/-- What the event of an observed access leaves, whatever records it offers. -/
theorem State.begin_observe (s : State) (p : Port) (r : Request) (w : Window) (report : Option RefuseCause)
    (commit : Option Word) {y : Exchange} (hy : y = { s.begin.exch.observe s.time.ticks p r w report commit with raised := [] }) :
    (y.port p).hand = .presented r (passRequest p r) false ∧ (∀ q, q ≠ p → y.port q = s.exch.port q) ∧
      (∀ v, v ≠ w → y.win v = s.exch.win v) ∧ y.win w = (s.exch.win w).afterObserving commit ∧ y.answers = [] ∧
      y.outstanding = s.exch.outstanding ∧ y.carry = s.exch.carry := by
  subst hy
  obtain ⟨hports, hother, hwin, hanswers, hout, hcarry⟩ :=
    s.begin.exch.observe_fields s.time.ticks p r w report commit
  have hport (q : Port) : (s.begin.exch.observe s.time.ticks p r w report commit).port q = (s.begin.exch.forward p r).port q :=
    congrArg (fun t : PerPort PortUnit => t.get q) hports
  exact ⟨(congrArg PortUnit.hand (hport p)).trans (congrArg PortUnit.hand (Exchange.port_setHand_self _ p _)),
    fun q hq => (hport q).trans (Exchange.port_setHand_ne _ p _ hq), hother, hwin, hanswers, hout, hcarry⟩

/-- A byte in no range of an ACTIVE or DRAINING window has the region of none. -/
theorem regionAt_of_outside {x : Exchange} {a : Nat} {v : Window}
    (hout : (x.win v).Exchanges → (x.win v).geom.inHeader a = false ∧ (x.win v).geom.inPayload a = false ∧
      (x.win v).geom.inSlotArea a = false) {g : Region} (hg : (x.win v).regionAt v a = some g) :
    g = .observedHeader v ∨ g = .observedPayload v := by
  obtain hm | hm | hm := (x.win v).mode_cases
  · rw [WindowUnit.regionAt_of_disabled hm] at hg
    cases hg
  · rw [WindowUnit.regionAt_of_observe hm] at hg
    split at hg
    · exact .inl (Option.some.inj hg).symm
    · split at hg
      · exact .inr (Option.some.inj hg).symm
      · cases hg
  · rw [WindowUnit.regionAt_eq_none_iff.mpr ⟨fun h => absurd h hm.ne_observe, fun _ => hout hm⟩] at hg
    cases hg

/-- A byte of the logical range of an OBSERVE window. -/
theorem regionAt_of_observed {x : Exchange} (hs : x.RangesSound) {w : Window} (hm : (x.win w).mode? = some .observe) {a : Nat}
    (h : (x.win w).geom.lbase.toNat ≤ a ∧ a < (x.win w).geom.lbase.toNat + 32 + (x.win w).geom.flen.toNat) :
    (regionAt x.windows a).window? = some w := by
  rw [← Geometry.inHeader_or_inPayload_iff, Bool.or_eq_true] at h
  obtain h | h := h
  · rw [(regionAt_observedHeader_iff hs w a).mpr ⟨hm, h⟩]
    rfl
  · rw [(regionAt_observedPayload_iff hs w a).mpr ⟨hm, h⟩]
    rfl

/-- Settles O19: an observed access is forwarded, with at most one record; its class by region, role and table. -/
theorem observedResult : Obligations.ObservedResult := by
  refine ⟨fun s i p r w report commit ht hc => ?_, fun x p r w hs hw ha => ⟨fun hm => ⟨fun hin => ?_, fun hin => ?_⟩, ?_⟩⟩
  · have hreaches := ht.reaches_of_classify hc
    obtain ⟨hhand, hports, hother, hwin, hanswers, hout, hcarry⟩ := s.begin_observe p r w report commit rfl
    cases commit with
    | some v =>
      obtain rfl := classify_observed_commit hc
      refine ⟨_, hreaches.next_of_one _ (congrArg (· ++ _) ht.raised), hhand, hports, hother, hwin, fun h => by (cases h),
        fun v' hv => ⟨rfl, ?_⟩, hanswers, hout, hcarry, rfl, rfl, rfl⟩
      obtain rfl := Option.some.inj hv
      rw [← tagOf_zeroExtend]
    | none =>
      cases report with
      | none =>
        exact ⟨_, hreaches.next_of_none ht.raised, hhand, hports, hother, hwin, fun _ => rfl, fun v hv => by (cases hv), hanswers,
          hout, hcarry, rfl, rfl, rfl⟩
      | some cause =>
        exact ⟨_, hreaches.next_of_one _ (congrArg (· ++ _) ht.raised), hhand, hports, hother, hwin, fun _ => rfl,
          fun v hv => by (cases hv), hanswers, hout, hcarry, rfl, rfl, rfl⟩
  · have hclass := classify_of_region (p := p) hw ha fun i hi =>
      (regionAt_observedPayload_iff hs w _).mpr ⟨hm, Geometry.inPayload_iff.mpr (hin i hi)⟩
    rw [hclass, regionClass_observedPayload]
    exact ⟨fun hmay => if_pos hmay, fun hmay => if_neg hmay⟩
  · have hclass := classify_of_region (p := p) hw ha fun i hi =>
      (regionAt_observedHeader_iff hs w _).mpr ⟨hm, Geometry.inHeader_iff.mpr (hin i hi)⟩
    rw [hclass]
    obtain ⟨hlow, -⟩ := hin 0 (Size.bytes_bounds hw).1
    exact ⟨fun hmay => observedHeaderClass_of_role (mt Geometry.roleAllows_iff.mp hmay), fun hmay =>
      observedHeaderClass_of_allowed (hs.1 w (WindowUnit.live_of_observe hm)) ha w (Geometry.roleAllows_iff.mpr hmay) hlow⟩
  · intro hout i hi hm hinside hbelow ⟨a, b, hla, hlb, hne⟩
    rw [classify_of_two_regions ha hla hlb hne]
    refine straddleClass_of_observed (findSome?_requestRegions hi (regionAt_of_observed hs hm hinside) fun l hl => ?_) fun g hg => ?_
    · refine (regionAt_pass_iff x _).mpr fun v => ⟨fun hv => hbelow l v hl hv, fun hv => ?_⟩
      obtain ⟨hheader, hpayload, harea⟩ := hout v l (by omega) hv
      rw [← Geometry.outside_logical_iff, ← Geometry.inSlotArea_iff, harea]
      exact ⟨⟨hheader, hpayload⟩, Bool.false_ne_true⟩
    · obtain ⟨j, hj, rfl⟩ := mem_requestRegions_iff.mp hg
      cases hregion : (regionAt x.windows (r.addr.toNat + j)).window? with
      | none =>
        cases hr : regionAt x.windows (r.addr.toNat + j) with
        | pass => rfl
        | _ => rw [hr] at hregion; cases hregion
      | some v =>
        obtain hg' | hg' := regionAt_of_outside (fun hv => hout v j hj hv) ((regionAt_eq_iff hs hregion).mp rfl)
        · rw [hg']
          rfl
        · rw [hg']
          rfl

end Sys2Proof.Machine
end

section
/-!
The descriptor checks of ENABLE (R102): two ranges share a byte exactly where one of them holds a byte of the other; the checks as
tests with a number; and the reason code as the number of the first that fails.
-/

namespace Sys2Proof.Machine

/-! ### Ranges that share a byte -/

theorem sharesByte_iff {a b c d : Nat} : sharesByte a b c d = true ↔ ∃ n, (a ≤ n ∧ n < b) ∧ (c ≤ n ∧ n < d) := by
  refine ⟨fun h => ?_, fun ⟨n, hn, hn'⟩ => sharesByte_of_mem hn hn'⟩
  simp only [sharesByte, Bool.and_eq_true, decide_eq_true_eq] at h
  exact ⟨max a c, by omega, by omega⟩

/-- Two descriptors overlap exactly where they hold the same byte. -/
theorem Geometry.overlaps_iff {g h : Geometry} : g.overlaps h = true ↔ ∃ a, g.Holds a ∧ h.Holds a := by
  refine ⟨fun ho => ?_, fun ⟨a, hg, hh⟩ => Geometry.overlaps_of_holds hg hh⟩
  unfold Geometry.overlaps at ho
  rw [Bool.or_eq_true, Bool.or_eq_true, Bool.or_eq_true, sharesByte_iff, sharesByte_iff, sharesByte_iff, sharesByte_iff] at ho
  obtain ((⟨a, hg, hh⟩ | ⟨a, hg, hh⟩) | ⟨a, hg, hh⟩) | ⟨a, hg, hh⟩ := ho
  · exact ⟨a, .inl hg, .inl hh⟩
  · exact ⟨a, .inr hg, .inr hh⟩
  · exact ⟨a, .inl hg, .inr hh⟩
  · exact ⟨a, .inr hg, .inl hh⟩

/-! ### Sets of ports -/

theorem PortSet.size_eq_four_iff (s : PortSet) : PortSet.size s = 4 ↔ ∀ p, s.get p = true := by
  refine ⟨fun h p => ?_, fun h => ?_⟩
  · have hall : Port.all.filter s.get = Port.all := List.filter_sublist.eq_of_length h
    exact List.filter_eq_self.mp hall p (Port.mem_all p)
  · rw [PortSet.size, List.filter_eq_self.mpr fun p _ => h p]
    rfl

theorem PortSet.size_eq_countP (s : PortSet) : PortSet.size s = Port.all.countP fun p => s.get p :=
  List.countP_eq_length_filter.symm

/-! ### The checks, numbered -/

/-- Check n of R102 fails for the descriptor of window w. -/
def CheckFails (ws : PerWindow WindowUnit) (w : Window) : Nat → Prop
  | 1 => (ws.get w).geom.flen.toNat % 32 ≠ 0 ∨ (ws.get w).geom.flen.toNat < 64 ∨ 1048576 < (ws.get w).geom.flen.toNat
  | 2 => (ws.get w).geom.slots.toNat < 2 ∨ 4 < (ws.get w).geom.slots.toNat
  | 3 => (ws.get w).geom.readers = noPorts ∨ (∀ p, (ws.get w).geom.readers.get p = true) ∨
      (ws.get w).geom.readers.get (ws.get w).geom.writer = true
  | 4 => (ws.get w).geom.delivery = .latest ∧
      (ws.get w).geom.slots.toNat < (Port.all.countP fun p => (ws.get w).geom.readers.get p) + 2
  | 5 => (ws.get w).geom.lbase.toNat % 32 ≠ 0 ∨ (ws.get w).geom.sbase.toNat % 32 ≠ 0
  | 6 => 2 ^ 32 < (ws.get w).geom.lbase.toNat + 32 + (ws.get w).geom.flen.toNat ∨
      2 ^ 32 < (ws.get w).geom.sbase.toNat + (ws.get w).geom.slots.toNat * (ws.get w).geom.flen.toNat
  | 7 => ∃ a, ((ws.get w).geom.lbase.toNat ≤ a ∧ a < (ws.get w).geom.lbase.toNat + 32 + (ws.get w).geom.flen.toNat) ∧
      ((ws.get w).geom.sbase.toNat ≤ a ∧
        a < (ws.get w).geom.sbase.toNat + (ws.get w).geom.slots.toNat * (ws.get w).geom.flen.toNat)
  | 8 => ∃ v, v ≠ w ∧ (ws.get v).life ≠ .disabled ∧ ∃ a, (ws.get w).geom.Holds a ∧ (ws.get v).geom.Holds a
  | _ => False

/-! ### The tests of the model are these checks -/

section
variable (ws : PerWindow WindowUnit) (w : Window)

theorem checkFails_one_iff : ((ws.get w).geom.flen.toNat % 32 ≠ 0 || (ws.get w).geom.flen.toNat < 64 ||
    1048576 < (ws.get w).geom.flen.toNat) = true ↔ CheckFails ws w 1 := by
  simp [CheckFails, or_assoc]

theorem checkFails_two_iff : ((ws.get w).geom.slotCount < 2 || 4 < (ws.get w).geom.slotCount) = true ↔ CheckFails ws w 2 := by
  rw [Bool.or_eq_true, decide_eq_true_eq, decide_eq_true_eq]
  rfl

theorem checkFails_three_iff : (PortSet.isEmpty (ws.get w).geom.readers || PortSet.size (ws.get w).geom.readers = 4 ||
    (ws.get w).geom.readers.get (ws.get w).geom.writer) = true ↔ CheckFails ws w 3 := by
  simp [CheckFails, PortSet.isEmpty_iff, PortSet.size_eq_four_iff, or_assoc]

theorem checkFails_four_iff : ((ws.get w).geom.delivery = .latest &&
    (ws.get w).geom.slotCount < PortSet.size (ws.get w).geom.readers + 2) = true ↔ CheckFails ws w 4 := by
  simp [CheckFails, PortSet.size_eq_countP, Geometry.slotCount]

theorem checkFails_five_iff : ((ws.get w).geom.lbase.toNat % 32 ≠ 0 || (ws.get w).geom.sbase.toNat % 32 ≠ 0) = true ↔
    CheckFails ws w 5 := by
  simp [CheckFails]

theorem checkFails_six_iff : (0x100000000 < (ws.get w).geom.logicalEnd || 0x100000000 < (ws.get w).geom.slotAreaEnd) = true ↔
    CheckFails ws w 6 := by
  rw [Bool.or_eq_true, decide_eq_true_eq, decide_eq_true_eq]
  rfl

theorem checkFails_seven_iff : sharesByte (ws.get w).geom.lbase.toNat (ws.get w).geom.logicalEnd
    (ws.get w).geom.sbase.toNat (ws.get w).geom.slotAreaEnd = true ↔ CheckFails ws w 7 := sharesByte_iff

theorem checkFails_eight_iff : (Window.all.any fun v => v ≠ w && (ws.get v).life ≠ .disabled &&
    (ws.get w).geom.overlaps (ws.get v).geom) = true ↔ CheckFails ws w 8 := by
  simp only [List.any_eq_true, Bool.and_eq_true, decide_eq_true_eq, Geometry.overlaps_iff, CheckFails, and_assoc]
  exact ⟨fun ⟨v, _, h⟩ => ⟨v, h⟩, fun ⟨v, h⟩ => ⟨v, Window.mem_all v, h⟩⟩

/-! ### The first check that fails -/

open Classical in
/-- One more check before the others. -/
theorem ite_eq_find?_cons {P : Nat → Prop} {b : Bool} {n : Nat} {l : List Nat} {rest : Option Byte} (h : b = true ↔ P n)
    (hrest : rest = (l.find? fun i => P i).map (BitVec.ofNat 8)) :
    (if b = true then some (BitVec.ofNat 8 n) else rest) = ((n :: l).find? fun i => P i).map (BitVec.ofNat 8) := by
  by_cases hn : P n
  · simp [h.mpr hn, hn]
  · simp [mt h.mp hn, hn, hrest]

open Classical in
theorem Geometry.reason_eq_find :
    (ws.get w).geom.reason = ([1, 2, 3, 4, 5, 6, 7].find? fun n => CheckFails ws w n).map (BitVec.ofNat 8) :=
  ite_eq_find?_cons (checkFails_one_iff ws w) <| ite_eq_find?_cons (checkFails_two_iff ws w) <|
    ite_eq_find?_cons (checkFails_three_iff ws w) <| ite_eq_find?_cons (checkFails_four_iff ws w) <|
    ite_eq_find?_cons (checkFails_five_iff ws w) <| ite_eq_find?_cons (checkFails_six_iff ws w) <|
    ite_eq_find?_cons (checkFails_seven_iff ws w) rfl

open Classical in
/-- The reason code is the number of the first check that fails. -/
theorem configReason_eq_find :
    configReason ws w = ((List.range' 1 8).find? fun n => CheckFails ws w n).map (BitVec.ofNat 8) := by
  have hlast := ite_eq_find?_cons (l := []) (checkFails_eight_iff ws w) rfl
  rw [show List.range' 1 8 = [1, 2, 3, 4, 5, 6, 7] ++ [8] from rfl, List.find?_append, Option.map_or,
    ← Geometry.reason_eq_find, ← hlast, configReason]
  cases (ws.get w).geom.reason <;> rfl

theorem not_checkFails_of_large {n : Nat} (h : n = 0 ∨ 8 < n) : ¬CheckFails ws w n := by
  rcases n with _ | _ | _ | _ | _ | _ | _ | _ | _ | n
  · exact id
  all_goals first | omega | exact id

/-- Numbers up to 8 are told apart as bytes. -/
theorem ofNat_byte_inj {m n : Nat} (hm : m ≤ 8) (hn : n ≤ 8) (h : BitVec.ofNat 8 m = BitVec.ofNat 8 n) : m = n := by
  have hnat := congrArg BitVec.toNat h
  rw [BitVec.toNat_ofNat, BitVec.toNat_ofNat] at hnat
  omega

end

/-- Settles O55: the reason code is that of the first check that fails. -/
theorem descriptorChecks : Obligations.DescriptorChecks := by
  classical
  intro ws w
  have hnone : configReason ws w = none ↔ ∀ n, ¬CheckFails ws w n := by
    rw [configReason_eq_find, Option.map_eq_none_iff, List.find?_eq_none]
    refine ⟨fun h n => ?_, fun h n _ => by simpa using h n⟩
    by_cases hn : 1 ≤ n ∧ n ≤ 8
    · simpa using h n (List.mem_range'_1.mpr (by omega))
    · exact not_checkFails_of_large ws w (by omega)
  have hsome (n : Nat) (hone : 1 ≤ n) (height : n ≤ 8) :
      configReason ws w = some (BitVec.ofNat 8 n) ↔ CheckFails ws w n ∧ ∀ i, i < n → ¬CheckFails ws w i := by
    have hfirst : (List.range' 1 8).find? (fun i => decide (CheckFails ws w i)) = some n ↔
        CheckFails ws w n ∧ ∀ i, i < n → ¬CheckFails ws w i := by
      rw [List.find?_range'_eq_some]
      simp only [decide_eq_true_eq, Bool.not_eq_true', decide_eq_false_iff_not]
      refine ⟨fun ⟨hn, _, h⟩ => ⟨hn, fun i hi => ?_⟩, fun ⟨hn, h⟩ => ⟨hn, List.mem_range'_1.mpr (by omega), fun i _ hi => h i hi⟩⟩
      by_cases h0 : i = 0
      · exact not_checkFails_of_large ws w (.inl h0)
      · exact h i (by omega) hi
    rw [configReason_eq_find, Option.map_eq_some_iff, ← hfirst]
    refine ⟨fun ⟨m, hm, he⟩ => ?_, fun h => ⟨n, h, rfl⟩⟩
    obtain hmem := List.mem_range'_1.mp (List.mem_of_find?_eq_some hm)
    rw [hm, ofNat_byte_inj (by omega) height he]
  exact ⟨hsome, hnone⟩

end Sys2Proof.Machine
end

section
/-!
A writer's access with a FILLING slot, and its header reads: the statements on what is presented, held or answered at once (R25,
R27, R28, R40, R87).
-/

namespace Sys2Proof.Machine

/-! ### Answers at a port with nothing in hand -/

theorem Exchange.answer_of_hand_none {x : Exchange} {p : Port} (h : (x.port p).hand = .none) (a : Response) :
    x.answer p a = { x with answers := x.answers ++ [(p, a)] } := by
  rw [Exchange.answer, Exchange.setHand_none_of_hand_none h]

theorem State.begin_life {s : State} {w : Window} {l : Life} (h : (s.exch.win w).life = l) : (s.begin.exch.win w).life = l := h

/-- A context written into a window and changed is the changed context written into it. -/
theorem Exchange.modCtx_setLife (x : Exchange) (w : Window) (m : LiveMode) (c : Context) (f : Context → Context) :
    (x.modWin w fun u => { u with life := .live m c }).modCtx w f = x.modWin w fun u => { u with life := .live m (f c) } :=
  x.modWin_modWin w _ _

/-! ### The writer's access, by the state of its binding -/

theorem Exchange.writerAccess_filling {x : Exchange} {w : Window} {m : LiveMode} {c : Context} {k : SlotId}
    (hl : (x.win w).life = .live m c) (hs : c.writer.state = .filling k) (now : Word) (p : Port) (r : Request) :
    x.writerAccess now w p r = x.proceed now w p k r := by
  simp only [Exchange.writerAccess, x.ctx?_of_live w hl, hs]

theorem Exchange.writerAccess_noSlot {x : Exchange} {w : Window} {m : LiveMode} {c : Context}
    (hl : (x.win w).life = .live m c) (hs : c.writer.state = .noSlot) (now : Word) (p : Port) (r : Request) :
    x.writerAccess now w p r = x.attemptOpen now w p r := by
  simp only [Exchange.writerAccess, x.ctx?_of_live w hl, hs]

theorem Exchange.proceed_payload {x : Exchange} {w : Window} {r : Request} (h : (x.win w).geom.inHeader r.addr.toNat = false)
    (now : Word) (p : Port) (k : SlotId) : x.proceed now w p k r = x.writerPayload w p k r := by
  rw [Exchange.proceed_eq, h]
  rfl

/-! ### Blocks that a payload access still needs (R87) -/

theorem touchedBlocks_nodup (x n : Nat) : (touchedBlocks x n).Nodup := List.nodup_range'

/-- A sublist that keeps exactly the members with a property is the filter. -/
theorem sublist_eq_filter_of_nodup {α : Type} {l l' : List α} {f : α → Bool} (h : l'.Sublist l) (hn : l.Nodup)
    (hf : ∀ a, a ∈ l → (a ∈ l' ↔ f a = true)) : l' = l.filter f := by
  have hsub : l'.Sublist (l.filter f) := by
    have hall := h.filter f
    rwa [List.filter_eq_self.mpr fun a ha => (hf a (h.subset ha)).mp ha] at hall
  refine hsub.eq_of_length_le ((List.Nodup.subperm (hn.filter f) fun a ha => ?_).length_le)
  obtain ⟨hmem, hfa⟩ := List.mem_filter.mp ha
  exact (hf a hmem).mpr hfa

theorem Job.isDone_not_eq_true_iff (j : Job) (b : Nat) : (!j.isDone b) = true ↔ ¬j.Done b := by
  rw [← Job.isDone_iff, Bool.not_eq_true', Bool.not_eq_true]

/-- The blocks that a payload access bound for the FILLING slot still needs (R87). -/
def Exchange.blocksToDo (x : Exchange) (w : Window) (r : Request) : List Nat :=
  match x.carry.job? w with
  | none => []
  | some j => (touchedBlocks ((x.win w).geom.payloadOffset r.addr) (Request.bytes r)).filter fun b => !j.isDone b

theorem Exchange.blocksToDo_of_done {x : Exchange} {w : Window} {r : Request}
    (hd : ∀ j, x.carry.job? w = some j →
      ∀ b, b ∈ touchedBlocks ((x.win w).geom.payloadOffset r.addr) (Request.bytes r) → j.Done b) : x.blocksToDo w r = [] := by
  cases hj : x.carry.job? w with
  | none => simp only [Exchange.blocksToDo, hj]
  | some j =>
    simp only [Exchange.blocksToDo, hj]
    refine List.filter_eq_nil_iff.mpr fun b hb => ?_
    rw [Job.isDone_not_eq_true_iff]
    exact not_not.mpr (hd j hj b hb)

theorem Exchange.blocksToDo_of_job {x : Exchange} {w : Window} {r : Request} {j : Job} {todo : List Nat}
    (hj : x.carry.job? w = some j)
    (hsub : todo.Sublist (touchedBlocks ((x.win w).geom.payloadOffset r.addr) (Request.bytes r)))
    (hmem : ∀ b, b ∈ touchedBlocks ((x.win w).geom.payloadOffset r.addr) (Request.bytes r) → (b ∈ todo ↔ ¬j.Done b)) :
    x.blocksToDo w r = todo := by
  simp only [Exchange.blocksToDo, hj]
  refine (sublist_eq_filter_of_nodup hsub (touchedBlocks_nodup _ _) fun b hb => ?_).symm
  rw [hmem b hb, Job.isDone_not_eq_true_iff]

/-- With every block it touches done, a payload access is presented, and the fill timer is armed (R25, R27). -/
theorem Exchange.writerPayload_presented {x : Exchange} {w : Window} {m : LiveMode} {c : Context} {k : SlotId} {sl : Slot}
    {r : Request} (hl : (x.win w).life = .live m c) (hk : c.slots.get k = some sl) (hd : x.blocksToDo w r = []) :
    x.writerPayload w (x.win w).geom.writer k r =
      (x.setHand (x.win w).geom.writer (.presented r (translated (x.win w).geom w (x.win w).geom.writer k
        (if Access.isWrite r.access then .writerWrite else .writerRead) r) false)).modWin w fun u => { u with
          life := .live m { c with
            slots := c.slots.set k (some { sl with inFlight := sl.inFlight + 1 }),
            writer := { c.writer with fillTimer := .arm (x.win w).eff.timersA.tFill } } } := by
  have hpayload : x.writerPayload w (x.win w).geom.writer k r = (x.present (x.win w).geom.writer w k r false).armFill w := by
    unfold Exchange.blocksToDo at hd
    unfold Exchange.writerPayload
    cases hj : x.carry.job? w <;> simp only [hj] at hd ⊢
    rw [hd]
  rw [hpayload, x.present_writer w k r false hl hk, Exchange.armFill, Exchange.setHand_win, Exchange.win_modWin_self]
  exact (x.setHand _ _).modCtx_setLife w m _ _

/-- A payload access that needs blocks is held for them, and enters its demands (R27, R87). -/
theorem Exchange.writerPayload_held {x : Exchange} {w : Window} {m : LiveMode} {c : Context} {r : Request} {todo : List Nat}
    (hl : (x.win w).life = .live m c) (hd : x.blocksToDo w r = todo) (hne : todo ≠ []) (p : Port) (k : SlotId) :
    x.writerPayload w p k r =
      { ((x.setHand p (.held { req := r, window := w, reason := .carryBlock, stall := .stopped })).modWin w fun u =>
          { u with life := .live m { c with writer := { c.writer with fillTimer := .stopped } } }) with
        carry := todo.foldl (fun e b => e.demand w b) x.carry } := by
  subst hd
  unfold Exchange.blocksToDo at hne ⊢
  unfold Exchange.writerPayload
  cases hj : x.carry.job? w with
  | none => simp only [hj, ne_eq, not_true_eq_false] at hne
  | some j =>
    simp only [hj] at hne ⊢
    split
    · next h => exact absurd h hne
    · rw [Exchange.stopFill, Exchange.modCtx_of_live (x.setHand p _) w hl]
      rfl

theorem State.Takes.writerPayload {s : State} {i : Instr} {p : Port} {r : Request} {w : Window} (ht : s.Takes i p r)
    (hc : classify s.exch.windows p r = .writerPayload w) :
    p = (s.begin.exch.win w).geom.writer ∧ (s.begin.exch.win w).geom.inHeader r.addr.toNat = false ∧
      s.Reaches i (s.begin.exch.writerAccess s.time.ticks w p r) := by
  obtain ⟨hp, hin⟩ := classify_writerPayload hc
  exact ⟨hp, hin, ht.reaches_of_classify hc⟩

/-- Settles O25: the blocks that the access touches and that are not done decide whether it is presented or held. -/
theorem writerAccessPresented : Obligations.WriterAccessPresented := by
  intro s i p r w m c k sl ht hc hl hs hk
  obtain ⟨rfl, hin, hreach⟩ := ht.writerPayload hc
  rw [Exchange.writerAccess_filling (State.begin_life hl) hs, Exchange.proceed_payload hin] at hreach
  refine ⟨fun hdone => ?_, fun j todo hj hne hsub hmem => ?_⟩
  · have hd : s.begin.exch.blocksToDo w r = [] := Exchange.blocksToDo_of_done fun j hj b hb => by
      rcases hdone with hnone | ⟨j', hj', hall⟩
      · exact absurd (hj.symm.trans hnone) (by simp)
      · obtain rfl : j = j' := Option.some.inj (hj.symm.trans hj')
        exact hall b hb
    rw [Exchange.writerPayload_presented (State.begin_life hl) hk hd] at hreach
    exact hreach.next_of_none ht.raised
  · have hd : s.begin.exch.blocksToDo w r = todo := Exchange.blocksToDo_of_job hj hsub hmem
    rw [Exchange.writerPayload_held (State.begin_life hl) hd hne] at hreach
    exact hreach.next_of_none ht.raised

theorem State.Takes.commit {s : State} {i : Instr} {p : Port} {r : Request} {w : Window} {v : Word} (ht : s.Takes i p r)
    (hc : classify s.exch.windows p r = .commit w v) :
    p = (s.begin.exch.win w).geom.writer ∧ (s.begin.exch.win w).geom.inHeader r.addr.toNat = true ∧
      Request.tag r = v.truncate 16 ∧ s.Reaches i (s.begin.exch.writerAccess s.time.ticks w p r) := by
  obtain ⟨hp, hin, haccess⟩ := classify_commit hc
  exact ⟨hp, hin, by rw [Request.tag, haccess], ht.reaches_of_classify hc⟩

theorem Exchange.proceed_commit {x : Exchange} {w : Window} {r : Request} (h : (x.win w).geom.inHeader r.addr.toNat = true)
    (now : Word) (p : Port) (k : SlotId) : x.proceed now w p k r = x.startCommit now w p k (Request.tag r) false r := by
  rw [Exchange.proceed_eq, if_pos h]

theorem Exchange.startCommit_held {x : Exchange} {w : Window} {m : LiveMode} {c : Context} {j : Job}
    (hl : (x.win w).life = .live m c) (hj : x.carry.job? w = some j) (now : Word) (p : Port) (k : SlotId) (tag : Half)
    (auto : Bool) (r : Request) :
    x.startCommit now w p k tag auto r =
      (x.setHand p (.held { req := r, window := w, reason := .carryDone tag auto, stall := .stopped })).modWin w fun u =>
        { u with life := .live m { c with writer := { c.writer with fillTimer := .stopped, commitPending := true } } } := by
  simp only [Exchange.startCommit, hj]
  exact (x.setHand p _).modCtx_of_live w hl _

/-- Settles O33: a commit that finds a job of its frame waits for it. -/
theorem commitHeldForCarry : Obligations.CommitHeldForCarry := by
  intro s i p r w v m c k j ht hc hl hs hj
  obtain ⟨-, hin, htag, hreach⟩ := ht.commit hc
  rw [Exchange.writerAccess_filling (State.begin_life hl) hs, Exchange.proceed_commit hin, htag,
    Exchange.startCommit_held (State.begin_life hl) hj] at hreach
  exact hreach.next_of_none ht.raised


/-! ### The writer's header reads (R40) -/

theorem Exchange.rearmIfFilling_noSlot {x : Exchange} {w : Window} {m : LiveMode} {c : Context}
    (hl : (x.win w).life = .live m c) (hs : c.writer.state = .noSlot) : x.rearmIfFilling w = x := by
  simp only [Exchange.rearmIfFilling, x.ctx?_of_live w hl, hs]

theorem Exchange.rearmIfFilling_filling {x : Exchange} {w : Window} {m : LiveMode} {c : Context} {k : SlotId}
    (hl : (x.win w).life = .live m c) (hs : c.writer.state = .filling k) : x.rearmIfFilling w = x.modWin w fun u =>
      { u with life := .live m { c with writer := { c.writer with fillTimer := .arm (x.win w).eff.timersA.tFill } } } := by
  have harm : x.rearmIfFilling w = x.armFill w := by simp only [Exchange.rearmIfFilling, x.ctx?_of_live w hl, hs]
  exact harm.trans (x.modCtx_of_live w hl _)

theorem Engine.job?_isSome (e : Engine) (w : Window) : (e.job? w).isSome = e.jobs.any fun j => j.window = w :=
  List.isSome_find?

theorem writerFrameInfo_eq (sl : Slot) (k : SlotId) : writerFrameInfo sl k =
    (if sl.flags.fault then 0x10000 else 0) ||| (if sl.flags.carried then 0x20000 else 0) |||
      (if sl.flags.filled then 0x40000 else 0) ||| BitVec.ofNat 32 (SlotId.number k) <<< 24 := by
  simp [writerFrameInfo, frameInfo, flagBit]

/-- Settles O30: a header read is answered from the binding and the FILLING slot, and arms the fill timer of an open frame. -/
theorem writerHeaderReadResult : Obligations.WriterHeaderReadResult := by
  intro s i p r w h m c ht hc hl
  have hreach := ht.reaches_of_classify hc
  rw [Exchange.dispatch, Exchange.writerHeaderRead, Exchange.ctx?_of_live _ w (State.begin_life hl)] at hreach
  dsimp only at hreach
  refine ⟨fun hs => ?_, fun k sl hs hk => ?_⟩
  · rw [Exchange.rearmIfFilling_noSlot (State.begin_life hl) hs, Exchange.answerWord,
      Exchange.answer_of_hand_none (x := s.begin.exch) ht.hand] at hreach
    rw [hreach.next_of_none ht.raised]
    cases h <;> simp only [writerHeaderValue, hs] <;> rfl
  · rw [Exchange.rearmIfFilling_filling (State.begin_life hl) hs, Exchange.answerWord,
      Exchange.answer_of_hand_none (x := s.begin.exch.modWin w _) ht.hand] at hreach
    rw [hreach.next_of_none ht.raised]
    cases h <;> simp only [writerHeaderValue, hs, Context.slot?, hk, Option.map_some, writerFrameInfo_eq, Engine.job?_isSome] <;> rfl

end Sys2Proof.Machine
end

section
/-!
A writer's access without a FILLING slot: the slot choice, the open that takes a slot, and the open that takes none (R20 to R24,
R70 to R72).
-/

namespace Sys2Proof.Machine

/-! ### The open, by the slot choice -/

theorem State.Takes.writerAccess {s : State} {i : Instr} {p : Port} {r : Request} {w : Window} (ht : s.Takes i p r)
    (hc : classify s.exch.windows p r = .writerPayload w ∨ ∃ v, classify s.exch.windows p r = .commit w v) :
    p = (s.begin.exch.win w).geom.writer ∧ s.Reaches i (s.begin.exch.writerAccess s.time.ticks w p r) := by
  rcases hc with hpayload | ⟨v, hcommit⟩
  · obtain ⟨hp, -, hreach⟩ := ht.writerPayload hpayload
    exact ⟨hp, hreach⟩
  · obtain ⟨hp, -, -, hreach⟩ := ht.commit hcommit
    exact ⟨hp, hreach⟩

section
variable {x : Exchange} {w : Window} {c : Context}

theorem Exchange.attemptOpen_draining (hl : (x.win w).life = .live .draining c) (now : Word) (p : Port) (r : Request) :
    x.attemptOpen now w p r = x.refuseOpen now w p .draining r.addr := by
  simp only [Exchange.attemptOpen, hl]

theorem Exchange.attemptOpen_take {k : SlotId} (hl : (x.win w).life = .live .active c)
    (hk : c.chooseSlot (x.win w).geom.carry = .take k) (now : Word) (p : Port) (r : Request) :
    x.attemptOpen now w p r = x.openAndProceed now w p k r := by
  simp only [Exchange.attemptOpen, hl, hk]

theorem Exchange.attemptOpen_wait (hl : (x.win w).life = .live .active c)
    (hk : c.chooseSlot (x.win w).geom.carry = .wait) (now : Word) (p : Port) (r : Request) :
    x.attemptOpen now w p r = x.slotWait w p r := by
  simp only [Exchange.attemptOpen, hl, hk]

theorem Exchange.attemptOpen_overflow (hl : (x.win w).life = .live .active c) (hk : c.NoSlot) (now : Word) (p : Port)
    (r : Request) : x.attemptOpen now w p r = x.overflow now w p c r := by
  simp only [Exchange.attemptOpen, hl, c.chooseSlot_overflow (x.win w).geom.carry hk]

theorem Exchange.slotWait_of_live {m : LiveMode} (hl : (x.win w).life = .live m c) (p : Port) (r : Request) :
    x.slotWait w p r =
      (x.setHand p (.held { req := r, window := w, reason := .slot, stall := .arm (x.win w).eff.tStall })).modWin w fun u =>
        { u with life := .live m { c with writer := { c.writer with state := .waiting } },
                 counters := { u.counters with waited := u.counters.waited + 1 } } := by
  unfold Exchange.slotWait Exchange.count
  dsimp only
  rw [Exchange.modCtx_of_live (Exchange.setHand x p _) w hl, Exchange.modWin_modWin]
  rfl

theorem Exchange.refuseOpen_of_hand_none {p : Port} (h : (x.port p).hand = .none) (now : Word) (w : Window) (cause : OpenRefusal)
    (addr : Word) : x.refuseOpen now w p cause addr = { x with
      answers := x.answers ++ [(p, .error)],
      raised := x.raised ++ [{ EventRecord.plain now (.writerRefused cause) with
        window := some w, port := some p, detail := addr }] } := by
  rw [Exchange.refuseOpen, Exchange.answer_of_hand_none h]
  rfl


end

/-- An event that raises one record last ends with this record offered. -/
theorem State.Reaches.next_of_raise {s : State} {i : Instr} {y : Exchange} {r : EventRecord} (hreach : s.Reaches i (y.raise r))
    (hy : y.raised = []) : Machine.exec i s = .next { s.begin with exch := y, events := s.record r } := by
  have hkept : ({ y.raise r with raised := [] } : Exchange) = y := by
    obtain ⟨_, _, _, _, _, _⟩ := y
    cases hy
    rfl
  rw [hreach.next_of_one r (congrArg (· ++ [r]) hy), hkept]

/-- An open that is refused answers ERROR and records its cause. -/
theorem State.Reaches.next_of_refuseOpen {s : State} {i : Instr} {p : Port} {w : Window} {cause : OpenRefusal} {addr : Word}
    (hreach : s.Reaches i (s.begin.exch.refuseOpen s.time.ticks w p cause addr)) (hraised : s.exch.raised = [])
    (hhand : (s.exch.port p).hand = .none) :
    Machine.exec i s = .next { s.begin with
      exch := { s.begin.exch with answers := [(p, .error)] },
      events := s.record { EventRecord.plain s.time.ticks (.writerRefused cause) with
        window := some w, port := some p, detail := addr } } := by
  rw [Exchange.refuseOpen_of_hand_none (x := s.begin.exch) hhand] at hreach
  exact hreach.next_of_raise (y := { s.begin.exch with answers := [(p, .error)] }) hraised

/-- Settles O28: what the slot choice of R21 and the overflow policy make of an open that takes no slot. -/
theorem openWithoutASlot : Obligations.OpenWithoutASlot := by
  intro s i p r w m c ht hc hl hs
  obtain ⟨-, hreach⟩ := ht.writerAccess hc
  rw [Exchange.writerAccess_noSlot (State.begin_life hl) hs] at hreach
  refine ⟨fun hm hwait => ?_, fun hm hnone hstream hrefuse => ?_, fun hm => ?_⟩
  · subst hm
    have hwaits : s.begin.exch.attemptOpen s.time.ticks w p r = s.begin.exch.slotWait w p r := by
      rcases hwait with hwait | ⟨hnone, -, hhold⟩
      · exact Exchange.attemptOpen_wait (State.begin_life hl) (c.chooseSlot_wait _ hwait) _ p r
      · have hpolicy : (s.begin.exch.win w).eff.policy.overflow = .hold := hhold
        rw [Exchange.attemptOpen_overflow (State.begin_life hl) hnone, Exchange.overflow, hpolicy]
    rw [hwaits, Exchange.slotWait_of_live (State.begin_life hl)] at hreach
    exact hreach.next_of_none ht.raised
  · subst hm
    have hpolicy : (s.begin.exch.win w).eff.policy.overflow = .refuse := hrefuse
    rw [Exchange.attemptOpen_overflow (State.begin_life hl) hnone, Exchange.overflow, hpolicy] at hreach
    exact hreach.next_of_refuseOpen ht.raised ht.hand
  · subst hm
    rw [Exchange.attemptOpen_draining (State.begin_life hl)] at hreach
    exact hreach.next_of_refuseOpen ht.raised ht.hand

/-! ### An open that takes a slot -/

section
variable {x : Exchange} {w : Window} {c : Context} {k : SlotId} {sl : Slot} {r : Request}

theorem Exchange.openAndProceed_of_hand_none {p : Port} (hp : p = (x.win w).geom.writer) (hl : (x.win w).life = .live .active c)
    (hk : c.slots.get k = some sl) (hj : x.carry.job? w = none)
    (hready : (x.win w).geom.inHeader r.addr.toNat = true → x.CommitReady w c k) (hhand : (x.port p).hand = .none) (now : Word) :
    x.openAndProceed now w p k r = x.afterServing now w c k sl r := by
  subst hp
  exact x.openAndProceed_eq now w k r hl hk hj hready fun h hheld => absurd (hhand.symm.trans hheld) (by simp)

/-- An open that cases 1 and 3 of R21 give a slot: the slot is opened, and the access goes on. -/
theorem Exchange.attemptOpen_slotFor {p : Port} (hp : p = (x.win w).geom.writer) (hl : (x.win w).life = .live .active c)
    (hslot : c.SlotFor (x.win w).geom.carry k sl) (hj : x.carry.job? w = none)
    (hready : (x.win w).geom.inHeader r.addr.toNat = true → x.CommitReady w c k) (hhand : (x.port p).hand = .none) (now : Word) :
    x.attemptOpen now w p r = x.afterServing now w c k sl r := by
  obtain ⟨hk, -⟩ := id hslot
  rw [Exchange.attemptOpen_take hl (c.chooseSlot_take _ k sl hslot),
    Exchange.openAndProceed_of_hand_none hp hl hk hj hready hhand]

theorem Context.afterOpen_of_no_job {u : WindowUnit} {flags : FrameFlags} (hwork : u.opensWith c.base k = (flags, none))
    (now : Word) : c.afterOpen u k sl now = { c with
      slots := c.slots.set k (some (sl.afterOpening now flags)),
      writer := { c.writer with
        state := .filling k, bytesWritten := 0, fillTimer := .arm u.eff.timersA.tFill, commitPending := false } } := by
  simp only [Context.afterOpen, hwork]

/-- A payload access that opens a slot without a job is presented to it (R23, R25). -/
theorem Exchange.afterServing_presented {flags : FrameFlags} (hin : (x.win w).geom.inHeader r.addr.toNat = false)
    (hwork : (x.win w).opensWith c.base k = (flags, none)) (now : Word) :
    x.afterServing now w c k sl r =
      (x.setHand (x.win w).geom.writer (.presented r (translated (x.win w).geom w (x.win w).geom.writer k
        (if Access.isWrite r.access then .writerWrite else .writerRead) r) false)).modWin w fun u => { u with
          life := .live .active { c with
            slots := c.slots.set k (some { sl.afterOpening now flags with inFlight := sl.inFlight + 1 }),
            writer := { c.writer with
              state := .filling k, bytesWritten := 0, fillTimer := .arm (x.win w).eff.timersA.tFill,
              commitPending := false } } } := by
  simp only [Exchange.afterServing, hin, hwork, Bool.false_eq_true, if_false, if_true, Context.afterOpen_of_no_job hwork,
    PerSlot.set_set]
  rfl

end

theorem WindowUnit.opensWith_none {u : WindowUnit} (h : u.geom.carry = .none) (base : Option SlotId) (k : SlotId) :
    u.opensWith base k = (.empty, none) := by
  simp only [WindowUnit.opensWith, h]
  rfl

theorem WindowUnit.opensWith_base {u : WindowUnit} (h : u.geom.carry = .copy) (k : SlotId) :
    u.opensWith (some k) k = ({ fault := false, carried := true, filled := false, auto := false }, none) := by
  simp only [WindowUnit.opensWith, h, if_true]

/-- Settles O26: the open takes the slot of case 1 or case 3 of R21, and goes on as `afterServing` says. -/
theorem writerAccessOpens : Obligations.WriterAccessOpens := by
  intro s i p r w c k sl ht hl hs hj hk
  refine ⟨fun hc hcarry hfree hlowest => ?_, fun hc hcarry hbase hfree => ?_, fun hc hslot hready => ?_⟩
  · obtain ⟨hp, hin, hreach⟩ := ht.writerPayload hc
    have hcarry' : (s.begin.exch.win w).geom.carry = .none := hcarry
    have hslot : c.SlotFor (s.begin.exch.win w).geom.carry k sl := by
      refine ⟨hk, hfree, .inr ⟨?_, ?_, hlowest⟩⟩ <;>
      · rintro ⟨hcopy, -⟩
        exact absurd (hcarry'.symm.trans hcopy) (by decide)
    rw [Exchange.writerAccess_noSlot (State.begin_life hl) hs,
      Exchange.attemptOpen_slotFor hp (State.begin_life hl) hslot hj (fun h => absurd (hin.symm.trans h) (by decide)) ht.hand,
      Exchange.afterServing_presented hin (WindowUnit.opensWith_none hcarry' _ k)] at hreach
    refine ⟨_, hreach.next_of_none ht.raised, Exchange.win_modWin_self .., ?_, fun v hv => Exchange.win_modWin_ne _ _ _ hv,
      fun q hq => Exchange.port_setHand_ne _ _ _ (hp ▸ hq), rfl, rfl, rfl, rfl, rfl, rfl, rfl⟩
    subst hp
    exact ⟨_, congrArg PortUnit.hand (Exchange.port_setHand_self ..), rfl, rfl, rfl⟩
  · obtain ⟨hp, hin, hreach⟩ := ht.writerPayload hc
    have hcarry' : (s.begin.exch.win w).geom.carry = .copy := hcarry
    have hslot : c.SlotFor (s.begin.exch.win w).geom.carry k sl := ⟨hk, hfree, .inl ⟨hcarry', hbase⟩⟩
    rw [Exchange.writerAccess_noSlot (State.begin_life hl) hs,
      Exchange.attemptOpen_slotFor hp (State.begin_life hl) hslot hj (fun h => absurd (hin.symm.trans h) (by decide)) ht.hand,
      Exchange.afterServing_presented hin (hbase ▸ WindowUnit.opensWith_base hcarry' k)] at hreach
    subst hp
    exact hreach.next_of_none ht.raised
  · obtain ⟨hp, hreach⟩ := ht.writerAccess hc
    rw [Exchange.writerAccess_noSlot (State.begin_life hl) hs,
      Exchange.attemptOpen_slotFor hp (State.begin_life hl) hslot hj hready ht.hand] at hreach
    exact hreach.endsIn

/-! ### DROP (R71) -/

theorem Word.satAdd_one (a : Word) : a.satAdd 1 = if a = 0xFFFFFFFF then 0xFFFFFFFF else a + 1 := by
  unfold Word.satAdd Word.top
  split <;> split <;> bv_omega

/-- A slot that DROP may take: no holder, nothing in flight, no carry reference (R71). -/
def Slot.Droppable (sl : Slot) : Prop := sl.holders = noPorts ∧ sl.inFlight = 0 ∧ sl.carryRef = false

theorem Slot.droppable_iff (sl : Slot) :
    sl.Droppable ↔ (sl.holders.isEmpty && decide (sl.inFlight = 0) && !sl.carryRef) = true := by
  simp only [Slot.Droppable, Bool.and_eq_true, PortSet.isEmpty_iff, decide_eq_true_eq, Bool.not_eq_true', and_assoc]

theorem Slot.not_droppable {sl : Slot} (h : sl.holders ≠ noPorts ∨ sl.inFlight ≠ 0 ∨ sl.carryRef = true) : ¬sl.Droppable := by
  rintro ⟨hholders, hflight, href⟩
  rcases h with h | h | h
  · exact h hholders
  · exact h hflight
  · exact absurd (h.symm.trans href) (by decide)

section
variable {c : Context} {pre post : List SlotId} {v : SlotId} {sl : Slot}

theorem Context.victim_none (h : ∀ j, j ∈ c.ready → ∀ sl, c.slots.get j = some sl → ¬sl.Droppable) : c.victim = none := by
  refine List.find?_eq_none.mpr fun j hj => ?_
  cases hs : c.slots.get j with
  | none => simp [Context.slot?, hs]
  | some sl =>
    simp only [Context.slot?, hs, Option.any_some, ← Slot.droppable_iff]
    exact h j hj sl hs

theorem Context.victim_eq (hready : c.ready = pre ++ v :: post)
    (hpre : ∀ j sl', j ∈ pre → c.slots.get j = some sl' → ¬sl'.Droppable) (hv : c.slots.get v = some sl) (hd : sl.Droppable) :
    c.victim = some v := by
  refine List.find?_eq_some_iff_append.mpr ⟨?_, pre, post, hready, fun j hj => ?_⟩
  · simp only [Context.slot?, hv, Option.any_some]
    exact (Slot.droppable_iff sl).mp hd
  · cases hs : c.slots.get j with
    | none => simp [Context.slot?, hs]
    | some sl' =>
      have hnot := mt (Slot.droppable_iff sl').mpr (hpre j sl' hj hs)
      simp only [Context.slot?, hs, Option.any_some]
      exact Bool.not_eq_true' _ ▸ Bool.eq_false_iff.mpr hnot

theorem filter_ne_middle {α : Type} [DecidableEq α] {pre post : List α} {v : α} (hpre : v ∉ pre) (hpost : v ∉ post) :
    (pre ++ v :: post).filter (· ≠ v) = pre ++ post := by
  rw [List.filter_append, List.filter_cons_of_neg (by simp), List.filter_eq_self.mpr, List.filter_eq_self.mpr]
  · exact fun a ha => decide_eq_true fun h => hpost (h ▸ ha)
  · exact fun a ha => decide_eq_true fun h => hpre (h ▸ ha)

theorem Context.dropSlot_eq (hready : c.ready = pre ++ v :: post) (hpre : v ∉ pre) (hpost : v ∉ post)
    (hv : c.slots.get v = some sl) : c.dropSlot v = { c with
      slots := c.slots.set v (some { sl with state := .free, pending := noPorts }), ready := pre ++ post,
      writer := { c.writer with dropped := if c.writer.dropped = 0xFFFFFFFF then 0xFFFFFFFF else c.writer.dropped + 1 } } := by
  simp only [Context.dropSlot, hready, filter_ne_middle hpre hpost, c.modSlot_of v hv, Word.satAdd_one]

end

theorem Exchange.dropVictim_eq {x : Exchange} {w : Window} {m : LiveMode} {c : Context} {v : SlotId} {sl : Slot}
    (hl : (x.win w).life = .live m c) (hv : c.slots.get v = some sl) (now : Word) (p : Port) :
    x.dropVictim now w p v =
      { x.modWin w (fun u => { u with
          counters := { u.counters with dropped := u.counters.dropped + 1 }, life := .live m (c.dropSlot v) }) with
        raised := x.raised ++ [{ EventRecord.plain now .frameDropped with
          window := some w, port := some p, slot := some v, seq := sl.seq.getD 0,
          detail := BitVec.ofNat 32 (Port.all.countP fun q => sl.pending.get q) }] } := by
  simp only [Exchange.dropVictim, x.ctx?_of_live w hl, Option.bind_some, Context.slot?, hv, Exchange.count,
    x.modCtx_of_live w hl, Exchange.modWin_modWin, PortSet.size_eq_countP]
  rfl

/-- The exchange once DROP has freed a slot of the window, whose context is c1 after that, with its record (R71). -/
def Exchange.afterDropping (x : Exchange) (w : Window) (c1 : Context) (record : EventRecord) : Exchange :=
  { x.modWin w (fun u => { u with counters := { u.counters with dropped := u.counters.dropped + 1 }, life := .live .active c1 }) with
    raised := [record] }

theorem Exchange.win_afterDropping (x : Exchange) (w : Window) (c1 : Context) (record : EventRecord) :
    (x.afterDropping w c1 record).win w = { x.win w with
      counters := { (x.win w).counters with dropped := (x.win w).counters.dropped + 1 }, life := .live .active c1 } :=
  x.win_modWin_self w fun u =>
    { u with counters := { u.counters with dropped := u.counters.dropped + 1 }, life := .live .active c1 }

theorem Exchange.win_afterDropping_ne (x : Exchange) {w v : Window} (c1 : Context) (record : EventRecord) (h : v ≠ w) :
    (x.afterDropping w c1 record).win v = x.win v :=
  Exchange.win_modWin_ne x w
    (fun u => { u with counters := { u.counters with dropped := u.counters.dropped + 1 }, life := .live .active c1 }) h

theorem Exchange.setHand_modWin_fields {x y : Exchange} {p : Port} {h : Hand} {w : Window} {f : WindowUnit → WindowUnit}
    (hy : (x.setHand p h).modWin w f = y) :
    y.win w = f (x.win w) ∧ (∀ v, v ≠ w → y.win v = x.win v) ∧ (y.port p).hand = h ∧ (∀ q, q ≠ p → y.port q = x.port q) ∧
      y.raised = x.raised ∧ y.outstanding = x.outstanding ∧ y.answers = x.answers := by
  subst hy
  exact ⟨Exchange.win_modWin_self .., fun _ hv => Exchange.win_modWin_ne _ _ _ hv,
    congrArg PortUnit.hand (Exchange.port_setHand_self ..), fun _ hq => Exchange.port_setHand_ne _ _ _ hq, rfl, rfl, rfl⟩

/-- Settles O29: the victim of DROP is freed, and the open takes it as it takes a slot of case 3. -/
theorem openDropsTheOldest : Obligations.OpenDropsTheOldest := by
  intro s i p r w c ht hc hl hs hstream hj hdrop hnone
  obtain ⟨hp, hreach⟩ := ht.writerAccess hc
  have hpolicy : (s.begin.exch.win w).eff.policy.overflow = .drop := hdrop
  rw [Exchange.writerAccess_noSlot (State.begin_life hl) hs, Exchange.attemptOpen_overflow (State.begin_life hl) hnone,
    Exchange.overflow, hpolicy] at hreach
  refine ⟨fun pre post v sl hready hvpre hvpost hpre hv hholders hflight href => ?_, fun hall => ?_⟩
  · intro dropped record
    have hvictim : c.victim = some v :=
      Context.victim_eq hready (fun j sl' hj hget => Slot.not_droppable (hpre j sl' hj hget)) hv ⟨hholders, hflight, href⟩
    have hraised : s.begin.exch.raised = [] := ht.raised
    simp only [hvictim] at hreach
    rw [Exchange.dropVictim_eq (State.begin_life hl) hv, Context.dropSlot_eq hready hvpre hvpost hv, hraised] at hreach
    let freed : Slot := { sl with state := .free, pending := noPorts }
    let c1 : Context := { c with
      slots := c.slots.set v (some freed), ready := pre ++ post, writer := { c.writer with dropped := dropped } }
    let x1 := s.begin.exch.afterDropping w c1 record
    have hwin := s.begin.exch.win_afterDropping w c1 record
    have hgeom : (x1.win w).geom = (s.begin.exch.win w).geom := by rw [hwin]
    have hwriter : p = (x1.win w).geom.writer := hgeom ▸ hp
    have hlife : (x1.win w).life = .live .active c1 := by rw [hwin]
    have hopened := fun hready : (x1.win w).geom.inHeader r.addr.toNat = true → x1.CommitReady w c1 v =>
      Exchange.openAndProceed_of_hand_none (x := x1) hwriter hlife
        (PerSlot.get_set_self c.slots v (some freed)) hj hready ht.hand s.time.ticks
    have hreach1 : s.Reaches i (x1.openAndProceed s.time.ticks w p v r) := hreach
    refine ⟨fun hpayload hcarry => ?_, fun hready => ?_⟩
    · obtain ⟨-, hin, -⟩ := ht.writerPayload hpayload
      have hin1 : (x1.win w).geom.inHeader r.addr.toNat = false := hgeom ▸ hin
      rw [hopened fun h => absurd (hin1.symm.trans h) (by decide),
        Exchange.afterServing_presented hin1 (WindowUnit.opensWith_none (hgeom ▸ hcarry) _ v), ← hwriter] at hreach1
      generalize hy : (x1.setHand p _).modWin w _ = y at hreach1
      obtain ⟨hywin, hyother, hyhand, hyport, hyraised, -⟩ := Exchange.setHand_modWin_fields hy
      refine ⟨_, hreach1.next_of_one record hyraised, (congrArg WindowUnit.ctx? hywin).trans ?_,
        (congrArg WindowUnit.counters hywin).trans ?_, rfl, ⟨_, hyhand, rfl⟩,
        fun u hu => (hyother u hu).trans (s.begin.exch.win_afterDropping_ne c1 record hu), hyport⟩
      · have heff : (x1.win w).eff = (s.exch.win w).eff := by rw [hwin]; rfl
        simp only [WindowUnit.ctx?, Slot.afterOpening, c1, freed, PerSlot.set_set, hflight, heff]
        rfl
      · rw [hwin]
        rfl
    · exact (hopened (fun h => hready (hgeom ▸ h)) ▸ hreach1).endsIn
  · have hvictim : c.victim = none := Context.victim_none fun j hj sl hget => by
      obtain ⟨sl', hsl', hheld⟩ := hall j hj
      obtain rfl : sl' = sl := Option.some.inj (hsl'.symm.trans hget)
      exact Slot.not_droppable hheld
    simp only [hvictim] at hreach
    exact hreach.next_of_refuseOpen ht.raised ht.hand

end Sys2Proof.Machine
end

section
/-!
An open that creates a carry job: the new job at the end of the queue, the demands of the held access, and the block that an idle
engine takes (R24, R79, R82, R87).
-/

namespace Sys2Proof.Machine

/-! ### Demands on the last job of the queue (R87) -/

/-- The engine's current block is block b of window w. -/
def Engine.works (e : Engine) (w : Window) (b : Nat) : Bool := e.current.any fun c => c.window = w && c.block = b

/-- The entry of a demand for block b. -/
def Demand.pending (b : Nat) : Demand := { block := b, done := false }

section
variable {e : Engine} {w : Window} {l : List Job} {j : Job}

theorem Engine.job?_last (he : e.jobs = l ++ [j]) (hw : j.window = w) (hl : ∀ i, i ∈ l → i.window ≠ w) : e.job? w = some j :=
  e.job?_middle w he hw (by simpa using hl)

theorem map_last_job (hw : j.window = w) (hl : ∀ i, i ∈ l → i.window ≠ w) (f : Job → Job) :
    (l ++ [j]).map (fun i => if i.window = w then f i else i) = l ++ [f j] := by
  have hkept : l.map (fun i => if i.window = w then f i else i) = l :=
    (List.map_congr_left fun i hi => if_neg (hl i hi)).trans l.map_id
  rw [List.map_append, hkept, List.map_singleton, if_pos hw]

/-- A demand leaves the engine, or enters the block at the end of the last job's list. -/
theorem Engine.demand_last (he : e.jobs = l ++ [j]) (hw : j.window = w) (hl : ∀ i, i ∈ l → i.window ≠ w) (b : Nat) :
    e.demand w b = e ∨ e.demand w b = { e with
      jobs := l ++ [{ j with demands := j.demands ++ [.pending b] }], order := e.order ++ [(w, b)] } := by
  simp only [Engine.demand, Engine.job?_last he hw hl]
  split
  · exact .inl rfl
  · split
    · exact .inl rfl
    · split
      · rw [he, map_last_job hw hl]
        exact .inr rfl
      · exact .inl rfl

/-- Demands change no more of the jobs than the list of the last. -/
theorem Engine.foldl_demand_jobs (bs : List Nat) {j : Job} (he : e.jobs = l ++ [j]) (hw : j.window = w)
    (hl : ∀ i, i ∈ l → i.window ≠ w) : ∃ d, (bs.foldl (fun e b => e.demand w b) e).jobs = l ++ [{ j with demands := d }] := by
  induction bs generalizing e j with
  | nil => exact ⟨j.demands, he⟩
  | cons b bs ih =>
    rcases Engine.demand_last he hw hl b with h | h <;> rw [List.foldl_cons, h]
    · exact ih he hw
    · exact ih (j := { j with demands := j.demands ++ [.pending b] }) rfl hw

/-- Blocks in progress or listed are passed over; every other block enters while there is room. -/
theorem Engine.foldl_demand_eq (bs : List Nat) {j : Job} (he : e.jobs = l ++ [j]) (hw : j.window = w)
    (hl : ∀ i, i ∈ l → i.window ≠ w) (hn : bs.Nodup) (hnew : ∀ b, b ∈ bs → ∀ d, d ∈ j.demands → d.block ≠ b)
    (hroom : j.demands.length + bs.length ≤ 4) :
    bs.foldl (fun e b => e.demand w b) e = { e with
      jobs := l ++ [{ j with demands := j.demands ++ (bs.filter fun b => !e.works w b).map Demand.pending }],
      order := e.order ++ (bs.filter fun b => !e.works w b).map fun b => (w, b) } := by
  induction bs generalizing e j with
  | nil =>
    obtain ⟨_, _, _, _⟩ := e
    cases he
    simp
  | cons b bs ih =>
    obtain ⟨hb, hn⟩ := List.nodup_cons.mp hn
    have hnewb : (j.demands.any fun d => d.block = b) = false :=
      List.any_eq_false.mpr fun d hd h => hnew b (List.mem_cons_self ..) d hd (of_decide_eq_true h)
    rw [List.length_cons] at hroom
    rw [List.foldl_cons]
    by_cases hworks : e.works w b = true
    · have hdemand : e.demand w b = e := by
        unfold Engine.works at hworks
        simp only [Engine.demand, Engine.job?_last he hw hl, hworks, if_true]
      rw [hdemand, ih he hw hn (fun b hb => hnew b (List.mem_cons_of_mem _ hb)) (by omega),
        List.filter_cons_of_neg (by simp [hworks])]
    · have hdemand : e.demand w b = { e with
          jobs := l ++ [{ j with demands := j.demands ++ [.pending b] }], order := e.order ++ [(w, b)] } := by
        unfold Engine.works at hworks
        have hroom' : j.demands.length < Config.demandRoom := by
          unfold Config.demandRoom
          omega
        simp only [Engine.demand, Engine.job?_last he hw hl, hworks, if_false, hnewb, hroom', if_true, Bool.false_eq_true]
        rw [he, map_last_job hw hl]
        rfl
      rw [hdemand, ih (j := { j with demands := j.demands ++ [.pending b] }) rfl hw hn, List.filter_cons_of_pos (by simp [hworks])]
      · simp only [Engine.works, List.append_assoc, List.map_cons, List.singleton_append]
      · intro b' hb' d hd
        rcases List.mem_append.mp hd with hd | hd
        · exact hnew b' (List.mem_cons_of_mem _ hb') d hd
        · rw [List.mem_singleton.mp hd]
          rintro rfl
          exact hb hb'
      · simp only [List.length_append, List.length_singleton]
        omega

end

/-! ### The engine once an open has created a job (R79, R82) -/

theorem Engine.ne_of_job?_none {e : Engine} {w : Window} (h : e.job? w = none) : ∀ i, i ∈ e.jobs → i.window ≠ w := by
  simpa [Engine.job?] using h

/-- The job that an open of slot k creates (R24). -/
def Job.new (w : Window) (k : SlotId) (work : CarryWork) : Job :=
  { window := w, work := work, dest := k, pointer := 0, demands := [] }

theorem Engine.afterOpen_jobs (e : Engine) (w : Window) (k : SlotId) (work : CarryWork) :
    (e.afterOpen w k (some work)).jobs = e.jobs ++ [Job.new w k work] := Engine.choose_jobs _

theorem Engine.afterOpen_of_current {e : Engine} {cur : Current} (h : e.current = some cur) (w : Window) (k : SlotId)
    (work : CarryWork) : e.afterOpen w k (some work) = { e with jobs := e.jobs ++ [Job.new w k work] } := by
  simp only [Engine.afterOpen, Engine.choose, h]
  rfl

theorem Engine.afterOpen_of_idle {e : Engine} (hcur : e.current = none) (hjobs : e.jobs = []) (horder : e.order = []) (w : Window)
    (k : SlotId) (work : CarryWork) : e.afterOpen w k (some work) =
      { jobs := [Job.new w k work], order := [],
        current := some { window := w, block := 0, phase := match work with
          | .copy _ => .read
          | .fill _ => .write }, buffer := none } := by
  simp only [Engine.afterOpen, Engine.choose, Engine.nextBlock, Engine.job?, hcur, hjobs, horder, List.nil_append]
  simp only [List.head?_cons, Option.map_some, List.find?_cons, decide_true]
  cases work <;> rfl

theorem touchedBlocks_length {x n : Nat} (hn : 0 < n) (hle : n ≤ 32) : (touchedBlocks x n).length ≤ 2 := by
  rcases touchedBlocks_of_le_block hn hle with h | h <;> rw [h]
  · exact Nat.le_succ 1
  · exact Nat.le_refl 2

/-- The demands of a held access for a job just created: every block it touches but one in progress. -/
theorem Engine.foldl_demand_new {e : Engine} {w : Window} {l : List Job} {k : SlotId} {work : CarryWork} {r : Request} {x : Nat}
    (he : e.jobs = l ++ [Job.new w k work]) (hl : ∀ i, i ∈ l → i.window ≠ w) (hw : r.wellFormed = true) :
    (touchedBlocks x (Request.bytes r)).foldl (fun e b => e.demand w b) e = { e with
      jobs := l ++ [{ Job.new w k work with
        demands := ((touchedBlocks x (Request.bytes r)).filter fun b => !e.works w b).map Demand.pending }],
      order := e.order ++ ((touchedBlocks x (Request.bytes r)).filter fun b => !e.works w b).map fun b => (w, b) } := by
  obtain ⟨hpos, hle⟩ := Size.bytes_bounds hw
  have hlength : (touchedBlocks x (Request.bytes r)).length ≤ 2 := touchedBlocks_length hpos hle
  refine Engine.foldl_demand_eq (j := Job.new w k work) _ he rfl hl (touchedBlocks_nodup ..) (fun _ _ _ hd => nomatch hd) ?_
  exact (Nat.zero_add _).trans_le (hlength.trans (by decide))

theorem Engine.filter_not_works {e : Engine} {w : Window} {n : Nat} {ph : Phase}
    (hcur : e.current = some { window := w, block := n, phase := ph }) (l : List Nat) :
    (l.filter fun b => !e.works w b) = l.filter (· ≠ n) :=
  List.filter_congr fun b _ => by simp [Engine.works, hcur, eq_comm]

theorem Engine.filter_not_works_ne {e : Engine} {w : Window} {cur : Current} (hcur : e.current = some cur) (hw : cur.window ≠ w)
    (l : List Nat) : (l.filter fun b => !e.works w b) = l :=
  List.filter_eq_self.mpr fun b _ => by simp [Engine.works, hcur, hw]

/-! ### A payload access held for the job of its own open -/

/-- The context once an open with a job has held its access (R23, R24, R27). -/
def Context.heldOpen (c : Context) (k : SlotId) (slots : PerSlot (Option Slot)) : Context :=
  { c with
    slots := slots,
    writer := { c.writer with state := .filling k, bytesWritten := 0, fillTimer := .stopped, commitPending := false } }

/-- The open of the statement: its flags and work, and the slots after it (R24). -/
structure Context.OpensJob (c : Context) (u : WindowUnit) (k : SlotId) (sl : Slot) (now : Word) (work : CarryWork)
    (slots : PerSlot (Option Slot)) : Prop where
  with_work : (u.opensWith c.base k).2 = some work
  slots_eq : (c.afterOpen u k sl now).slots = slots

theorem Exchange.afterServing_heldBlock {x : Exchange} {w : Window} {c : Context} {k : SlotId} {sl : Slot} {r : Request}
    {now : Word} {work : CarryWork} {slots : PerSlot (Option Slot)} (hin : (x.win w).geom.inHeader r.addr.toNat = false)
    (ho : c.OpensJob (x.win w) k sl now work slots) :
    x.afterServing now w c k sl r =
      { ((x.setHand (x.win w).geom.writer
          (.held { req := r, window := w, reason := .carryBlock, stall := .stopped })).modWin w fun u =>
            { u with life := .live .active (c.heldOpen k slots) }) with
        carry := (touchedBlocks ((x.win w).geom.payloadOffset r.addr) (Request.bytes r)).foldl (fun e b => e.demand w b)
          (x.carry.afterOpen w k (some work)) } := by
  obtain ⟨hwork, rfl⟩ := ho
  simp only [Exchange.afterServing, hin, hwork, Bool.false_eq_true, if_false, reduceCtorEq]
  rfl

theorem Context.not_baseIs_of_base {c : Context} {carry : CarryMode} {st : SlotState}
    (h : ∀ b base, c.base = some b → c.slots.get b = some base → base.state ≠ st) : ¬c.BaseIs carry st :=
  fun ⟨_, b, base, hb, hget, hst⟩ => h b base hb hget hst

theorem WindowUnit.opensWith_copy {u : WindowUnit} (h : u.geom.carry = .copy) {b k : SlotId} (hb : b ≠ k) :
    u.opensWith (some b) k = ({ fault := false, carried := true, filled := false, auto := false }, some (.copy b)) := by
  simp only [WindowUnit.opensWith, h, if_neg hb]

theorem WindowUnit.opensWith_fill {u : WindowUnit} {base : Option SlotId}
    (h : u.geom.carry = .fill ∨ u.geom.carry = .copy ∧ base = none) (k : SlotId) :
    u.opensWith base k = ({ fault := false, carried := false, filled := true, auto := false }, some (.fill u.eff.fillPattern)) := by
  rcases h with h | ⟨h, rfl⟩ <;> simp only [WindowUnit.opensWith, h]

/-- Settles O27: the open takes the lowest FREE slot, creates the job of R24, and holds its access for the job's blocks. -/
theorem copyOpenStartsAJob : Obligations.CopyOpenStartsAJob := by
  intro s i p r w c k sl work flags slots ht hc hl hs hj hk hfree hlowest opened hkind
  obtain ⟨hp, hin, hreach⟩ := ht.writerPayload hc
  have hopens : c.SlotFor (s.begin.exch.win w).geom.carry k sl ∧
      c.OpensJob (s.begin.exch.win w) k sl s.time.ticks work slots := by
    rcases hkind with ⟨b, base, hcopy, hb, hbase, hst, rfl, rfl, rfl⟩ | ⟨hcarry, rfl, rfl, rfl⟩
    · have hbk : b ≠ k := by
        rintro rfl
        obtain rfl : base = sl := Option.some.inj (hbase.symm.trans hk)
        simp [hfree] at hst
      have hnot : ∀ st, st = .free ∨ st = .releasing → ¬c.BaseIs (s.exch.win w).geom.carry st := by
        intro st hstate
        refine Context.not_baseIs_of_base fun b' base' hb' hbase' => ?_
        obtain rfl : b = b' := Option.some.inj (hb.symm.trans hb')
        obtain rfl : base = base' := Option.some.inj (hbase.symm.trans hbase')
        rcases hst with h | h <;> rcases hstate with rfl | rfl <;> simp [h]
      have hopen : (s.begin.exch.win w).opensWith c.base k =
          ({ fault := false, carried := true, filled := false, auto := false }, some (.copy b)) := by
        rw [hb]
        exact WindowUnit.opensWith_copy hcopy hbk
      refine ⟨⟨hk, hfree, .inr ⟨hnot _ (.inl rfl), hnot _ (.inr rfl), hlowest⟩⟩, congrArg Prod.snd hopen, ?_⟩
      simp only [Context.afterOpen, hopen, hbase]
      rfl
    · have hnot : ∀ st, ¬c.BaseIs (s.exch.win w).geom.carry st := by
        rintro st ⟨hcopy, b, -, hb, -⟩
        rcases hcarry with hfill | ⟨-, hnone⟩
        · exact absurd (hcopy.symm.trans hfill) (by decide)
        · exact absurd (hnone.symm.trans hb) (by simp)
      have hopen : (s.begin.exch.win w).opensWith c.base k = ({ fault := false, carried := false, filled := true, auto := false },
          some (.fill (s.exch.win w).eff.fillPattern)) := WindowUnit.opensWith_fill hcarry k
      refine ⟨⟨hk, hfree, .inr ⟨hnot _, hnot _, hlowest⟩⟩, congrArg Prod.snd hopen, ?_⟩
      simp only [Context.afterOpen, hopen]
      rfl
  obtain ⟨hslot, hopens⟩ := hopens
  rw [Exchange.writerAccess_noSlot (State.begin_life hl) hs,
    Exchange.attemptOpen_slotFor hp (State.begin_life hl) hslot hj (fun h => absurd (hin.symm.trans h) (by decide)) ht.hand,
    Exchange.afterServing_heldBlock hin hopens, ← hp] at hreach
  have hjobs := Engine.afterOpen_jobs s.exch.carry w k work
  have hothers := Engine.ne_of_job?_none hj
  obtain ⟨-, hwell, -⟩ := id ht
  generalize hy : (s.begin.exch.setHand p _).modWin w _ = y at hreach
  obtain ⟨hywin, hyother, hyhand, hyport, hyraised, hyout, hyanswers⟩ := Exchange.setHand_modWin_fields hy
  refine ⟨_, hreach.next_of_none (hyraised.trans ht.raised), Engine.foldl_demand_jobs _ hjobs rfl hothers, hyhand,
    congrArg WindowUnit.ctx? hywin, hyother, hyport, hyout, hyanswers, rfl, fun hcur hempty horder => ?_, fun cur hcur hne => ?_⟩
  · have hnew := Engine.foldl_demand_new (x := (s.exch.win w).geom.payloadOffset r.addr) hjobs hothers hwell
    have hidle := Engine.afterOpen_of_idle hcur hempty horder w k work
    refine hnew.trans ?_
    rw [Engine.filter_not_works (congrArg Engine.current hidle), hidle, hempty]
    rfl
  · have hnew := Engine.foldl_demand_new (x := (s.exch.win w).geom.payloadOffset r.addr) hjobs hothers hwell
    have hbusy := Engine.afterOpen_of_current hcur w k work
    refine hnew.trans ?_
    rw [Engine.filter_not_works_ne (hbusy ▸ hcur) hne, hbusy]
    rfl

end Sys2Proof.Machine
end

section
/-!
A CONTROL write that commits its frame, and a write to FRAME_SEQ that abandons it (R28, R30 to R38).
-/

namespace Sys2Proof.Machine

/-! ### A commit after which nothing more follows (R31) -/

theorem Exchange.serveReader_of_none_waiting {x : Exchange} {w : Window} {c : Context} (hc : x.ctx? w = some c)
    (h : ∀ q b, c.readers.get q = some b → b.state ≠ .waiting) (q : Port) : x.serveReader w q = x := by
  unfold Exchange.serveReader
  rw [hc]
  split
  · next c' r hc' _ =>
    obtain rfl : c = c' := Option.some.inj hc'
    cases hb : c.reader? q with
    | none => rfl
    | some b => simp only [Option.any_some, decide_eq_true_eq, if_neg (h q b hb)]
  · rfl

theorem foldl_serveReader_of_none_waiting {x : Exchange} {w : Window} {c : Context} (hc : x.ctx? w = some c)
    (h : ∀ q b, c.readers.get q = some b → b.state ≠ .waiting) (l : List Port) :
    l.foldl (fun y q => y.serveReader w q) x = x := by
  induction l with
  | nil => rfl
  | cons q l ih => rw [List.foldl_cons, Exchange.serveReader_of_none_waiting hc h q, ih]

theorem Context.commit_stream {c : Context} {g : Geometry} (hg : g.delivery = .stream) {k : SlotId} {sl : Slot}
    (hk : c.slots.get k = some sl) (tag : Half) (auto : Bool) (now : Word) :
    c.commit g k tag auto now = c.afterCommit k (sl.afterCommit g c.nextSeq tag auto now) := by
  simp only [Context.commit, hg, c.modSlot_of k hk]
  simp only [Context.afterCommit, Slot.afterCommit, hg]
  rfl

theorem Exchange.applyStaged_of_none {x : Exchange} {w : Window} (h : (x.win w).staged = .none) (now : Word) (cause : ApplyCause)
    (q : Word) : x.applyStaged now w cause q = x := by
  simp only [Exchange.applyStaged, h]
  rfl

/-- A commit in a STREAM window without a staged set and without a waiting reader. -/
theorem Exchange.commitFrame_plain {x : Exchange} {w : Window} {m : LiveMode} {c : Context} {k : SlotId} {sl : Slot}
    (hl : (x.win w).life = .live m c) (hstream : (x.win w).geom.delivery = .stream) (hk : c.slots.get k = some sl)
    (hstaged : (x.win w).staged = .none) (hwait : ∀ q b, c.readers.get q = some b → b.state ≠ .waiting) (now : Word)
    (tag : Half) (auto : Bool) :
    x.commitFrame now w k tag auto =
      (x.modWin w fun u => { u with
        counters := { u.counters with committed := u.counters.committed + 1 },
        life := .live m (c.afterCommit k (sl.afterCommit (x.win w).geom c.nextSeq tag auto now)) }).raise
      { EventRecord.plain now .frameCommitted with
        window := some w, port := some (x.win w).geom.writer, slot := some k, seq := c.nextSeq, detail := tag.zeroExtend 32 } := by
  simp only [Exchange.commitFrame, x.ctx?_of_live w hl, x.modCtx_of_live w hl, Context.commit_stream hstream hk]
  rw [Exchange.applyStaged_of_none (by rw [Exchange.win_modWin_self]; exact hstaged), Exchange.count, Exchange.modWin_modWin]
  exact foldl_serveReader_of_none_waiting (c := c.afterCommit k (sl.afterCommit (x.win w).geom c.nextSeq tag auto now))
    (by simp only [Exchange.ctx?, Exchange.win, Exchange.raise, Exchange.modWin, PerWindow.get_set_self, WindowUnit.ctx?]) hwait _

theorem Exchange.takeCommit_plain {x : Exchange} {w : Window} {c : Context} {k : SlotId} {sl : Slot} {p : Port}
    (hl : (x.win w).life = .live .active c) (hstream : (x.win w).geom.delivery = .stream) (hk : c.slots.get k = some sl)
    (hstaged : (x.win w).staged = .none) (hwait : ∀ q b, c.readers.get q = some b → b.state ≠ .waiting)
    (hhand : (x.port p).hand = .none) (now : Word) (tag : Half) (auto : Bool) :
    x.takeCommit now w p k tag auto =
      ({ (x.modWin w fun u => { u with
          counters := { u.counters with committed := u.counters.committed + 1 },
          life := .live .active (c.afterCommit k (sl.afterCommit (x.win w).geom c.nextSeq tag auto now)) }) with
        answers := x.answers ++ [(p, .okay none)] } : Exchange).raise
      { EventRecord.plain now .frameCommitted with
        window := some w, port := some (x.win w).geom.writer, slot := some k, seq := c.nextSeq, detail := tag.zeroExtend 32 } := by
  rw [Exchange.takeCommit, Exchange.commitFrame_plain hl hstream hk hstaged hwait,
    Exchange.answer_of_hand_none (x := Exchange.raise (x.modWin w _) _) hhand]
  exact Exchange.drainTest_of_active _ now w (c := c.afterCommit k (sl.afterCommit (x.win w).geom c.nextSeq tag auto now))
    (by simp only [Exchange.win, Exchange.raise, Exchange.modWin, PerWindow.get_set_self])

/-! ### The commit of a CONTROL write -/

theorem Exchange.startCommit_taken {x : Exchange} {w : Window} (hj : x.carry.job? w = none) (now : Word) (p : Port) (k : SlotId)
    (tag : Half) (auto : Bool) (r : Request) : x.startCommit now w p k tag auto r = x.takeCommit now w p k tag auto := by
  simp only [Exchange.startCommit, hj]

theorem Exchange.waitingRead_of_hand_none {x : Exchange} {p : Port} (h : (x.port p).hand = .none) (w : Window) (c : Context) :
    x.waitingRead w c p = none := by
  simp only [Exchange.waitingRead, h]
  cases c.readers.get p <;> rfl

/-- A commit of any window whose committing access is not held: its effect, the answer, and the drain test. -/
theorem Exchange.takeCommit_eq {x : Exchange} {w : Window} {m : LiveMode} {c : Context} {k : SlotId} {sl : Slot} {p : Port}
    (hl : (x.win w).life = .live m c) (hk : c.slots.get k = some sl) (hready : x.CommitReady w c k)
    (hp : p = (x.win w).geom.writer) (hhand : (x.port p).hand = .none) (now : Word) (tag : Half) (auto : Bool) :
    x.takeCommit now w p k tag auto =
      ({ x.afterCommit now w m c k sl tag auto with answers := x.answers ++ [(p, .okay none)] } : Exchange).drainTest now w := by
  have hnone : x.waitingRead w c p = none := Exchange.waitingRead_of_hand_none hhand w c
  have hport : ((x.afterCommit now w m c k sl tag auto).port p).hand = .none := by
    simp only [Exchange.afterCommit, Exchange.port, PerPort.get_ofFn, hnone]
    exact hhand
  rw [Exchange.takeCommit, x.commitFrame_eq now w m c k sl tag auto hl hk hready (hp ▸ hnone),
    Exchange.answer_of_hand_none hport]
  rfl

theorem Exchange.openSlot_no_job {x : Exchange} {w : Window} {m : LiveMode} {c : Context} {k : SlotId} {sl : Slot}
    {flags : FrameFlags} (hl : (x.win w).life = .live m c) (hk : c.slots.get k = some sl)
    (hwork : (x.win w).opensWith c.base k = (flags, none)) (now : Word) :
    x.openSlot now w k = x.modWin w fun u => { u with life := .live m { c with
      slots := c.slots.set k (some (sl.afterOpening now flags)),
      writer := { c.writer with
        state := .filling k, bytesWritten := 0, fillTimer := .arm (x.win w).eff.timersA.tFill, commitPending := false } } } := by
  rw [x.openSlot_eq now w k hl hk, Context.afterOpen_of_no_job hwork, hwork]
  rfl

/-- A CONTROL write that opens a slot without a job commits it at once (R30). -/
theorem Exchange.openAndProceed_commit {x : Exchange} {w : Window} {c : Context} {k : SlotId} {sl : Slot} {p : Port}
    {r : Request} {flags : FrameFlags} (hl : (x.win w).life = .live .active c) (hk : c.slots.get k = some sl)
    (hwork : (x.win w).opensWith c.base k = (flags, none)) (hin : (x.win w).geom.inHeader r.addr.toNat = true)
    (hj : x.carry.job? w = none) (hstream : (x.win w).geom.delivery = .stream) (hstaged : (x.win w).staged = .none)
    (hwait : ∀ q b, c.readers.get q = some b → b.state ≠ .waiting) (hhand : (x.port p).hand = .none) (now : Word) :
    x.openAndProceed now w p k r =
      ({ (x.modWin w fun u => { u with
          counters := { u.counters with committed := u.counters.committed + 1 },
          life := .live .active ({ c with writer := { c.writer with bytesWritten := 0 } }.afterCommit k
            ((sl.afterOpening now flags).afterCommit (x.win w).geom c.nextSeq (Request.tag r) false now)) }) with
        answers := x.answers ++ [(p, .okay none)] } : Exchange).raise
      { EventRecord.plain now .frameCommitted with
        window := some w, port := some (x.win w).geom.writer, slot := some k, seq := c.nextSeq,
        detail := (Request.tag r).zeroExtend 32 } := by
  rw [Exchange.openAndProceed, Exchange.openSlot_no_job hl hk hwork]
  generalize hy : (x.modWin w _) = y
  have hwin := (congrArg (fun y => Exchange.win y w) hy).symm.trans (x.win_modWin_self w _)
  have hgeom : (y.win w).geom = (x.win w).geom := by rw [hwin]
  have hlife : (y.win w).life = .live .active _ := congrArg WindowUnit.life hwin
  have hstaged' : (y.win w).staged = .none := (congrArg WindowUnit.staged hwin).trans hstaged
  have hcarry : y.carry = x.carry := hy ▸ rfl
  have hport : y.port p = x.port p := hy ▸ rfl
  have hanswers : y.answers = x.answers := hy ▸ rfl
  rw [Exchange.proceed_commit (hgeom ▸ hin), Exchange.startCommit_taken (hcarry ▸ hj),
    Exchange.takeCommit_plain hlife (hgeom ▸ hstream) (PerSlot.get_set_self ..) hstaged' hwait (hport ▸ hhand), hanswers, hgeom, ← hy,
    Exchange.modWin_modWin]
  simp only [Context.afterCommit, PerSlot.set_set]

theorem zeroExtend_truncate_half (v : Word) : (v.truncate 16 : Half).zeroExtend 32 = v &&& 0xFFFF := tagOf_zeroExtend v

/-- A CONTROL write that opens a slot with a job is held for it (R28, R30). -/
theorem Exchange.openAndProceed_heldCommit {x : Exchange} {w : Window} {c : Context} {k : SlotId} {sl : Slot} {p : Port}
    {r : Request} {work : CarryWork} (hl : (x.win w).life = .live .active c) (hk : c.slots.get k = some sl)
    (hwork : ((x.win w).opensWith c.base k).2 = some work) (hin : (x.win w).geom.inHeader r.addr.toNat = true)
    (hj : x.carry.job? w = none) (now : Word) :
    x.openAndProceed now w p k r =
      { ((x.setHand p (.held
          { req := r, window := w, reason := .carryDone (Request.tag r) false, stall := .stopped })).modWin w fun u => { u with
            life := .live .active { c.afterOpen (x.win w) k sl now with
              writer := { (c.afterOpen (x.win w) k sl now).writer with fillTimer := .stopped, commitPending := true } } }) with
        carry := x.carry.afterOpen w k (some work) } := by
  rw [Exchange.openAndProceed, x.openSlot_eq now w k hl hk, hwork]
  generalize hy : (x.modWin w _) = y
  have hwin := (congrArg (fun y => Exchange.win y w) hy).symm.trans (x.win_modWin_self w _)
  have hgeom : (y.win w).geom = (x.win w).geom := by rw [hwin]
  have hlife : (y.win w).life = .live .active _ := congrArg WindowUnit.life hwin
  rw [Exchange.proceed_commit (x := { y with carry := x.carry.afterOpen w k (some work) }) (hgeom ▸ hin),
    Exchange.startCommit_held (x := { y with carry := x.carry.afterOpen w k (some work) }) hlife
      (Engine.afterOpen_job _ w k work hj), ← hy]
  simp only [Exchange.modWin, Exchange.setHand, Exchange.modPort, PerWindow.get_set_self, PerWindow.set_set]

/-- An event that ends with a drain test. -/
theorem State.Reaches.endsIn_of_drainTested {s : State} {i : Instr} {x z : Exchange} {now : Word} {w : Window}
    (h : s.Reaches i (x.drainTest now w)) (hz : x.DrainTested now w z) : s.EndsIn i z := by
  rw [(x.drainTest_iff now w z).mp hz] at h
  exact h.endsIn

/-- Settles O31: a frame that is FILLING, or is opened by the write, is committed unless a carry job holds the commit. -/
theorem commitTaken : Obligations.CommitTaken := by
  intro s i p r w v c k sl ht hc hj
  obtain ⟨hp, hin, htag, hreach⟩ := ht.commit hc
  refine ⟨fun hl hstream hs hk hstaged hwait => ?_, fun m z hl hs hk hready hz => ?_, fun hl hs hslot hnew => ⟨?_, ?_⟩⟩
  · rw [Exchange.writerAccess_filling (State.begin_life hl) hs, Exchange.proceed_commit hin, htag,
      Exchange.startCommit_taken (x := s.begin.exch) hj,
      Exchange.takeCommit_plain (State.begin_life hl) hstream hk hstaged hwait ht.hand, ← hp, zeroExtend_truncate_half] at hreach
    rw [hreach.next_of_raise ht.raised]
    simp only [Context.afterCommit, Slot.afterCommit, State.begin_win, hstream, if_true]
    rfl
  · rw [Exchange.writerAccess_filling (State.begin_life hl) hs, Exchange.proceed_commit hin, htag,
      Exchange.startCommit_taken (x := s.begin.exch) hj, Exchange.takeCommit_eq (State.begin_life hl) hk hready hp ht.hand] at hreach
    exact hreach.endsIn_of_drainTested hz
  · intro hcarry hstream hstaged hwait
    obtain ⟨hk, -⟩ := id hslot
    rw [Exchange.writerAccess_noSlot (State.begin_life hl) hs,
      Exchange.attemptOpen_take (State.begin_life hl) (c.chooseSlot_take _ k sl hslot),
      Exchange.openAndProceed_commit (State.begin_life hl) hk (WindowUnit.opensWith_none hcarry _ k) hin hj hstream hstaged hwait
        ht.hand, ← hp, htag, zeroExtend_truncate_half] at hreach
    exact hreach.next_of_raise ht.raised
  · intro hcarry
    obtain ⟨hk, -⟩ := id hslot
    have hopen := WindowUnit.opensWith_fill (u := s.begin.exch.win w) (base := c.base) (.inl hcarry) k
    rw [Exchange.writerAccess_noSlot (State.begin_life hl) hs,
      Exchange.attemptOpen_take (State.begin_life hl) (c.chooseSlot_take _ k sl hslot),
      Exchange.openAndProceed_heldCommit (State.begin_life hl) hk (congrArg Prod.snd hopen) hin hj, htag] at hreach
    generalize hy : (s.begin.exch.setHand p _).modWin w _ = y at hreach
    obtain ⟨hywin, hyother, hyhand, hyport, hyraised, hyout, hyanswers⟩ := Exchange.setHand_modWin_fields hy
    refine ⟨_, hreach.next_of_none (hyraised.trans ht.raised), hywin.trans ?_, Engine.afterOpen_jobs .., hyhand, hyport, hyother,
      hyanswers, rfl, hyout⟩
    simp only [Context.afterOpen, hopen]
    rfl

/-! ### The abandon (R36, R38) -/

/-- A FRAME_SEQ write of the writer (R124, R127, R128). -/
theorem classify_abandon {ws : PerWindow WindowUnit} {p : Port} {r : Request} {w : Window}
    (h : classify ws p r = .abandon w) : p = (ws.get w).geom.writer := by
  obtain ⟨u, ⟨-, hc, ha⟩ | ⟨-, hc, -⟩⟩ := classify_region h (by simp)
  · unfold headerClass at hc
    repeat' split at hc
    all_goals cases hc
    next v e _ =>
      rw [e] at ha
      unfold Geometry.roleAllows at ha
      simpa [Access.isWrite] using ha
  · split at hc <;> cases hc

theorem Exchange.writerAbandon_noSlot {x : Exchange} {w : Window} {m : LiveMode} {c : Context} {p : Port}
    (hl : (x.win w).life = .live m c) (hs : c.writer.state = .noSlot) (hhand : (x.port p).hand = .none) (now : Word) :
    x.writerAbandon now w p = { x with answers := x.answers ++ [(p, .okay none)] } := by
  simp only [Exchange.writerAbandon, x.ctx?_of_live w hl, hs]
  exact Exchange.answer_of_hand_none hhand _

theorem Exchange.writerAbandon_filling {x : Exchange} {w : Window} {m : LiveMode} {c : Context} {k : SlotId}
    (hl : (x.win w).life = .live m c) (hs : c.writer.state = .filling k) (now : Word) (p : Port) :
    x.writerAbandon now w p = ((x.abandon now w .writer).answer p (.okay none)).drainTest now w := by
  simp only [Exchange.writerAbandon, x.ctx?_of_live w hl, hs]

theorem filter_ne_of_not_mem {α : Type} [DecidableEq α] {l : List α} {a : α} (h : a ∉ l) : l.filter (· ≠ a) = l :=
  List.filter_eq_self.mpr fun _ hb => decide_eq_true fun hba => h (hba ▸ hb)

/-- Settles O34: a frame that is FILLING is abandoned, with its job, before the answer and the drain test. -/
theorem abandonResult : Obligations.AbandonResult := by
  intro s i p r w m c ht hc hl
  have hp : p = (s.begin.exch.win w).geom.writer := classify_abandon hc
  have hreach : s.Reaches i (s.begin.exch.writerAbandon s.time.ticks w p) := ht.reaches_of_classify hc
  refine ⟨fun hs => ?_, fun k sl hm hs hk hnew hj => ?_, fun k sl x c1 z hs hk hx hz => ?_⟩
  · rw [Exchange.writerAbandon_noSlot (State.begin_life hl) hs ht.hand] at hreach
    exact hreach.next_of_none ht.raised
  · subst hm
    rw [Exchange.writerAbandon_filling (State.begin_life hl) hs,
      s.begin.exch.abandon_eq _ w .active c k sl .writer s.begin.exch c (State.begin_life hl) hs hk (.inl ⟨hj, rfl, rfl⟩),
      Exchange.answer_of_hand_none (p := p) (by exact ht.hand), Exchange.drainTest_of_active (c := c.afterAbandon k sl) (h := ?_),
      ← hp] at hreach
    · simp only [State.begin_raised, ht.raised] at hreach
      rw [hreach.next_of_one _ rfl]
      simp only [Context.afterAbandon, filter_ne_of_not_mem hnew, ← ht.raised]
      rfl
    · simp only [Exchange.win, Exchange.modWin, PerWindow.get_set_self]
  · rw [Exchange.writerAbandon_filling (State.begin_life hl) hs,
      s.begin.exch.abandon_eq _ w m c k sl .writer x c1 (State.begin_life hl) hs hk hx, ← hp] at hreach
    obtain ⟨hports, hanswers⟩ : x.ports = s.begin.exch.ports ∧ x.answers = [] := by
      rcases hx with ⟨-, rfl, -⟩ | ⟨j, -, -, rfl, -⟩ <;> exact ⟨rfl, rfl⟩
    have hhand : (x.port p).hand = .none := (congrArg (fun ports => (PerPort.get ports p).hand) hports).trans ht.hand
    rw [Exchange.answer_of_hand_none (p := p) (by exact hhand)] at hreach
    refine State.Reaches.endsIn_of_drainTested (now := s.time.ticks) (w := w) ?_ hz
    simpa only [Exchange.modWin_answers, hanswers, State.begin_raised, ht.raised, List.nil_append] using hreach

end Sys2Proof.Machine
end

section
/-!
The readers' accesses: status reads, the release, the payload read and the acquire (R41 to R54, R61).
-/

namespace Sys2Proof.Machine

/-! ### A window changed to itself -/

theorem Exchange.modWin_eq_self {x : Exchange} {w : Window} {f : WindowUnit → WindowUnit} (h : f (x.win w) = x.win w) :
    x.modWin w f = x := by
  rw [Exchange.modWin, show x.windows.get w = x.win w from rfl, h, Exchange.win, PerWindow.set_get]

theorem PerPort.set_of_get {α : Type} {t : PerPort α} {p : Port} {a : α} (h : t.get p = a) : t.set p a = t := by
  rw [← h, PerPort.set_get]

theorem WindowUnit.with_life {u : WindowUnit} {l : Life} (h : u.life = l) : { u with life := l } = u := by
  subst h
  rfl

/-! ### FRAME_INFO, FRAME_TIME, GAP and BYTE_COUNT (R61, R185) -/

theorem readerFrameInfo_eq (sl : Slot) (repeated : Bool) (k : SlotId) : readerFrameInfo sl repeated k =
    sl.tag.zeroExtend 32 ||| (if sl.flags.fault then 0x10000 else 0) ||| (if sl.flags.carried then 0x20000 else 0) |||
      (if sl.flags.filled then 0x40000 else 0) ||| (if sl.flags.auto then 0x80000 else 0) |||
      (if repeated then 0x100000 else 0) ||| (if sl.state = .retired then 0x200000 else 0) |||
      BitVec.ofNat 32 (SlotId.number k) <<< 24 := by
  simp [readerFrameInfo, frameInfo, flagBit]

/-- Settles O39: a status read is answered from the held slot and the binding. -/
theorem readerStatusResult : Obligations.ReaderStatusResult := by
  intro s i p r w h m c b ht hc hl hb
  have hreach := ht.reaches_of_classify hc
  rw [Exchange.dispatch, Exchange.readerStatus, Exchange.ctx?_of_live _ w (State.begin_life hl)] at hreach
  dsimp only at hreach
  rw [Exchange.answerWord, Exchange.answer_of_hand_none (x := s.begin.exch) ht.hand] at hreach
  refine ⟨fun hs => ?_, fun k sl hs hk => ?_⟩
  · rw [hreach.next_of_none ht.raised]
    rcases hs with hs | hs <;> simp only [readerHeaderValue, Context.reader?, hb, hs] <;> rfl
  · rw [hreach.next_of_none ht.raised]
    cases h <;> simp only [readerHeaderValue, Context.reader?, Context.slot?, hb, hs, hk, readerFrameInfo_eq] <;> rfl

/-! ### The drain test of a window that goes on -/

theorem Exchange.drainTest_of_not_met {x : Exchange} {w : Window} {m : LiveMode} {c : Context} (hl : (x.win w).life = .live m c)
    (hm : m = .active ∨ m = .draining ∧ ¬c.DrainMet (x.win w).geom.delivery) (now : Word) : x.drainTest now w = x := by
  refine (x.drainTest_iff now w x).mp ?_
  rcases hm with rfl | ⟨rfl, hnot⟩ <;> simp only [Exchange.DrainTested, hl]
  exact .inl ⟨hnot, trivial⟩

/-- Where no writer waits, a slot that becomes FREE serves nobody. -/
theorem Exchange.Serves.of_not_waiting {x : Exchange} {w : Window} {m : LiveMode} {c : Context}
    (hl : (x.win w).life = .live m c) (h : c.writer.state ≠ .waiting) (now : Word) : x.Serves now w x := by
  simp only [Exchange.Serves, hl, and_true]
  exact .inl (.inl h)

/-! ### The release (R54) -/

theorem Context.giveBackSlot_writer (c : Context) (d : Delivery) (p : Port) (k : SlotId) :
    (c.giveBackSlot d p k).writer = c.writer := by
  unfold Context.giveBackSlot Context.settle Context.retire
  cases c.slot? k with
  | none => rfl
  | some sl =>
    dsimp only
    repeat' split
    all_goals simp

theorem Context.giveBack_writer (c : Context) (d : Delivery) (p : Port) (after : ReaderState) :
    (c.giveBack d p after).writer = c.writer := by
  unfold Context.giveBack
  cases c.reader? p with
  | none => rfl
  | some b =>
    dsimp only
    split
    · exact c.giveBackSlot_writer d p _
    · rfl

section
variable {x : Exchange} {w : Window} {m : LiveMode} {c : Context} {p : Port} {b : ReaderBinding}

theorem Context.holds_of_holding {k : SlotId} (hb : c.readers.get p = some b) (hs : b.state = .holding k) : c.holds p = true := by
  simp only [Context.holds, Context.reader?, hb, hs]

theorem Context.not_holds {p : Port} (hb : c.readers.get p = some b) (hs : ∀ k, b.state ≠ .holding k) : c.holds p = false := by
  simp only [Context.holds, Context.reader?, hb]

theorem Exchange.readerRelease_at_rest (hl : (x.win w).life = .live m c) (hb : c.readers.get p = some b)
    (hs : ∀ k, b.state ≠ .holding k) (hhand : (x.port p).hand = .none) (now : Word) :
    x.readerRelease now w p =
      { (x.modWin w fun u => { u with life := .live m { c with readers := c.readers.set p (some { b with state := .idle }) } }) with
        answers := x.answers ++ [(p, .okay (some (.word (releaseValue b.state))))] } := by
  simp only [Exchange.readerRelease, x.ctx?_of_live w hl, Context.reader?, hb, Context.not_holds hb hs, Bool.false_eq_true, if_false,
    x.modCtx_of_live w hl, c.modReader_of p hb]
  exact Exchange.answer_of_hand_none (x := x.modWin w _) hhand _

theorem Exchange.readerRelease_holding {k : SlotId} (hl : (x.win w).life = .live m c) (hb : c.readers.get p = some b)
    (hs : b.state = .holding k) (now : Word) :
    x.readerRelease now w p = ((x.giveBack now w p .idle).answerWord p 1).drainTest now w := by
  simp only [Exchange.readerRelease, x.ctx?_of_live w hl, Context.reader?, hb, Context.holds_of_holding hb hs, if_true, hs]
  rfl

end

/-- Settles O37: the answer goes by the binding; a held slot is given back before the answer. -/
theorem releaseResult : Obligations.ReleaseResult := by
  intro s i p r w m c b ht hc hl hb
  have hreach : s.Reaches i (s.begin.exch.readerRelease s.time.ticks w p) := ht.reaches_of_classify hc
  refine ⟨fun hs => ?_, fun hs => ?_, fun k hs => ?_⟩
  · rw [Exchange.readerRelease_at_rest (State.begin_life hl) hb (by simp [hs]) ht.hand, Exchange.modWin_eq_self, hs] at hreach
    · exact hreach.next_of_none ht.raised
    · obtain ⟨_, _, _⟩ := b
      cases hs
      rw [PerPort.set_of_get hb]
      exact WindowUnit.with_life (State.begin_life hl)
  · rw [Exchange.readerRelease_at_rest (State.begin_life hl) hb (by simp [hs]) ht.hand, hs] at hreach
    exact hreach.next_of_none ht.raised
  · intro c1
    rw [Exchange.readerRelease_holding (State.begin_life hl) hb hs] at hreach
    let x1 := s.begin.exch.modWin w fun u => { u with life := .live m c1 }
    have hwin := s.begin.exch.win_modWin_self w fun u => { u with life := .live m c1 }
    have hlife : (x1.win w).life = .live m c1 := congrArg WindowUnit.life hwin
    have hgeom : (x1.win w).geom = (s.exch.win w).geom := (congrArg WindowUnit.geom hwin :)
    refine ⟨fun hwait hmode => ?_, fun y z hy hz => ?_⟩
    · have hserves := Exchange.Serves.of_not_waiting (x := x1) hlife ((c.giveBack_writer _ p .idle).symm ▸ hwait) s.time.ticks
      rw [s.begin.exch.giveBack_eq _ w p .idle (State.begin_life hl) x1 hserves, Exchange.answerWord,
        Exchange.answer_of_hand_none (x := x1) ht.hand] at hreach
      have htest := Exchange.drainTest_of_not_met (x := { x1 with answers := [(p, .okay (some (.word 1)))] }) hlife
        (hmode.imp_right (And.imp_right (hgeom ▸ id))) s.time.ticks
      exact (htest ▸ hreach : s.Reaches i { x1 with answers := [(p, .okay (some (.word 1)))] }).next_of_none ht.raised
    · rw [s.begin.exch.giveBack_eq _ w p .idle (State.begin_life hl) y hy] at hreach
      exact hreach.endsIn_of_drainTested hz

/-! ### The payload read (R41, R47, R50) -/

section
variable {x : Exchange} {w : Window} {m : LiveMode} {c : Context} {p : Port} {b : ReaderBinding} {r : Request}

theorem Exchange.readerRead_holding {k : SlotId} (hl : (x.win w).life = .live m c) (hb : c.readers.get p = some b)
    (hs : b.state = .holding k) (now : Word) : x.readerRead now w p r = x.present p w k r false := by
  simp only [Exchange.readerRead, x.ctx?_of_live w hl, Context.reader?, hb, hs]

theorem Exchange.readerRead_evicted (hl : (x.win w).life = .live m c) (hb : c.readers.get p = some b) (hs : b.state = .evicted)
    (now : Word) : x.readerRead now w p r = x.refuse now p .evicted (some w) r.addr := by
  simp only [Exchange.readerRead, x.ctx?_of_live w hl, Context.reader?, hb, hs]

theorem Exchange.readerRead_idle (hl : (x.win w).life = .live m c) (hb : c.readers.get p = some b) (hs : b.state = .idle)
    (now : Word) : x.readerRead now w p r = x.implicitRead now w p c r := by
  simp only [Exchange.readerRead, x.ctx?_of_live w hl, Context.reader?, hb, hs]

theorem Exchange.frameWait_of_live (hl : (x.win w).life = .live m c) (hb : c.readers.get p = some b) :
    x.frameWait w p r =
      (x.setHand p (.held { req := r, window := w, reason := .frame, stall := .arm (x.win w).eff.tStall })).modWin w fun u =>
        { u with
          life := .live m { c with readers := c.readers.set p (some { b with state := .waiting }) },
          counters := { u.counters with waited := u.counters.waited + 1 } } := by
  unfold Exchange.frameWait Exchange.count
  dsimp only
  rw [Exchange.modCtx_of_live (Exchange.setHand x p _) w hl, Exchange.modWin_modWin, c.modReader_of p hb]
  rfl

/-- An implicit acquire, and the read of the frame then held (R43, R50). -/
theorem Exchange.acquire_present {k : SlotId} {sl : Slot} {q : Word} (hp : p ≠ (x.win w).geom.writer)
    (hl : (x.win w).life = .live m c) (hk : c.slots.get k = some sl) (hq : sl.seq = some q) (hb : c.readers.get p = some b) :
    (x.acquire w p k).present p w k r false =
      (x.setHand p (.presented r (translated (x.win w).geom w p k .readerRead r) false)).modWin w fun u => { u with
        counters := { u.counters with acquired := u.counters.acquired + 1 },
        life := .live m { c with
          slots := c.slots.set k (some { sl with holders := sl.holders.set p true, inFlight := sl.inFlight + 1 }),
          readers := c.readers.set p (some (b.afterAcquire k q (x.win w).eff.timersA.tHold)) } } := by
  rw [x.acquire_eq w p k hl hk hq hb]
  generalize hy : (x.modWin w _) = y
  have hwin := (congrArg (fun y => Exchange.win y w) hy).symm.trans (x.win_modWin_self w _)
  have hgeom : (y.win w).geom = (x.win w).geom := by rw [hwin]
  rw [y.present_reader w p k r false (hgeom ▸ hp) (congrArg WindowUnit.life hwin) (PerSlot.get_set_self ..), hgeom, ← hy]
  simp only [Exchange.modWin, Exchange.setHand, Exchange.modPort, PerWindow.get_set_self, PerWindow.set_set, PerSlot.set_set]

end

/-- A refusal answers ERROR and records its cause. -/
theorem State.Reaches.next_of_refuse {s : State} {i : Instr} {p : Port} {cause : RefuseCause} {w : Option Window} {addr : Word}
    (hreach : s.Reaches i (s.begin.exch.refuse s.time.ticks p cause w addr)) (hraised : s.exch.raised = [])
    (hhand : (s.exch.port p).hand = .none) :
    Machine.exec i s = .next { s.begin with
      exch := { s.begin.exch with answers := [(p, .error)] },
      events := s.record { EventRecord.plain s.time.ticks (.accessRefused cause) with
        window := w, port := some p, detail := addr } } := by
  rw [Exchange.refuse_of_hand_none (x := s.begin.exch) hhand] at hreach
  exact hreach.next_of_raise (y := { s.begin.exch with answers := [(p, .error)] }) hraised

/-- Settles O38: a read goes to the held slot; without one it is refused, waits, or acquires the available frame first. -/
theorem readerReadResult : Obligations.ReaderReadResult := by
  intro s i p r w m c b ht hc hl hb
  have hreach : s.Reaches i (s.begin.exch.readerRead s.time.ticks w p r) := ht.reaches_of_classify hc
  obtain ⟨hp, -⟩ : p ≠ (s.begin.exch.win w).geom.writer ∧ _ := classify_readerPayload hc
  refine ⟨fun k sl hs hk => ?_, fun hs => ?_, fun hs hno => ?_, fun hs himplicit hnone hwait => ?_,
    fun k sl q hs himplicit havail hk hq => ?_⟩
  · rw [Exchange.readerRead_holding (State.begin_life hl) hb hs,
      s.begin.exch.present_reader w p k r false hp (State.begin_life hl) hk] at hreach
    exact hreach.next_of_none ht.raised
  · rw [Exchange.readerRead_evicted (State.begin_life hl) hb hs] at hreach
    exact hreach.next_of_refuse ht.raised ht.hand
  · have hrefuse : s.begin.exch.implicitRead s.time.ticks w p c r = s.begin.exch.refuse s.time.ticks p .noframe (some w) r.addr := by
      rcases hno with hno | ⟨hnone, hfail⟩
      · simp only [Exchange.implicitRead, State.begin_win, hno, Bool.false_eq_true, if_false]
      · simp only [Exchange.implicitRead, State.begin_win, Context.available_none _ _ _ hnone, hfail, ite_self]
    rw [Exchange.readerRead_idle (State.begin_life hl) hb hs, hrefuse] at hreach
    exact hreach.next_of_refuse ht.raised ht.hand
  · rw [Exchange.readerRead_idle (State.begin_life hl) hb hs, Exchange.implicitRead] at hreach
    simp only [State.begin_win, himplicit, if_true, Context.available_none _ _ _ hnone, hwait] at hreach
    rw [Exchange.frameWait_of_live (State.begin_life hl) hb] at hreach
    exact hreach.next_of_none ht.raised
  · rw [Exchange.readerRead_idle (State.begin_life hl) hb hs, Exchange.implicitRead] at hreach
    simp only [State.begin_win, himplicit, if_true, Context.available_of _ _ _ _ havail] at hreach
    rw [Exchange.acquire_present hp (State.begin_life hl) hk hq hb] at hreach
    exact hreach.next_of_none ht.raised

/-! ### The acquire (R42, R43) -/

section
variable {x : Exchange} {w : Window} {m : LiveMode} {c : Context} {p : Port}

/-- What is available to a reader goes by the slots and the queue alone (R18). -/
theorem Context.available_congr {c d : Context} (hslots : d.slots = c.slots) (hready : d.ready = c.ready) (dv : Delivery) (p : Port) :
    d.available dv p = c.available dv p := by
  simp only [Context.available, Context.slot?, hslots, hready]

theorem Context.giveBack_at_rest {b : ReaderBinding} (hb : c.readers.get p = some b) (hs : ∀ k, b.state ≠ .holding k)
    (d : Delivery) (after : ReaderState) :
    c.giveBack d p after = { c with readers := c.readers.set p (some { b with state := after, holdTimer := .stopped }) } := by
  simp only [Context.giveBack, Context.reader?, hb]
  rfl

/-- What follows the acquire and its answer: a waiting writer and the drain test, if a frame was given back (R42, R109). -/
def Exchange.afterAcquire (y : Exchange) (now : Word) (w : Window) (gaveBack : Bool) : Exchange :=
  if gaveBack then (y.serveWriter now w).drainTest now w else y

variable {c1 : Context}

theorem Exchange.readerAcquire_none (hl : (x.win w).life = .live m c) (hc1 : c.giveBack (x.win w).geom.delivery p .idle = c1)
    (hnone : c1.NoneAvailable (x.win w).geom.delivery p) (hhand : (x.port p).hand = .none) (now : Word) :
    x.readerAcquire now w p = ({ (x.modWin w fun u => { u with life := .live m c1 }) with
      answers := x.answers ++ [(p, .okay (some (.word 0)))] } : Exchange).afterAcquire now w (c.holds p) := by
  subst hc1
  simp only [Exchange.readerAcquire, x.ctx?_of_live w hl, Context.available_none _ _ _ hnone, x.modCtx_of_live w hl]
  rw [Exchange.answerWord, Exchange.answer_of_hand_none (x := x.modWin w _) hhand]
  rfl

theorem Exchange.readerAcquire_some {k : SlotId} {sl : Slot} {q : Word} {b : ReaderBinding} (hl : (x.win w).life = .live m c)
    (hc1 : c.giveBack (x.win w).geom.delivery p .idle = c1) (havail : c1.Available (x.win w).geom.delivery p k)
    (hk : c1.slots.get k = some sl) (hq : sl.seq = some q) (hb : c1.readers.get p = some b)
    (hhand : (x.port p).hand = .none) (now : Word) :
    x.readerAcquire now w p = ({ (x.modWin w fun u => { u with
        counters := { u.counters with acquired := u.counters.acquired + 1 },
        life := .live m { c1 with
          slots := c1.slots.set k (some { sl with holders := sl.holders.set p true }),
          readers := c1.readers.set p (some (b.afterAcquire k q (x.win w).eff.timersA.tHold)) } }) with
      answers := x.answers ++ [(p, .okay (some (.word q)))] } : Exchange).afterAcquire now w (c.holds p) := by
  subst hc1
  have hseq : (((c.giveBack (x.win w).geom.delivery p .idle).slot? k).bind Slot.seq).getD 0 = q := by
    simp only [Context.slot?, hk, Option.bind_some, hq, Option.getD_some]
  simp only [Exchange.readerAcquire, x.ctx?_of_live w hl, Context.available_of _ _ _ _ havail, x.modCtx_of_live w hl, hseq]
  generalize hy : (x.modWin w _) = y
  have hwin := (congrArg (fun y => Exchange.win y w) hy).symm.trans (x.win_modWin_self w _)
  rw [y.acquire_eq w p k (congrArg WindowUnit.life hwin) hk hq hb, Exchange.answerWord,
    Exchange.answer_of_hand_none (x := y.modWin w _) (hy ▸ hhand), ← hy, Exchange.modWin_modWin, Exchange.win_modWin_self]
  rfl

end

theorem State.Reaches.endsIn_of_afterAcquire {s : State} {i : Instr} {now : Word} {w : Window} {x y z : Exchange}
    (h : s.Reaches i (x.afterAcquire now w true)) (hy : x.Serves now w y) (hz : y.DrainTested now w z) : s.EndsIn i z := by
  rw [Exchange.afterAcquire, if_pos rfl, x.serveWriter_eq now w y hy] at h
  exact h.endsIn_of_drainTested hz

/-- Settles O35: what is held is given back, then the frame available is acquired and answered. -/
theorem acquireResult : Obligations.AcquireResult := by
  intro s i p r w m c b ht hc hl hb
  have hreach : s.Reaches i (s.begin.exch.readerAcquire s.time.ticks w p) := ht.reaches_of_classify hc
  refine ⟨fun hs hnone => ?_, fun k sl q hs havail hk hq => ?_, fun held hs => ?_⟩
  · have hrest : ∀ k, b.state ≠ .holding k := by rcases hs with hs | hs <;> simp [hs]
    rw [Exchange.readerAcquire_none (State.begin_life hl) (Context.giveBack_at_rest hb hrest _ _) hnone ht.hand,
      Context.not_holds hb hrest] at hreach
    exact hreach.next_of_none ht.raised
  · have hrest : ∀ k, b.state ≠ .holding k := by rcases hs with hs | hs <;> simp [hs]
    rw [Exchange.readerAcquire_some (State.begin_life hl) (Context.giveBack_at_rest hb hrest _ _) havail hk hq
      (PerPort.get_set_self ..) ht.hand, Context.not_holds hb hrest] at hreach
    simp only [PerPort.set_set] at hreach
    exact hreach.next_of_none ht.raised
  · intro g c1
    refine ⟨fun y z hnone hy hz => ?_, fun k sl q y z havail hk hq hy hz => ?_⟩
    · rw [Exchange.readerAcquire_none (State.begin_life hl) rfl hnone ht.hand, Context.holds_of_holding hb hs] at hreach
      exact hreach.endsIn_of_afterAcquire hy hz
    · have hb1 : c1.readers.get p = some { b with state := .idle, holdTimer := .stopped } := by
        rw [show c1 = _ from Context.giveBack_of_holding _ p .idle hb hs]
        exact PerPort.get_set_self ..
      rw [Exchange.readerAcquire_some (State.begin_life hl) rfl havail hk hq hb1 ht.hand, Context.holds_of_holding hb hs] at hreach
      exact hreach.endsIn_of_afterAcquire hy hz

end Sys2Proof.Machine
end

section
/-!
The expiries of the fill, hold and stall timers (R37, R57, R69).
-/

namespace Sys2Proof.Machine

/-! ### How an event on the exchange ends -/

theorem State.Quiet.settled {s : State} (h : s.Quiet) : s.Settled := ⟨h.1, s.linkPorts_of_empty h.2⟩

/-- An expiry that acts on the exchange alone, and leaves the links as it found them. -/
theorem State.reaches_of_exchange {s : State} {i : Instr} {f : Word → Exchange → Exchange} {z : Exchange}
    (h : exec i s = .next (s.event fun s => s.unlessReset fun s => s.onExchange f)) (hr : s.resetAsserted = false)
    (hf : f s.time.ticks s.begin.exch = z)
    (hz : z.ports = s.exch.ports ∧ s.Settled ∨ s.Quiet ∧ s.begin.exch.KeepsButList z) : s.Reaches i z := by
  subst hf
  refine ⟨?_, ?_⟩
  · have hevent : s.begin.unlessReset (fun s => s.onExchange f) = s.begin.onExchange f := by
      rw [State.unlessReset, State.begin_resetAsserted, hr]
      rfl
    exact h.trans (congrArg (fun t : State => Host.Outcome.next t.finish) hevent)
  · rcases hz with ⟨hports, -, hlinks⟩ | ⟨⟨-, hlinks⟩, hkeeps⟩
    · rw [← hlinks]
      simp only [State.linkPorts, State.portReady, Exchange.port, hports]
      rfl
    · exact State.linkPorts_of_empty _ fun q => (hkeeps.ports q).link.trans (hlinks q)

/-- An expiry that changes nothing. -/
theorem State.next_of_exchange_same {s : State} {i : Instr} {f : Word → Exchange → Exchange}
    (h : exec i s = .next (s.event fun s => s.unlessReset fun s => s.onExchange f)) (hr : s.resetAsserted = false)
    (hs : s.Settled) (hf : f s.time.ticks s.begin.exch = s.begin.exch) : exec i s = .next s.begin :=
  (State.reaches_of_exchange h hr hf (.inl ⟨rfl, hs⟩)).next_of_none hs.1

/-! ### The fill timer (R37) -/

theorem Exchange.fillExpiry_not_due {x : Exchange} {w : Window} {m : LiveMode} {c : Context} (hl : (x.win w).life = .live m c)
    (h : c.writer.fillTimer.due = false ∨ c.writer.state = .noSlot ∨ c.writer.state = .waiting) (now : Word) :
    x.fillExpiry now w = x := by
  simp only [Exchange.fillExpiry, x.ctx?_of_live w hl]
  cases hs : c.writer.state with
  | noSlot => rfl
  | waiting => rfl
  | filling k =>
    have hdue : c.writer.fillTimer.due = false := by simpa [hs] using h
    simp only [hdue, Bool.false_eq_true, if_false]

theorem Exchange.fillExpiry_due {x : Exchange} {w : Window} {m : LiveMode} {c : Context} {k : SlotId}
    (hl : (x.win w).life = .live m c) (hdue : c.writer.fillTimer.due = true) (hs : c.writer.state = .filling k) (now : Word) :
    x.fillExpiry now w = (x.abandon now w .timeout).drainTest now w := by
  simp only [Exchange.fillExpiry, x.ctx?_of_live w hl, hs, hdue, if_true]

/-- Settles O49: a fill timer that is due abandons the frame, and the drain test follows. -/
theorem fillExpiryResult : Obligations.FillExpiryResult := by
  intro s w m c hr hsettled hl
  refine ⟨fun hnot => ?_, fun k sl hm hdue hs hk hnew hj => ?_, fun k sl x c1 z hm hdue hs hk hx hz => ?_⟩
  · exact State.next_of_exchange_same (i := .fillTimerExpiry w) (f := fun now x => x.fillExpiry now w) rfl hr hsettled
      (Exchange.fillExpiry_not_due (State.begin_life hl) hnot _)
  · subst hm
    have hexpiry := Exchange.fillExpiry_due (State.begin_life hl) hdue hs s.time.ticks
    rw [s.begin.exch.abandon_eq _ w .active c k sl .timeout s.begin.exch c (State.begin_life hl) hs hk (.inl ⟨hj, rfl, rfl⟩),
      Exchange.drainTest_of_active (c := c.afterAbandon k sl)
        (h := by simp only [Exchange.win, Exchange.modWin, PerWindow.get_set_self]),
      State.begin_raised, hsettled.1, List.nil_append] at hexpiry
    have hreach := State.reaches_of_exchange (i := .fillTimerExpiry w) (f := fun now x => x.fillExpiry now w) rfl hr hexpiry (.inl ⟨rfl, hsettled⟩)
    rw [hreach.next_of_one _ rfl]
    simp only [Context.afterAbandon, filter_ne_of_not_mem hnew, ← hsettled.1]
    rfl
  · have hexpiry := Exchange.fillExpiry_due (State.begin_life hl) hdue hs s.time.ticks
    rw [s.begin.exch.abandon_eq _ w m c k sl .timeout x c1 (State.begin_life hl) hs hk hx, State.begin_raised, hsettled.1,
      List.nil_append] at hexpiry
    have htest := (Exchange.drainTest_iff _ s.time.ticks w z).mp hz
    have hkeeps := (s.begin.exch.fillExpiry_keeps s.time.ticks w).butList
    rw [hexpiry.trans htest] at hkeeps
    refine (State.reaches_of_exchange (i := .fillTimerExpiry w) (f := fun now x => x.fillExpiry now w) rfl hr (hexpiry.trans htest) ?_).endsIn
    rcases hm with rfl | hquiet
    · rw [Exchange.drainTest_of_active (c := c1.afterAbandon k sl)
        (h := by simp only [Exchange.win, Exchange.modWin, PerWindow.get_set_self])] at htest
      refine .inl ⟨?_, hsettled⟩
      rw [← htest]
      rcases hx with ⟨-, rfl, -⟩ | ⟨j, -, -, rfl, -⟩ <;> rfl
    · exact .inr ⟨hquiet, hkeeps⟩

/-! ### The hold timer (R57) -/

/-- An expiry in a quiet state that keeps what every expiry keeps. -/
theorem State.Quiet.reaches_of_exchange {s : State} {i : Instr} {f : Word → Exchange → Exchange} {z : Exchange} (hs : s.Quiet)
    (h : exec i s = .next (s.event fun s => s.unlessReset fun s => s.onExchange f)) (hr : s.resetAsserted = false)
    (hkeeps : s.begin.exch.Keeps (f s.time.ticks s.begin.exch)) (hf : f s.time.ticks s.begin.exch = z) : s.Reaches i z :=
  State.reaches_of_exchange h hr hf (.inr ⟨hs, hf ▸ hkeeps.butList⟩)

section
variable {x : Exchange} {w : Window} {m : LiveMode} {c : Context} {p : Port} {b : ReaderBinding}

theorem Exchange.holdExpiry_not_due (hl : (x.win w).life = .live m c) (hb : c.readers.get p = some b)
    (hdue : b.holdTimer.due = false) (now : Word) : x.holdExpiry now w p = x := by
  simp only [Exchange.holdExpiry, x.ctx?_of_live w hl, Context.reader?, hb, hdue, Bool.false_eq_true, if_false]
  cases b.state <;> rfl

theorem Exchange.holdExpiry_due {k : SlotId} (hl : (x.win w).life = .live m c) (hb : c.readers.get p = some b)
    (hs : b.state = .holding k) (hdue : b.holdTimer.due = true) (now : Word) :
    x.holdExpiry now w p = x.evict now w p k c b := by
  simp only [Exchange.holdExpiry, x.ctx?_of_live w hl, Context.reader?, hb, hs, hdue, if_true]

/-- An eviction: the give-back, the count and the record, then the drain test. -/
theorem Exchange.evict_eq {k : SlotId} {sl : Slot} {y : Exchange} (hl : (x.win w).life = .live m c) (hk : c.slots.get k = some sl)
    (now : Word)
    (hy : (x.modWin w fun u => { u with life := .live m (c.giveBack (x.win w).geom.delivery p
      (if (x.win w).geom.implicitAcquire then .idle else .evicted)) }).Serves now w y) :
    x.evict now w p k c b =
      ({ y.modWin w (fun u => { u with counters := { u.counters with expired := u.counters.expired + 1 } }) with
        raised := y.raised ++ [{ EventRecord.plain now .holdExpired with
          window := some w, port := some p, slot := some k, seq := sl.seq.getD 0, detail := b.bytesRead }] } : Exchange).drainTest
        now w := by
  unfold Exchange.evict
  simp only [x.giveBack_eq now w p _ hl y hy, Context.slot?, hk, Option.bind_some]
  rfl

end

/-- Settles O50: a hold timer that is due evicts its reader. -/
theorem holdExpiryResult : Obligations.HoldExpiryResult := by
  intro s w p m c b hr hquiet hl hb
  have hreaches := fun z => hquiet.reaches_of_exchange (i := .holdTimerExpiry w p) (f := fun now x => x.holdExpiry now w p)
    (z := z) rfl hr (s.begin.exch.holdExpiry_keeps s.time.ticks w p)
  refine ⟨fun hdue => ?_, fun k sl hdue hs hk => ?_⟩
  · exact (hreaches _ (Exchange.holdExpiry_not_due (State.begin_life hl) hb hdue _)).next_of_none hquiet.1
  · intro after c1 record
    obtain ⟨-, -, -, -, -, -, hgive⟩ := giveBackEffect c p k sl b after hk hb hs
    obtain ⟨hreaders, hwriter, -, -, hslots⟩ := hgive (s.exch.win w).geom.delivery
    refine ⟨⟨hreaders, hwriter, hslots⟩, fun hwait hmode => ?_, fun y z hy hz => ?_⟩
    · have hwin := s.begin.exch.win_modWin_self w fun u => { u with life := .live m c1 }
      have hserves := Exchange.Serves.of_not_waiting (c := c1) (congrArg WindowUnit.life hwin) (hwriter ▸ hwait) s.time.ticks
      have hevict := Exchange.evict_eq (b := b) (State.begin_life hl) hk s.time.ticks hserves
      rw [Exchange.modWin_modWin, Exchange.drainTest_of_not_met (c := c1) (m := m)] at hevict
      · exact (hreaches _ ((Exchange.holdExpiry_due (State.begin_life hl) hb hs hdue _).trans hevict)).next_of_raise hquiet.1
      · simp only [Exchange.win, Exchange.modWin, PerWindow.get_set_self]
      · simpa only [Exchange.win, Exchange.modWin, PerWindow.get_set_self, State.begin_windows] using hmode
    · have hevict := Exchange.evict_eq (b := b) (State.begin_life hl) hk s.time.ticks hy
      refine State.Reaches.endsIn_of_drainTested (hreaches _ ?_) hz
      exact (Exchange.holdExpiry_due (State.begin_life hl) hb hs hdue _).trans hevict

/-! ### The stall timer (R69) -/

section
variable {x : Exchange} {p : Port} {h : Held} {m : LiveMode} {c : Context}

theorem Exchange.stallExpiry_not_due (hh : (x.port p).hand = .held h) (hdue : h.stall.due = false) (now : Word) :
    x.stallExpiry now p = x := by
  simp only [Exchange.stallExpiry, hh, hdue, Bool.false_eq_true, if_false]
  cases h.reason.wait? <;> rfl

/-- A wait that ends: the answer, the binding, the count and the record. -/
theorem Exchange.stallExpiry_due {kind : WaitKind} (hh : (x.port p).hand = .held h) (hdue : h.stall.due = true)
    (hkind : h.reason.wait? = some kind) (hl : (x.win h.window).life = .live m c) (now : Word) :
    x.stallExpiry now p =
      ({ ((x.setHand p .none).modWin h.window fun u => { u with
          counters := { u.counters with expired := u.counters.expired + 1 }, life := .live m (c.endWait p kind) }) with
        answers := x.answers ++ [(p, .error)] } : Exchange).raise
      { EventRecord.plain now (.stallExpired kind) with window := some h.window, port := some p, detail := h.req.addr } := by
  simp only [Exchange.stallExpiry, hh, hdue, hkind, if_true]
  rw [Exchange.modCtx_of_live (Exchange.answer x p .error) h.window hl, Exchange.count, Exchange.modWin_modWin]
  rfl

end

/-- Settles O51: a stall timer that is due ends the wait with ERROR. -/
theorem stallExpiryResult : Obligations.StallExpiryResult := by
  intro s p h m c hr hquiet hh hl
  have hreaches := fun z => hquiet.reaches_of_exchange (i := .stallTimerExpiry p) (f := fun now x => x.stallExpiry now p)
    (z := z) rfl hr (s.begin.exch.stallExpiry_keeps s.time.ticks p)
  refine ⟨fun hdue => ?_, fun hdue hreason => ?_, fun b hdue hreason hb => ?_⟩
  · exact (hreaches _ (Exchange.stallExpiry_not_due (x := s.begin.exch) hh hdue _)).next_of_none hquiet.1
  · have hexpiry := Exchange.stallExpiry_due (x := s.begin.exch) (kind := .slot) hh hdue (by rw [hreason]; rfl) hl s.time.ticks
    exact (hreaches _ hexpiry).next_of_raise hquiet.1
  · have hexpiry := Exchange.stallExpiry_due (x := s.begin.exch) (kind := .frame) hh hdue (by rw [hreason]; rfl) hl s.time.ticks
    rw [Context.endWait, c.modReader_of p hb] at hexpiry
    exact (hreaches _ hexpiry).next_of_raise hquiet.1

end Sys2Proof.Machine
end

section
/-!
Commands of the management port in a frame that awaits one: how their event ends, RECOVER_MEMORY_PORT with the recovery pulse, the
frame itself, and the registers that a read latches (R151, R154 to R158).
-/

namespace Sys2Proof.Machine

/-! ### The event of a command -/

/-- The event of a command that raises no record and leaves the links as they are. -/
theorem State.Settled.finish_of {s t : State} (hs : s.Settled) (hraised : t.exch.raised = s.exch.raised)
    (hports : t.exch.ports = s.exch.ports) (hreset : t.resetAsserted = s.resetAsserted) : t.finish = t := by
  refine State.finish_of_none _ (hraised.trans hs.1) ((List.filter_congr fun p _ => ?_).trans hs.2)
  simp only [State.portReady, Exchange.port, hports, hreset]

/-- The state once a command is taken is that of its effect, with the reply in the frame. -/
theorem FrameState.take_eq_setFrame (f : FrameState) (code : Byte) (args : List Byte) (t : State) (r : Reply) :
    FrameState.take { f with code := some code, args := args } (t, r) =
      t.setFrame (f.reply code args (r.status.code :: r.more) r.todo) := by
  rw [FrameState.take, FrameState.running_answered]

/-- The event of a command that raises one record and leaves the links as they are. -/
theorem State.Settled.finish_of_raise {s t : State} (hs : s.Settled) {r : EventRecord} (hraised : t.exch.raised = [r])
    (hports : t.exch.ports = s.exch.ports) (hreset : t.resetAsserted = s.resetAsserted) :
    t.finish = { t with exch := { t.exch with raised := [] }, events := t.record r } := by
  rw [State.finish, State.flush_of_one t r hraised]
  refine State.takeLinks_of_none _ ((List.filter_congr fun p _ => ?_).trans hs.2)
  simp only [State.portReady, Exchange.port, hports, hreset]

section
variable {s t : State} {f : FrameState} {code : Byte} {c : MgmtCommand} {r : Reply}

/-- A command without arguments: its effect with the reply in the frame, and the end of the event. -/
theorem State.event_code (ha : s.awaits f) (hc : commandOf code = some c)
    (hact : ∀ g : FrameState, s.begin.arrived g c = g.take (t, r)) :
    (s.event fun s => s.send [code]) = (t.setFrame (f.reply code [] (r.status.code :: r.more) r.todo)).finish := by
  have hbegin : s.begin.awaits f := ha
  obtain ⟨-, -, hargs, -, -⟩ := id ha
  have hframe : ({ f with code := some code } : FrameState) = { f with code := some code, args := [] } := by rw [← hargs]
  rw [State.event, State.send_code hbegin hc, hact, hframe, FrameState.take_eq_setFrame]

/-- A command with one argument. -/
theorem State.event_one (ha : s.awaits f) (hc : commandOf code = some c) {act : State → Byte → State × Reply}
    (hw : ∀ (t : State) (g : FrameState), t.arrived g c = t.withOne g (act t))
    (hframe : ∀ fr a, act (s.begin.setFrame fr) a = ((act s.begin a).1.setFrame fr, (act s.begin a).2)) {a : Byte}
    (hact : act s.begin a = (t, r)) :
    (s.event fun s => s.send [code, a]) = (t.setFrame (f.reply code [a] (r.status.code :: r.more) r.todo)).finish := by
  have hbegin : s.begin.awaits f := ha
  rw [State.event, State.send_one hbegin hc hw hframe, hact, FrameState.take_eq_setFrame]

/-- A command with two arguments. -/
theorem State.event_two (ha : s.awaits f) (hc : commandOf code = some c)
    {act : State → Byte → Byte → State × Reply} (hw : ∀ (t : State) (g : FrameState), t.arrived g c = t.withTwo g (act t))
    (hframe : ∀ fr a b, act (s.begin.setFrame fr) a b = ((act s.begin a b).1.setFrame fr, (act s.begin a b).2)) {a b : Byte}
    (hact : act s.begin a b = (t, r)) :
    (s.event fun s => s.send [code, a, b]) = (t.setFrame (f.reply code [a, b] (r.status.code :: r.more) r.todo)).finish := by
  have hbegin : s.begin.awaits f := ha
  rw [State.event, State.send_two hbegin hc hw hframe, hact, FrameState.take_eq_setFrame]

end

/-! ### Recovery (R151, R170) -/

theorem State.pulseExpiry_due {s : State} (hs : s.memPort.state = .recovering) (hdue : s.memPort.pulse.due = true) :
    s.pulseExpiry = { s with memPort := { s.memPort with state := .ready, pulse := .stopped } } := by
  simp [State.pulseExpiry, hs, hdue]

theorem State.pulseExpiry_not_due {s : State} (h : s.memPort.state ≠ .recovering ∨ s.memPort.pulse.due = false) :
    s.pulseExpiry = s := by
  rcases h with h | h <;> simp [State.pulseExpiry, h]

/-- The event of RECOVERY_PULSE_EXPIRY in a settled state with RESET_N deasserted. -/
theorem State.exec_recoveryPulseExpiry {s t : State} (hs : s.Settled) (hr : s.resetAsserted = false)
    (ht : s.begin.pulseExpiry = t) (hexch : t.exch = s.begin.exch) (hreset : t.resetAsserted = s.resetAsserted) :
    exec .recoveryPulseExpiry s = .next t := by
  have hevent : s.begin.unlessReset State.pulseExpiry = t := by
    rw [State.unlessReset, State.begin_resetAsserted, hr]
    exact ht
  refine congrArg Host.Outcome.next ((congrArg State.finish hevent).trans ?_)
  exact hs.finish_of (by rw [hexch]; rfl) (by rw [hexch]; rfl) hreset

/-- Settles O48: RECOVER_MEMORY_PORT and the recovery pulse move the memory port's state, and nothing else. -/
theorem recoveryResult : Obligations.RecoveryResult := by
  intro s hs
  refine ⟨fun f ha => ⟨fun hfault => ?_, fun hnot => ?_⟩, fun hr => ⟨fun hrec hdue => ?_, fun hnot => ?_⟩⟩
  · have hrecover : s.begin.recover = ({ s.begin with memPort := { s.memPort with state := .recovering, pulse := .running 4 } },
        { status := .ok }) := if_pos hfault
    exact congrArg Host.Outcome.next
      ((State.event_code ha (c := .recoverMemoryPort) rfl fun g => congrArg g.take hrecover).trans (hs.finish_of rfl rfl rfl))
  · have hrecover : s.begin.recover = (s.begin, { status := .badState }) := if_neg hnot
    exact congrArg Host.Outcome.next
      ((State.event_code ha (c := .recoverMemoryPort) rfl fun g => congrArg g.take hrecover).trans (hs.finish_of rfl rfl rfl))
  · exact State.exec_recoveryPulseExpiry hs hr (State.pulseExpiry_due hrec hdue) rfl rfl
  · exact State.exec_recoveryPulseExpiry hs hr (State.pulseExpiry_not_due hnot) rfl rfl

end Sys2Proof.Machine
end

section
/-!
ENABLE: its tests in order, and the starting context (R101 to R104).
-/

namespace Sys2Proof.Machine

/-! ### The tests of ENABLE (R101) -/

section
variable {s : State} {window mode : Byte} {w : Window} {m : LiveMode}

theorem modeOfByte_eq_none {mode : Byte} (h : 2 ≤ mode.toNat) : modeOfByte mode = none := by
  unfold modeOfByte
  rw [if_neg (by rintro rfl; exact absurd h (by decide)), if_neg (by rintro rfl; exact absurd h (by decide))]

theorem modeOfByte_of_lt {mode : Byte} (h : mode.toNat < 2) :
    modeOfByte mode = some (if mode = 0 then .observe else .active) := by
  by_cases h0 : mode = 0
  · simp [modeOfByte, h0]
  · have h1 : mode = 1 := by
      have hne : mode.toNat ≠ 0 := fun e => h0 (BitVec.eq_of_toNat_eq e)
      exact BitVec.eq_of_toNat_eq (show mode.toNat = 1 by omega)
    simp [modeOfByte, h1]

theorem State.enableWindow_badArgument (h : 8 ≤ window.toNat ∨ 2 ≤ mode.toNat) :
    s.enableWindow window mode = (s, { status := .badArgument }) := by
  unfold State.enableWindow
  rcases h with h | h
  · rw [windowOfNat_eq_none h]
  · rw [modeOfByte_eq_none h]
    cases windowOfNat window.toNat <;> rfl

variable (hw : window.toNat = Window.number w) (hm : mode.toNat < 2)
include hw hm

theorem State.enableWindow_badState (hlive : (s.exch.win w).life ≠ .disabled) :
    s.enableWindow window mode = (s, { status := .badState }) := by
  simp only [State.enableWindow, hw, windowOfNat_number, modeOfByte_of_lt hm, hlive, ne_eq, not_false_eq_true, if_true]

variable (hlife : (s.exch.win w).life = .disabled)
include hlife

theorem State.enableWindow_badConfig {reason : Byte} (hreason : configReason s.exch.windows w = some reason) :
    s.enableWindow window mode = (s, { status := .badConfig, more := [reason] }) := by
  simp only [State.enableWindow, hw, windowOfNat_number, modeOfByte_of_lt hm, hlife, ne_eq, not_true_eq_false, if_false, hreason]

theorem State.enableWindow_busy (hreason : configReason s.exch.windows w = none) (hattr : s.exch.attributed w = true) :
    s.enableWindow window mode = (s, { status := .busy }) := by
  simp only [State.enableWindow, hw, windowOfNat_number, modeOfByte_of_lt hm, hlife, ne_eq, not_true_eq_false, if_false, hreason,
    hattr, if_true]

theorem State.enableWindow_ok (hreason : configReason s.exch.windows w = none) (hattr : s.exch.attributed w = false) :
    s.enableWindow window mode =
      ({ s with exch := s.exch.enableWindow s.time.ticks w (if mode = 0 then .observe else .active) }, { status := .ok }) := by
  simp only [State.enableWindow, hw, windowOfNat_number, modeOfByte_of_lt hm, hlife, ne_eq, not_true_eq_false, if_false, hreason,
    hattr, Bool.false_eq_true]
  rfl

end

theorem Exchange.attributed_iff (x : Exchange) (w : Window) : x.attributed w = true ↔
    (∃ p r m b, (x.port p).hand = .presented r m b ∧ m.window = some w) ∨ ∃ e, e ∈ x.outstanding ∧ e.mem.window = some w := by
  simp only [Exchange.attributed, Bool.or_eq_true, List.any_eq_true, decide_eq_true_eq]
  refine or_congr_left ⟨?_, ?_⟩
  · rintro ⟨p, -, hp⟩
    unfold PortUnit.presentsFor at hp
    split at hp
    · next r m b hhand => exact ⟨p, r, m, b, hhand, of_decide_eq_true hp⟩
    · cases hp
  · rintro ⟨p, r, m, b, hhand, hm⟩
    exact ⟨p, Port.mem_all p, by simp only [PortUnit.presentsFor, hhand, hm, decide_true]⟩

/-- The window enabled, and its WINDOW_STATE record. -/
theorem Exchange.enableWindow_eq (x : Exchange) (now : Word) (w : Window) (m : LiveMode) :
    x.enableWindow now w m =
      (x.modWin w fun u => { u with life := .live m (Context.start u.geom) }).raise
        { EventRecord.plain now (.windowState .enable) with
          window := some w, detail := (Life.live m (Context.start (x.win w).geom)).code } := by
  rw [Exchange.enableWindow, Exchange.raiseState, Exchange.win_modWin_self]

/-- The event of a command that raises one record last, and leaves the links as they are. -/
theorem State.Settled.finish_raise {s t : State} {y : Exchange} {r : EventRecord} (hs : s.Settled) (ht : t.exch = y.raise r)
    (hraised : y.raised = s.exch.raised) (hports : y.ports = s.exch.ports) (hreset : t.resetAsserted = s.resetAsserted) :
    t.finish = { t with exch := y, events := t.record r } := by
  have hy : y.raised = [] := hraised.trans hs.1
  rw [hs.finish_of_raise (by rw [ht, Exchange.raise, hy]; rfl) (by rw [ht]; exact hports) hreset, ht, ← hy]
  rfl

/-- Settles O56: the first test that fails decides; a window that passes all has its starting context. -/
theorem enableResult : Obligations.EnableResult := by
  intro s f window mode hs ha refused
  have hevent : ∀ {t r}, s.begin.enableWindow window mode = (t, r) → exec (.enable window mode) s =
      .next (t.setFrame (f.reply 0x10 [window, mode] (r.status.code :: r.more) r.todo)).finish := fun hact =>
    congrArg Host.Outcome.next
      (State.event_two ha (c := .enable) rfl (fun _ _ => rfl) (fun fr a b => s.begin.setFrame_enableWindow fr a b) hact)
  have hrefused : ∀ {r : Reply}, r.todo = .nothing → s.begin.enableWindow window mode = (s.begin, r) →
      exec (.enable window mode) s = .next (refused (r.status.code :: r.more)) := fun htodo hact => by
    rw [hevent hact, htodo]
    exact congrArg Host.Outcome.next (hs.finish_of rfl rfl rfl)
  refine ⟨fun h => hrefused (r := { status := .badArgument }) rfl (State.enableWindow_badArgument h), fun w hw hm => ⟨fun hlive => ?_, fun hlife => ⟨?_, ?_⟩⟩⟩
  · exact hrefused (r := { status := .badState }) rfl (State.enableWindow_badState hw hm hlive)
  · exact fun reason hreason => hrefused (r := { status := .badConfig, more := [reason] }) rfl
      (State.enableWindow_badConfig (s := s.begin) hw hm hlife hreason)
  · intro attributed
    refine ⟨fun hreason hattr => ?_, fun hreason hattr => ?_⟩
    · exact hrefused (r := { status := .busy }) rfl (State.enableWindow_busy hw hm hlife hreason ((s.exch.attributed_iff w).mpr hattr))
    · intro slot reader present fresh
      have hnot : s.begin.exch.attributed w = false := Bool.eq_false_iff.mpr (mt (s.exch.attributed_iff w).mp hattr)
      rw [hevent (State.enableWindow_ok hw hm hlife hreason hnot)]
      have hdetail : ∀ c, (Life.live (if mode = 0 then .observe else .active) c).code = if mode = 0 then 1 else 2 := fun c => by
        split <;> rfl
      rw [Exchange.enableWindow_eq, hdetail]
      refine congrArg Host.Outcome.next (hs.finish_raise
        (y := s.begin.exch.modWin w fun u => { u with life := .live (if mode = 0 then .observe else .active) (Context.start u.geom) })
        (r := { EventRecord.plain s.time.ticks (.windowState .enable) with
          window := some w, detail := if mode = 0 then 1 else 2 }) ?_ ?_ ?_ ?_) <;> rfl

end Sys2Proof.Machine
end

section
/-!
The response of a frame as it goes out, and the commands whose response is the snapshot or the event queue: SNAPSHOT with its
128 bytes, READ_SNAPSHOT, DISCARD_SNAPSHOT, READ_EVENTS and the removal of a record (R154, R163 to R166, R178).
-/

namespace Sys2Proof.Machine

/-! ### The response goes out (R154) -/

section
variable {s : State} {g : FrameState}

/-- Between two bytes that are settled, nothing is latched. -/
theorem State.clockByte_of_taken (hf : s.mgmt.frame = .running g) (ht : g.taken = true) (hpos : g.position ≠ g.response.length)
    (b : Byte) : s.clockByte b = s.byteOut g := by
  have hbegin : s.beginByte = s := by simp [State.beginByte, hf, hpos]
  simp only [State.clockByte, hbegin, hf, ht, if_true]

theorem State.setFrame_byteOut (fr : Frame) : (s.setFrame fr).byteOut g = s.byteOut g := by
  simp only [State.byteOut]
  split <;> rfl

/-- A byte that is not the last one settled moves the position alone. -/
theorem State.byteOut_within (hpos : g.position + 1 ≠ g.response.length) :
    s.byteOut g = s.setFrame (.running { g with position := g.position + 1 }) := by
  simp only [State.byteOut, hpos, decide_false]

/-- So does the last one settled, where nothing ends with it. -/
theorem State.byteOut_of_todo (hsnap : g.todo ≠ .snapshot) (hrec : ∀ n, g.todo ≠ .records (n + 1) true) :
    s.byteOut g = s.setFrame (.running { g with position := g.position + 1 }) := by
  simp only [State.byteOut]
  split
  · next h => exact absurd h hsnap
  · next h => exact absurd h (hrec _)
  · rfl

/-- The last byte of the snapshot empties the buffer. -/
theorem State.byteOut_snapshot (htodo : g.todo = .snapshot) (hlast : g.position + 1 = g.response.length) :
    s.byteOut g = s.emptySnapshot.setFrame (.running { g with position := g.response.length, todo := .nothing }) := by
  simp only [State.byteOut, htodo, hlast, decide_true]

/-- The last byte of a record removes it from the queue. -/
theorem State.byteOut_record {n : Nat} (htodo : g.todo = .records (n + 1) true) (hlast : g.position + 1 = g.response.length) :
    s.byteOut g = { s with events := s.events.removeHead s.time.ticks }.setFrame (.running
      { g with position := g.response.length, todo := if n = 0 then .nothing else .records n false }) := by
  simp only [State.byteOut, htodo, hlast, decide_true]

/-- What is settled goes out up to its last byte. -/
theorem State.clock_to_end (hf : s.mgmt.frame = .running g) (ht : g.taken = true) (hpos : g.position < g.response.length)
    (b : Byte) : s.clock (List.replicate (g.response.length - g.position) b) =
      s.byteOut { g with position := g.response.length - 1 } := by
  obtain ⟨n, hn⟩ : ∃ n, g.response.length = g.position + n + 1 :=
    ⟨g.response.length - g.position - 1, by omega⟩
  have hcount : g.response.length - g.position = n + 1 := by omega
  have hlast : g.response.length - 1 = g.position + n := by omega
  have hwithin : s.clock (List.replicate n b) = s.setFrame (.running { g with position := g.position + n }) := by
    simpa using State.clock_within hf ht (List.replicate n b) (by simp only [List.length_replicate]; omega)
  rw [hcount, hlast, List.replicate_succ', State.clock, List.foldl_concat]
  change (s.clock (List.replicate n b)).clockByte b = _
  rw [hwithin, State.clockByte_of_taken (g := { g with position := g.position + n }) (State.setFrame_frame ..) ht
    (show g.position + n ≠ g.response.length by omega), State.setFrame_byteOut]

/-- What is settled goes out to its end, where nothing ends with it. -/
theorem State.clock_settled (hf : s.mgmt.frame = .running g) (ht : g.taken = true) (hsnap : g.todo ≠ .snapshot)
    (hrec : ∀ n, g.todo ≠ .records (n + 1) true) (hpos : g.position ≤ g.response.length) (b : Byte) :
    s.clock (List.replicate (g.response.length - g.position) b) =
      s.setFrame (.running { g with position := g.response.length }) := by
  rcases Nat.lt_or_eq_of_le hpos with hlt | heq
  · have hlast : g.response.length - 1 + 1 = g.response.length := Nat.sub_add_cancel (Nat.zero_lt_of_lt hlt)
    rw [State.clock_to_end hf ht hlt, State.byteOut_of_todo (g := { g with position := g.response.length - 1 }) hsnap hrec]
    simp only [hlast]
  · rw [heq, Nat.sub_self, List.replicate_zero, ← heq]
    show s = _
    rw [State.setFrame, ← hf]

end

/-! ### Events of the management port that leave the exchange as it is -/

/-- The end of an event that changes the management port and the event unit alone. -/
theorem State.Settled.finish_mgmt {s : State} (hs : s.Settled) (events : EventUnit) (m : Mgmt) :
    ({ s.begin with events := events, mgmt := m } : State).finish = { s.begin with events := events, mgmt := m } :=
  hs.finish_of rfl rfl rfl

section
variable {s : State} {f : FrameState}

/-- SNAPSHOT in a frame that awaits a command. -/
theorem State.exec_snapshot (hs : s.Settled) (ha : s.awaits f) {window : Byte} {buffer : Option (List Byte)} {status : Status}
    (hact : s.begin.takeSnapshot window =
      ({ s.begin with mgmt := { s.begin.mgmt with snapshot := buffer } }, { status := status })) :
    exec (.snapshot window) s = .next { s.begin with
      mgmt := { frame := f.reply 0x18 [window] [status.code] .nothing, snapshot := buffer } } :=
  congrArg Host.Outcome.next ((State.event_one ha (c := .snapshot) rfl (fun _ _ => rfl)
    (fun fr a => s.begin.setFrame_takeSnapshot fr a) hact).trans (hs.finish_of rfl rfl rfl))

/-- A command without arguments that changes the snapshot buffer alone, and its event. -/
theorem State.event_code_settled (hs : s.Settled) (ha : s.awaits f) {code : Byte} {c : MgmtCommand} (hc : commandOf code = some c)
    {buffer : Option (List Byte)} {r : Reply}
    (hact : ∀ g : FrameState, s.begin.arrived g c = g.take ({ s.begin with mgmt := { s.begin.mgmt with snapshot := buffer } }, r)) :
    (s.event fun s => s.send [code]) = { s.begin with
      mgmt := { frame := f.reply code [] (r.status.code :: r.more) r.todo, snapshot := buffer } } :=
  (State.event_code ha hc hact).trans (hs.finish_of rfl rfl rfl)

theorem State.takeSnapshot_unnamed {window : Byte} (h : 8 ≤ window.toNat) :
    s.takeSnapshot window = (s, { status := .badArgument }) := by
  rw [State.takeSnapshot, windowOfNat_eq_none h]

theorem State.takeSnapshot_pending {window : Byte} {w : Window} (h : window.toNat = Window.number w)
    (hfull : s.mgmt.snapshot ≠ none) : s.takeSnapshot window = (s, { status := .snapPending }) := by
  obtain ⟨bytes, hbytes⟩ := Option.ne_none_iff_exists'.mp hfull
  simp only [State.takeSnapshot, h, windowOfNat_number, hbytes]

theorem State.takeSnapshot_empty {window : Byte} {w : Window} (h : window.toNat = Window.number w)
    (hempty : s.mgmt.snapshot = none) :
    s.takeSnapshot window =
      ({ s with mgmt := { s.mgmt with snapshot := some (s.exch.snapshotBytes s.time.ticks w) } }, { status := .ok }) := by
  simp only [State.takeSnapshot, h, windowOfNat_number, hempty]

theorem State.discardSnapshot_empty (h : s.mgmt.snapshot = none) :
    s.begin.discardSnapshot = (s.begin, { status := .empty }) := by
  have hnone : s.begin.mgmt.snapshot = none := h
  simp only [State.discardSnapshot, State.emptySnapshot, hnone, Option.isSome_none, Bool.false_eq_true, if_false]
  rw [← hnone]

theorem State.discardSnapshot_full {bytes : List Byte} (h : s.mgmt.snapshot = some bytes) :
    s.begin.discardSnapshot = (s.begin.emptySnapshot, { status := .ok }) := by
  have hsome : s.begin.mgmt.snapshot = some bytes := h
  simp only [State.discardSnapshot, hsome, Option.isSome_some, if_true]

end

/-- SNAPSHOT_CONSUMED in a READ SNAPSHOT frame of which not all has gone out. -/
theorem State.restOfSnapshot_eq {s : State} {g : FrameState} (hf : s.mgmt.frame = .running g) (ht : g.taken = true)
    (htodo : g.todo = .snapshot) (hpos : g.position < g.response.length) :
    s.restOfSnapshot = s.emptySnapshot.setFrame (.running { g with position := g.response.length, todo := .nothing }) := by
  have hlast : g.response.length - 1 + 1 = g.response.length := Nat.sub_add_cancel (Nat.zero_lt_of_lt hpos)
  simp only [State.restOfSnapshot, hf, if_pos htodo, State.clockOut, if_pos ht, Nat.add_zero]
  exact (State.clock_to_end hf ht hpos _).trans
    (State.byteOut_snapshot (g := { g with position := g.response.length - 1 }) htodo hlast)

/-- Settles O58: the buffer is filled, sent and emptied by the three commands, and emptied by the last byte of the snapshot. -/
theorem snapshotResult : Obligations.SnapshotResult := by
  intro s hs
  refine ⟨fun f ha => ⟨fun window h => ?_, fun window w hw => ⟨fun hfull => ?_, fun hempty => ?_⟩, fun hempty => ⟨?_, ?_⟩,
    fun bytes hfull => ⟨?_, ?_⟩⟩, fun g hf ht htodo hpos => ?_⟩
  · exact State.exec_snapshot hs ha (State.takeSnapshot_unnamed h)
  · exact State.exec_snapshot hs ha (State.takeSnapshot_pending hw hfull)
  · exact ⟨_, s.exch.snapshotBytes_shows s.time.ticks w, State.exec_snapshot hs ha (State.takeSnapshot_empty hw hempty)⟩
  · have hreply : s.begin.snapshotReply = { status := .empty } := by rw [State.snapshotReply]; simp only [State.begin, hempty]
    exact congrArg Host.Outcome.next (State.event_code_settled hs ha (c := .readSnapshot) rfl fun g =>
      congrArg (fun r => g.take (s.begin, r)) hreply)
  · exact congrArg Host.Outcome.next (State.event_code_settled hs ha (c := .discardSnapshot) rfl fun g =>
      congrArg g.take (State.discardSnapshot_empty hempty))
  · have hreply : s.begin.snapshotReply = { status := .ok, more := bytes, todo := .snapshot } := by
      rw [State.snapshotReply]; simp only [State.begin, hfull]
    exact congrArg Host.Outcome.next (State.event_code_settled hs ha (c := .readSnapshot) rfl fun g =>
      congrArg (fun r => g.take (s.begin, r)) hreply)
  · exact congrArg Host.Outcome.next (State.event_code_settled hs ha (c := .discardSnapshot) rfl fun g =>
      congrArg g.take (State.discardSnapshot_full hfull))
  · have hf' : s.begin.mgmt.frame = .running g := hf
    have hconsumed : exec .snapshotConsumed s = .next { s.begin with
        mgmt := { frame := .running { g with position := g.response.length, todo := .nothing }, snapshot := none } } :=
      congrArg Host.Outcome.next ((congrArg State.finish (State.restOfSnapshot_eq hf' ht htodo hpos)).trans
        (hs.finish_mgmt _ _))
    refine ⟨hconsumed, fun b => ⟨fun hlast => ?_, fun hmore => ?_⟩⟩
    · rw [hconsumed]
      refine congrArg Host.Outcome.next ((congrArg State.finish ?_).trans (hs.finish_mgmt _ _))
      exact (State.clockByte_of_taken hf' ht (Nat.ne_of_lt hpos) b).trans (State.byteOut_snapshot htodo hlast)
    · refine congrArg Host.Outcome.next ((congrArg State.finish ?_).trans (hs.finish_mgmt _ _))
      exact (State.clockByte_of_taken hf' ht (Nat.ne_of_lt hpos) b).trans (State.byteOut_within (Nat.ne_of_lt hmore))

end Sys2Proof.Machine
end

section
/-!
READ_EVENTS, and how its records are latched and leave the queue (R166, R172 to R174, R177, R178).
-/

namespace Sys2Proof.Machine

/-! ### READ_EVENTS (R166) -/

section
variable {s : State} {f : FrameState} {maximum : Byte}

theorem State.eventsReply_badArgument (h : maximum.toNat = 0 ∨ 8 < maximum.toNat) :
    s.eventsReply maximum = { status := .badArgument } := by
  rw [State.eventsReply, if_pos (by simpa using h)]

theorem State.eventsReply_empty (h1 : 1 ≤ maximum.toNat) (h8 : maximum.toNat ≤ 8) (hq : s.events.queue = []) :
    s.eventsReply maximum = { status := .empty } := by
  rw [State.eventsReply, if_neg (by simp only [Bool.or_eq_true, decide_eq_true_eq]; omega), hq]
  exact if_pos (Nat.min_zero _)

theorem State.eventsReply_records (h1 : 1 ≤ maximum.toNat) (h8 : maximum.toNat ≤ 8) (hq : s.events.queue ≠ []) :
    s.eventsReply maximum =
      { status := .ok, more := [BitVec.ofNat 8 (min maximum.toNat s.events.queue.length)],
        todo := .records (min maximum.toNat s.events.queue.length) false } := by
  have hlen := List.length_pos_iff.mpr hq
  rw [State.eventsReply, if_neg (by simp only [Bool.or_eq_true, decide_eq_true_eq]; omega)]
  exact if_neg (by omega)

/-- READ_EVENTS in a frame that awaits a command. -/
theorem State.exec_readEvents (hs : s.Settled) (ha : s.awaits f) {r : Reply} (hr : s.eventsReply maximum = r) :
    exec (.readEvents maximum) s = .next { s.begin with
      mgmt := { s.mgmt with frame := f.reply 0x20 [maximum] (r.status.code :: r.more) r.todo } } :=
  have hact : (s.begin, s.begin.eventsReply maximum) = (s.begin, r) := congrArg (Prod.mk s.begin) hr
  congrArg Host.Outcome.next ((State.event_one ha (c := .readEvents) (act := fun t n => (t, t.eventsReply n)) rfl
    (fun _ _ => rfl) (fun _ _ => rfl) hact).trans (hs.finish_of rfl rfl rfl))

end

/-! ### A record goes out and leaves the queue (R166, R178) -/

/-- The event unit once the head record has left it and `rest` stays: what has been lost is reported at the tail (R178). -/
def EventUnit.headRemoved (u : EventUnit) (rest : List EventRecord) (now : Word) : EventUnit :=
  { queue := if u.lost = 0 then rest else
      rest ++ [{ EventRecord.plain now .eventsLost with detail := u.lost.zeroExtend 32 }],
    lost := 0 }

theorem EventUnit.removeHead_eq {u : EventUnit} {r : EventRecord} {rest : List EventRecord} (hq : u.queue = r :: rest)
    (now : Word) : u.removeHead now = u.headRemoved rest now := by
  unfold EventUnit.removeHead EventUnit.headRemoved
  split
  · next h => rw [hq, h, List.tail_cons]
  · rw [hq, List.tail_cons]

theorem EventRecord.layout_length (r : EventRecord) : r.layout.length = 16 := rfl

section
variable {s : State} {g : FrameState} {n : Nat} {r : EventRecord} {rest : List EventRecord}
  (hf : s.mgmt.frame = .running g) (ht : g.taken = true) (hq : s.events.queue = r :: rest)

/-- The frame with the head record latched. -/
def FrameState.withRecord (g : FrameState) (r : EventRecord) (n : Nat) : FrameState :=
  { g with response := g.response ++ r.layout, todo := .records (n + 1) true }

theorem FrameState.withRecord_length (g : FrameState) (r : EventRecord) (n : Nat) :
    (g.withRecord r n).response.length = g.response.length + 16 := List.length_append

section
include hf ht hq

theorem State.beginByte_record (htodo : g.todo = .records (n + 1) false) (hpos : g.position = g.response.length) :
    s.beginByte = s.setFrame (.running (g.withRecord r n)) := by
  simp only [State.beginByte, hf, ht, hpos, htodo, hq, decide_true, Bool.and_self, if_true, FrameState.withRecord,
    EventRecord.layout_eq]

/-- The rest of a latched record goes out. -/
theorem State.clock_record (htodo : g.todo = .records (n + 1) true) (hpos : g.position < g.response.length) (b : Byte) :
    s.clock (List.replicate (g.response.length - g.position) b) =
      { s with events := s.events.headRemoved rest s.time.ticks }.setFrame
        (.running { g with position := g.response.length, todo := if n = 0 then .nothing else .records n false }) := by
  have hlast : g.response.length - 1 + 1 = g.response.length := Nat.sub_add_cancel (Nat.zero_lt_of_lt hpos)
  rw [State.clock_to_end hf ht hpos, ← EventUnit.removeHead_eq hq]
  exact State.byteOut_record (g := { g with position := g.response.length - 1 }) htodo hlast

/-- The next record is latched, and goes out. -/
theorem State.clock_next_record (htodo : g.todo = .records (n + 1) false) (hpos : g.position = g.response.length) (b : Byte) :
    s.clock (List.replicate 16 b) =
      { s with events := s.events.headRemoved rest s.time.ticks }.setFrame
        (.running { g with
          response := g.response ++ r.layout, position := g.response.length + 16,
          todo := if n = 0 then .nothing else .records n false }) := by
  have hlatch := State.beginByte_record hf ht hq htodo hpos
  have hlength := FrameState.withRecord_length g r n
  have hbefore : (g.withRecord r n).position < (g.withRecord r n).response.length := by
    rw [hlength]; exact hpos ▸ Nat.lt_add_of_pos_right (by decide)
  have hsame : s.beginByte.beginByte = s.beginByte := by
    rw [hlatch]
    have hne : (g.withRecord r n).position ≠ (g.withRecord r n).response.length := Nat.ne_of_lt hbefore
    simp only [State.beginByte, State.setFrame_frame, hne, decide_false, Bool.and_false, Bool.false_eq_true, if_false]
  have hfirst : s.clock (List.replicate 16 b) = s.beginByte.clock (List.replicate 16 b) := by
    have hbyte : s.clockByte b = s.beginByte.clockByte b := by rw [State.clockByte, State.clockByte, hsame]
    exact congrArg (fun t => State.clock t (List.replicate 15 b)) hbyte
  have hcount : 16 = (g.withRecord r n).response.length - (g.withRecord r n).position := by
    rw [hlength]; show 16 = _ + 16 - g.position; omega
  have hout := State.clock_record (g := g.withRecord r n) (State.setFrame_frame s _) ht hq rfl hbefore b
  rw [hfirst, hlatch]
  rw [← hcount, hlength] at hout
  exact hout

/-- EVENT_RECORD_REMOVAL where the next record is not latched yet. -/
theorem State.restOfRecord_next (htodo : g.todo = .records (n + 1) false) (hpos : g.position ≤ g.response.length) :
    s.restOfRecord =
      { s with events := s.events.headRemoved rest s.time.ticks }.setFrame
        (.running { g with
          response := g.response ++ r.layout, position := g.response.length + 16,
          todo := if n = 0 then .nothing else .records n false }) := by
  have hsettled := State.clock_settled hf ht (by rw [htodo]; exact nofun) (by rw [htodo]; exact nofun) hpos fillerByte
  simp only [State.restOfRecord, hf, htodo, State.clockOut, if_pos ht, Bool.false_eq_true, if_false]
  rw [List.replicate_add, State.clock, List.foldl_append]
  change (s.clock _).clock _ = _
  rw [hsettled]
  exact State.clock_next_record (g := { g with position := g.response.length }) (State.setFrame_frame ..) ht hq htodo rfl _

/-- EVENT_RECORD_REMOVAL where the record is latched. -/
theorem State.restOfRecord_latched (htodo : g.todo = .records (n + 1) true) (hpos : g.position < g.response.length) :
    s.restOfRecord =
      { s with events := s.events.headRemoved rest s.time.ticks }.setFrame
        (.running { g with position := g.response.length, todo := if n = 0 then .nothing else .records n false }) := by
  rw [← State.clock_record hf ht hq htodo hpos fillerByte]
  simp only [State.restOfRecord, hf, htodo, State.clockOut, if_pos ht, if_true, Nat.add_zero]

end

/-- The first byte of the record is on MISO from its first bit on. -/
theorem State.miso_record (hr : s.resetAsserted = false) (hlatch : s.beginByte = s.setFrame (.running (g.withRecord r n)))
    (ht : g.taken = true) (hpos : g.position = g.response.length) : s.miso = some r.kind.encoding.1 := by
  have htaken : (g.withRecord r n).taken = true := ht
  have hbyte : (g.withRecord r n).response.getD (g.withRecord r n).position (g.withRecord r n).filler = r.kind.encoding.1 := by
    show (g.response ++ r.layout).getD g.position g.filler = _
    rw [hpos, List.getD_eq_getElem?_getD, List.getElem?_append_right (Nat.le_refl _), Nat.sub_self]
    rfl
  simp only [State.miso, hr, Bool.false_eq_true, if_false, hlatch, State.setFrame_frame, FrameState.miso, htaken, if_true, hbyte]

end

/-- Settles O59: what READ_EVENTS answers, and how the head record is latched, goes out and leaves the queue. -/
theorem eventReadResult : Obligations.EventReadResult := by
  intro s hs
  refine ⟨fun f maximum ha => ⟨fun h => ?_, fun h1 h8 hq => ?_, fun h1 h8 hq => ?_⟩, fun g n r rest hf ht hq => ?_⟩
  · exact State.exec_readEvents hs ha (State.eventsReply_badArgument h)
  · exact State.exec_readEvents hs ha (State.eventsReply_empty h1 h8 hq)
  · exact State.exec_readEvents hs ha (State.eventsReply_records h1 h8 hq)
  · intro removed left
    have hf' : s.begin.mgmt.frame = .running g := hf
    have hq' : s.begin.events.queue = r :: rest := hq
    refine ⟨fun htodo hpos => ⟨?_, fun hr => ?_⟩, fun htodo hpos => ?_, fun htodo hpos => ?_⟩
    · exact congrArg Host.Outcome.next
        ((congrArg State.finish (State.beginByte_record hf' ht hq' htodo hpos)).trans (hs.finish_mgmt _ _))
    · exact State.miso_record hr (State.beginByte_record hf ht hq htodo hpos) ht hpos
    · exact congrArg Host.Outcome.next
        ((congrArg State.finish (State.restOfRecord_next hf' ht hq' htodo hpos)).trans (hs.finish_mgmt _ _))
    · have hremoved : exec .eventRecordRemoval s = .next { s.begin with
          events := removed, mgmt := { s.mgmt with frame := .running { g with position := g.response.length, todo := left } } } :=
        congrArg Host.Outcome.next
          ((congrArg State.finish (State.restOfRecord_latched hf' ht hq' htodo hpos)).trans (hs.finish_mgmt _ _))
      refine ⟨hremoved, fun b => ⟨fun hlast => ?_, fun hmore => ?_⟩⟩
      · have hone : s.begin.clockByte b = s.begin.clock (List.replicate (g.response.length - g.position) b) := by
          rw [← hlast, Nat.add_sub_cancel_left]; rfl
        rw [hremoved]
        exact congrArg Host.Outcome.next ((congrArg State.finish
          (hone.trans (State.clock_record hf' ht hq' htodo hpos b))).trans (hs.finish_mgmt _ _))
      · exact congrArg Host.Outcome.next ((congrArg State.finish ((State.clockByte_of_taken hf' ht (Nat.ne_of_lt hpos) b).trans
          (State.byteOut_within (Nat.ne_of_lt hmore)))).trans (hs.finish_mgmt _ _))

end Sys2Proof.Machine
end

section
/-!
The frame of the management port: CS_N, the command code, its argument bytes and MISO (R154 to R156, R170).
-/

namespace Sys2Proof.Machine

/-! ### Events of the frame alone -/

/-- The end of an event that changes the frame alone. -/
theorem State.Settled.finish_setFrame {s : State} (hs : s.Settled) (fr : Frame) :
    (s.begin.setFrame fr).finish = { s.begin with mgmt := { s.mgmt with frame := fr } } :=
  hs.finish_of rfl rfl rfl

theorem State.Settled.finish_begin {s : State} (hs : s.Settled) : s.begin.finish = s.begin := hs.finish_of rfl rfl rfl

/-! ### Code and arguments (R155) -/

section
variable {s : State} {f : FrameState} {code : Byte}

/-- The part with the code and these argument bytes received. -/
def State.withArrived (s : State) (f : FrameState) (code : Byte) (args : List Byte) : State :=
  s.setFrame (.running { f with code := some code, args := args })

theorem commandOf_eq_none_of_not_mem (h : code ∉ commandCodes) : commandOf code = none :=
  (commandOf_eq_none code).mpr (by simpa using h)

/-- The event of a code that is not in the table. -/
theorem State.event_unknown (hs : s.Settled) (ha : s.awaits f) (hc : commandOf code = none) :
    (s.event fun s => s.send [code]) = { s.begin with mgmt := { s.mgmt with frame := f.reply code [] [0x01] .nothing } } := by
  have hbegin : s.begin.awaits f := ha
  obtain ⟨-, -, hargs, -, -⟩ := id ha
  have hframe : ({ f with code := some code } : FrameState) = { f with code := some code, args := [] } := by rw [← hargs]
  rw [State.event, State.send_unknown hbegin hc, hframe, FrameState.take_eq_setFrame, hs.finish_setFrame]
  rfl

/-- Byte 0 of a frame is the command of one byte. -/
theorem State.event_byte (ha : s.awaits f) :
    (s.event fun s => s.clockByte code) = s.event fun s => s.send [code] := by
  have hbegin : s.begin.awaits f := ha
  exact congrArg State.finish (State.send_of_awaits hbegin [code]).symm

/-- An argument or data byte of a command. -/
theorem State.clockByte_withArrived {c : MgmtCommand} (hc : commandOf code = some c) (ht : f.taken = false) (args : List Byte)
    (b : Byte) : (s.withArrived f code args).clockByte b =
      (s.withArrived f code args).arrived { f with code := some code, args := args ++ [b] } c := by
  rw [State.withArrived, State.clockByte_setFrame _ _ (by exact ht)]
  simp only [State.mosiByte, FrameState.receive, Option.bind_some, hc]

/-- A command with arguments does nothing at its code. -/
theorem State.arrived_code {c : MgmtCommand} (hcode : code ∈ [(0x01 : Byte), 0x02, 0x10, 0x11, 0x12, 0x18, 0x20, 0x28])
    (hc : commandOf code = some c) (t : State) {g : FrameState} (hargs : g.args = []) (htodo : g.todo = .nothing) :
    t.arrived g c = t.setFrame (.running g) := by
  simp only [List.mem_cons, List.not_mem_nil, or_false] at hcode
  rcases hcode with rfl | rfl | rfl | rfl | rfl | rfl | rfl | rfl <;> cases hc <;>
    simp only [State.arrived, State.withOne, State.withTwo, State.writeByte, hargs, htodo]

/-- A command with two arguments does nothing at the first. -/
theorem State.arrived_first {c : MgmtCommand} (hcode : code ∈ [(0x01 : Byte), 0x02, 0x10])
    (hc : commandOf code = some c) (t : State) {g : FrameState} {a : Byte} (hargs : g.args = [a]) (htodo : g.todo = .nothing) :
    t.arrived g c = t.setFrame (.running g) := by
  simp only [List.mem_cons, List.not_mem_nil, or_false] at hcode
  rcases hcode with rfl | rfl | rfl <;> cases hc <;>
    simp only [State.arrived, State.withTwo, State.writeByte, hargs, htodo]

theorem commandOf_isSome_of_arguments (hcode : code ∈ [(0x01 : Byte), 0x02, 0x10, 0x11, 0x12, 0x18, 0x20, 0x28]) :
    ∃ c, commandOf code = some c :=
  Option.isSome_iff_exists.mp ((by decide : ∀ code : Byte, code ∈ [(0x01 : Byte), 0x02, 0x10, 0x11, 0x12, 0x18, 0x20, 0x28] →
    (commandOf code).isSome = true) code hcode)

/-- The whole command is its code and then the bytes after it. -/
theorem State.send_withArrived (ha : s.awaits f) (hcode : code ∈ [(0x01 : Byte), 0x02, 0x10, 0x11, 0x12, 0x18, 0x20, 0x28])
    (bytes : List Byte) : s.send (code :: bytes) = (s.withArrived f code []).clock bytes := by
  obtain ⟨c, hc⟩ := commandOf_isSome_of_arguments hcode
  obtain ⟨-, -, hargs, -, -⟩ := id ha
  rw [State.clock_code ha hc fun g hg htodo => State.arrived_code hcode hc s hg htodo, State.withArrived, ← hargs]

/-- After the code, the last argument of a command with one is the command. -/
theorem State.event_lastArgument (ha : s.awaits f) (hcode : code ∈ [(0x01 : Byte), 0x02, 0x10, 0x11, 0x12, 0x18, 0x20, 0x28])
    (a : Byte) : ((s.withArrived f code []).event fun s => s.clockByte a) = s.event fun s => s.send [code, a] := by
  have hbegin : s.begin.awaits f := ha
  exact congrArg State.finish (State.send_withArrived hbegin hcode [a]).symm

variable (hs : s.Settled) (ha : s.awaits f)
include hs ha

/-- The code of a command with arguments. -/
theorem State.event_codeArrives (hcode : code ∈ [(0x01 : Byte), 0x02, 0x10, 0x11, 0x12, 0x18, 0x20, 0x28]) :
    (s.event fun s => s.clockByte code) = (s.withArrived f code []).begin := by
  have hbegin : s.begin.awaits f := ha
  rw [State.event_byte ha, State.event, State.send_withArrived hbegin hcode []]
  exact hs.finish_setFrame _

/-- The first of two arguments. -/
theorem State.event_firstArgument (hcode : code ∈ [(0x01 : Byte), 0x02, 0x10]) (a : Byte) :
    ((s.withArrived f code []).event fun s => s.clockByte a) = (s.withArrived f code [a]).begin := by
  obtain ⟨c, hc⟩ := commandOf_isSome_of_arguments (code := code) (by
    simp only [List.mem_cons, List.not_mem_nil, or_false] at hcode ⊢; tauto)
  obtain ⟨-, -, -, ht, htodo⟩ := id ha
  have hbyte : (s.withArrived f code []).begin.clockByte a = s.begin.withArrived f code [a] :=
    (State.clockByte_withArrived (s := s.begin) hc ht [] a).trans (State.arrived_first hcode hc _ rfl htodo)
  exact (congrArg State.finish hbyte).trans (hs.finish_setFrame _)

omit hs in
/-- After the code and the first argument, the second is the command. -/
theorem State.event_secondArgument (hcode : code ∈ [(0x01 : Byte), 0x02, 0x10]) (a b : Byte) :
    ((s.withArrived f code [a]).event fun s => s.clockByte b) = s.event fun s => s.send [code, a, b] := by
  have hbegin : s.begin.awaits f := ha
  have hcode' : code ∈ [(0x01 : Byte), 0x02, 0x10, 0x11, 0x12, 0x18, 0x20, 0x28] := by
    simp only [List.mem_cons, List.not_mem_nil, or_false] at hcode ⊢; tauto
  obtain ⟨c, hc⟩ := commandOf_isSome_of_arguments hcode'
  obtain ⟨-, -, -, ht, htodo⟩ := id ha
  have hbyte : (s.begin.withArrived f code []).clockByte a = s.begin.withArrived f code [a] :=
    (State.clockByte_withArrived hc ht [] a).trans (State.arrived_first hcode hc _ rfl htodo)
  have hsend : s.begin.send [code, a, b] = (s.begin.withArrived f code [a]).clockByte b :=
    (State.send_withArrived hbegin hcode' [a, b]).trans (congrArg (fun t => State.clockByte t b) hbyte)
  exact congrArg State.finish hsend.symm

end

/-! ### A frame whose command is taken -/

section
variable {s : State} {f : FrameState} (hf : s.mgmt.frame = .running f)
include hf

/-- Nothing is latched before the command is taken, while what is settled goes out, and after the last byte. -/
theorem State.beginByte_of_idle (h : f.taken = false ∨ f.position ≠ f.response.length ∨ f.todo = .nothing) :
    s.beginByte = s := by
  rcases h with h | h | h
  · simp [State.beginByte, hf, h]
  · simp [State.beginByte, hf, h]
  · simp only [State.beginByte, hf, h]
    split <;> rfl

/-- After the command, a frame carries no other. -/
theorem State.send_of_taken (ht : f.taken = true) (bytes : List Byte) : s.send bytes = s := by
  simp [State.send, hf, ht]

theorem State.clockByte_of_done (ht : f.taken = true) (htodo : f.todo = .nothing) (b : Byte) :
    s.clockByte b = s.setFrame (.running { f with position := f.position + 1 }) := by
  simp only [State.clockByte, State.beginByte_of_idle hf (.inr (.inr htodo)), hf, if_pos ht]
  exact State.byteOut_of_todo (by rw [htodo]; exact nofun) (by rw [htodo]; exact nofun)

theorem State.miso_of_idle (hr : s.resetAsserted = false)
    (h : f.taken = false ∨ f.position ≠ f.response.length ∨ f.todo = .nothing) : s.miso = some f.miso := by
  simp only [State.miso, hr, Bool.false_eq_true, if_false, State.beginByte_of_idle hf h, hf]

end

theorem State.miso_eq_none {s : State} (h : s.resetAsserted = true ∨ s.mgmt.frame = .closed ∨ s.mgmt.frame = .ignored) :
    s.miso = none := by
  unfold State.miso
  split
  · rfl
  · next hr =>
    rcases h with h | h | h
    · exact absurd h hr
    · simp only [State.beginByte, h]
    · simp only [State.beginByte, h]

/-- Settles O52: the edges of CS_N, the command code and its arguments, and what MISO carries. -/
theorem spiFrameResult : Obligations.SpiFrameResult := by
  intro s hs
  refine ⟨fun hclosed hr => ?_, fun hclosed hr => ?_, congrArg Host.Outcome.next (hs.finish_setFrame _), fun f ha => ?_,
    fun f hf ht htodo => ⟨fun b => ?_, ?_, fun b => ?_⟩, State.miso_eq_none, fun f hr hf => ⟨fun ht => ?_, fun b ht hb => ?_,
      fun ht htodo hend => ?_⟩⟩
  · have hstart : s.begin.frameStart = s.begin.setFrame (.running .start) := by
      simp only [State.frameStart, State.begin_mgmt, hclosed, State.begin_resetAsserted, hr, Bool.false_eq_true, if_false]
    exact congrArg Host.Outcome.next ((congrArg State.finish hstart).trans (hs.finish_setFrame _))
  · have hstart : s.begin.frameStart = s.begin.setFrame .ignored := by
      simp only [State.frameStart, State.begin_mgmt, hclosed, State.begin_resetAsserted, hr, if_true]
    exact congrArg Host.Outcome.next ((congrArg State.finish hstart).trans (hs.finish_setFrame _))
  · intro arrived
    have hbyte : ∀ code, exec (.spiFrameStart (.byte code)) s = .next (s.event fun s => s.send [code]) :=
      fun code => congrArg Host.Outcome.next (State.event_byte ha)
    refine ⟨fun code hcode => ?_, ?_, hbyte _, hbyte _, hbyte _, hbyte _, hbyte _,
      fun code hcode => congrArg Host.Outcome.next (State.event_codeArrives hs ha hcode), fun a => ?_⟩
    · have hunknown : exec (.unknownCommand code) s = .next (s.event fun s => s.send [code]) :=
        if_neg (by simpa [commandCodes] using hcode)
      rw [hbyte, hunknown]
      exact ⟨congrArg Host.Outcome.next (State.event_unknown hs ha (commandOf_eq_none_of_not_mem hcode)), rfl⟩
    · exact congrArg Host.Outcome.next ((State.event_code ha (c := .readTime) rfl fun _ => rfl).trans (hs.finish_of rfl rfl rfl))
    · have hlast : ∀ code, code ∈ [(0x01 : Byte), 0x02, 0x10, 0x11, 0x12, 0x18, 0x20, 0x28] →
          exec (.spiFrameStart (.byte a)) (arrived code []) = .next (s.event fun s => s.send [code, a]) :=
        fun code hcode => congrArg Host.Outcome.next (State.event_lastArgument ha hcode a)
      have hsecond : ∀ b code, code ∈ [(0x01 : Byte), 0x02, 0x10] →
          exec (.spiFrameStart (.byte b)) (arrived code [a]) = .next (s.event fun s => s.send [code, a, b]) :=
        fun b code hcode => congrArg Host.Outcome.next (State.event_secondArgument ha hcode a b)
      exact ⟨hlast _ (by decide), hlast _ (by decide), hlast _ (by decide), hlast _ (by decide), hlast _ (by decide),
        fun code hcode => congrArg Host.Outcome.next (State.event_firstArgument hs ha hcode a),
        fun b => ⟨hsecond b _ (by decide), hsecond b _ (by decide), hsecond b _ (by decide)⟩⟩
  · exact congrArg Host.Outcome.next ((congrArg State.finish
      (State.clockByte_of_done (s := s.begin) hf ht htodo b)).trans (hs.finish_setFrame _))
  · exact congrArg Host.Outcome.next ((congrArg State.finish (State.send_of_taken (s := s.begin) hf ht _)).trans hs.finish_begin)
  · exact congrArg Host.Outcome.next ((congrArg State.finish (State.send_of_taken (s := s.begin) hf ht _)).trans hs.finish_begin)
  · rw [State.miso_of_idle hf hr (.inl ht), FrameState.miso, ht]
    rfl
  · have hne : f.position ≠ f.response.length := fun heq => by
      rw [heq, List.getElem?_eq_none (Nat.le_refl _)] at hb
      cases hb
    rw [State.miso_of_idle hf hr (.inr (.inl hne)), FrameState.miso, if_pos ht, List.getD_eq_getElem?_getD, hb]
    rfl
  · rw [State.miso_of_idle hf hr (.inr (.inr htodo)), FrameState.miso, if_pos ht, List.getD_eq_getElem?_getD,
      List.getElem?_eq_none hend]
    rfl

end Sys2Proof.Machine
end

section
/-!
READ_REGISTERS and WRITE_REGISTERS: the check, the registers latched, and the words of the data (R154 to R161, R186, R187).
-/

namespace Sys2Proof.Machine

/-! ### The registers an address names (R186) -/

theorem registerAt_window (w : Window) {n : Nat} (hn : n < 16) : registerAt (windowAddress w n) = windowRegister w n := by
  have hge : ¬ windowAddress w n < 0x80 := by unfold windowAddress; omega
  have hwindow : (windowAddress w n - 0x80) / 16 = Window.number w := by unfold windowAddress; omega
  have hoffset : (windowAddress w n - 0x80) % 16 = n := by unfold windowAddress; omega
  rw [registerAt, if_neg hge, hwindow, hoffset, windowOfNat_number]

theorem registerAt_locked (w : Window) (reg : LockedReg) :
    registerAt (windowAddress w (LockedReg.offset reg)) = .locked w reg := by
  rw [registerAt_window w (by cases reg <;> decide)]
  cases reg <;> rfl

theorem registerAt_staged (w : Window) (reg : StagedReg) :
    registerAt (windowAddress w (StagedReg.offset reg)) = .staged w reg := by
  rw [registerAt_window w (by cases reg <;> decide)]
  cases reg <;> rfl

/-- A write to a read-only or unnamed address is ignored (R161). -/
theorem State.writeRegister_ignored (s : State) (v : Word) {next : Nat}
    (h : 3 ≤ next ∧ next < 0x80 ∨ 0x80 ≤ next ∧ 8 ≤ next % 16) : s.writeRegister (registerAt next) v = (s, false) := by
  rcases h with ⟨h3, h80⟩ | ⟨h80, h8⟩
  · rw [registerAt, if_pos h80]
    unfold globalRegister
    split <;> first | omega | rfl
  · rw [registerAt, if_neg (by omega)]
    split
    · next w _ =>
      have hoffset : 8 ≤ (next - 0x80) % 16 := by omega
      generalize (next - 0x80) % 16 = n at hoffset
      unfold windowRegister
      split <;> first | omega | rfl
    · rfl

/-- A register write changes no port, raises no record and answers nobody. -/
theorem State.writeRegister_keeps (s : State) (r : Register) (v : Word) :
    (s.writeRegister r v).1.exch.raised = s.exch.raised ∧ (s.writeRegister r v).1.exch.ports = s.exch.ports ∧
      (s.writeRegister r v).1.resetAsserted = s.resetAsserted ∧ (s.writeRegister r v).1.exch.answers = s.exch.answers ∧
      (s.writeRegister r v).1.issued = s.issued := by
  cases r
  case locked w reg =>
    rw [State.writeRegister, State.writeLocked]
    split <;> exact ⟨rfl, rfl, rfl, rfl, rfl⟩
  all_goals exact ⟨rfl, rfl, rfl, rfl, rfl⟩

/-! ### The words of a WRITE_REGISTERS frame (R159) -/

/-- The frame has its count byte and whole words, and the next word is for register `next`, with `left` more after it. -/
structure FrameState.AwaitsWord (g : FrameState) (next left : Nat) (locked : Bool) : Prop where
  code : g.code = some 0x02
  taken : g.taken = false
  length : 2 ≤ g.args.length
  aligned : g.args.length % 4 = 2
  todo : g.todo = .writes next (left + 1) locked

/-- The frame after the four bytes of a word. -/
def FrameState.afterWord (g : FrameState) (bytes : List Byte) (next left : Nat) (locked : Bool) : FrameState :=
  if left = 0 then
    { g with args := g.args ++ bytes, taken := true, response := [if locked then 0x04 else 0x00], position := 0, filler := 0xFF,
             todo := .nothing }
  else { g with args := g.args ++ bytes, todo := .writes (next + 1) left locked }

section
variable {s : State} {g : FrameState} {next left : Nat} {locked : Bool}

/-- A data byte is one of the bytes of the word. -/
theorem State.clockByte_data (hf : s.mgmt.frame = .running g) (hcode : g.code = some 0x02) (ht : g.taken = false)
    (htodo : g.todo = .writes next (left + 1) locked) (b : Byte) :
    s.clockByte b = s.writeData { g with args := g.args ++ [b] } next left locked := by
  rw [State.clockByte_of_untaken hf ht]
  have hc : commandOf 0x02 = some .writeRegisters := rfl
  simp only [State.mosiByte, FrameState.receive, hcode, Option.bind_some, hc, State.arrived, State.writeByte, htodo]

theorem State.setFrame_of_frame (hf : s.mgmt.frame = .running g) : s.setFrame (.running g) = s := by
  rw [State.setFrame, ← hf]

variable (hf : s.mgmt.frame = .running g) (hg : g.AwaitsWord next left locked)
include hf hg

/-- Bytes of a word before its last are received, and nothing else happens. -/
theorem State.clock_part (part : List Byte) (hpart : part.length ≤ 3) :
    s.clock part = s.setFrame (.running { g with args := g.args ++ part }) := by
  induction part using List.reverseRecOn with
  | nil => rw [List.append_nil]; exact (State.setFrame_of_frame hf).symm
  | append_singleton part b ih =>
    rw [List.length_append, List.length_singleton] at hpart
    have hlength : (g.args ++ part ++ [b]).length % 4 ≠ 2 := by
      have haligned := hg.aligned
      simp only [List.length_append, List.length_singleton]
      omega
    rw [State.clock, List.foldl_concat]
    change (s.clock part).clockByte b = _
    rw [ih (by omega), State.clockByte_data (g := { g with args := g.args ++ part }) (State.setFrame_frame ..) hg.code hg.taken
      hg.todo, State.writeData, if_neg hlength, ← List.append_assoc]
    rfl

/-- The fourth byte of a word writes it to its register, and the last word takes the command. -/
theorem State.clock_word {bytes : List Byte} (hbytes : bytes.length = 4) :
    s.clock bytes = (s.writeRegister (registerAt next) (wordOfBytes bytes)).1.setFrame
      (.running (g.afterWord bytes next left (locked || (s.writeRegister (registerAt next) (wordOfBytes bytes)).2))) := by
  obtain ⟨part, b, rfl⟩ := List.eq_nil_or_concat' bytes |>.resolve_left (by rintro rfl; cases hbytes)
  rw [List.length_append, List.length_singleton] at hbytes
  have hpart : part.length = 3 := by omega
  have haligned := hg.aligned
  have hlength : (g.args ++ (part ++ [b])).length % 4 = 2 := by
    simp only [List.length_append, List.length_singleton]
    omega
  have hdrop : (g.args ++ (part ++ [b])).drop ((g.args ++ (part ++ [b])).length - 4) = part ++ [b] := by
    rw [List.drop_left']
    simp only [List.length_append, List.length_singleton]
    omega
  rw [State.clock, List.foldl_concat]
  change (s.clock part).clockByte b = _
  rw [State.clock_part hf hg part (by omega), State.clockByte_data (g := { g with args := g.args ++ part })
    (State.setFrame_frame ..) hg.code hg.taken hg.todo, State.writeData]
  simp only [List.append_assoc, if_pos hlength, hdrop, State.setFrame_writeRegister, State.setFrame_setFrame, FrameState.take,
    FrameState.afterWord]
  generalize s.writeRegister (registerAt next) (wordOfBytes (part ++ [b])) = r
  cases left with
  | zero => cases locked || r.2 <;> rfl
  | succ left => rfl

/-- The four bytes of a value. -/
theorem State.clock_wordBytes (v : Word) :
    s.clock (wordBytes v) = (s.writeRegister (registerAt next) v).1.setFrame
      (.running (g.afterWord (wordBytes v) next left (locked || (s.writeRegister (registerAt next) v).2))) := by
  rw [State.clock_word hf hg rfl, wordOfBytes_wordBytes]

/-- With some bytes of a word received, the rest of it follows. -/
theorem State.sendWord_partly {v : Word} {part rest : List Byte} (hv : wordBytes v = part ++ rest) (hpart : part.length ≤ 3) :
    (s.setFrame (.running { g with args := g.args ++ part })).sendWord next v = s.clock (wordBytes v) := by
  have haligned := hg.aligned
  have htwo := hg.length
  have hreceived : (g.args ++ part).drop ((g.args ++ part).length - ((g.args ++ part).length - 2) % 4) = part := by
    rw [List.drop_left']
    simp only [List.length_append]
    omega
  have hprefix : part.isPrefixOf (wordBytes v) = true := by rw [hv]; simp
  have hrest : s.clock (wordBytes v) = (s.clock part).clock rest := by rw [hv]; exact List.foldl_append
  simp only [State.sendWord, State.setFrame_frame, hg.todo, hg.taken, hreceived, hprefix, decide_true, Bool.not_false,
    Bool.and_self, if_true]
  rw [hrest, State.clock_part hf hg part hpart, hv, List.drop_left]
  simp only [hg.todo, hg.taken]

/-- The bytes of the frame's next word arrive. -/
theorem State.sendWord_next (v : Word) : s.sendWord next v = s.clock (wordBytes v) := by
  have hpartly := State.sendWord_partly hf hg (v := v) (part := []) rfl (Nat.zero_le _)
  simp only [List.append_nil] at hpartly
  rwa [State.setFrame_of_frame hf] at hpartly

/-- A word for another address is no byte of the frame. -/
theorem State.sendWord_other {addr : Nat} (haddr : addr ≠ next) (v : Word) : s.sendWord addr v = s := by
  simp only [State.sendWord, hf, hg.todo, haddr.symm, decide_false, Bool.and_false, Bool.false_and, Bool.false_eq_true, if_false]

end

/-! ### The event of a register write (R116, R117, R159, R161) -/

section
variable {s : State} {g : FrameState} {next left : Nat} {locked : Bool} (hs : s.Settled) (hf : s.mgmt.frame = .running g)
  (hg : g.AwaitsWord next left locked)
include hs hf hg

/-- The event in which the fourth byte for the next register arrives. -/
theorem State.event_sendWord (v : Word) :
    (s.event fun s => s.sendWord next v) = (s.begin.writeRegister (registerAt next) v).1.setFrame
      (.running (g.afterWord (bytesOf v) next left (locked || (s.begin.writeRegister (registerAt next) v).2))) := by
  have hf' : s.begin.mgmt.frame = .running g := hf
  obtain ⟨hraised, hports, hreset, -, -⟩ := s.begin.writeRegister_keeps (registerAt next) v
  rw [State.event, State.sendWord_next hf' hg, State.clock_wordBytes hf' hg, bytesOf_eq]
  exact hs.finish_of hraised hports hreset

/-- What the event comes to where the effect on the register is known. -/
theorem State.event_sendWord_of {v : Word} {t : State} {ignored : Bool}
    (heffect : s.begin.writeRegister (registerAt next) v = (t, ignored)) :
    (s.event fun s => s.sendWord next v) = t.setFrame (.running (g.afterWord (bytesOf v) next left (locked || ignored))) := by
  rw [State.event_sendWord hs hf hg, heffect]

/-- A write to an address that is not the next register's does nothing. -/
theorem State.event_sendWord_other {addr : Nat} (haddr : addr ≠ next) (v : Word) :
    (s.event fun s => s.sendWord addr v) = s.begin := by
  have hf' : s.begin.mgmt.frame = .running g := hf
  exact (congrArg State.finish (State.sendWord_other hf' hg haddr v)).trans hs.finish_begin

omit hs in
/-- With some of the bytes received, the rest of the word completes the same write. -/
theorem State.event_sendWord_partly {v : Word} {part rest : List Byte} (hv : bytesOf v = part ++ rest) (hpart : part.length ≤ 3) :
    ((s.setFrame (.running { g with args := g.args ++ part })).event fun s => s.sendWord next v) =
      s.event fun s => s.sendWord next v := by
  have hf' : s.begin.mgmt.frame = .running g := hf
  rw [bytesOf_eq] at hv
  exact congrArg State.finish
    ((State.sendWord_partly hf' hg hv hpart).trans (State.sendWord_next hf' hg v).symm)

omit hs in
/-- So does its last byte. -/
theorem State.event_lastByte {v : Word} {part : List Byte} {b : Byte} (hv : bytesOf v = part ++ [b]) (hpart : part.length ≤ 3) :
    ((s.setFrame (.running { g with args := g.args ++ part })).event fun s => s.clockByte b) =
      s.event fun s => s.sendWord next v := by
  have hf' : s.begin.mgmt.frame = .running g := hf
  have hclock : s.begin.clock (bytesOf v) = (s.begin.clock part).clockByte b := by rw [hv]; exact List.foldl_concat ..
  rw [bytesOf_eq] at hclock
  refine congrArg State.finish (Eq.trans ?_ (hclock.symm.trans (State.sendWord_next hf' hg v).symm))
  rw [State.clock_part hf' hg part hpart]
  rfl

/-- A byte that is not the last of the word is received. -/
theorem State.event_partByte {part : List Byte} {b : Byte} (hpart : part.length ≤ 2) :
    ((s.setFrame (.running { g with args := g.args ++ part })).event fun s => s.clockByte b) =
      { s.begin with mgmt := { s.mgmt with frame := .running { g with args := g.args ++ part ++ [b] } } } := by
  have hf' : s.begin.mgmt.frame = .running g := hf
  have hbyte : (s.begin.setFrame (.running { g with args := g.args ++ part })).clockByte b =
      s.begin.setFrame (.running { g with args := g.args ++ part ++ [b] }) := by
    have hpart' : (part ++ [b]).length ≤ 3 := by rw [List.length_append, List.length_singleton]; omega
    have hclock : s.begin.clock (part ++ [b]) = (s.begin.clock part).clockByte b := List.foldl_concat ..
    rw [State.clock_part hf' hg part (by omega), State.clock_part hf' hg _ hpart', ← List.append_assoc] at hclock
    exact hclock.symm
  exact (congrArg State.finish hbyte).trans (hs.finish_setFrame _)

end

/-- The settings in effect with the value of a staged register, its bits written out (R186). -/
def Effective.withRegister (e : Effective) (reg : StagedReg) (v : Word) : Effective :=
  match reg with
  | .policy => { e with policy := Policy.ofBits v }
  | .fillPattern => { e with fillPattern := v }
  | .timersA => { e with timersA := { tFill := v.truncate 16, tHold := (v >>> 16).truncate 16 } }
  | .timersB => { e with tStall := v.truncate 16 }

/-- The staged set with the value of a staged register. -/
def Staged.withRegister (g : Staged) (reg : StagedReg) (v : Word) : Staged :=
  match reg with
  | .policy => { g with policy := some (Policy.ofBits v) }
  | .fillPattern => { g with fillPattern := some v }
  | .timersA => { g with timersA := some { tFill := v.truncate 16, tHold := (v >>> 16).truncate 16 } }
  | .timersB => { g with tStall := some (v.truncate 16) }

/-- The descriptor with the value of a locked register. -/
def Geometry.withRegister (g : Geometry) (reg : LockedReg) (v : Word) : Geometry :=
  match reg with
  | .lbase => { g with lbase := v }
  | .flen => { g with flen := v }
  | .sbase => { g with sbase := v }
  | .geom => g.ofBits v

/-- A staged register of a DISABLED window takes the value at once. -/
theorem WindowUnit.writeStaged_of_disabled {u : WindowUnit} (hu : u.life = .disabled) (reg : StagedReg) (v : Word) :
    u.writeStaged reg v = { u with eff := u.eff.withRegister reg v } := by
  rw [WindowUnit.writeStaged, if_pos hu]
  cases reg
  case policy => rw [Effective.withRegister, Policy.ofBits_eq]; rfl
  all_goals rfl

/-- One of any other window is staged. -/
theorem WindowUnit.writeStaged_of_live {u : WindowUnit} (hu : u.life ≠ .disabled) (reg : StagedReg) (v : Word) :
    u.writeStaged reg v = { u with staged := u.staged.withRegister reg v } := by
  rw [WindowUnit.writeStaged, if_neg hu]
  cases reg
  case policy => rw [Staged.withRegister, Policy.ofBits_eq]; rfl
  all_goals rfl

theorem Geometry.write_eq (g : Geometry) (reg : LockedReg) (v : Word) : g.write reg v = g.withRegister reg v := by
  cases reg
  case geom => exact (g.ofBits_eq v).symm
  all_goals rfl

section
variable {s : State} {w : Window} (v : Word)

theorem State.writeRegister_locked_disabled (hw : (s.exch.win w).life = .disabled) (reg : LockedReg) :
    s.writeRegister (registerAt (windowAddress w (LockedReg.offset reg))) v =
      ({ s with exch := s.exch.modWin w fun u => { u with geom := u.geom.withRegister reg v } }, false) := by
  simp only [registerAt_locked, State.writeRegister, State.writeLocked, if_pos hw, Geometry.write_eq]

theorem State.writeRegister_locked_live (hw : (s.exch.win w).life ≠ .disabled) (reg : LockedReg) :
    s.writeRegister (registerAt (windowAddress w (LockedReg.offset reg))) v = (s, true) := by
  simp only [registerAt_locked, State.writeRegister, State.writeLocked, if_neg hw]

theorem State.writeRegister_staged_disabled (hw : (s.exch.win w).life = .disabled) (reg : StagedReg) :
    s.writeRegister (registerAt (windowAddress w (StagedReg.offset reg))) v =
      ({ s with exch := s.exch.modWin w fun u => { u with eff := u.eff.withRegister reg v } }, false) := by
  rw [registerAt_staged, State.writeRegister, s.exch.modWin_congr w (f := fun u => u.writeStaged reg v)
    (g := fun u => { u with eff := u.eff.withRegister reg v }) (WindowUnit.writeStaged_of_disabled hw reg v)]

theorem State.writeRegister_staged_live (hw : (s.exch.win w).life ≠ .disabled) (reg : StagedReg) :
    s.writeRegister (registerAt (windowAddress w (StagedReg.offset reg))) v =
      ({ s with exch := s.exch.modWin w fun u => { u with staged := u.staged.withRegister reg v } }, false) := by
  rw [registerAt_staged, State.writeRegister, s.exch.modWin_congr w (f := fun u => u.writeStaged reg v)
    (g := fun u => { u with staged := u.staged.withRegister reg v }) (WindowUnit.writeStaged_of_live hw reg v)]

end

/-- Settles O54: the register the word is for decides its effect; the frame goes on, or its command is taken. -/
theorem registerWriteResult : Obligations.RegisterWriteResult := by
  intro s g next left locked v hs hf hcode ht hlength haligned htodo after
  have hg : g.AwaitsWord next left locked := ⟨hcode, ht, hlength, haligned, htodo⟩
  have hframe : ∀ ignored, after ignored =
      { s.mgmt with frame := .running (g.afterWord (bytesOf v) next left (locked || ignored)) } := fun _ => rfl
  have hevent : ∀ {t ignored}, s.begin.writeRegister (registerAt next) v = (t, ignored) →
      (s.event fun s => s.sendWord next v) = t.setFrame (.running (g.afterWord (bytesOf v) next left (locked || ignored))) :=
    fun heffect => State.event_sendWord_of hs hf hg heffect
  refine ⟨?_, ?_, ?_, fun a ha => ⟨⟨?_, ?_, ?_, ?_, ?_⟩, fun hignored => ?_, fun part b rest hv => ?_⟩, fun a ha => ?_,
    fun w hlive => ⟨?_, ?_⟩, fun w hdisabled => ⟨?_, ?_⟩⟩
  · rintro rfl
    exact congrArg Host.Outcome.next (hevent rfl)
  · rintro rfl
    exact congrArg Host.Outcome.next (hevent rfl)
  · rintro rfl
    exact congrArg Host.Outcome.next (hevent rfl)
  · rintro rfl
    exact congrArg (fun n => Host.Outcome.next (s.event fun s => s.sendWord n v)) ha
  · rintro rfl
    exact congrArg (fun n => Host.Outcome.next (s.event fun s => s.sendWord n v)) ha
  · rintro rfl
    exact congrArg (fun n => Host.Outcome.next (s.event fun s => s.sendWord n v)) ha
  · rintro w reg hnext
    exact congrArg (fun n => Host.Outcome.next (s.event fun s => s.sendWord n v)) (ha.trans hnext)
  · rintro w reg hnext
    exact congrArg (fun n => Host.Outcome.next (s.event fun s => s.sendWord n v)) (ha.trans hnext)
  · have hwrite : exec (.registerWrite a v) s = .next (s.event fun s => s.sendWord next v) :=
      congrArg (fun n => Host.Outcome.next (s.event fun s => s.sendWord n v)) ha
    rw [hwrite, hevent (s.begin.writeRegister_ignored v hignored)]
    rfl
  · intro partly
    have hbytes : part.length + (rest.length + 1) = 4 := by
      have hlen := congrArg List.length hv
      rw [List.length_append, List.length_cons] at hlen
      exact hlen.symm
    have hwrite : ∀ t : State, exec (.registerWrite a v) t = .next (t.event fun s => s.sendWord next v) :=
      fun t => congrArg (fun n => Host.Outcome.next (t.event fun s => s.sendWord n v)) ha
    rw [hwrite, hwrite]
    refine ⟨congrArg Host.Outcome.next (State.event_sendWord_partly hf hg hv (by omega)), fun hrest => ?_, fun hrest => ?_⟩
    · subst hrest
      exact congrArg Host.Outcome.next (State.event_lastByte hf hg hv (by omega))
    · have hmore := List.length_pos_iff.mpr hrest
      exact congrArg Host.Outcome.next (State.event_partByte hs hf hg (by omega))
  · exact congrArg Host.Outcome.next (State.event_sendWord_other hs hf hg ha v)
  · rintro reg rfl
    exact congrArg Host.Outcome.next (hevent (State.writeRegister_locked_live (s := s.begin) v hlive reg))
  · rintro reg rfl
    exact congrArg Host.Outcome.next (hevent (State.writeRegister_staged_live (s := s.begin) v hlive reg))
  · rintro reg rfl
    exact congrArg Host.Outcome.next (hevent (State.writeRegister_locked_disabled (s := s.begin) v hdisabled reg))
  · rintro reg rfl
    exact congrArg Host.Outcome.next (hevent (State.writeRegister_staged_disabled (s := s.begin) v hdisabled reg))

end Sys2Proof.Machine
end

section
/-!
READ_REGISTERS and WRITE_REGISTERS as they are taken, the registers that a read latches, and the data of a write word by word
(R158 to R160).
-/

namespace Sys2Proof.Machine

/-! ### The check (R158, R160) -/

theorem registersInRange_of {a n : Byte} (h1 : 1 ≤ n.toNat) (h64 : n.toNat ≤ 64) (hsum : a.toNat + n.toNat ≤ 256) :
    registersInRange a n = true := by
  simp only [registersInRange, Bool.and_eq_true, decide_eq_true_eq]
  omega

theorem registersInRange_of_not {a n : Byte} (h : n.toNat = 0 ∨ 64 < n.toNat ∨ 256 < a.toNat + n.toNat) :
    registersInRange a n = false := by
  simp only [registersInRange, Bool.and_eq_false_iff, decide_eq_false_iff_not]
  omega

section
variable {s : State} {f : FrameState} {a n : Byte}

/-- READ_REGISTERS in a frame that awaits a command. -/
theorem State.exec_readRegisters (hs : s.Settled) (ha : s.awaits f) {r : Reply} (hr : readRegistersReply a n = r) :
    exec (.readRegisters (.taken a n)) s = .next { s.begin with
      mgmt := { s.mgmt with frame := f.reply 0x01 [a, n] (r.status.code :: r.more) r.todo } } :=
  have hact : (s.begin, readRegistersReply a n) = (s.begin, r) := congrArg (Prod.mk s.begin) hr
  congrArg Host.Outcome.next ((State.event_two ha (c := .readRegisters) (act := fun t a n => (t, readRegistersReply a n)) rfl
    (fun _ _ => rfl) (fun _ _ _ => rfl) hact).trans (hs.finish_of rfl rfl rfl))

/-- The count byte of WRITE_REGISTERS, and the data after it. -/
theorem State.send_writeRegisters (ha : s.awaits f) (data : List Byte) :
    s.send (0x02 :: a :: n :: data) =
      ((s.withArrived f 0x02 [a]).writeCount { f with code := some 0x02, args := [a, n] } a n).clock data := by
  obtain ⟨-, -, -, ht, htodo⟩ := id ha
  have hc : commandOf 0x02 = some .writeRegisters := rfl
  have hfirst : (s.withArrived f 0x02 []).clockByte a = s.withArrived f 0x02 [a] :=
    (State.clockByte_withArrived hc ht [] a).trans (State.arrived_first (by decide) hc _ rfl htodo)
  have hsecond : (s.withArrived f 0x02 [a]).clockByte n =
      (s.withArrived f 0x02 [a]).writeCount { f with code := some 0x02, args := [a, n] } a n := by
    rw [State.clockByte_withArrived hc ht [a] n]
    simp only [State.arrived, State.writeByte, htodo, List.cons_append, List.nil_append]
  rw [State.send_withArrived ha (by decide)]
  change (((s.withArrived f 0x02 []).clockByte a).clockByte n).clock data = _
  rw [hfirst, hsecond]

/-- Taken, and its words to come. -/
theorem State.writeCount_ok (h : registersInRange a n = true) :
    s.writeCount f a n = s.setFrame (.running { f with todo := .writes a.toNat n.toNat false }) := by
  rw [State.writeCount, if_pos h]

theorem State.writeCount_badArgument (h : registersInRange a n = false) :
    s.writeCount f a n = s.setFrame (.running
      { f with taken := true, response := [0x02], position := 0, filler := 0x02, todo := .nothing }) := by
  rw [State.writeCount, h]
  rfl

/-- Bytes after the end of the response move the position alone. -/
theorem State.clock_of_done (hf : s.mgmt.frame = .running f) (ht : f.taken = true) (htodo : f.todo = .nothing)
    (data : List Byte) : s.clock data = s.setFrame (.running { f with position := f.position + data.length }) := by
  induction data generalizing s f with
  | nil => exact (State.setFrame_of_frame hf).symm
  | cons b data ih =>
    change (s.clockByte b).clock data = _
    rw [State.clockByte_of_done hf ht htodo, ih (f := { f with position := f.position + 1 }) (State.setFrame_frame ..) ht htodo,
      List.length_cons, Nat.add_assoc, Nat.add_comm 1]
    rfl

end

/-! ### The words of the data, one after another (R159) -/

/-- What holds between the words of a frame: the next one is for register `next`, with `left` more after it, and the exchange
has changed in its windows alone. -/
structure State.BetweenWords (s t : State) (next left : Nat) : Prop where
  raised : t.exch.raised = s.exch.raised
  ports : t.exch.ports = s.exch.ports
  reset : t.resetAsserted = s.resetAsserted
  answers : t.exch.answers = []
  issued : t.issued = []
  frame : ∃ g locked, t.mgmt.frame = .running g ∧ g.AwaitsWord next left locked

section
variable {s t : State} {next left : Nat}

/-- A word that is not the last leaves the frame between words. -/
theorem State.BetweenWords.clock_word (h : s.BetweenWords t next (left + 1)) {bytes : List Byte} (hbytes : bytes.length = 4) :
    s.BetweenWords (t.clock bytes) (next + 1) left := by
  obtain ⟨g, locked, hf, hg⟩ := h.frame
  obtain ⟨hraised, hports, hreset, hanswers, hissued⟩ := t.writeRegister_keeps (registerAt next) (wordOfBytes bytes)
  have haligned := hg.aligned
  rw [State.clock_word hf hg hbytes]
  refine ⟨hraised.trans h.raised, hports.trans h.ports, hreset.trans h.reset, hanswers.trans h.answers,
    hissued.trans h.issued, _, _, rfl, ⟨hg.code, hg.taken, ?_, ?_, rfl⟩⟩
  · show 2 ≤ (g.args ++ bytes).length
    rw [List.length_append, hbytes]; omega
  · show (g.args ++ bytes).length % 4 = 2
    rw [List.length_append, hbytes]; omega

/-- So does any number of words that are not the last. -/
theorem State.BetweenWords.clock_words (r : Nat) (h : s.BetweenWords t next (left + r)) {data : List Byte}
    (hdata : data.length = 4 * r) : s.BetweenWords (t.clock data) (next + r) left := by
  induction r generalizing t next data with
  | zero =>
    rw [Nat.mul_zero, List.length_eq_zero_iff] at hdata
    subst hdata
    exact h
  | succ r ih =>
    have hsplit : t.clock data = (t.clock (data.take 4)).clock (data.drop 4) := by
      rw [State.clock, State.clock, State.clock, ← List.foldl_append, List.take_append_drop]
    have hfirst : s.BetweenWords (t.clock (data.take 4)) (next + 1) (left + r) :=
      h.clock_word (by rw [List.length_take]; omega)
    have hrest := ih hfirst (data := data.drop 4) (by rw [List.length_drop]; omega)
    rwa [hsplit, Nat.add_comm r 1, ← Nat.add_assoc]

/-- Between words an event can begin as it stands. -/
theorem State.BetweenWords.begin_eq (h : s.BetweenWords t next left) : t.begin = t := by
  rw [State.begin, ← h.answers, ← h.issued]

end

section
variable {s : State} {f : FrameState} {a n : Byte} (hs : s.Settled) (ha : s.awaits f)

/-- The part once WRITE_REGISTERS is checked and before its data. -/
def State.withCount (s : State) (f : FrameState) (a n : Byte) : State :=
  s.setFrame (.running { f with code := some 0x02, args := [a, n], todo := .writes a.toNat n.toNat false })

section
include ha

theorem State.send_inRange (hok : registersInRange a n = true) (data : List Byte) :
    s.send (0x02 :: a :: n :: data) = (s.withCount f a n).clock data := by
  rw [State.send_writeRegisters ha, State.writeCount_ok hok]
  rfl

theorem State.withCount_betweenWords {k : Nat} (hn : n.toNat = k + 1) :
    s.BetweenWords (s.begin.withCount f a n) a.toNat k := by
  obtain ⟨-, -, -, ht, -⟩ := id ha
  exact ⟨rfl, rfl, rfl, rfl, rfl, _, _, rfl, ⟨rfl, ht, Nat.le_refl _, rfl, congrArg (fun m => Todo.writes a.toNat m false) hn⟩⟩

include hs

/-- The event of a frame whose data are whole words, not all of them. -/
theorem State.exec_writeRegisters_words (hok : registersInRange a n = true) {r : Nat} (hr : r < n.toNat) {front : List Byte}
    (hfront : front.length = 4 * r) :
    exec (.writeRegisters ⟨a, n, front⟩) s = .next ((s.begin.withCount f a n).clock front) ∧
      s.BetweenWords ((s.begin.withCount f a n).clock front) (a.toNat + r) (n.toNat - 1 - r) := by
  have hbegin : s.begin.awaits f := ha
  have hwords : s.BetweenWords ((s.begin.withCount f a n).clock front) (a.toNat + r) (n.toNat - 1 - r) :=
    (State.withCount_betweenWords ha (by omega)).clock_words r hfront
  exact ⟨congrArg Host.Outcome.next ((congrArg State.finish (State.send_inRange hbegin hok front)).trans
    (hs.finish_of hwords.raised hwords.ports hwords.reset)), hwords⟩

/-- The next word of the data is a register write. -/
theorem State.exec_writeRegisters_next (hok : registersInRange a n = true) {r : Byte} (hr : r.toNat < n.toNat)
    (hsum : a.toNat + n.toNat ≤ 256) {front : List Byte} (hfront : front.length = 4 * r.toNat) (v : Word) {t : State}
    (ht : exec (.writeRegisters ⟨a, n, front⟩) s = .next t) :
    exec (.writeRegisters ⟨a, n, front ++ bytesOf v⟩) s = exec (.registerWrite (a + r) v) t := by
  have hbegin : s.begin.awaits f := ha
  obtain ⟨hexec, hwords⟩ := State.exec_writeRegisters_words hs ha hok hr hfront
  obtain rfl : (s.begin.withCount f a n).clock front = t := Host.Outcome.next.inj (hexec.symm.trans ht)
  obtain ⟨g, locked, hf, hg⟩ := hwords.frame
  have haddr : (a + r).toNat = a.toNat + r.toNat := by
    rw [BitVec.toNat_add]; exact Nat.mod_eq_of_lt (by omega)
  have hword : (((s.begin.withCount f a n).clock front).begin).sendWord (a + r).toNat v =
      (s.begin.withCount f a n).clock (front ++ bytesOf v) := by
    rw [hwords.begin_eq, haddr, State.sendWord_next hf hg, bytesOf_eq]
    exact List.foldl_append.symm
  exact congrArg (fun u => Host.Outcome.next (State.finish u)) ((State.send_inRange hbegin hok _).trans hword.symm)

end

include hs ha

/-- A frame that fails the check ignores its data. -/
theorem State.exec_writeRegisters_badArgument (hbad : registersInRange a n = false) (data : List Byte) :
    exec (.writeRegisters ⟨a, n, data⟩) s = .next { s.begin with
      mgmt := { s.mgmt with
        frame := .running
          { f with code := some 0x02, args := [a, n], taken := true, response := [0x02], position := data.length,
                   filler := 0x02, todo := .nothing } } } := by
  have hbegin : s.begin.awaits f := ha
  have hsend : s.begin.send (0x02 :: a :: n :: data) = s.begin.setFrame (.running
      { f with code := some 0x02, args := [a, n], taken := true, response := [0x02], position := data.length,
               filler := 0x02, todo := .nothing }) := by
    rw [State.send_writeRegisters hbegin, State.writeCount_badArgument hbad, State.clock_of_done (State.setFrame_frame ..) rfl rfl]
    simp only [Nat.zero_add]
    rfl
  exact congrArg Host.Outcome.next ((congrArg State.finish hsend).trans (hs.finish_setFrame _))

end

/-! ### The registers of a read (R158) -/

section
variable {s : State} {g : FrameState} {next left : Nat} (hf : s.mgmt.frame = .running g) (ht : g.taken = true)
  (htodo : g.todo = .registers next (left + 1))

/-- The frame with the next register latched. -/
def FrameState.withLatched (g : FrameState) (v : Word) (next left : Nat) : FrameState :=
  { g with
    response := g.response ++ bytesOf v, position := g.response.length,
    todo := if left = 0 then .nothing else .registers (next + 1) left }

include hf ht htodo

theorem State.beginByte_register (hpos : g.position = g.response.length) :
    s.beginByte = s.setFrame (.running (g.withLatched (s.shows next) next left)) := by
  simp only [State.beginByte, hf, ht, hpos, htodo, decide_true, Bool.and_self, if_true, FrameState.withLatched, bytesOf_eq,
    State.shows_eq]

theorem State.nextRegister_eq (hpos : g.position ≤ g.response.length) :
    s.nextRegister = s.setFrame (.running (g.withLatched (s.shows next) next left)) := by
  have hsettled := State.clock_settled hf ht (by rw [htodo]; exact nofun) (by rw [htodo]; exact nofun) hpos fillerByte
  simp only [State.nextRegister, hf, htodo, State.clockOut, if_pos ht, Nat.add_zero]
  rw [hsettled]
  exact State.beginByte_register (g := { g with position := g.response.length }) (State.setFrame_frame ..) ht htodo rfl

/-- The first byte of the register is on MISO from its first bit on. -/
theorem State.miso_register (hr : s.resetAsserted = false) (hpos : g.position = g.response.length) :
    s.miso = some ((s.shows next >>> 24).truncate 8) := by
  have htaken : (g.withLatched (s.shows next) next left).taken = true := ht
  have hbyte : (g.response ++ bytesOf (s.shows next)).getD g.response.length g.filler = (s.shows next >>> 24).truncate 8 := by
    rw [List.getD_eq_getElem?_getD, List.getElem?_append_right (Nat.le_refl _), Nat.sub_self]
    rfl
  simp only [State.miso, hr, Bool.false_eq_true, if_false, State.beginByte_register hf ht htodo hpos, State.setFrame_frame,
    FrameState.miso, htaken, if_true]
  exact congrArg some hbyte

end

/-- Settles O53: the check and its answers, the registers latched, and the words written one after another. -/
theorem registerFrameResult : Obligations.RegisterFrameResult := by
  intro s hs
  refine ⟨fun f a n ha h1 h64 hsum => ?_, fun f a n data ha hbad => ?_, fun g next left hf ht htodo => ?_⟩
  · have hok := registersInRange_of h1 h64 hsum
    exact ⟨State.exec_readRegisters hs ha (if_pos hok),
      (State.exec_writeRegisters_words hs ha hok (r := 0) h1 rfl).1,
      fun front v t r hfront hr ht => State.exec_writeRegisters_next hs ha hok hr hsum hfront v ht⟩
  · have hnot := registersInRange_of_not hbad
    exact ⟨State.exec_readRegisters hs ha (if_neg (by rw [hnot]; exact Bool.false_ne_true)),
      State.exec_writeRegisters_badArgument hs ha hnot data⟩
  · intro latched
    have hf' : s.begin.mgmt.frame = .running g := hf
    exact ⟨fun hpos => congrArg Host.Outcome.next
        ((congrArg State.finish (State.nextRegister_eq hf' ht htodo hpos)).trans (hs.finish_setFrame _)),
      fun hpos => ⟨congrArg Host.Outcome.next
        ((congrArg State.finish (State.beginByte_register hf' ht htodo hpos)).trans (hs.finish_setFrame _)),
        fun hr => State.miso_register hf ht htodo hr hpos⟩⟩

end Sys2Proof.Machine
end

section
/-!
DRAIN, DISABLE and RESTART (R75, R108 to R111, R114, R169).
-/

namespace Sys2Proof.Machine

/-! ### The end of an event that raises records -/

/-- With no request on a link, the end of an event offers its records and does nothing else. -/
theorem State.Quiet.finish_flush {s t : State} (hs : s.Quiet) (hlinks : ∀ p, (t.exch.port p).link = (s.exch.port p).link) :
    ∃ events choices, t.finish = { t with exch := { t.exch with raised := [] }, events := events, choices := choices } ∧
      t.Offers t.exch.raised events := by
  rw [State.finish_of_links t fun p => (hlinks p).trans (hs.2 p)]
  exact t.flush_eq

/-! ### DRAIN's steps on the exchange (R75, R108) -/

section
variable {x : Exchange} {w : Window} {c : Context}

theorem Exchange.refuseWaiting_of_not_waiting (hc : x.ctx? w = some c) (h : c.writer.state ≠ .waiting) (now : Word) :
    x.refuseWaiting now w = x := by
  simp only [Exchange.refuseWaiting, hc]
  split
  · next heq _ => cases heq; exact if_neg h
  · rfl

/-- A WAITING writer is refused: its access is answered ERROR and recorded. -/
theorem Exchange.refuseWaiting_of_waiting {r : Request} (hc : x.ctx? w = some c) (h : c.writer.state = .waiting)
    (hr : (x.port (x.win w).geom.writer).heldRequest w .slot = some r) (now : Word) :
    x.refuseWaiting now w =
      (x.refuseOpen now w (x.win w).geom.writer .draining r.addr).modCtx w fun c => c.modWriter fun b =>
        { b with state := .noSlot } := by
  simp only [Exchange.refuseWaiting, hc, hr, h, if_true]

/-- A DRAINING window that does not meet the drain condition stays, with its record. -/
theorem Exchange.drainWindow_of_not_met {y : Exchange} {d : Context} {now : Word}
    (hy : (x.modWin w fun u => { u with life := .live .draining c }).refuseWaiting now w = y)
    (hl : (y.win w).life = .live .draining d) (hnot : ¬d.DrainMet (y.win w).geom.delivery) :
    x.drainWindow now w c =
      y.raise { EventRecord.plain now (.windowState .drain) with window := some w, detail := 3 } := by
  have htest : y.drainTest now w = y := Exchange.drainTest_of_not_met hl (.inr ⟨rfl, hnot⟩) now
  simp only [Exchange.drainWindow, hy, htest, hl, reduceCtorEq, if_false, Exchange.raiseState, Life.code]

theorem Exchange.disableWindow_life (now : Word) (cause : StateCause) :
    ((x.disableWindow now w cause).win w).life = .disabled := by
  obtain ⟨⟨hwin, -⟩, -⟩ := x.disableWindow_eq now w cause
  exact congrArg WindowUnit.life hwin

/-- One that meets it is disabled at once. -/
theorem Exchange.drainWindow_of_met {y : Exchange} {d : Context} {now : Word}
    (hy : (x.modWin w fun u => { u with life := .live .draining c }).refuseWaiting now w = y)
    (hl : (y.win w).life = .live .draining d) (hmet : d.DrainMet (y.win w).geom.delivery) :
    x.drainWindow now w c = y.disableWindow now w .drained := by
  have htest : y.drainTest now w = y.disableWindow now w .drained := by
    rw [Exchange.drainTest, hl]
    exact if_pos ((d.drainMet_iff _).mp hmet)
  simp only [Exchange.drainWindow, hy, htest, Exchange.disableWindow_life, if_true]

/-- What a window was live in does not matter once it is DISABLED, nor do records raised before. -/
theorem Exchange.BecomesDisabled.of_life {z : Exchange} {l : Life} {records : List EventRecord}
    (h : ({ x.modWin w fun u => { u with life := l } with raised := records } : Exchange).BecomesDisabled z w) :
    x.BecomesDisabled z w := by
  obtain ⟨hwin, hothers, hrest⟩ := h
  refine ⟨hwin.trans ?_, fun v hv => (hothers v hv).trans (x.win_modWin_ne w (fun u => { u with life := l }) hv), hrest⟩
  exact (congrArg (fun u : WindowUnit => ({ u.afterApplying with life := .disabled } : WindowUnit))
    (x.win_modWin_self w fun u => { u with life := l }) :)

theorem WindowUnit.disableRecords_life (u : WindowUnit) (l : Life) (now : Word) (cause : StateCause) :
    ({ u with life := l } : WindowUnit).disableRecords now w cause = u.disableRecords now w cause := rfl

end

/-! ### Their events -/

section
variable {s : State} {f : FrameState} {window : Byte} {w : Window} (hs : s.Quiet) (ha : s.awaits f)
include hs ha

/-- DRAIN in a frame that awaits a command, where it brings the exchange to z. -/
theorem State.exec_drain {z : Exchange} {status : Status} (hlinks : ∀ p, (z.port p).link = (s.exch.port p).link)
    (hact : s.begin.drainWindow window = ({ s.begin with exch := z }, { status := status })) :
    ∃ events choices, exec (.drain window) s = .next { s.begin with
        exch := { z with raised := [] }, events := events, choices := choices,
        mgmt := { s.mgmt with frame := f.reply 0x11 [window] [status.code] .nothing } } ∧
      s.Offers z.raised events := by
  have hevent := State.event_one ha (code := 0x11) (c := .drain) rfl (fun _ _ => rfl) (fun fr a => s.begin.setFrame_drainWindow fr a) hact
  obtain ⟨events, choices, hfinish, hoffers⟩ := hs.finish_flush (t := { s.begin with
    exch := z, mgmt := { s.mgmt with frame := f.reply 0x11 [window] [status.code] .nothing } }) hlinks
  exact ⟨events, choices, congrArg Host.Outcome.next (hevent.trans hfinish), hoffers⟩

/-- DISABLE in a frame that awaits a command. -/
theorem State.exec_disable {z : Exchange} {status : Status} (hlinks : ∀ p, (z.port p).link = (s.exch.port p).link)
    (hact : s.begin.disableWindow window = ({ s.begin with exch := z }, { status := status })) :
    ∃ events choices, exec (.disable window) s = .next { s.begin with
        exch := { z with raised := [] }, events := events, choices := choices,
        mgmt := { s.mgmt with frame := f.reply 0x12 [window] [status.code] .nothing } } ∧
      s.Offers z.raised events := by
  have hevent := State.event_one ha (code := 0x12) (c := .disable) rfl (fun _ _ => rfl) (fun fr a => s.begin.setFrame_disableWindow fr a) hact
  obtain ⟨events, choices, hfinish, hoffers⟩ := hs.finish_flush (t := { s.begin with
    exch := z, mgmt := { s.mgmt with frame := f.reply 0x12 [window] [status.code] .nothing } }) hlinks
  exact ⟨events, choices, congrArg Host.Outcome.next (hevent.trans hfinish), hoffers⟩

/-- DRAIN that changes nothing but the frame. -/
theorem State.exec_drain_same {status : Status} (hact : s.begin.drainWindow window = (s.begin, { status := status })) :
    exec (.drain window) s = .next { s.begin with
      mgmt := { s.mgmt with frame := f.reply 0x11 [window] [status.code] .nothing } } :=
  congrArg Host.Outcome.next ((State.event_one ha (code := 0x11) (c := .drain) rfl (fun _ _ => rfl)
    (fun fr a => s.begin.setFrame_drainWindow fr a) hact).trans (hs.settled.finish_of rfl rfl rfl))

/-- DISABLE that changes nothing but the frame. -/
theorem State.exec_disable_same {status : Status} (hact : s.begin.disableWindow window = (s.begin, { status := status })) :
    exec (.disable window) s = .next { s.begin with
      mgmt := { s.mgmt with frame := f.reply 0x12 [window] [status.code] .nothing } } :=
  congrArg Host.Outcome.next ((State.event_one ha (code := 0x12) (c := .disable) rfl (fun _ _ => rfl)
    (fun fr a => s.begin.setFrame_disableWindow fr a) hact).trans (hs.settled.finish_of rfl rfl rfl))

end

section
variable {s : State} {window : Byte} {w : Window}

theorem State.drainWindow_unnamed (h : 8 ≤ window.toNat) : s.drainWindow window = (s, { status := .badArgument }) := by
  rw [State.drainWindow, windowOfNat_eq_none h]

theorem State.disableWindow_unnamed (h : 8 ≤ window.toNat) : s.disableWindow window = (s, { status := .badArgument }) := by
  rw [State.disableWindow, windowOfNat_eq_none h]

variable (hw : window.toNat = Window.number w)
include hw

theorem State.drainWindow_badState (h : (s.exch.win w).mode? ≠ some .active) :
    s.drainWindow window = (s, { status := .badState }) := by
  rw [State.drainWindow, hw, windowOfNat_number]
  simp only
  split
  · next hl => exact absurd (by rw [WindowUnit.mode?, hl]) h
  · rfl

theorem State.drainWindow_active {c : Context} (h : (s.exch.win w).life = .live .active c) :
    s.drainWindow window = ({ s with exch := s.exch.drainWindow s.time.ticks w c }, { status := .ok }) := by
  rw [State.drainWindow, hw, windowOfNat_number]
  simp only [h]
  rfl

theorem State.disableWindow_disabled (h : (s.exch.win w).life = .disabled) :
    s.disableWindow window = (s, { status := .ok }) := by
  simp only [State.disableWindow, hw, windowOfNat_number, State.onExchange, Exchange.disableLive, h, if_true]

theorem State.disableWindow_live (h : (s.exch.win w).life ≠ .disabled) :
    s.disableWindow window = ({ s with exch := s.exch.disableWindow s.time.ticks w .disable }, { status := .ok }) := by
  simp only [State.disableWindow, hw, windowOfNat_number, State.onExchange, Exchange.disableLive, if_neg h]

end

/-- No link changes where a window becomes DISABLED. -/
theorem Exchange.disableWindow_link (x : Exchange) (now : Word) (w : Window) (cause : StateCause) (p : Port) :
    ((x.disableWindow now w cause).port p).link = (x.port p).link := by
  obtain ⟨⟨-, -, hport, -⟩, -⟩ := x.disableWindow_eq now w cause
  have hp := hport p
  refine (congrArg PortUnit.link hp).trans ?_
  split <;> rfl

/-! ### Several windows disabled one after another (R114) -/

/-- What the engine keeps for its demands and its current block: a job of their window. -/
structure Engine.HasJobs (e : Engine) : Prop where
  order : ∀ d, d ∈ e.order → e.job? d.1 ≠ none
  current : ∀ cur, e.current = some cur → e.job? cur.window ≠ none

section
variable {e : Engine} {w : Window}

theorem Engine.cancel_jobs : (e.cancel w).jobs = e.jobs.filter fun j => j.window ≠ w := by
  unfold Engine.cancel
  split
  · exact Engine.choose_jobs _
  · rfl

theorem Engine.job?_of_jobs {e' : Engine} (h : e'.jobs = e.jobs.filter fun j => j.window ≠ w) (v : Window) :
    e'.job? v = if v = w then none else e.job? v := by
  rw [Engine.job?, h, List.find?_filter]
  split
  · next hv =>
    subst hv
    exact List.find?_eq_none.mpr fun j _ => by simp
  · next hv =>
    refine List.find?_congr fun j _ => ?_
    by_cases hj : j.window = v
    · simp [hj, hv]
    · simp [hj]

theorem Engine.choose_order : e.choose.order = e.order := by
  unfold Engine.choose
  repeat' split
  all_goals rfl

/-- The block chosen is of a window with a job. -/
theorem Engine.choose_current {cur : Current} (h : e.choose.current = some cur) (hidle : e.current = none) :
    e.choose.job? cur.window ≠ none := by
  have hjob : e.choose.job? cur.window = e.job? cur.window := by rw [Engine.job?, Engine.choose_jobs, Engine.job?]
  rw [hjob]
  simp only [Engine.choose, hidle] at h
  split at h
  · obtain ⟨j, hj, rfl⟩ := Option.map_eq_some_iff.mp h
    simp only [hj, ne_eq, reduceCtorEq, not_false_eq_true]
  · simp at h

theorem Engine.HasJobs.cancel (h : e.HasJobs) : (e.cancel w).HasJobs := by
  have hjob := Engine.job?_of_jobs (e := e) (w := w) (e' := e.cancel w) Engine.cancel_jobs
  have horder : (e.cancel w).order = e.order.filter fun d => d.1 ≠ w := by
    unfold Engine.cancel
    split
    · exact Engine.choose_order
    · rfl
  refine ⟨fun d hd => ?_, fun cur hcur => ?_⟩
  · rw [horder, List.mem_filter, decide_eq_true_eq] at hd
    obtain ⟨hmem, hne⟩ := hd
    rw [hjob, if_neg hne]
    exact h.order d hmem
  · by_cases hc : e.current.any fun c => c.window = w
    · have hcancel : e.cancel w = Engine.choose { e.dropJob w with current := none, buffer := none } := if_pos hc
      rw [hcancel] at hcur ⊢
      exact Engine.choose_current hcur rfl
    · have hcancel : e.cancel w = e.dropJob w := if_neg hc
      have hcur' : e.current = some cur := by rw [hcancel] at hcur; exact hcur
      have hne : cur.window ≠ w := fun heq => hc (by simp [hcur', heq])
      rw [hjob, if_neg hne]
      exact h.current cur hcur'

/-- An engine whose jobs are all gone has nothing left. -/
theorem Engine.HasJobs.empty (h : e.HasJobs) (hjobs : e.jobs = []) : e.order = [] ∧ e.current = none := by
  have hnone : ∀ v, e.job? v = none := fun v => by rw [Engine.job?, hjobs]; rfl
  refine ⟨List.eq_nil_iff_forall_not_mem.mpr fun d hd => h.order d hd (hnone d.1), ?_⟩
  cases hcur : e.current with
  | none => rfl
  | some cur => exact absurd (hnone cur.window) (h.current cur hcur)

end

/-- The windows of the list become DISABLED, from x to y. -/
structure Exchange.AllDisabled (x y : Exchange) (now : Word) (cause : StateCause) (ws : List Window) : Prop where
  win : ∀ w, y.win w = if w ∈ ws then { (x.win w).afterApplying with life := .disabled } else x.win w
  port : ∀ p, y.port p = if (ws.any fun w => (x.port p).heldFor w) = true then { x.port p with hand := .none } else x.port p
  answers : ∀ p, y.answers.filter (fun a => a.1 = p) = x.answers.filter (fun a => a.1 = p) ++
    if (ws.any fun w => (x.port p).heldFor w) = true then [(p, Response.error)] else []
  jobs : y.carry.jobs = x.carry.jobs.filter fun j => j.window ∉ ws
  hasJobs : x.carry.HasJobs → y.carry.HasJobs
  outstanding : y.outstanding = x.outstanding.map fun e =>
    if e.mem.origin = .carry ∧ (e.mem.window.any fun w => decide (w ∈ ws) && (x.carry.job? w).isSome) = true
    then { e with discarded := true } else e
  raised : y.raised = x.raised ++ ws.flatMap fun w => (x.win w).disableRecords now w cause

theorem Port.filter_answers (P : Port → Bool) (a : Response) (p : Port) :
    (((Port.all.filter P).map fun q => (q, a)).filter fun e => e.1 = p) = if P p = true then [(p, a)] else [] := by
  rw [List.filter_map, List.filter_filter]
  have hcongr : (Port.all.filter fun q => ((fun e : Port × Response => decide (e.1 = p)) ∘ fun q => (q, a)) q && P q) =
      if P p = true then [p] else [] := by
    cases p <;> simp [Port.all, List.filter_cons]
  rw [hcongr]
  split <;> rfl

/-- The hand of a port is held for one window at most. -/
theorem PortUnit.heldFor_none (u : PortUnit) (w : Window) : ({ u with hand := .none } : PortUnit).heldFor w = false := rfl

section
variable {x y : Exchange} {now : Word} {cause : StateCause} {w : Window} {ws : List Window}

theorem Exchange.AllDisabled.refl (x : Exchange) (now : Word) (cause : StateCause) : x.AllDisabled x now cause [] := by
  refine ⟨fun _ => rfl, fun _ => rfl, fun _ => by simp, by simp, id, by simp, by simp⟩

/-- One window, and then the others. -/
theorem Exchange.AllDisabled.cons (hw : w ∉ ws) (h : (x.disableWindow now w cause).AllDisabled y now cause ws) :
    x.AllDisabled y now cause (w :: ws) := by
  obtain ⟨⟨hself, hne, hport, hanswers, hengine, -⟩, hraised⟩ := x.disableWindow_eq now w cause
  generalize x.disableWindow now w cause = z at h hself hne hport hanswers hengine hraised
  replace hself : z.win w = _ := hself
  replace hne : ∀ v, v ≠ w → z.win v = x.win v := hne
  replace hport : ∀ p, z.port p = _ := hport
  replace hanswers : z.answers = _ := hanswers
  replace hengine : (x.carry.job? w = none ∧ z.carry = x.carry ∧ z.outstanding = x.outstanding) ∨
    (x.carry.job? w ≠ none ∧ z.carry = (x.afterCancel w).carry ∧ z.outstanding = (x.afterCancel w).outstanding) := hengine
  have hjobs : z.carry.jobs = x.carry.jobs.filter fun j => j.window ≠ w := by
    rcases hengine with ⟨hnone, hcarry, -⟩ | ⟨-, hcarry, -⟩
    · rw [hcarry]
      refine (List.filter_eq_self.mpr fun j hj => ?_).symm
      have := List.find?_eq_none.mp hnone j hj
      simpa using this
    · rw [hcarry]; exact Engine.cancel_jobs
  have hheld : ∀ p, (ws.any fun v => (z.port p).heldFor v) = true ∨ (x.port p).heldFor w = true ↔
      ((w :: ws).any fun v => (x.port p).heldFor v) = true := fun p => by
    rw [hport, List.any_cons, Bool.or_eq_true]
    by_cases hp : (x.port p).heldFor w = true
    · simp [hp]
    · simp [hp]
  have hmem : ∀ v, v ∈ ws → v ≠ w := fun v hv hvw => hw (hvw ▸ hv)
  refine ⟨fun v => ?_, fun p => ?_, fun p => ?_, ?_, fun hx => h.hasJobs ?_, ?_, ?_⟩
  · rw [h.win v]
    by_cases hv : v = w
    · subst hv
      rw [if_neg hw, if_pos (List.mem_cons_self ..), hself]
    · rw [hne v hv]
      simp only [List.mem_cons, hv, false_or]
  · rw [h.port p]
    by_cases hp : (x.port p).heldFor w = true
    · have hz : z.port p = { x.port p with hand := .none } := (hport p).trans (if_pos hp)
      rw [hz, if_pos ((hheld p).mp (.inr hp))]
      split <;> rfl
    · have hz : z.port p = x.port p := (hport p).trans (if_neg hp)
      rw [hz]
      simp only [List.any_cons, hp, Bool.false_or]
  · rw [h.answers p, hanswers, List.filter_append, List.append_assoc, Port.filter_answers]
    refine congrArg _ ?_
    by_cases hp : (x.port p).heldFor w = true
    · have hz : z.port p = { x.port p with hand := .none } := (hport p).trans (if_pos hp)
      rw [if_pos hp, if_pos ((hheld p).mp (.inr hp)), hz]
      simp [PortUnit.heldFor_none]
    · have hz : z.port p = x.port p := (hport p).trans (if_neg hp)
      rw [if_neg hp, hz, List.nil_append]
      simp only [List.any_cons, hp, Bool.false_or]
  · rw [h.jobs, hjobs, List.filter_filter]
    refine List.filter_congr fun j _ => ?_
    simp only [List.mem_cons, not_or, Bool.decide_and, Bool.and_comm]
  · rcases hengine with ⟨-, hcarry, -⟩ | ⟨-, hcarry, -⟩
    · rw [hcarry]; exact hx
    · rw [hcarry]; exact hx.cancel
  · have hjob := Engine.job?_of_jobs hjobs
    have hrest : ∀ o : Option Window, (o.any fun v => decide (v ∈ ws) && (z.carry.job? v).isSome) =
        o.any fun v => decide (v ∈ ws) && (x.carry.job? v).isSome := fun o => by
      cases o with
      | none => rfl
      | some v =>
        by_cases hv : v ∈ ws
        · simp only [Option.any_some, hjob, if_neg (hmem v hv)]
        · simp only [Option.any_some, hv, decide_false, Bool.false_and]
    rw [h.outstanding]
    simp only [hrest]
    rcases hengine with ⟨hnone, -, hout⟩ | ⟨hsome, -, hout⟩
    · rw [hout]
      refine List.map_congr_left fun e _ => if_congr (and_congr_right fun _ => ?_) rfl rfl
      cases e.mem.window with
      | none => rfl
      | some v =>
        by_cases hv : v = w
        · subst hv
          simp [hnone]
        · simp [hv]
    · have hsome' : (x.carry.job? w).isSome = true := Option.isSome_iff_ne_none.mpr hsome
      rw [hout, Exchange.afterCancel, List.map_map]
      refine List.map_congr_left fun e _ => ?_
      simp only [Function.comp]
      by_cases hcarry : e.mem.origin = .carry
      · cases hwin : e.mem.window with
        | none => simp [hcarry, hwin]
        | some v =>
          by_cases hv : v = w
          · subst hv
            simp [hcarry, hwin, hsome']
          · simp [hcarry, hwin, hv]
      · simp [hcarry]
  · rw [h.raised, hraised, List.append_assoc, List.flatMap_cons]
    refine congrArg _ (congrArg _ (List.flatMap_congr fun v hv => ?_))
    rw [hne v (hmem v hv)]

theorem Exchange.foldl_disableWindow (now : Word) (cause : StateCause) (hws : ws.Nodup) (x : Exchange) :
    x.AllDisabled (ws.foldl (fun y w => y.disableWindow now w cause) x) now cause ws := by
  induction ws generalizing x with
  | nil => exact .refl x now cause
  | cons w ws ih =>
    obtain ⟨hw, hrest⟩ := List.nodup_cons.mp hws
    exact .cons hw (ih hrest _)

end

/-! ### The commands -/

section
variable {s : State} {f : FrameState} {window : Byte} {w : Window} (hs : s.Quiet) (ha : s.awaits f)
  (hw : window.toNat = Window.number w)
include hs ha hw

/-- DRAIN of an ACTIVE window that goes on to DISABLED: from `x`, the part once a WAITING writer has been refused. -/
theorem State.exec_drain_met {x y : Exchange} {c d : Context} {records : List EventRecord}
    (hl : (s.exch.win w).life = .live .active c)
    (hy : (s.begin.exch.modWin w fun u => { u with life := .live .draining c }).refuseWaiting s.time.ticks w = y)
    (hx : y = { x.modWin w (fun u => { u with life := .live .draining d }) with raised := records })
    (hwin : x.win w = s.exch.win w) (hlinks : ∀ p, (x.port p).link = (s.exch.port p).link)
    (hmet : d.DrainMet (s.exch.win w).geom.delivery) :
    ∃ z events choices, exec (.drain window) s = .next { s.begin with
        exch := z, events := events, choices := choices,
        mgmt := { s.mgmt with frame := f.reply 0x11 [window] [0x00] .nothing } } ∧
      x.BecomesDisabled z w ∧ s.Offers (records ++ (s.exch.win w).disableRecords s.time.ticks w .drained) events := by
  have hself : y.win w = { s.exch.win w with life := .live .draining d } := by
    rw [hx, ← hwin]; exact x.win_modWin_self w fun u => { u with life := .live .draining d }
  have hdrain : s.begin.exch.drainWindow s.time.ticks w c = y.disableWindow s.time.ticks w .drained :=
    Exchange.drainWindow_of_met hy (congrArg WindowUnit.life hself) (by rw [hself]; exact hmet)
  obtain ⟨hdisabled, hraised⟩ := y.disableWindow_eq s.time.ticks w .drained
  have hact : s.begin.drainWindow window = ({ s.begin with exch := y.disableWindow s.time.ticks w .drained }, { status := .ok }) :=
    (State.drainWindow_active (s := s.begin) hw hl).trans
      (congrArg (fun z => ({ s.begin with exch := z }, ({ status := .ok } : Reply))) hdrain)
  obtain ⟨events, choices, hexec, hoffers⟩ := State.exec_drain hs ha (fun p =>
    (Exchange.disableWindow_link y _ w _ p).trans (by rw [hx]; exact hlinks p)) hact
  refine ⟨_, events, choices, hexec, ?_, ?_⟩
  · rw [hx] at hdisabled
    rw [hx]
    exact hdisabled.of_life
  · rw [hraised, hself, WindowUnit.disableRecords_life, hx] at hoffers
    exact hoffers

/-- DISABLE of a window that is not DISABLED. -/
theorem State.exec_disable_live (hlive : (s.exch.win w).life ≠ .disabled) :
    ∃ y events choices, exec (.disable window) s = .next { s.begin with
        exch := y, events := events, choices := choices,
        mgmt := { s.mgmt with frame := f.reply 0x12 [window] [0x00] .nothing } } ∧
      s.begin.exch.BecomesDisabled y w ∧ s.Offers ((s.exch.win w).disableRecords s.time.ticks w .disable) events := by
  obtain ⟨hdisabled, hraised⟩ := s.begin.exch.disableWindow_eq s.time.ticks w .disable
  obtain ⟨events, choices, hexec, hoffers⟩ := State.exec_disable hs ha (s.begin.exch.disableWindow_link _ w _)
    (State.disableWindow_live (s := s.begin) hw hlive)
  refine ⟨_, events, choices, hexec, hdisabled, ?_⟩
  have hbefore : s.begin.exch.raised = [] := hs.1
  have hrecords : (s.begin.exch.disableWindow s.time.ticks w .disable).raised =
      (s.exch.win w).disableRecords s.time.ticks w .disable := by rw [hraised, hbefore]; rfl
  exact hrecords ▸ hoffers

end

/-- RESTART in a frame that awaits a command. -/
theorem State.exec_restart {s : State} {f : FrameState} (hs : s.Quiet) (ha : s.awaits f) {z : Exchange}
    (hlinks : ∀ p, (z.port p).link = (s.exch.port p).link) (hact : s.begin.exch.restart s.time.ticks = z) :
    ∃ events choices, exec .restart s = .next { s.begin with
        exch := { z with raised := [] }, events := events, choices := choices,
        mgmt := { frame := f.reply 0x30 [] [0x00] .nothing, snapshot := none } } ∧
      s.Offers z.raised events := by
  have hrestart : s.begin.restart = ({ s.begin with exch := z, mgmt := { s.mgmt with snapshot := none } }, { status := .ok }) := by
    rw [← hact]; rfl
  have hevent := State.event_code ha (code := 0x30) (c := .restart) rfl fun g => congrArg g.take hrestart
  obtain ⟨events, choices, hfinish, hoffers⟩ := hs.finish_flush (t := { s.begin with
    exch := z, mgmt := { frame := f.reply 0x30 [] [0x00] .nothing, snapshot := none } }) hlinks
  exact ⟨events, choices, congrArg Host.Outcome.next (hevent.trans hfinish), hoffers⟩

/-- The windows that are not DISABLED, by a test on the part. -/
theorem Exchange.mem_liveWindows (x : Exchange) (w : Window) :
    w ∈ x.liveWindows ↔ decide ((x.win w).life ≠ .disabled) = true := by
  simp [Exchange.liveWindows, Window.mem_all]

/-- The context with the writer binding at NO_SLOT, and the rest of it kept (R75). -/
def Context.writerAtNoSlot (c : Context) : Context := { c with writer := { c.writer with state := .noSlot } }

/-- The writer of a window that begins to drain is refused, and its binding is at NO_SLOT. -/
theorem Exchange.refuseWaiting_draining {x : Exchange} {w : Window} {c : Context} {h : Request} {t : Timer}
    (hc : c.writer.state = .waiting)
    (hheld : (x.port (x.win w).geom.writer).hand = .held { req := h, window := w, reason := .slot, stall := t }) (now : Word) :
    (x.modWin w fun u => { u with life := .live .draining c }).refuseWaiting now w =
      ((x.answer (x.win w).geom.writer .error).modWin w fun u => { u with life := .live .draining c.writerAtNoSlot }).raise
        { EventRecord.plain now (.writerRefused .draining) with
          window := some w, port := some (x.win w).geom.writer, detail := h.addr } := by
  have hself := x.win_modWin_self w fun u => { u with life := .live .draining c }
  have hctx := Exchange.ctx?_of_live _ w (congrArg WindowUnit.life hself)
  have hgeom := congrArg WindowUnit.geom hself
  have hrequest : ((x.modWin w fun u => { u with life := .live .draining c }).port
      ((x.modWin w fun u => { u with life := .live .draining c }).win w).geom.writer).heldRequest w .slot = some h := by
    rw [hgeom]
    exact PortUnit.heldRequest_of _ w .slot h t hheld
  rw [Exchange.refuseWaiting_of_waiting hctx hc hrequest now, hgeom]
  exact congrArg (fun y => Exchange.raise y _)
    ((x.answer (x.win w).geom.writer .error).modCtx_setLife w .draining c fun c => c.modWriter fun b => { b with state := .noSlot })

/-- Settles O57: the three commands, by the state of the window and by what is held for it. -/
theorem windowsAreDisabled : Obligations.WindowsAreDisabled := by
  intro s f hs ha drainReply disableReply
  have hraised : s.begin.exch.raised = [] := hs.1
  refine ⟨fun window h => ⟨State.exec_drain_same hs ha (State.drainWindow_unnamed h),
    State.exec_disable_same hs ha (State.disableWindow_unnamed h)⟩, fun window w hw => ⟨fun hmode => ?_, fun c hl hwriter => ?_,
    fun c h t hl hwriter hheld => ?_, fun hdisabled => ?_, fun hlive => ?_⟩, ?_⟩
  · exact State.exec_drain_same hs ha (State.drainWindow_badState (s := s.begin) hw hmode)
  · have hself := s.begin.exch.win_modWin_self w fun u => { u with life := .live .draining c }
    have hy := Exchange.refuseWaiting_of_not_waiting (Exchange.ctx?_of_live _ w (congrArg WindowUnit.life hself)) hwriter
      s.time.ticks
    refine ⟨fun hnot => ?_, fun hmet => ?_⟩
    · have hdrain := Exchange.drainWindow_of_not_met hy (congrArg WindowUnit.life hself) (by rw [hself]; exact hnot)
      have hact : s.begin.drainWindow window = _ := State.drainWindow_active (s := s.begin) hw hl
      rw [show s.begin.exch.drainWindow s.begin.time.ticks w c = _ from hdrain] at hact
      exact congrArg Host.Outcome.next ((State.event_one ha (code := 0x11) (c := .drain) rfl (fun _ _ => rfl)
        (fun fr a => s.begin.setFrame_drainWindow fr a) hact).trans
        (hs.settled.finish_raise (y := s.begin.exch.modWin w fun u => { u with life := .live .draining c }) rfl rfl rfl rfl))
    · exact State.exec_drain_met hs ha hw (x := s.begin.exch) (records := []) hl hy
        (by rw [← hraised]; rfl) rfl (fun _ => rfl) hmet
  · intro p refused answered
    have hy : (s.begin.exch.modWin w fun u => { u with life := .live .draining c }).refuseWaiting s.time.ticks w =
        { answered.modWin w (fun u => { u with life := .live .draining c.writerAtNoSlot })
          with raised := [refused] } :=
      (Exchange.refuseWaiting_draining (x := s.begin.exch) hwriter hheld s.time.ticks).trans (congrArg
        (fun l : List EventRecord => ({ answered.modWin w (fun u => { u with life := .live .draining c.writerAtNoSlot }) with raised := l ++ [refused] } : Exchange)) hraised)
    have hlinks : ∀ q, (answered.port q).link = (s.exch.port q).link := fun q => by
      show ((s.begin.exch.setHand p .none).port q).link = _
      by_cases hq : q = p
      · subst hq; simp
      · simp [hq]
    refine ⟨fun hnot => ?_, fun hmet => ?_⟩
    · have hself := answered.win_modWin_self w fun u => { u with life := .live .draining c.writerAtNoSlot }
      have hdrain := Exchange.drainWindow_of_not_met hy (congrArg WindowUnit.life hself)
        (by exact (congrArg WindowUnit.geom hself) ▸ hnot)
      have hact : s.begin.drainWindow window = _ := State.drainWindow_active (s := s.begin) hw hl
      rw [show s.begin.exch.drainWindow s.begin.time.ticks w c = _ from hdrain] at hact
      have hevent := fun hlink => State.exec_drain hs ha hlink hact
      obtain ⟨events, choices, hexec, hoffers⟩ := hevent hlinks
      refine ⟨events, choices, hexec.trans (congrArg (fun l : List EventRecord => Host.Outcome.next { s.begin with
        exch := { answered.modWin w (fun u => { u with life := .live .draining c.writerAtNoSlot }) with raised := l },
        events := events, choices := choices, mgmt := drainReply [0x00] window }) hraised.symm), hoffers⟩
    · exact State.exec_drain_met hs ha hw (x := answered) (records := [refused]) hl hy rfl rfl hlinks hmet
  · exact State.exec_disable_same hs ha (State.disableWindow_disabled (s := s.begin) hw hdisabled)
  · exact State.exec_disable_live hs ha hw hlive
  · intro live ends
    have hnodup : s.begin.exch.liveWindows.Nodup := List.Nodup.filter _ (by decide)
    have hmem : ∀ w, w ∈ s.begin.exch.liveWindows ↔ live w = true := s.begin.exch.mem_liveWindows
    have hall := Exchange.foldl_disableWindow s.time.ticks .restart hnodup s.begin.exch
    have hends : ∀ p, (s.begin.exch.liveWindows.any fun w => (s.begin.exch.port p).heldFor w) = ends p := fun p =>
      List.any_filter
    obtain ⟨events, choices, hexec, hoffers⟩ := State.exec_restart hs ha (z := s.begin.exch.restart s.time.ticks) (fun p => by
      refine (congrArg PortUnit.link (hall.port p)).trans ?_
      split <;> rfl) rfl
    refine ⟨_, events, choices, hexec, fun w => ?_, fun p => ?_, fun p => ?_, fun w hw => ?_, fun hlive horder hcurrent => ?_, ?_,
      rfl, ?_⟩
    · exact (hall.win w).trans (if_congr (hmem w) rfl rfl)
    · exact (hall.port p).trans (by rw [hends]; rfl)
    · exact (hall.answers p).trans (by rw [hends]; rfl)
    · refine List.find?_eq_none.mpr fun j hj hjw => ?_
      have hjobs := hall.jobs ▸ hj
      have hnot := of_decide_eq_true (List.mem_filter.mp hjobs).2
      exact hnot ((hmem _).mpr ((of_decide_eq_true hjw) ▸ hw))
    · have hjobs := hall.jobs.trans (List.filter_eq_nil_iff.mpr fun j hj hnot =>
        of_decide_eq_true hnot ((hmem _).mpr (hlive j hj)))
      exact ⟨hjobs, (hall.hasJobs ⟨horder, hcurrent⟩).empty hjobs⟩
    · have hdec : ∀ w, decide (w ∈ s.begin.exch.liveWindows) = live w := fun w =>
        Bool.eq_iff_iff.mpr (decide_eq_true_iff.trans (hmem w))
      refine hall.outstanding.trans ?_
      simp only [hdec]
      rfl
    · have hrecords : (s.begin.exch.restart s.time.ticks).raised =
          ((Window.all.filter live).flatMap fun w => (s.exch.win w).disableRecords s.time.ticks w .restart) ++
            [{ EventRecord.plain s.time.ticks .restart with detail := BitVec.ofNat 32 (Window.all.countP live) }] := by
        rw [List.countP_eq_length_filter]
        exact congrArg (· ++ _) (hall.raised.trans (by rw [hraised]; rfl))
      exact hrecords ▸ hoffers

end Sys2Proof.Machine
end

section
/-!
The memory port: responses and grants (R144 to R150). How the event of each ends, and what a completion is step by step.
-/

namespace Sys2Proof.Machine

/-! ### The end of an event with nothing on the links -/

section
variable {s t : State} (hs : s.Quiet) (hlinks : ∀ p, (t.exch.port p).link = (s.exch.port p).link)
include hs hlinks

theorem State.Quiet.finish_of_none (hraised : t.exch.raised = []) : t.finish = t :=
  State.finish_of_none t hraised (State.linkPorts_of_empty t fun p => (hlinks p).trans (hs.2 p))

theorem State.Quiet.finish_of_one {r : EventRecord} (hraised : t.exch.raised = [r]) :
    t.finish = { t with exch := { t.exch with raised := [] }, events := t.record r } :=
  State.finish_of_one t r hraised fun p => (hlinks p).trans (hs.2 p)

end

/-! ### A response (R147) -/

section
variable {s : State} {a : Response} {e : Entry} {rest : List Entry}

theorem State.unlessReset_of_deasserted (hr : s.resetAsserted = false) (f : State → State) : s.begin.unlessReset f = f s.begin :=
  if_neg (by rw [State.begin_resetAsserted, hr]; exact Bool.false_ne_true)

theorem State.exec_memoryResponse (hr : s.resetAsserted = false) (hw : a.wellFormed = true) :
    exec (.memoryResponse a) s = .next (s.begin.respond a).finish :=
  (if_pos hw).trans (congrArg (fun t : State => Host.Outcome.next t.finish) (State.unlessReset_of_deasserted hr _))

theorem State.respond_ready (hp : s.memPort.state = .ready) (ho : s.exch.outstanding = e :: rest) :
    s.respond a =
      { s with exch := ({ s.exch with outstanding := rest } : Exchange).complete s.time.ticks e (Response.result a) } := by
  simp only [State.respond, hp, ho]
  rfl

theorem State.respond_nothing (h : s.memPort.state ≠ .ready ∨ s.exch.outstanding = []) : s.respond a = s := by
  unfold State.respond
  split
  · next hp ho =>
    rcases h with h | h
    · exact absurd hp h
    · rw [h] at ho; cases ho
  · rfl

variable (hr : s.resetAsserted = false) (hs : s.Quiet) (hp : s.memPort.state = .ready) (ho : s.exch.outstanding = e :: rest)
  (hw : a.wellFormed = true)
include hr hp ho hw

theorem State.exec_response :
    exec (.memoryResponse a) s = .next ({ s.begin with
      exch := ({ s.begin.exch with outstanding := rest } : Exchange).complete s.time.ticks e (Response.result a) } : State).finish := by
  rw [State.exec_memoryResponse hr hw, State.respond_ready (s := s.begin) hp ho]
  rfl

include hs

/-- The completion of the oldest entry is what the response comes to. -/
theorem State.Quiet.reaches_of_response {z : Exchange}
    (hz : ({ s.begin.exch with outstanding := rest } : Exchange).complete s.time.ticks e (Response.result a) = z) :
    s.Reaches (.memoryResponse a) z := by
  subst hz
  refine ⟨State.exec_response hr hp ho hw, State.linkPorts_of_empty _ fun q => ?_⟩
  exact (((Exchange.list_keeps s.begin.exch rest).trans (Exchange.complete_keeps _ s.time.ticks e _).butList).ports q).link.trans
    (hs.2 q)

end

/-! ### A completion, step by step (R147, R148) -/

section
variable {x y : Exchange} {now : Word} {e : Entry} {d : Option Data} {p : Port}

/-- A completion at OKAY is the fall of the count and what the origin takes. -/
theorem Exchange.complete_okay (h : x.Falls now e y) : x.complete now e (.okay d) = y.originTakes now e (.okay d) := by
  rw [Exchange.complete, x.lowerEntry_eq now e y h]

/-- An entry of no window or of a DISABLED one has no count. -/
theorem Exchange.Falls.of_no_context (h : e.mem.window = none ∨ ∃ w, e.mem.window = some w ∧ (x.win w).life = .disabled) :
    x.Falls now e x := .inl ⟨h.imp_right .inr, rfl⟩

theorem Exchange.Falls.eq_of_no_context (hfalls : x.Falls now e y)
    (h : e.mem.window = none ∨ ∃ w, e.mem.window = some w ∧ (x.win w).life = .disabled) : y = x :=
  ((x.lowerEntry_eq now e y hfalls).symm.trans (x.lowerEntry_eq now e x (.of_no_context h)))

theorem Exchange.originTakes_port_discarded (ho : e.mem.origin = .port p) (hd : e.discarded = true) (res : Result) :
    x.originTakes now e res = x.modPort p fun u =>
      { u with hand := .none, state := if u.state = .inReset ∧ u.prst = false then .active else u.state } := by
  simp only [Exchange.originTakes, ho, hd, if_true, Exchange.endDiscarded, PortUnit.leaveReset_eq]

theorem Exchange.originTakes_carry_discarded (ho : e.mem.origin = .carry) (hd : e.discarded = true) (res : Result) :
    x.originTakes now e res = x := by
  simp only [Exchange.originTakes, ho, hd, if_true]

theorem Exchange.ctx?_of_disabled {w : Window} (h : (x.win w).life = .disabled) : x.ctx? w = none := by
  simp only [Exchange.ctx?, WindowUnit.ctx?, h]

/-- A front-end's request of no window, or of a DISABLED one, is answered with the result (R112). -/
theorem Exchange.originTakes_no_context (ho : e.mem.origin = .port p) (hd : e.discarded = false)
    (h : e.mem.window = none ∨ ∃ w, e.mem.window = some w ∧ (x.win w).life = .disabled) (res : Result) :
    x.originTakes now e res = x.answer p res.response := by
  have hctx : ∀ w, e.mem.window = some w → x.ctx? w = none := fun w hw => by
    rcases h with h | ⟨v, hv, hlife⟩
    · rw [h] at hw; cases hw
    · rw [hv] at hw; cases hw; exact Exchange.ctx?_of_disabled hlife
  simp only [Exchange.originTakes, ho, hd, Bool.false_eq_true, if_false]
  split
  · next w k _ hw _ => simp only [Exchange.writerCompleted, hctx w hw]
  · next w k _ hw _ => simp only [Exchange.writerCompleted, hctx w hw]
  · next w k _ hw _ => simp only [Exchange.readerCompleted, hctx w hw, Option.bind_none]
  · rfl

/-- A pass-through request completes with its answer (R131, R133). -/
theorem Exchange.complete_passThrough_okay {q : Request} {t : Timer} :
    x.complete now
        { mem := { request := q, origin := .port p, kind := .passThrough, window := none, slot := none }, discarded := false, timer := t }
        (.okay d) = x.answer p (.okay d) :=
  (Exchange.complete_okay (.of_no_context (.inl rfl))).trans (Exchange.originTakes_no_context rfl rfl (.inl rfl) _)

/-- At ERROR it is recorded as well (R148). -/
theorem Exchange.complete_passThrough_error {q : Request} {t : Timer} (cause : ErrorCause) :
    x.complete now
        { mem := { request := q, origin := .port p, kind := .passThrough, window := none, slot := none }, discarded := false, timer := t }
        (.error cause) =
      (x.answer p .error).raise { EventRecord.plain now (.memoryError cause) with port := some p, detail := q.addr } := rfl

/-- A discarded one is answered to nobody (R138). -/
theorem Exchange.complete_passThrough_discarded {q : Request} {t : Timer} :
    x.complete now
        { mem := { request := q, origin := .port p, kind := .passThrough, window := none, slot := none }, discarded := true, timer := t }
        (.okay d) = x.modPort p fun u =>
          { u with hand := .none, state := if u.state = .inReset ∧ u.prst = false then .active else u.state } :=
  (Exchange.complete_okay (.of_no_context (.inl rfl))).trans (Exchange.originTakes_port_discarded rfl rfl _)

end

/-! ### A response that frees a port with a request on its link (R120, R134, R138) -/

theorem Exchange.modPort_modPort (x : Exchange) (p : Port) (f g : PortUnit → PortUnit) :
    (x.modPort p f).modPort p g = x.modPort p fun u => g (f u) := by
  simp only [Exchange.modPort, PerPort.get_set_self, PerPort.set_set]

/-- The port takes the first request of its link in the event that frees it. -/
theorem State.Settled.finish_of_freed {s : State} {p : Port} {r : Request} {later : List Request} {f : PortUnit → PortUnit}
    (hs : s.Settled) (hr : s.resetAsserted = false) (hstate : (f (s.exch.port p)).state = .active)
    (hhand : (f (s.exch.port p)).hand = .none) (hlink : (f (s.exch.port p)).link = r :: later) (rest : List Entry)
    (answers : List (Port × Response)) :
    ({ s.begin with exch := { s.begin.exch.modPort p f with outstanding := rest, answers := answers } } : State).finish =
      ({ s.begin with exch := Exchange.take { (s.begin.exch.modPort p fun u => { f u with link := later }) with
          outstanding := rest, answers := answers } s.time.ticks p r } : State).finish := by
  obtain ⟨hnone, hlinks⟩ := hs
  let t : State := { s.begin with exch := { s.begin.exch.modPort p f with outstanding := rest, answers := answers } }
  have hself : t.exch.port p = f (s.exch.port p) := s.begin.exch.port_modPort_self p f
  have hother : ∀ q, q ≠ p → t.exch.port q = s.exch.port q := fun q hq => s.begin.exch.port_modPort_ne p f hq
  have hmem := fun q => t.mem_linkPorts hr q
  have hsingle : t.linkPorts = [p] := by
    refine t.linkPorts_single p ((hmem p).mpr ?_) fun q hq hin => ?_
    · rw [hself, hlink]
      exact ⟨⟨hstate, hhand⟩, List.cons_ne_nil _ _⟩
    · have hbefore : q ∈ s.linkPorts := (s.mem_linkPorts hr q).mpr (hother q hq ▸ (hmem q).mp hin)
      rw [hlinks] at hbefore
      cases hbefore
  have hexch : t.exch.modPort p (fun u => { u with link := later }) =
      { (s.begin.exch.modPort p fun u => { f u with link := later }) with outstanding := rest, answers := answers } :=
    congrArg (fun x : Exchange => ({ x with outstanding := rest, answers := answers } : Exchange))
      (s.begin.exch.modPort_modPort p f fun u => { u with link := later })
  have hfinish := t.finish_of_link p r later hnone hsingle ((congrArg PortUnit.link hself).trans hlink)
  rw [hexch] at hfinish
  exact hfinish

/-- Settles O42: the oldest entry completes with the response. -/
theorem responseResult : Obligations.ResponseResult := by
  refine ⟨fun s hr hs => ⟨fun resp hw hnothing => ?_, fun p q t dis rest hp ho => ⟨fun d hdis hw => ?_, fun hdis => ?_,
    fun d hdis hw => ?_⟩, fun e rest y hp ho => ⟨fun hfalls d hw => ⟨fun p horigin hd => ?_, fun horigin hd => ?_,
    fun p horigin hd hwindow => ?_⟩, fun hfails => ?_⟩⟩, fun s p q r t dis rest later d hr hs hp ho hlink hw => ⟨?_, ?_⟩⟩
  · rw [State.exec_memoryResponse hr hw, State.respond_nothing (s := s.begin) hnothing, hs.settled.finish_begin]
  · subst hdis
    exact (hs.reaches_of_response hr hp ho hw Exchange.complete_passThrough_okay).next_of_none hs.1
  · subst hdis
    exact (hs.reaches_of_response (a := .error) hr hp ho rfl (Exchange.complete_passThrough_error _)).next_of_raise hs.1
  · subst hdis
    exact (hs.reaches_of_response hr hp ho hw Exchange.complete_passThrough_discarded).next_of_none hs.1
  · exact (hs.reaches_of_response hr hp ho hw ((Exchange.complete_okay hfalls).trans
      (Exchange.originTakes_port_discarded horigin hd _))).endsIn
  · exact (hs.reaches_of_response hr hp ho hw ((Exchange.complete_okay hfalls).trans
      (Exchange.originTakes_carry_discarded horigin hd _))).endsIn
  · obtain rfl := hfalls.eq_of_no_context hwindow
    exact (hs.reaches_of_response hr hp ho hw ((Exchange.complete_okay hfalls).trans
      (Exchange.originTakes_no_context
        (x := { s.begin.exch with outstanding := rest }) horigin hd hwindow _))).endsIn
  · exact (hs.reaches_of_response (a := .error) hr hp ho rfl (Exchange.complete_eq _ _ e .response y hfails)).endsIn
  · intro hdis hstate
    subst hdis
    rw [State.exec_response hr hp ho hw]
    refine congrArg Host.Outcome.next (Eq.trans (congrArg (fun x => ({ s.begin with exch := x } : State).finish)
      Exchange.complete_passThrough_okay) ?_)
    exact hs.finish_of_freed hr (f := fun u => { u with hand := .none }) hstate rfl hlink rest [(p, .okay d)]
  · intro hdis hstate hprst
    subst hdis
    rw [State.exec_response hr hp ho hw]
    refine congrArg Host.Outcome.next (Eq.trans (congrArg (fun x => ({ s.begin with exch := x } : State).finish)
      Exchange.complete_passThrough_discarded) ?_)
    have hleaves : (if (s.exch.port p).state = .inReset ∧ (s.exch.port p).prst = false then PortState.active
        else (s.exch.port p).state) = .active := if_pos ⟨hstate, hprst⟩
    refine (hs.finish_of_freed hr (f := fun u =>
      { u with hand := .none, state := if u.state = .inReset ∧ u.prst = false then .active else u.state })
      hleaves rfl hlink rest []).trans ?_
    have hport : (s.begin.exch.modPort p fun u => { u with
          hand := .none, state := if u.state = .inReset ∧ u.prst = false then .active else u.state, link := later }) =
        s.begin.exch.modPort p fun u => { u with hand := .none, state := .active, link := later } :=
      congrArg (fun v => ({ s.begin.exch with ports := s.exch.ports.set p { s.exch.port p with
        hand := .none, state := v, link := later } } : Exchange)) hleaves
    exact congrArg (fun x : Exchange => ({ s.begin with
      exch := Exchange.take { x with outstanding := rest } s.time.ticks p r } : State).finish) hport

end Sys2Proof.Machine
end

section
/-!
ARBITER_GRANT (R144, R146, R150): which client is granted, what the grant does, and how its event ends.
-/

namespace Sys2Proof.Machine

/-! ### The client granted (R144) -/

section
variable {pre post : List Client} {cl : Client}

theorem rotate_middle (hpre : cl ∉ pre) (hpost : cl ∉ post) : rotate (pre ++ cl :: post) cl = pre ++ post ++ [cl] := by
  have hkeep : ∀ l : List Client, cl ∉ l → l.filter (· ≠ cl) = l := fun l hl =>
    List.filter_eq_self.mpr fun d hd => decide_eq_true fun h : d = cl => hl (h ▸ hd)
  rw [rotate, List.filter_append, List.filter_cons_of_neg (by simp), hkeep pre hpre, hkeep post hpost]

theorem Exchange.firstPresenting_middle {x : Exchange} {m : MemRequest} (hpre : ∀ d, d ∈ pre → x.presented? d = none)
    (hm : x.presented? cl = some m) : x.firstPresenting (pre ++ cl :: post) = some (cl, m) := by
  have hnone : pre.findSome? (fun c => (x.presented? c).map fun m => (c, m)) = none :=
    List.findSome?_eq_none_iff.mpr fun d hd => by rw [hpre d hd]; rfl
  rw [Exchange.firstPresenting, List.findSome?_append, hnone, Option.none_or, List.findSome?_cons, hm]
  rfl

end

/-! ### Its side of the grant (R81, R83, R143, R144) -/

section
variable {x : Exchange} {m : MemRequest}

/-- A front-end's request becomes outstanding. -/
theorem Exchange.granted_port {p : Port} {r : Request} {m' : MemRequest} {b : Bool} (hp : (x.port p).hand = .presented r m' b) :
    x.granted (.port p) m = x.setHand p (.outstanding r b) := by
  have hget : (x.ports.get p).hand = .presented r m' b := hp
  simp only [Exchange.granted, Exchange.modPort, Exchange.setHand, hget]

/-- A carry request is counted in flight, and the buffer is empty once its write is issued. -/
theorem Exchange.granted_carry {w : Window} {k : SlotId} {md : LiveMode} {c : Context} {sl : Slot} (hw : m.window = some w)
    (hk : m.slot = some k) (hl : (x.win w).life = .live md c) (hsl : c.slots.get k = some sl) :
    x.granted .carry m = { x.modWin w (fun u =>
        { u with life := .live md { c with slots := c.slots.set k (some { sl with inFlight := sl.inFlight + 1 }) } }) with
      carry := { x.carry with buffer := if m.kind = .carryWrite then none else x.carry.buffer } } := by
  simp only [Exchange.granted, hw, hk, Exchange.raiseInFlight, x.modCtx_of_live w hl, c.modSlot_of k hsl]
  split <;> rfl

theorem Exchange.granted_link (cl : Client) (p : Port) : ((x.granted cl m).port p).link = (x.port p).link := by
  cases cl with
  | port q =>
    by_cases hq : p = q
    · subst hq
      simp only [Exchange.granted, Exchange.port_modPort_self]
      split <;> rfl
    · simp only [Exchange.granted, Exchange.port_modPort_ne _ _ _ hq]
  | carry =>
    simp only [Exchange.granted]
    repeat' split
    all_goals rfl

theorem Exchange.granted_raised (cl : Client) : (x.granted cl m).raised = x.raised := by
  cases cl with
  | port q => rfl
  | carry =>
    simp only [Exchange.granted]
    repeat' split
    all_goals rfl

/-- A pass-through request that is granted outside READY. -/
theorem Exchange.failGrant_passThrough {p : Port} {r : Request} {m' : MemRequest} {b : Bool}
    (hp : (x.port p).hand = .presented r m' b) (now : Word) :
    x.failGrant now (.port p) { request := r, origin := .port p, kind := .passThrough, window := none, slot := none } =
      (x.answer p .error).raise { EventRecord.plain now (.memoryError .faulted) with port := some p, detail := r.addr } := by
  rw [Exchange.failGrant, Exchange.granted_port hp, Exchange.complete_passThrough_error]
  refine congrArg (fun y => Exchange.raise y _) ?_
  exact congrArg (fun y : Exchange => ({ y with answers := x.answers ++ [(p, .error)] } : Exchange))
    (x.modPort_modPort p (fun u => { u with hand := .outstanding r b }) fun u => { u with hand := .none })

end

/-! ### The event (R144, R150) -/

section
variable {s : State} {pre post : List Client} {cl : Client} {m : MemRequest}

theorem State.exec_arbiterGrant (hr : s.resetAsserted = false) : exec .arbiterGrant s = .next (s.begin.grant).finish :=
  congrArg (fun t : State => Host.Outcome.next t.finish) (State.unlessReset_of_deasserted hr _)

variable (hr : s.resetAsserted = false) (hs : s.Quiet) (hrot : s.memPort.rotation = pre ++ cl :: post) (hpre : cl ∉ pre)
  (hpost : cl ∉ post) (hfirst : ∀ d, d ∈ pre → s.exch.presented? d = none) (hm : s.exch.presented? cl = some m)
include hr hs hrot hfirst hm

/-- With no room, no grant is taken. -/
theorem State.exec_grant_full (hp : s.memPort.state = .ready) (hfull : 4 ≤ s.exch.outstanding.length) :
    exec .arbiterGrant s = .next s.begin := by
  have hclient : s.begin.exch.firstPresenting s.memPort.rotation = some (cl, m) := by
    rw [hrot]; exact Exchange.firstPresenting_middle hfirst hm
  have hgrant : s.begin.grant = s.begin := by
    simp only [State.grant, State.begin_memPort, hclient, hp]
    exact if_neg (Nat.not_lt.mpr hfull)
  rw [State.exec_arbiterGrant hr, hgrant, hs.settled.finish_begin]

include hpre hpost

/-- In READY the request is issued and joins the list. -/
theorem State.exec_grant_issue (hp : s.memPort.state = .ready) (hroom : s.exch.outstanding.length < 4) {x : Exchange}
    (hx : s.begin.exch.granted cl m = x) :
    exec .arbiterGrant s = .next { s.begin with
      exch := { x with outstanding := x.outstanding ++ [{ mem := m, discarded := false, timer := .arm s.memTimeout }] },
      memPort := { s.memPort with rotation := pre ++ post ++ [cl] }, issued := [m] } := by
  subst hx
  have hclient : s.begin.exch.firstPresenting s.memPort.rotation = some (cl, m) := by
    rw [hrot]; exact Exchange.firstPresenting_middle hfirst hm
  have hgrant : s.begin.grant = { s.begin with
      exch := s.begin.exch.issue s.memTimeout cl m, memPort := { s.memPort with rotation := pre ++ post ++ [cl] }, issued := [m] } := by
    rw [← rotate_middle hpre hpost, ← hrot]
    simp only [State.grant, State.begin_memPort, hclient, hp]
    exact if_pos hroom
  rw [State.exec_arbiterGrant hr, hgrant]
  exact congrArg Host.Outcome.next
    (hs.finish_of_none (fun p => s.begin.exch.granted_link cl p) ((s.begin.exch.granted_raised cl).trans hs.1))

omit hs in
/-- Outside READY the request completes as ERROR in the event of the grant. -/
theorem State.exec_grant_fail (hp : s.memPort.state ≠ .ready) {y : Exchange}
    (hy : s.begin.exch.failGrant s.time.ticks cl m = y) :
    exec .arbiterGrant s = .next ({ s.begin with
      exch := y, memPort := { s.memPort with rotation := pre ++ post ++ [cl] } } : State).finish ∧
    ∀ p, (y.port p).link = (s.exch.port p).link := by
  have hclient : s.begin.exch.firstPresenting s.memPort.rotation = some (cl, m) := by
    rw [hrot]; exact Exchange.firstPresenting_middle hfirst hm
  have hgrant : s.begin.grant = { s.begin with exch := y, memPort := { s.memPort with rotation := pre ++ post ++ [cl] } } := by
    rw [← rotate_middle hpre hpost, ← hrot, ← hy]
    simp only [State.grant, State.begin_memPort, hclient]
    rfl
  have hkeeps := Exchange.complete_keeps (s.begin.exch.granted cl m) s.time.ticks
    { mem := m, discarded := false, timer := .stopped } (.error .faulted)
  refine ⟨by rw [State.exec_arbiterGrant hr, hgrant], fun p => ?_⟩
  rw [← hy]
  exact (hkeeps.ports p).link.trans (s.begin.exch.granted_link cl p)

/-- The records of such a completion are offered, and nothing else of the state changes. -/
theorem State.exec_grant_faulted (hp : s.memPort.state ≠ .ready) {x y : Exchange} (hx : s.begin.exch.granted cl m = x)
    (hy : x.Fails s.time.ticks { mem := m, discarded := false, timer := .stopped } .faulted y) :
    ∃ events choices, exec .arbiterGrant s = .next { s.begin with
        exch := { y with raised := [] }, memPort := { s.memPort with rotation := pre ++ post ++ [cl] },
        events := events, choices := choices } ∧ s.Offers y.raised events := by
  subst hx
  obtain ⟨hexec, hlinks⟩ := State.exec_grant_fail hr hrot hpre hpost hfirst hm hp (Exchange.complete_eq _ _ _ .faulted y hy)
  obtain ⟨events, choices, hfinish, hoffers⟩ := hs.finish_flush (t := { s.begin with
    exch := y, memPort := { s.memPort with rotation := pre ++ post ++ [cl] } }) hlinks
  exact ⟨events, choices, hexec.trans (congrArg Host.Outcome.next hfinish), hoffers⟩

end

/-- Settles O40: the grant, by the client, the state of the memory port and the room. -/
theorem grantResult : Obligations.GrantResult := by
  intro s pre post cl m hr hs hrot hpre hpost hfirst hm
  refine ⟨?_, ?_, fun hp hfull => State.exec_grant_full hr hs hrot hfirst hm hp hfull, ?_, ?_, ?_⟩
  · rintro p r b rfl hhand hp hroom
    exact State.exec_grant_issue hr hs hrot hpre hpost hfirst hm hp hroom (Exchange.granted_port (x := s.begin.exch) hhand)
  · rintro w k md c sl rfl hw hk hl hsl hp hroom
    exact State.exec_grant_issue hr hs hrot hpre hpost hfirst hm hp hroom
      (Exchange.granted_carry (x := s.begin.exch) hw hk hl hsl)
  · rintro p r b rfl hhand rfl hp
    obtain ⟨hexec, hlinks⟩ := State.exec_grant_fail hr hrot hpre hpost hfirst hm hp
      (Exchange.failGrant_passThrough (x := s.begin.exch) hhand s.time.ticks)
    have hraised : s.begin.exch.raised = [] := hs.1
    rw [hexec, hs.finish_of_one hlinks (congrArg (· ++ [_]) hraised), ← hraised]
    rfl
  · rintro p r b y rfl hhand hp hy
    exact State.exec_grant_faulted hr hs hrot hpre hpost hfirst hm hp (Exchange.granted_port (x := s.begin.exch) hhand) hy
  · rintro w k md c sl y rfl hw hk hl hsl hp hy
    exact State.exec_grant_faulted hr hs hrot hpre hpost hfirst hm hp
      (Exchange.granted_carry (x := s.begin.exch) hw hk hl hsl) hy

end Sys2Proof.Machine
end

section
/-!
The completion of a writer's access (R26, R29, R38, R39, R147): bytes counted, FAULT, the fill timer, an automatic commit.
-/

namespace Sys2Proof.Machine

theorem Word.satAdd_eq (a : Word) (n : Nat) :
    a.satAdd n = if a.toNat + n ≤ 0xFFFFFFFF then BitVec.ofNat 32 (a.toNat + n) else 0xFFFFFFFF := rfl

/-- A bound is passed by the sum kept at the top exactly where the sum itself passes it. -/
theorem Word.le_satAdd_iff (a : Word) (n : Nat) (bound : Word) : bound.toNat ≤ (a.satAdd n).toNat ↔ bound.toNat ≤ a.toNat + n := by
  have hbound := bound.isLt
  rw [Word.satAdd_eq]
  split
  · next h => rw [BitVec.toNat_ofNat, Nat.mod_eq_of_lt (by omega)]
  · next h =>
    have htop : (0xFFFFFFFF : Word).toNat = 4294967295 := rfl
    rw [htop]
    omega

/-! ### The steps of the completion -/

section
variable {x : Exchange} {now : Word} {e : Entry} {p : Port} {r : Request} {held : Bool} {w : Window} {k : SlotId} {m : LiveMode}
  {c : Context} {sl : Slot}

/-- The exchange once the count of slot k, of record sl, has fallen. -/
def Exchange.lowered (x : Exchange) (w : Window) (m : LiveMode) (c : Context) (k : SlotId) (sl : Slot) : Exchange :=
  x.modWin w fun u => { u with
    life := .live m { c with slots := c.slots.set k (some { sl with inFlight := sl.inFlight - 1 }) } }

/-- The context then. -/
def Context.lowered (c : Context) (k : SlotId) (sl : Slot) : Context :=
  { c with slots := c.slots.set k (some { sl with inFlight := sl.inFlight - 1 }) }

theorem Exchange.lowered_win (x : Exchange) (w : Window) (m : LiveMode) (c : Context) (k : SlotId) (sl : Slot) :
    (x.lowered w m c k sl).win w = { x.win w with life := .live m (c.lowered k sl) } :=
  x.win_modWin_self w fun u => { u with life := .live m (c.lowered k sl) }

theorem Exchange.lowered_life : ((x.lowered w m c k sl).win w).life = .live m (c.lowered k sl) :=
  congrArg WindowUnit.life (x.lowered_win w m c k sl)

/-- A change of the window after that is one change. -/
theorem Exchange.lowered_modWin (f : WindowUnit → WindowUnit) :
    (x.lowered w m c k sl).modWin w f = x.modWin w fun u => f { u with life := .live m (c.lowered k sl) } :=
  x.modWin_modWin w _ f

theorem Exchange.lowered_raise_modWin (f : WindowUnit → WindowUnit) (rec : EventRecord) :
    ((x.lowered w m c k sl).raise rec).modWin w f =
      (x.modWin w fun u => f { u with life := .live m (c.lowered k sl) }).raise rec :=
  congrArg (fun y => Exchange.raise y rec) (x.lowered_modWin f)

theorem Context.lowered_slot : (c.lowered k sl).slots.get k = some { sl with inFlight := sl.inFlight - 1 } :=
  PerSlot.get_set_self ..

/-- The count falls, and the slot, which is not RELEASING, stays as it is otherwise (R10, R147). -/
theorem Exchange.Falls.lowered (hw : e.mem.window = some w) (hk : e.mem.slot = some k) (hl : (x.win w).life = .live m c)
    (hsl : c.slots.get k = some sl) (hs : sl.state ≠ .releasing) (now : Word) : x.Falls now e (x.lowered w m c k sl) :=
  .inr ⟨w, k, m, c, sl, hw, hk, hl, hsl, .inl ⟨fun h => hs h.1, rfl⟩⟩

theorem Exchange.originTakes_writer (ho : e.mem.origin = .port p) (hd : e.discarded = false)
    (hkind : e.mem.kind = .writerWrite ∨ e.mem.kind = .writerRead) (hw : e.mem.window = some w) (hk : e.mem.slot = some k)
    (res : Result) : x.originTakes now e res = x.writerCompleted now w p k res := by
  rcases hkind with hkind | hkind <;>
    simp only [Exchange.originTakes, ho, hd, Bool.false_eq_true, if_false, hkind, hw, hk]

/-- An access whose frame is no longer FILLING is answered, and adds nothing (R38). -/
theorem Exchange.writerCompleted_not_filling (h : ∀ m c, (x.win w).life = .live m c → c.writer.state ≠ .filling k) (res : Result) :
    x.writerCompleted now w p k res = x.answer p res.response := by
  unfold Exchange.writerCompleted
  split
  · next c r hc hr =>
    have hnot : c.isFilling k = false := by
      unfold Exchange.ctx? WindowUnit.ctx? at hc
      split at hc
      · cases hc
      · next m d hl => cases hc; exact decide_eq_false (h m _ hl)
    simp only [hnot, Bool.false_and, Bool.false_eq_true, if_false, Exchange.answerWriter, hc, Option.any_some, Bool.and_false]
  · rfl

variable (hl : (x.win w).life = .live m c) (hf : c.writer.state = .filling k) (hh : (x.port p).hand = .outstanding r held)
include hl hf hh

/-- A read is answered with its data. -/
theorem Exchange.writerCompleted_read (hread : Access.isWrite r.access = false) (res : Result) :
    x.writerCompleted now w p k res = (x.modWin w fun u => { u with life := .live m { c with writer := { c.writer with
      fillTimer := if held then .arm u.eff.timersA.tFill else c.writer.fillTimer } } }).answer p res.response := by
  simp only [Exchange.writerCompleted, x.ctx?_of_live w hl, hh, Hand.request?, hread, Bool.and_false, Bool.false_eq_true, if_false]
  exact x.answerWriter_of w p k hl hf hh _

/-- A write at OKAY is counted. -/
theorem Exchange.writerCompleted_write (hwrite : Access.isWrite r.access = true) (d : Option Data) :
    x.writerCompleted now w p k (.okay d) = x.writeDone now w p k c r := by
  simp only [Exchange.writerCompleted, x.ctx?_of_live w hl, hh, Hand.request?, hwrite, Context.isFilling, hf, decide_true,
    Bool.and_self, if_true]

/-- A write at ERROR gives its frame FAULT. -/
theorem Exchange.writerCompleted_error (hwrite : Access.isWrite r.access = true) (hk : c.slots.get k = some sl)
    (cause : ErrorCause) :
    x.writerCompleted now w p k (.error cause) = (x.modWin w fun u => { u with life := .live m { c with
      slots := c.slots.set k (some { sl with flags := { sl.flags with fault := true } }),
      writer := { c.writer with fillTimer := if held then .arm u.eff.timersA.tFill else c.writer.fillTimer } } }).answer p .error := by
  have hfault : x.markFault w k = x.modWin w fun u => { u with life := .live m { c with
      slots := c.slots.set k (some { sl with flags := { sl.flags with fault := true } }) } } := by
    rw [Exchange.markFault, x.modCtx_of_live w hl, c.modSlot_of k hk]
  have hcompleted : x.writerCompleted now w p k (.error cause) = (x.markFault w k).answerWriter w p k .error := by
    simp only [Exchange.writerCompleted, x.ctx?_of_live w hl, hh, Hand.request?, hwrite, Context.isFilling, hf, decide_true,
      Bool.and_self, if_true]
  have hlife := congrArg WindowUnit.life (x.win_modWin_self w fun u => { u with life := .live m { c with
    slots := c.slots.set k (some { sl with flags := { sl.flags with fault := true } }) } })
  rw [hcompleted, hfault, Exchange.answerWriter_of _ w p k hlife hf hh, Exchange.modWin_modWin]

/-- A write that does not complete the frame, or without AUTO_COMMIT, is answered. -/
theorem Exchange.writeDone_plain (hnot : (x.win w).eff.policy.autoCommit = false ∨
      c.writer.bytesWritten.toNat + Request.bytes r < (x.win w).geom.flen.toNat ∨
      (x.win w).geom.flen.toNat ≤ c.writer.bytesWritten.toNat) :
    x.writeDone now w p k c r = (x.modWin w fun u => { u with life := .live m { c with writer := { c.writer with
      fillTimer := if held then .arm u.eff.timersA.tFill else c.writer.fillTimer,
      bytesWritten := c.writer.bytesWritten.satAdd (Request.bytes r) } } }).answer p (.okay none) := by
  have hcross : ((x.win w).eff.policy.autoCommit && decide (c.writer.bytesWritten.toNat < (x.win w).geom.flen.toNat) &&
      decide ((x.win w).geom.flen.toNat ≤ (c.writer.bytesWritten.satAdd (Request.bytes r)).toNat)) = false := by
    simp only [Word.le_satAdd_iff, Bool.and_eq_false_iff, decide_eq_false_iff_not]
    rcases hnot with hoff | hbelow | hpast
    · exact .inl (.inl hoff)
    · exact .inr (by omega)
    · exact .inl (.inr (by omega))
  simp only [Exchange.writeDone, hcross, Bool.false_eq_true, if_false, x.modCtx_of_live w hl]
  have hlife := congrArg WindowUnit.life (x.win_modWin_self w fun u => { u with life := .live m (c.modWriter fun b =>
    { b with bytesWritten := c.writer.bytesWritten.satAdd (Request.bytes r) }) })
  rw [Exchange.answerWriter_of _ w p k hlife hf hh, Exchange.modWin_modWin]
  rfl

omit hf hh in
/-- One that completes the frame with AUTO_COMMIT on starts its commit. -/
theorem Exchange.writeDone_commits (hauto : (x.win w).eff.policy.autoCommit = true)
    (hbelow : c.writer.bytesWritten.toNat < (x.win w).geom.flen.toNat)
    (hreached : (x.win w).geom.flen.toNat ≤ c.writer.bytesWritten.toNat + Request.bytes r) :
    x.writeDone now w p k c r = (x.modWin w fun u => { u with life := .live m { c with writer := { c.writer with
      bytesWritten := c.writer.bytesWritten.satAdd (Request.bytes r) } } }).startCommit now w p k 0 true r := by
  have hcross : ((x.win w).eff.policy.autoCommit && decide (c.writer.bytesWritten.toNat < (x.win w).geom.flen.toNat) &&
      decide ((x.win w).geom.flen.toNat ≤ (c.writer.bytesWritten.satAdd (Request.bytes r)).toNat)) = true := by
    simp only [Word.le_satAdd_iff, hauto, hbelow, hreached, decide_true, Bool.and_self]
  simp only [Exchange.writeDone, hcross, if_true, x.modCtx_of_live w hl]
  rfl

end

/-- The record of an access of a front-end that is no reader's, while its window has its context. -/
theorem Exchange.failureRecord_port {x : Exchange} {e : Entry} {p : Port} {w : Window} {k : SlotId} {m : LiveMode} {c : Context}
    (ho : e.mem.origin = .port p) (hkind : e.mem.kind ≠ .readerRead) (hw : e.mem.window = some w) (hk : e.mem.slot = some k)
    (hl : (x.win w).life = .live m c) (now : Word) (cause : ErrorCause) :
    x.failureRecord now e cause = { EventRecord.plain now (.memoryError cause) with
      window := some w, port := some p, slot := some k, detail := e.mem.request.addr } := by
  simp only [Exchange.failureRecord, ho, hw, hk, hl]
  split
  · next h _ _ => exact absurd h hkind
  · rfl

/-- A completion at ERROR is the fall of the count, the record, and what the origin takes. -/
theorem Exchange.complete_error {x y : Exchange} {now : Word} {e : Entry} (h : x.Falls now e y) (cause : ErrorCause) :
    x.complete now e (.error cause) = (y.raise (x.failureRecord now e cause)).originTakes now e (.error cause) := by
  rw [Exchange.complete, x.lowerEntry_eq now e y h, ← x.failureRecord_eq now e cause]

/-- Settles O43: a writer's access completes by its kind, its result and the state of its frame. -/
theorem writerWriteCompletes : Obligations.WriterWriteCompletes := by
  intro s e rest p r held w k hr hs hp ho hd horigin hkind hw hk hh
  refine ⟨fun m c sl hl hf hsl hfilling => ?_, fun y d hfalls hnot hwf => ?_⟩
  · intro timer
    have hfalls := Exchange.Falls.lowered (x := { s.begin.exch with outstanding := rest }) hw hk hl hsl
      (by rw [hfilling]; exact nofun) s.time.ticks
    have htakes : ∀ (z : Exchange) (res : Result), z.originTakes s.time.ticks e res = z.writerCompleted s.time.ticks w p k res :=
      fun z res => Exchange.originTakes_writer horigin hd hkind hw hk res
    have hlow := Exchange.lowered_life (x := { s.begin.exch with outstanding := rest }) (w := w) (m := m) (c := c) (k := k) (sl := sl)
    have hwin := Exchange.lowered_win { s.begin.exch with outstanding := rest } w m c k sl
    refine ⟨fun hwrite hnot => ?_, fun hwrite => ?_, fun hread d hwf => ?_⟩
    · have hcomplete := (Exchange.complete_okay (d := none) hfalls).trans ((htakes _ _).trans
        ((Exchange.writerCompleted_write hlow hf hh hwrite none).trans (Exchange.writeDone_plain hlow hf hh (by rw [hwin]; exact hnot))))
      rw [Exchange.lowered_modWin] at hcomplete
      exact (hs.reaches_of_response (a := .okay none) hr hp ho rfl hcomplete).next_of_none hs.1
    · have hrecord := Exchange.failureRecord_port (x := { s.begin.exch with outstanding := rest }) horigin
        (by rcases hkind with h | h <;> rw [h] <;> exact nofun) hw hk hl s.time.ticks .response
      have hcomplete := (Exchange.complete_error hfalls .response).trans
        ((htakes _ _).trans (Exchange.writerCompleted_error (x := Exchange.raise (Exchange.lowered _ w m c k sl) _) hlow hf hh hwrite
          Context.lowered_slot .response))
      rw [hrecord, Exchange.lowered_raise_modWin] at hcomplete
      simp only [Context.lowered, PerSlot.set_set] at hcomplete
      exact State.Reaches.next_of_raise (hs.reaches_of_response (a := .error) hr hp ho rfl hcomplete) hs.1
    · have hcomplete := (Exchange.complete_okay (d := d) hfalls).trans ((htakes _ _).trans
        (Exchange.writerCompleted_read hlow hf hh hread (.okay d)))
      rw [Exchange.lowered_modWin] at hcomplete
      exact (hs.reaches_of_response hr hp ho hwf hcomplete).next_of_none hs.1
  · exact (hs.reaches_of_response hr hp ho hwf ((Exchange.complete_okay hfalls).trans
      ((Exchange.originTakes_writer horigin hd hkind hw hk _).trans (Exchange.writerCompleted_not_filling hnot _)))).endsIn

end Sys2Proof.Machine
end

section
/-!
AUTO_COMMIT (R29): the write that completes the frame, its commit, and the hold for a carry job.
-/

namespace Sys2Proof.Machine

/-! ### A commit whose access is in hand -/

section
variable {x : Exchange} {w : Window} {m : LiveMode} {c : Context} {k : SlotId} {sl : Slot}

/-- A commit in an ACTIVE STREAM window without a staged set and without a waiting reader, whatever the port has in hand. -/
theorem Exchange.takeCommit_stream (hl : (x.win w).life = .live .active c) (hstream : (x.win w).geom.delivery = .stream)
    (hk : c.slots.get k = some sl) (hstaged : (x.win w).staged = .none)
    (hwait : ∀ q b, c.readers.get q = some b → b.state ≠ .waiting) (now : Word) (p : Port) (tag : Half) (auto : Bool) :
    x.takeCommit now w p k tag auto =
      ((x.modWin w fun u => { u with
          counters := { u.counters with committed := u.counters.committed + 1 },
          life := .live .active (c.afterCommit k (sl.afterCommit (x.win w).geom c.nextSeq tag auto now)) }).answer p
        (.okay none)).raise
      { EventRecord.plain now .frameCommitted with
        window := some w, port := some (x.win w).geom.writer, slot := some k, seq := c.nextSeq, detail := tag.zeroExtend 32 } := by
  rw [Exchange.takeCommit, Exchange.commitFrame_plain hl hstream hk hstaged hwait]
  exact Exchange.drainTest_of_active _ now w (c := c.afterCommit k (sl.afterCommit (x.win w).geom c.nextSeq tag auto now))
    (by simp only [Exchange.win, Exchange.answer, Exchange.setHand, Exchange.modPort, Exchange.raise, Exchange.modWin,
      PerWindow.get_set_self])

/-- A commit of any window by an access that does not wait for a frame. -/
theorem Exchange.takeCommit_of_ready (hl : (x.win w).life = .live m c) (hk : c.slots.get k = some sl) (hready : x.CommitReady w c k)
    (hwriter : x.waitingRead w c (x.win w).geom.writer = none) (now : Word) (p : Port) (tag : Half) (auto : Bool) :
    x.takeCommit now w p k tag auto = ((x.afterCommit now w m c k sl tag auto).answer p (.okay none)).drainTest now w := by
  rw [Exchange.takeCommit, x.commitFrame_eq now w m c k sl tag auto hl hk hready hwriter]

/-- What a commit comes to does not depend on what the window was live in. -/
theorem Exchange.afterCommit_setLife (l : Life) (now : Word) (tag : Half) (auto : Bool) :
    (x.modWin w fun u => { u with life := l }).afterCommit now w m c k sl tag auto = x.afterCommit now w m c k sl tag auto := by
  simp only [Exchange.afterCommit, Exchange.win, Exchange.modWin, PerWindow.get_set_self, PerWindow.set_set]
  rfl

theorem Exchange.waitingRead_of_outstanding {p : Port} {r : Request} {b : Bool} (h : (x.port p).hand = .outstanding r b) :
    x.waitingRead w c p = none := by
  simp only [Exchange.waitingRead, h]
  cases c.readers.get p <;> rfl

end

/-- The context once the write that completes the frame has been counted. -/
def Context.counted (c : Context) (k : SlotId) (sl : Slot) (written : Word) : Context :=
  { c with
    slots := c.slots.set k (some { sl with inFlight := sl.inFlight - 1 }), writer := { c.writer with bytesWritten := written } }

/-- Settles O44: the write that completes the frame is its commit, or is held for the job. -/
theorem autoCommitResult : Obligations.AutoCommitResult := by
  intro s e rest p r held w k m c sl hr hs hp ho hd horigin hkind hw hk hh hwrite hl hgeom hf hsl hfilling hauto hbelow hreached
    total written
  let x : Exchange := { s.begin.exch with outstanding := rest }
  let v : Exchange := x.modWin w fun u => { u with life := .live m (c.counted k sl written) }
  have hfalls := Exchange.Falls.lowered (x := x) hw hk hl hsl (by rw [hfilling]; exact nofun) s.time.ticks
  have hlow := Exchange.lowered_life (x := x) (w := w) (m := m) (c := c) (k := k) (sl := sl)
  have hwin := Exchange.lowered_win x w m c k sl
  have hcommits : x.complete s.time.ticks e (.okay none) = v.startCommit s.time.ticks w p k 0 true r := by
    rw [Exchange.complete_okay hfalls, Exchange.originTakes_writer horigin hd (.inl hkind) hw hk,
      Exchange.writerCompleted_write hlow hf hh hwrite,
      Exchange.writeDone_commits hlow (by rw [hwin]; exact hauto) (by rw [hwin]; exact hbelow) (by rw [hwin]; exact hreached),
      Exchange.lowered_modWin]
    rfl
  have hvwin : v.win w = { s.exch.win w with life := .live m (c.counted k sl written) } :=
    x.win_modWin_self w fun u => { u with life := .live m (c.counted k sl written) }
  have hvlife := congrArg WindowUnit.life hvwin
  have hvgeom := congrArg WindowUnit.geom hvwin
  have hvslot : (c.counted k sl written).slots.get k = some { sl with inFlight := sl.inFlight - 1 } := PerSlot.get_set_self ..
  refine ⟨fun hm hstream hj hstaged hwait => ?_, fun j hj => ?_, fun z hj => ?_⟩
  · subst hm
    have hcommit := Exchange.takeCommit_stream (x := v) hvlife (by rw [hvgeom]; exact hstream) hvslot
      (by rw [hvwin]; exact hstaged) hwait s.time.ticks p 0 true
    have hcomplete := hcommits.trans ((Exchange.startCommit_taken (x := v) hj _ p k 0 true r).trans hcommit)
    rw [hvgeom, hgeom, Exchange.modWin_modWin] at hcomplete
    simp only [Context.afterCommit, Context.counted, Slot.afterCommit, PerSlot.set_set, hstream, if_true] at hcomplete
    exact State.Reaches.next_of_raise (hs.reaches_of_response (a := .okay none) hr hp ho rfl hcomplete) hs.1
  · have hheld := Exchange.startCommit_held (x := v) hvlife hj s.time.ticks p k 0 true r
    have hcommute : ∀ h, v.setHand p h = (x.setHand p h).modWin w fun u => { u with life := .live m (c.counted k sl written) } :=
      fun _ => rfl
    rw [hcommute, Exchange.modWin_modWin] at hheld
    have hcomplete := hcommits.trans hheld
    exact (hs.reaches_of_response (a := .okay none) hr hp ho rfl hcomplete).next_of_none hs.1
  · intro sl0 c0 x0 hready hz
    have hvready : v.CommitReady w c0 k := by
      obtain ⟨hnot, hslots, hreaders⟩ := hready
      exact ⟨hnot, hslots, fun q hq => hvgeom ▸ hreaders q hq⟩
    have hcommit := Exchange.takeCommit_of_ready (x := v) hvlife hvslot hvready
      (by rw [hvgeom, hgeom]; exact Exchange.waitingRead_of_outstanding hh) s.time.ticks p 0 true
    rw [Exchange.afterCommit_setLife] at hcommit
    have hcomplete := hcommits.trans ((Exchange.startCommit_taken (x := v) hj _ p k 0 true r).trans hcommit)
    exact (hs.reaches_of_response (a := .okay none) hr hp ho rfl hcomplete).endsIn_of_drainTested hz

end Sys2Proof.Machine
end

section
/-!
The completion of a reader's payload read (R51, R52, R55, R59, R147): bytes read, the automatic release, and the answer.
-/

namespace Sys2Proof.Machine

section
variable {x : Exchange} {now : Word} {e : Entry} {p : Port} {r : Request} {held : Bool} {w : Window} {k : SlotId} {m : LiveMode}
  {c : Context} {sl : Slot} {b : ReaderBinding}

theorem Exchange.originTakes_reader (ho : e.mem.origin = .port p) (hd : e.discarded = false) (hkind : e.mem.kind = .readerRead)
    (hw : e.mem.window = some w) (hk : e.mem.slot = some k) (res : Result) :
    x.originTakes now e res = x.readerCompleted now w p k res := by
  simp only [Exchange.originTakes, ho, hd, Bool.false_eq_true, if_false, hkind, hw, hk]

/-- A read that ends with ERROR counts nothing. -/
theorem Exchange.readerCompleted_error (cause : ErrorCause) : x.readerCompleted now w p k (.error cause) = x.answer p .error := by
  unfold Exchange.readerCompleted
  split
  · next h => cases h
  · rfl

/-- A read whose reader does not hold the slot any more counts nothing (R59). -/
theorem Exchange.readerCompleted_gone (h : ∀ c b, x.ctx? w = some c → c.readers.get p = some b → b.state ≠ .holding k)
    (d : Option Data) : x.readerCompleted now w p k (.okay d) = x.answer p (.okay d) := by
  unfold Exchange.readerCompleted
  split
  · next b r d hb hr hres =>
    obtain ⟨c, hc, hreader⟩ := Option.bind_eq_some_iff.mp hb
    rw [if_neg (h c b hc hreader)]
    cases hres
    rfl
  · rfl

variable (hl : (x.win w).life = .live m c) (hb : c.readers.get p = some b)
include hl hb

theorem Exchange.readerCompleted_holding (hs : b.state = .holding k) (hh : (x.port p).hand = .outstanding r held)
    (d : Option Data) : x.readerCompleted now w p k (.okay d) = x.readDone now w p b r (.okay d) := by
  simp only [Exchange.readerCompleted, x.ctx?_of_live w hl, Option.bind_some, Context.reader?, hb, hh, Hand.request?, hs, if_true]
  rfl

/-- The bytes are counted, and the read is answered. -/
theorem Exchange.readDone_plain (hnot : (x.win w).eff.policy.autoRelease = false ∨
      b.bytesRead.toNat + Request.bytes r < (x.win w).geom.flen.toNat ∨ (x.win w).geom.flen.toNat ≤ b.bytesRead.toNat)
    (resp : Response) :
    x.readDone now w p b r resp = (x.modWin w fun u => { u with life := .live m { c with
      readers := c.readers.set p (some { b with bytesRead := b.bytesRead.satAdd (Request.bytes r) }) } }).answer p resp := by
  have hcross : ((x.win w).eff.policy.autoRelease && decide (b.bytesRead.toNat < (x.win w).geom.flen.toNat) &&
      decide ((x.win w).geom.flen.toNat ≤ (b.bytesRead.satAdd (Request.bytes r)).toNat)) = false := by
    simp only [Word.le_satAdd_iff, Bool.and_eq_false_iff, decide_eq_false_iff_not]
    rcases hnot with hoff | hbelow | hpast
    · exact .inl (.inl hoff)
    · exact .inr (by omega)
    · exact .inl (.inr (by omega))
  simp only [Exchange.readDone, hcross, Bool.false_eq_true, if_false, x.modCtx_of_live w hl, c.modReader_of p hb]

/-- The read that completes the frame with AUTO_RELEASE on gives the slot back before it is answered. -/
theorem Exchange.readDone_releases (hauto : (x.win w).eff.policy.autoRelease = true)
    (hbelow : b.bytesRead.toNat < (x.win w).geom.flen.toNat)
    (hreached : (x.win w).geom.flen.toNat ≤ b.bytesRead.toNat + Request.bytes r) (resp : Response) :
    x.readDone now w p b r resp = (((x.modWin w fun u => { u with life := .live m { c with
      readers := c.readers.set p (some { b with bytesRead := b.bytesRead.satAdd (Request.bytes r) }) } }).giveBack now w p .idle).answer p
        resp).drainTest now w := by
  have hcross : ((x.win w).eff.policy.autoRelease && decide (b.bytesRead.toNat < (x.win w).geom.flen.toNat) &&
      decide ((x.win w).geom.flen.toNat ≤ (b.bytesRead.satAdd (Request.bytes r)).toNat)) = true := by
    simp only [Word.le_satAdd_iff, hauto, hbelow, hreached, decide_true, Bool.and_self]
  simp only [Exchange.readDone, hcross, if_true, x.modCtx_of_live w hl, c.modReader_of p hb]

end

/-! ### Serving a waiting writer leaves the bindings of the others (R22) -/

section
variable {x y : Exchange} {now : Word} {e : Entry} {p : Port} {w : Window} {m : LiveMode} {c : Context}

theorem Exchange.afterCommit_reader {k : SlotId} {sl : Slot} {tag : Half} {auto : Bool} (hwait : x.waitingRead w c p = none) :
    ∃ d, ((x.afterCommit now w m c k sl tag auto).win w).life = .live m d ∧ d.readers.get p = c.readers.get p := by
  refine ⟨_, congrArg WindowUnit.life (PerWindow.get_set_self x.windows w _), ?_⟩
  simp only [PerPort.get_ofFn, hwait, Option.isSome_none, Bool.false_eq_true, if_false, Option.map_id']

theorem Exchange.afterServing_reader {k : SlotId} {sl : Slot} {r : Request} (hwait : ∀ d, x.waitingRead w d p = none) :
    ∃ n d, ((x.afterServing now w c k sl r).win w).life = .live n d ∧ d.readers.get p = c.readers.get p := by
  have hwin : ∀ (y : Exchange) (d : Context), d.readers = c.readers →
      ∃ n d', ((y.modWin w fun u => { u with life := .live .active d }).win w).life = .live n d' ∧
        d'.readers.get p = c.readers.get p := fun y d hd =>
    ⟨_, d, congrArg WindowUnit.life (y.win_modWin_self w _), by rw [hd]⟩
  unfold Exchange.afterServing
  simp only
  split
  · split
    · obtain ⟨d, hlife, hreader⟩ := Exchange.afterCommit_reader (x := x) (now := now) (m := .active) (k := k)
        (c := c.afterOpen (x.win w) k sl now) (sl := sl.afterOpening now ((x.win w).opensWith c.base k).1) (tag := Request.tag r)
        (auto := false) (hwait _)
      exact ⟨_, d, hlife, hreader⟩
    · exact hwin _ _ rfl
  · split
    · exact hwin _ _ rfl
    · exact hwin _ _ rfl

/-- The fall of a count leaves the binding of a reader that does not wait as it is. -/
theorem Exchange.Falls.reader (h : x.Falls now e y) (hl : (x.win w).life = .live m c) (hw : e.mem.window = some w)
    (hwait : ∀ d, x.waitingRead w d p = none) :
    ∃ n d, (y.win w).life = .live n d ∧ d.readers.get p = c.readers.get p := by
  rcases h with ⟨-, rfl⟩ | ⟨w', k, m', c', sl, hw', -, hl', -, h⟩
  · exact ⟨m, c, hl, rfl⟩
  · cases hw.symm.trans hw'
    cases hl.symm.trans hl'
    rcases h with ⟨-, rfl⟩ | ⟨-, -, hserves⟩
    · exact ⟨_, _, congrArg WindowUnit.life (x.win_modWin_self w _), rfl⟩
    · have hlife := congrArg WindowUnit.life (x.win_modWin_self w fun u => { u with life := .live m { c with
        slots := c.slots.set k (some { sl with state := .free, inFlight := 0 }) } })
      unfold Exchange.Serves at hserves
      rw [hlife] at hserves
      rcases hserves with ⟨-, rfl⟩ | ⟨r, k', sl', -, -, -, -, rfl⟩
      · exact ⟨_, _, hlife, rfl⟩
      · exact Exchange.afterServing_reader (c := { c with slots := c.slots.set k (some { sl with state := .free, inFlight := 0 }) }) hwait

end

/-- The record of a reader's read carries the frame's sequence number (R52). -/
theorem Exchange.failureRecord_reader {x : Exchange} {e : Entry} {p : Port} {w : Window} {k : SlotId} {m : LiveMode} {c : Context}
    {sl : Slot} (ho : e.mem.origin = .port p) (hkind : e.mem.kind = .readerRead) (hw : e.mem.window = some w)
    (hk : e.mem.slot = some k) (hl : (x.win w).life = .live m c) (hsl : c.slots.get k = some sl) (now : Word) (cause : ErrorCause) :
    x.failureRecord now e cause = { EventRecord.plain now (.memoryError cause) with
      window := some w, port := some p, slot := some k, seq := sl.seq.getD 0, detail := e.mem.request.addr } := by
  simp only [Exchange.failureRecord, ho, hw, hk, hl, hkind, hsl, Option.bind_some]

/-- Settles O45: a reader's read completes by its result, by what the reader holds, and by what is counted. -/
theorem readerReadCompletes : Obligations.ReaderReadCompletes := by
  intro s e rest p r held w k m c b hr hs hp ho hd horigin hkind hw hk hh hl hb
  let x : Exchange := { s.begin.exch with outstanding := rest }
  have htakes : ∀ (z : Exchange) (res : Result), z.originTakes s.time.ticks e res = z.readerCompleted s.time.ticks w p k res :=
    fun z res => Exchange.originTakes_reader horigin hd hkind hw hk res
  refine ⟨fun sl hholds hsl hstate => ?_, fun y d hnot hfalls hwf => ?_⟩
  · intro total c0
    have hfalls := Exchange.Falls.lowered (x := x) hw hk hl hsl (by rcases hstate with h | h <;> rw [h] <;> exact nofun) s.time.ticks
    have hlow := Exchange.lowered_life (x := x) (w := w) (m := m) (c := c) (k := k) (sl := sl)
    have hwin := Exchange.lowered_win x w m c k sl
    have hread : ∀ d, x.complete s.time.ticks e (.okay d) =
        (x.lowered w m c k sl).readDone s.time.ticks w p b r (.okay d) := fun d =>
      (Exchange.complete_okay hfalls).trans ((htakes _ _).trans (Exchange.readerCompleted_holding hlow hb hholds hh d))
    refine ⟨fun hnot d hwf => ?_, ?_, fun hauto hbelow hreached => ?_⟩
    · have hcomplete := (hread d).trans (Exchange.readDone_plain hlow hb (by rw [hwin]; exact hnot) _)
      rw [Exchange.lowered_modWin] at hcomplete
      exact (hs.reaches_of_response hr hp ho hwf hcomplete).next_of_none hs.1
    · have hrecord := Exchange.failureRecord_reader (x := x) horigin hkind hw hk hl hsl s.time.ticks .response
      have hcomplete := (Exchange.complete_error hfalls .response).trans ((htakes _ _).trans (Exchange.readerCompleted_error _))
      rw [hrecord] at hcomplete
      exact State.Reaches.next_of_raise (hs.reaches_of_response (a := .error) hr hp ho rfl hcomplete) hs.1
    · intro c1
      have hcounted : (x.lowered w m c k sl).modWin w (fun u => { u with life := .live m { c.lowered k sl with
          readers := c.readers.set p (some { b with bytesRead := b.bytesRead.satAdd (Request.bytes r) }) } }) =
          x.modWin w fun u => { u with life := .live m c0 } := Exchange.lowered_modWin _
      have hreleases : ∀ d, x.complete s.time.ticks e (.okay d) =
          ((((x.modWin w fun u => { u with life := .live m c0 }).giveBack s.time.ticks w p .idle).answer p (.okay d)).drainTest
            s.time.ticks w) := fun d => by
        rw [hread, Exchange.readDone_releases hlow hb (by rw [hwin]; exact hauto) (by rw [hwin]; exact hbelow)
          (by rw [hwin]; exact hreached)]
        exact congrArg (fun z : Exchange => ((z.giveBack s.time.ticks w p .idle).answer p (.okay d)).drainTest s.time.ticks w) hcounted
      have hself := x.win_modWin_self w fun u => { u with life := .live m c0 }
      have hgiven : ∀ y, (x.modWin w fun u => { u with life := .live m c1 }).Serves s.time.ticks w y →
          (x.modWin w fun u => { u with life := .live m c0 }).giveBack s.time.ticks w p .idle = y := fun y hy => by
        refine Exchange.giveBack_eq _ _ w p .idle (congrArg WindowUnit.life hself) y ?_
        rw [Exchange.modWin_modWin, hself]
        exact hy
      refine ⟨fun hwriter hmode d hwf => ?_, fun y z d hwf hserves hz => ?_⟩
      · have hfree := x.win_modWin_self w fun u => { u with life := .live m c1 }
        have hserves := Exchange.Serves.of_not_waiting (x := x.modWin w fun u => { u with life := .live m c1 })
          (congrArg WindowUnit.life hfree) ((c0.giveBack_writer _ p .idle).symm ▸ hwriter) s.time.ticks
        have hcomplete := hreleases d
        rw [hgiven _ hserves, Exchange.drainTest_of_not_met
          (x := (x.modWin w fun u => { u with life := .live m c1 }).answer p (.okay d)) (congrArg WindowUnit.life hfree)
          (hmode.imp_right (And.imp_right ((congrArg WindowUnit.geom hfree).symm ▸ id)))] at hcomplete
        exact (hs.reaches_of_response hr hp ho hwf hcomplete).next_of_none hs.1
      · have hcomplete := hreleases d
        rw [hgiven y hserves] at hcomplete
        exact (hs.reaches_of_response hr hp ho hwf hcomplete).endsIn_of_drainTested hz
  · obtain ⟨n, d', hlife, hreader⟩ := hfalls.reader (p := p) hl hw fun _ => Exchange.waitingRead_of_outstanding hh
    have hgone : ∀ c' b', y.ctx? w = some c' → c'.readers.get p = some b' → b'.state ≠ .holding k := fun c' b' hc hb' => by
      cases (y.ctx?_of_live w hlife).symm.trans hc
      cases (hreader.trans hb).symm.trans hb'
      exact hnot
    exact (hs.reaches_of_response hr hp ho hwf ((Exchange.complete_okay hfalls).trans
      ((htakes _ _).trans (Exchange.readerCompleted_gone hgone d)))).endsIn

end Sys2Proof.Machine
end

section
/-!
The end of a carry block (R83 to R85, R88, R90 to R93): the engine with one job, and any engine.
-/

namespace Sys2Proof.Machine

/-! ### The one job of an engine -/

/-- The engine has one job, which is window w's, and no demand. -/
structure Engine.Lone (e : Engine) (w : Window) (j : Job) : Prop where
  jobs : e.jobs = [j]
  window : j.window = w
  order : e.order = []
  demands : j.demands = []

theorem Job.blockDone_of_no_demand {j : Job} (h : j.demands = []) :
    j.blockDone j.pointer = { j with pointer := j.pointer + 1 } := by
  obtain ⟨window, work, dest, pointer, demands⟩ := j
  cases h
  simp [Job.blockDone, advancePointer]

/-- Without a demand the blocks that are done lie below the pointer. -/
theorem Job.done_of_no_demand {j : Job} (h : j.demands = []) (b : Nat) : j.Done b ↔ b < j.pointer := by
  simp [Job.Done, h]

/-- After a block of a FILL job, the next one is a write. -/
theorem Job.afterBlock_fill {j : Job} {v : Word} (h : j.work = .fill v) (blocks : Nat) :
    j.afterBlock blocks = if j.pointer + 1 < blocks then
      { jobs := [{ j with pointer := j.pointer + 1 }], order := [],
        current := some { window := j.window, block := j.pointer + 1, phase := .write }, buffer := none }
    else { jobs := [], order := [], current := none, buffer := none } := by
  rw [Job.afterBlock, h]

theorem Engine.Lone.job? {e : Engine} {w : Window} {j : Job} (he : e.Lone w j) : e.job? w = some j :=
  e.job?_middle w (pre := []) (post := []) he.jobs he.window (by simp)

section
variable {x : Exchange} {w : Window} {j : Job} {m : LiveMode} {c : Context} {sl : Slot}

/-- What the engine with one job chooses once the block at its pointer is done (R82, R85, R90). -/
theorem Engine.Lone.afterBlock {e : Engine} (he : e.Lone w j) (blocks : Nat) :
    e.afterBlock [] [] { j with pointer := j.pointer + 1 } j.pointer blocks = j.afterBlock blocks := by
  obtain ⟨hjobs, hwindow, horder, hdemands⟩ := he
  by_cases hlast : blocks ≤ j.pointer + 1
  · rw [Engine.afterBlock, if_pos hlast, Job.afterBlock, if_neg (by omega), horder]
    rfl
  · rw [Engine.afterBlock, if_neg hlast, Job.afterBlock, if_pos (by omega), horder]
    cases j.work with
    | copy source => simp [Engine.choose, Engine.nextBlock, Engine.job?, Job.firstPhase]
    | fill pattern => simp [Engine.choose, Engine.nextBlock, Engine.job?, Job.firstPhase]

/-- A block ends at a port that holds no access: the pointer moves on, or the job leaves and its source loses its reference. -/
theorem Exchange.endBlock_lone (he : x.carry.Lone w j) (hl : (x.win w).life = .live m c)
    (hsource : (x.win w).geom.flen.toNat / 32 ≤ j.pointer + 1 → ∀ src, j.work = .copy src → c.slots.get src ≠ none)
    (hheld : ∀ h, (x.port (x.win w).geom.writer).hand ≠ .held h)
    (now : Word) :
    x.endBlock now w j.pointer = { x.modWin w (fun u => { u with
        life := .live m (if (x.win w).geom.flen.toNat / 32 ≤ j.pointer + 1 then c.afterJob j.work else c) }) with
      carry := j.afterBlock ((x.win w).geom.flen.toNat / 32) } := by
  have hend := x.carry.endBlock_jobs w j.pointer (pre := []) (post := []) he.jobs he.window (by simp)
  let x1 : Exchange := { x with carry := x.carry.endBlock w j.pointer }
  have hjob : x1.carry.job? w = some (j.blockDone j.pointer) := Engine.job?_middle _ w (congrArg Engine.jobs hend) he.window (by simp)
  have hafter := he.afterBlock ((x.win w).geom.flen.toNat / 32)
  have hdone := Job.blockDone_of_no_demand he.demands
  have hrelease := x1.releaseHeld_none w (j.blockDone j.pointer) fun h hh => absurd hh (hheld h)
  rw [Exchange.endBlock]
  dsimp only
  rw [show ({ x with carry := x.carry.endBlock w j.pointer } : Exchange) = x1 from rfl, hjob]
  dsimp only
  rw [hrelease, ← hafter, Engine.afterBlock]
  by_cases hlast : (x.win w).geom.flen.toNat / 32 ≤ j.pointer + 1
  · have hcomplete := x1.completeJob_of now w (pre := []) (post := []) (j := j.blockDone j.pointer) hl hend he.window (by simp)
      (hsource hlast) rfl
    rw [PortUnit.heldCommit_none (x1.port (x1.win w).geom.writer) w fun h hh => absurd hh (hheld h)] at hcomplete
    rw [hcomplete, hdone, if_pos (show (x.win w).geom.blocks ≤ _ from hlast)]
    dsimp only
    rw [if_pos hlast, if_pos hlast, he.window]
    rfl
  · rw [hdone, if_neg (show ¬ (x.win w).geom.blocks ≤ _ from hlast)]
    dsimp only
    rw [if_neg hlast, if_neg hlast, Exchange.modWin_eq_self (WindowUnit.with_life hl)]
    change ({ x with carry := (x.carry.endBlock w j.pointer).choose } : Exchange) = _
    rw [hend, hdone, he.window]

/-- A block of a FILL job ends at a port that holds an access for blocks: it is presented once its blocks are done (R88). -/
theorem Exchange.endBlock_lone_presents {r : Request} {t : Timer} {v : Word} (he : x.carry.Lone w j)
    (hl : (x.win w).life = .live m c) (hd : c.slots.get j.dest = some sl) (hfill : j.work = .fill v)
    (hheld : (x.port (x.win w).geom.writer).hand = .held { req := r, window := w, reason := .carryBlock, stall := t })
    (hdone : ∀ b, b ∈ touchedBlocks (r.addr.toNat - ((x.win w).geom.lbase.toNat + 32)) (Request.bytes r) → b ≤ j.pointer)
    (now : Word) :
    x.endBlock now w j.pointer = ({ x.modWin w (fun u => { u with
        life := .live m { c with slots := c.slots.set j.dest (some { sl with inFlight := sl.inFlight + 1 }) } }) with
      carry := j.afterBlock ((x.win w).geom.flen.toNat / 32) } : Exchange).setHand (x.win w).geom.writer
        (.presented r (translated (x.win w).geom w (x.win w).geom.writer j.dest
          (if Access.isWrite r.access then .writerWrite else .writerRead) r) true) := by
  have hblock := Job.blockDone_of_no_demand he.demands
  refine x.endBlock_eq now w j.pointer _ ⟨[], j, [], m, c, sl, he.jobs, he.window, by simp, hl, hd, by simp [hfill],
    .inr (.inl ⟨r, t, hheld, fun b hb => ?_, ?_⟩)⟩
  · rw [hblock, Job.done_of_no_demand (by exact he.demands)]
    exact Nat.lt_succ_of_le (hdone b hb)
  · rw [hblock, he.afterBlock, hfill, Context.afterJob, ite_self]

/-- One that needs a block that is not done stays held. -/
theorem Exchange.endBlock_lone_holds {r : Request} {t : Timer} {v : Word} (he : x.carry.Lone w j)
    (hl : (x.win w).life = .live m c) (hd : c.slots.get j.dest = some sl) (hfill : j.work = .fill v)
    (hheld : (x.port (x.win w).geom.writer).hand = .held { req := r, window := w, reason := .carryBlock, stall := t })
    (hnot : ∃ b, b ∈ touchedBlocks (r.addr.toNat - ((x.win w).geom.lbase.toNat + 32)) (Request.bytes r) ∧ j.pointer < b)
    (now : Word) :
    x.endBlock now w j.pointer = { x with carry := j.afterBlock ((x.win w).geom.flen.toNat / 32) } := by
  have hblock := Job.blockDone_of_no_demand he.demands
  refine x.endBlock_eq now w j.pointer _ ⟨[], j, [], m, c, sl, he.jobs, he.window, by simp, hl, hd, by simp [hfill],
    .inl ⟨fun h hh _ => ?_, ?_⟩⟩
  · obtain rfl : _ = h := Hand.held.inj (hheld.symm.trans hh)
    obtain ⟨b, hb, hlt⟩ := hnot
    refine ⟨fun _ => ⟨b, hb, ?_⟩, fun _ _ _ => nofun⟩
    rw [hblock, Job.done_of_no_demand (by exact he.demands)]
    exact Nat.not_lt_of_le hlt
  · rw [hblock, he.afterBlock, hfill, Context.afterJob, ite_self]
    dsimp only
    rw [Exchange.modWin_eq_self (WindowUnit.with_life hl)]

/-- The last block of a FILL job ends at a port that holds the frame's commit, in an ACTIVE STREAM window without a staged set and
without a waiting reader: the commit is taken (R90). -/
theorem Exchange.endBlock_lone_commits {r : Request} {t : Timer} {v : Word} {tag : Half} {auto : Bool} (he : x.carry.Lone w j)
    (hl : (x.win w).life = .live .active c) (hd : c.slots.get j.dest = some sl) (hfill : j.work = .fill v)
    (hlast : (x.win w).geom.flen.toNat / 32 ≤ j.pointer + 1)
    (hheld : (x.port (x.win w).geom.writer).hand = .held { req := r, window := w, reason := .carryDone tag auto, stall := t })
    (hstream : (x.win w).geom.delivery = .stream) (hstaged : (x.win w).staged = .none)
    (hwait : ∀ q b, c.readers.get q = some b → b.state ≠ .waiting) (now : Word) :
    x.endBlock now w j.pointer =
      (({ x.modWin w (fun u => { u with
            counters := { u.counters with committed := u.counters.committed + 1 },
            life := .live .active (c.afterCommit j.dest (sl.afterCommit (x.win w).geom c.nextSeq tag auto now)) }) with
          carry := { jobs := [], order := [], current := none, buffer := none } } : Exchange).answer (x.win w).geom.writer
        (.okay none)).raise
      { EventRecord.plain now .frameCommitted with
        window := some w, port := some (x.win w).geom.writer, slot := some j.dest, seq := c.nextSeq,
        detail := tag.zeroExtend 32 } := by
  have hend := x.carry.endBlock_jobs w j.pointer (pre := []) (post := []) he.jobs he.window (by simp)
  have hdone := Job.blockDone_of_no_demand he.demands
  let x1 : Exchange := { x with carry := x.carry.endBlock w j.pointer }
  have hjob : x1.carry.job? w = some (j.blockDone j.pointer) := Engine.job?_middle _ w (congrArg Engine.jobs hend) he.window (by simp)
  have hrelease := x1.releaseHeld_none w (j.blockDone j.pointer) fun h hh _ hreason => by
    obtain rfl : _ = h := Hand.held.inj (hheld.symm.trans hh)
    cases hreason
  have hcommit : (x1.port (x1.win w).geom.writer).heldCommit w = some (tag, auto) := by
    simp only [PortUnit.heldCommit, show (x1.port (x1.win w).geom.writer).hand = _ from hheld, if_true]
  have hcomplete := x1.completeJob_of now w (pre := []) (post := []) (j := j.blockDone j.pointer) (c1 := c) hl hend he.window (by simp)
    (by simp [Job.blockDone_work, hfill]) (by rw [Job.blockDone_work, hfill]; rfl)
  rw [hcommit] at hcomplete
  let z : Exchange := { x.modWin w (fun u => { u with life := .live .active c }) with
    carry := { jobs := [], order := x.carry.order.filter fun d => d.1 ≠ w, current := none, buffer := none } }
  have hz : z.win w = { x.win w with life := .live .active c } := x.win_modWin_self w fun u => { u with life := .live .active c }
  have htake := Exchange.takeCommit_stream (x := z) (congrArg WindowUnit.life hz) (by rw [hz]; exact hstream) hd
    (by rw [hz]; exact hstaged) hwait now (x.win w).geom.writer tag auto
  rw [Exchange.endBlock]
  dsimp only
  rw [show ({ x with carry := x.carry.endBlock w j.pointer } : Exchange) = x1 from rfl, hjob]
  dsimp only
  rw [hrelease, hcomplete, if_pos (show (x.win w).geom.blocks ≤ _ by rw [hdone]; exact hlast)]
  have hengine : z.carry.choose = { jobs := [], order := [], current := none, buffer := none } := by
    simp [z, he.order, Engine.choose, Engine.nextBlock]
  rw [hz] at htake
  refine (congrArg (fun y : Exchange => { y with carry := y.carry.choose }) htake).trans ?_
  simp only [Exchange.raise, Exchange.answer, Exchange.setHand, Exchange.modPort, Exchange.modWin, hengine]
  simp only [z, Exchange.modWin, PerWindow.set_set, PerWindow.get_set_self]

end

/-! ### What the engine takes of a response -/

section
variable {x : Exchange} {e : Entry} {w : Window} {b : Nat} {now : Word}

theorem Exchange.originTakes_carry (ho : e.mem.origin = .carry) (hd : e.discarded = false) (res : Result) :
    x.originTakes now e res = x.carryCompleted now res := by
  simp only [Exchange.originTakes, ho, hd, Bool.false_eq_true, if_false]

/-- A COPY read gives the block's write (R84). -/
theorem Exchange.carryCompleted_read (hcurrent : x.carry.current = some { window := w, block := b, phase := .read })
    (words : List Word) :
    x.carryCompleted now (.okay (some (.burst words))) = { x with
      carry := { x.carry with
        current := some { window := w, block := b, phase := .write }, buffer := some words } } := by
  simp only [Exchange.carryCompleted, hcurrent]
  rfl

/-- A write ends its block (R85). -/
theorem Exchange.carryCompleted_write (hcurrent : x.carry.current = some { window := w, block := b, phase := .write })
    (d : Option Data) : x.carryCompleted now (.okay d) = x.endBlock now w b := by
  simp only [Exchange.carryCompleted, hcurrent]

/-- An ERROR gives the destination's frame FAULT, and ends the block (R92, R93). -/
theorem Exchange.carryCompleted_error {ph : Phase} {j : Job} {m : LiveMode} {c : Context} {dest : Slot}
    (hcurrent : x.carry.current = some { window := w, block := b, phase := ph }) (hj : x.carry.job? w = some j)
    (hl : (x.win w).life = .live m c) (hd : c.slots.get j.dest = some dest) (cause : ErrorCause) :
    x.carryCompleted now (.error cause) = (x.modWin w fun u => { u with life := .live m { c with
      slots := c.slots.set j.dest (some { dest with flags := { dest.flags with fault := true } }) } }).endBlock now w b := by
  simp only [Exchange.carryCompleted, hcurrent, hj, Exchange.markFault, x.modCtx_of_live w hl, c.modSlot_of _ hd]

end

/-- The record of a carry request of the window's job carries the job's destination (R92, R96). -/
theorem Exchange.failureRecord_carry {x : Exchange} {e : Entry} {w : Window} {k : SlotId} {m : LiveMode} {c : Context} {j : Job}
    (ho : e.mem.origin = .carry) (hd : e.discarded = false) (hkind : e.mem.kind = .carryRead ∨ e.mem.kind = .carryWrite)
    (hw : e.mem.window = some w) (hk : e.mem.slot = some k) (hl : (x.win w).life = .live m c) (hj : x.carry.job? w = some j)
    (now : Word) (cause : ErrorCause) :
    x.failureRecord now e cause = { EventRecord.plain now (.memoryError cause) with
      window := some w, slot := some j.dest, detail := e.mem.request.addr } := by
  rcases hkind with hkind | hkind <;> simp only [Exchange.failureRecord, ho, hd, hkind, hw, hk, hl, hj] <;> rfl

theorem Response.wellFormed_block {words : List Word} (h : words.length = 8) :
    Response.wellFormed (.okay (some (.burst words))) = true := by
  simp [Response.wellFormed, Data.wellFormed, Data.size, Size.wellFormed, h]

/-- Settles O46: the engine with one job case by case, and any engine by `BlockEnds` and `Fails`. -/
theorem carryBlockResult : Obligations.CarryBlockResult := by
  refine ⟨?_, ?_⟩
  · intro s e rest w k j m c sl hr hs hp ho hd horigin hkind hw hk hjobs hjw horder hdemands hl hsl hstate q blocks lowered
    let x : Exchange := { s.begin.exch with outstanding := rest }
    let y : Exchange := x.lowered w m c k sl
    have hfalls := Exchange.Falls.lowered (x := x) hw hk hl hsl hstate s.time.ticks
    have hlow := Exchange.lowered_life (x := x) (w := w) (m := m) (c := c) (k := k) (sl := sl)
    have hwin := Exchange.lowered_win x w m c k sl
    have hgeom : (y.win w).geom = (s.exch.win w).geom := (congrArg WindowUnit.geom hwin :)
    have hlone : y.carry.Lone w j := ⟨hjobs, hjw, horder, hdemands⟩
    have hokay : ∀ d, x.complete s.time.ticks e (.okay d) = y.carryCompleted s.time.ticks (.okay d) := fun d =>
      (Exchange.complete_okay hfalls).trans (Exchange.originTakes_carry horigin hd _)
    refine ⟨fun words hwords hcur => ?_, fun v hfill hcur hheld => ?_, fun src base hcopy hne hbase hcur hheld => ?_, ?_, ?_,
      fun ph dest hheld hcur hread hwrite hget hmore => ?_⟩
    · have hcomplete := (hokay _).trans (Exchange.carryCompleted_read (x := y) hcur words)
      exact (hs.reaches_of_response (a := .okay (some (.burst words))) hr hp ho (Response.wellFormed_block hwords)
        hcomplete).next_of_none hs.1
    · have hcomplete := (hokay none).trans ((Exchange.carryCompleted_write (x := y) hcur none).trans
        (Exchange.endBlock_lone hlone hlow (fun _ => by simp [hfill]) (by rw [hgeom]; exact hheld) _))
      rw [Exchange.lowered_modWin, hfill, hgeom] at hcomplete
      simp only [Context.afterJob, ite_self] at hcomplete
      rw [← hjw, ← Job.afterBlock_fill hfill, hjw]
      exact (hs.reaches_of_response (a := .okay none) hr hp ho rfl hcomplete).next_of_none hs.1
    · have hcomplete := (hokay none).trans ((Exchange.carryCompleted_write (x := y) hcur none).trans
        (Exchange.endBlock_lone hlone hlow (fun _ => by simp [hcopy, Context.lowered, PerSlot.get_set_ne _ _ hne, hbase])
          (by rw [hgeom]; exact hheld) _))
      rw [Exchange.lowered_modWin, hgeom] at hcomplete
      simp only [Context.afterJob, hcopy, Context.lowered, PerSlot.get_set_ne _ _ hne, hbase] at hcomplete
      simp only [← Nat.not_le, ite_not]
      exact (hs.reaches_of_response (a := .okay none) hr hp ho rfl hcomplete).next_of_none hs.1
    · intro v r t hfill hdest hcur hheld touched
      have hslot : (c.lowered k sl).slots.get j.dest = some lowered := hdest ▸ Context.lowered_slot
      have hheldy : (y.port (y.win w).geom.writer).hand =
        .held { req := r, window := w, reason := .carryBlock, stall := t } := by rw [hgeom]; exact hheld
      have hwrite := (hokay none).trans (Exchange.carryCompleted_write (x := y) hcur none)
      refine ⟨fun hdone => ?_, fun hnot => ?_⟩
      · have hcomplete := hwrite.trans (Exchange.endBlock_lone_presents hlone hlow hslot hfill hheldy
          (by rw [hgeom]; exact hdone) _)
        rw [Exchange.lowered_modWin, hgeom, hdest] at hcomplete
        simp only [Context.lowered, PerSlot.set_set] at hcomplete
        exact (hs.reaches_of_response (a := .okay none) hr hp ho rfl hcomplete).next_of_none hs.1
      · have hcomplete := hwrite.trans (Exchange.endBlock_lone_holds hlone hlow hslot hfill hheldy
          (by rw [hgeom]; exact hnot) _)
        rw [hgeom] at hcomplete
        exact (hs.reaches_of_response (a := .okay none) hr hp ho rfl hcomplete).next_of_none hs.1
    · intro v tag auto r t hfill hdest hm hlast hcur hheld hstream hstaged hwait
      subst hm
      have hslot : (c.lowered k sl).slots.get j.dest = some lowered := hdest ▸ Context.lowered_slot
      have hcomplete := (hokay none).trans ((Exchange.carryCompleted_write (x := y) hcur none).trans
        (Exchange.endBlock_lone_commits hlone hlow hslot hfill (by rw [hgeom]; exact hlast) (by rw [hgeom]; exact hheld)
          (by rw [hgeom]; exact hstream) (by rw [hwin]; exact hstaged) hwait _))
      rw [Exchange.lowered_modWin, hgeom, hdest] at hcomplete
      simp only [Context.afterCommit, Context.lowered, PerSlot.set_set] at hcomplete
      exact State.Reaches.next_of_raise (hs.reaches_of_response (a := .okay none) hr hp ho rfl hcomplete) hs.1
    · have hrecord := Exchange.failureRecord_carry (x := x) horigin hd hkind hw hk hl (hlone.job?) s.time.ticks .response
      have hdest : (c.lowered k sl).slots.get j.dest = some
          { dest with inFlight := if j.dest = k then dest.inFlight - 1 else dest.inFlight } := by
        by_cases h : j.dest = k
        · obtain rfl : sl = dest := Option.some.inj (hsl.symm.trans (h ▸ hget))
          rw [if_pos h, h, Context.lowered_slot]
        · rw [if_neg h]
          exact (PerSlot.get_set_ne _ _ h :).trans hget
      have hcomplete := (Exchange.complete_error hfalls .response).trans ((Exchange.originTakes_carry horigin hd _).trans
        ((Exchange.carryCompleted_error (x := y.raise _) hcur (hlone.job?) hlow hdest .response)))
      rw [hrecord, Exchange.lowered_raise_modWin] at hcomplete
      let faulted : Context := { c.lowered k sl with slots := (c.lowered k sl).slots.set j.dest (some { dest with
        inFlight := if j.dest = k then dest.inFlight - 1 else dest.inFlight, flags := { dest.flags with fault := true } }) }
      let v : Exchange := (x.modWin w fun u => { u with life := .live m faulted }).raise
        { EventRecord.plain s.time.ticks (.memoryError .response) with
          window := some w, slot := some j.dest, detail := e.mem.request.addr }
      have hvwin : v.win w = { s.exch.win w with life := .live m faulted } :=
        x.win_modWin_self w fun u => { u with life := .live m faulted }
      have hmany : ¬ (v.win w).geom.flen.toNat / 32 ≤ j.pointer + 1 := by rw [hvwin]; exact Nat.not_le.mpr hmore
      have hends := Exchange.endBlock_lone (x := v) hlone (congrArg WindowUnit.life hvwin) (fun h => absurd h hmany)
        (by rw [hvwin]; exact hheld) s.time.ticks
      rw [if_neg hmany, Exchange.modWin_eq_self (by rw [hvwin]), hvwin] at hends
      have hgoal := hcomplete.trans hends
      simp only [v, faulted, Context.lowered] at hgoal
      exact State.Reaches.next_of_raise (hs.reaches_of_response (a := .error) hr hp ho rfl hgoal) hs.1
  · intro s e rest w b y hr hs hp ho hd horigin hfalls
    refine ⟨fun words hwords hcur => ?_, fun z hcur hz => ?_, fun z hz => ?_⟩
    · exact (hs.reaches_of_response (a := .okay (some (.burst words))) hr hp ho (Response.wellFormed_block hwords)
        ((Exchange.complete_okay hfalls).trans
          ((Exchange.originTakes_carry horigin hd _).trans (Exchange.carryCompleted_read hcur words)))).endsIn
    · exact (hs.reaches_of_response (a := .okay none) hr hp ho rfl ((Exchange.complete_okay hfalls).trans
        ((Exchange.originTakes_carry horigin hd _).trans ((Exchange.carryCompleted_write hcur none).trans
          (Exchange.endBlock_eq _ _ _ _ _ hz))))).endsIn
    · exact (hs.reaches_of_response (a := .error) hr hp ho rfl (Exchange.complete_eq _ _ _ _ _ hz)).endsIn

end Sys2Proof.Machine
end

section
/-!
The response timer (R149, R150): its expiry, the order of the records of a fault, and the entries that complete as ERROR.
-/

namespace Sys2Proof.Machine

/-! ### The records of a fault (R150, Note) -/

/-- MEMORY_TIMEOUT is offered first, the other records of its event in some order. -/
theorem State.flush_of_timeout (s : State) {r : EventRecord} {records : List EventRecord} (hr : s.exch.raised = r :: records)
    (hkind : r.kind = .memoryTimeout) : ∃ others choices, others.Perm records ∧
      s.flush = { s with
        exch := { s.exch with raised := [] },
        events := ((r :: others).filter fun r => r.kind.enabled s.eventEnable).foldl EventUnit.offer s.events,
        choices := choices } := by
  refine ⟨permute records (Config.freeChoice s.choices), s.choices + choicesUsed s.exch.raised.length, permute_perm _ _, ?_⟩
  simp only [State.flush, State.offered, hr, orderRecords, if_pos hkind]

/-- With one other record there is one order. -/
theorem State.flush_of_timeout_one (s : State) {a b : EventRecord} (hr : s.exch.raised = [a, b]) (hkind : a.kind = .memoryTimeout) :
    s.flush.events = ({ s with events := s.record a } : State).record b := by
  obtain ⟨others, choices, hperm, hflush⟩ := s.flush_of_timeout hr hkind
  obtain rfl := List.perm_singleton.mp hperm
  rw [hflush]
  simp only [State.record, List.filter_cons, List.filter_nil]
  split <;> split <;> rfl

/-! ### The expiry (R149) -/

section
variable {s : State} {place : Fin 4} {e : Entry}

theorem Exchange.timeoutRecord_eq (x : Exchange) (now : Word) (e : Entry) :
    x.memoryRecord now e .memoryTimeout 0 = { x.failureRecord now e .timeout with kind := .memoryTimeout, seq := 0 } := by
  rw [← x.failureRecord_eq now e .timeout]
  rfl

/-- The effect of an expiry that is due. -/
theorem State.timeout_of_quiet (hs : s.Quiet) :
    s.begin.timeout e = { s.begin with
      exch := Exchange.failAll s.exch.outstanding.length s.time.ticks { s.begin.exch with
        raised := [{ s.exch.failureRecord s.time.ticks e .timeout with kind := .memoryTimeout, seq := 0 }] },
      memPort := { s.memPort with state := .fault } } := by
  have hrecord := s.begin.exch.timeoutRecord_eq s.time.ticks e
  have hraised : s.begin.exch.raised = [] := hs.1
  rw [State.timeout, Exchange.raise, show s.begin.time.ticks = s.time.ticks from rfl, hrecord, hraised]
  rfl

variable (hr : s.resetAsserted = false) (hp : s.memPort.state = .ready) (he : s.exch.outstanding[place.val]? = some e)
include hr hp he

theorem State.responseExpiry_of_not_due (hdue : e.timer.due = false) : s.begin.unlessReset (·.responseExpiry place) = s.begin := by
  rw [State.unlessReset_of_deasserted hr]
  simp only [State.responseExpiry, show s.begin.memPort.state = .ready from hp,
    show s.begin.exch.outstanding[place.val]? = some e from he, hdue, Bool.false_eq_true, if_false]

theorem State.responseExpiry_of_due (hdue : e.timer.due = true) :
    s.begin.unlessReset (·.responseExpiry place) = s.begin.timeout e := by
  rw [State.unlessReset_of_deasserted hr]
  simp only [State.responseExpiry, show s.begin.memPort.state = .ready from hp,
    show s.begin.exch.outstanding[place.val]? = some e from he, hdue, if_true]

/-- The event of an expiry that is due ends with its records. -/
theorem State.exec_responseExpiry (hs : s.Quiet) (hdue : e.timer.due = true) :
    exec (.responseTimerExpiry place) s = .next (s.begin.timeout e).flush := by
  have hexec : exec (.responseTimerExpiry place) s = .next (s.begin.timeout e).finish :=
    congrArg (fun t : State => Host.Outcome.next t.finish) (State.responseExpiry_of_due hr hp he hdue)
  rw [hexec, State.finish, State.takeLinks_of_none]
  refine State.linkPorts_of_empty _ fun q => ?_
  have hkeeps := (s.begin.exch.raise_keeps (s.begin.exch.memoryRecord s.time.ticks e .memoryTimeout 0)).butList.trans
    (Exchange.failAll_keeps s.exch.outstanding.length s.time.ticks _)
  exact (hkeeps.ports q).link.trans (hs.2 q)

end

/-! ### A list of pass-through requests -/

/-- An undiscarded request of a port that is attributed to no window (R131). -/
def Entry.PassThrough (f : Entry) : Prop :=
  f.discarded = false ∧ f.mem.kind = .passThrough ∧ f.mem.window = none ∧ f.mem.slot = none ∧ f.mem.origin ≠ .carry

/-- The answer that a failed entry's origin gets. -/
def Entry.failAnswer (f : Entry) : Option (Port × Response) :=
  match f.mem.origin with
  | .port p => some (p, .error)
  | .carry => none

theorem Entry.PassThrough.complete {f : Entry} (hf : f.PassThrough) (x : Exchange) (now : Word) (cause : ErrorCause) :
    ∃ p, f.mem.origin = .port p ∧ x.complete now f (.error cause) =
      (x.answer p .error).raise { EventRecord.plain now (.memoryError cause) with port := some p, detail := f.mem.request.addr } := by
  obtain ⟨⟨request, origin, kind, window, slot⟩, discarded, timer⟩ := f
  obtain ⟨hd, hkind, hw, hk, ho⟩ := hf
  cases hd; cases hkind; cases hw; cases hk
  cases origin with
  | carry => exact absurd rfl ho
  | port p => exact ⟨p, rfl, Exchange.complete_passThrough_error cause⟩

theorem Entry.PassThrough.failureRecord {f : Entry} {p : Port} (hf : f.PassThrough) (ho : f.mem.origin = .port p) {x : Exchange}
    {now : Word} {cause : ErrorCause} : x.failureRecord now f cause =
      { EventRecord.plain now (.memoryError cause) with port := some p, detail := f.mem.request.addr } := by
  obtain ⟨-, hkind, hw, -, -⟩ := hf
  simp only [Exchange.failureRecord, ho, hkind, hw]
  rfl

/-- Every entry is answered ERROR, and no window and no job changes. -/
theorem Exchange.failAll_passThrough (now : Word) (l : List Entry) (x : Exchange) (hx : x.outstanding = l)
    (hl : ∀ f, f ∈ l → f.PassThrough) :
    (Exchange.failAll l.length now x).windows = x.windows ∧ (Exchange.failAll l.length now x).carry = x.carry ∧
      (Exchange.failAll l.length now x).answers = x.answers ++ l.filterMap Entry.failAnswer := by
  induction l generalizing x with
  | nil => exact ⟨rfl, rfl, (List.append_nil _).symm⟩
  | cons f rest ih =>
    obtain ⟨p, ho, hf⟩ := (hl f (by simp)).complete { x with outstanding := rest } now .timeout
    obtain ⟨hwindows, hcarry, hanswers⟩ := ih (({ x with outstanding := rest } : Exchange).complete now f (.error .timeout))
      (by rw [hf]; rfl) fun g hg => hl g (by simp [hg])
    have hstep : Exchange.failAll (f :: rest).length now x =
        Exchange.failAll rest.length now (({ x with outstanding := rest } : Exchange).complete now f (.error .timeout)) := by
      rw [List.length_cons, Exchange.failAll, hx]
    rw [hstep, hwindows, hcarry, hanswers, hf]
    refine ⟨rfl, rfl, ?_⟩
    have hanswer : f.failAnswer = some (p, .error) := by rw [Entry.failAnswer, ho]
    rw [List.filterMap_cons, hanswer]
    exact List.append_assoc x.answers [(p, .error)] _

/-- A list of one. -/
theorem Exchange.failAll_passThrough_one {x : Exchange} {f : Entry} {p : Port} (hx : x.outstanding = [f]) (hf : f.PassThrough)
    (ho : f.mem.origin = .port p) (now : Word) : (Exchange.failAll 1 now x).raised = x.raised ++
      [{ EventRecord.plain now (.memoryError .timeout) with port := some p, detail := f.mem.request.addr }] := by
  obtain ⟨q, hq, hcomplete⟩ := hf.complete { x with outstanding := [] } now .timeout
  obtain rfl := Origin.port.inj (ho.symm.trans hq)
  rw [Exchange.failAll, hx]
  dsimp only
  rw [hcomplete]
  rfl

/-- Settles O47: FAULT, MEMORY_TIMEOUT first, and every entry ERROR in issue order. -/
theorem responseTimeoutResult : Obligations.ResponseTimeoutResult := by
  intro s place e hr hs hp he
  refine ⟨fun hdue => ?_, fun hdue => ?_, ?_⟩
  · have hexec : exec (.responseTimerExpiry place) s = .next s.begin.finish :=
      congrArg (fun t : State => Host.Outcome.next t.finish) (State.responseExpiry_of_not_due hr hp he hdue)
    rw [hexec, hs.finish_of_none (t := s.begin) (fun _ => rfl) hs.1]
  · refine ⟨_, State.exec_responseExpiry hr hp he hs hdue, ?_⟩
    rw [State.timeout_of_quiet (e := e) hs]
    refine ⟨rfl, Exchange.failAll_outstanding _ _ _ (Nat.le_refl _), rfl, rfl, rfl, rfl, fun hall => ?_⟩
    obtain ⟨hwindows, hcarry, hanswers⟩ := Exchange.failAll_passThrough s.time.ticks s.exch.outstanding { s.begin.exch with
      raised := [{ s.exch.failureRecord s.time.ticks e .timeout with kind := .memoryTimeout, seq := 0 }] } rfl hall
    refine ⟨hwindows, hcarry, hanswers, fun p hone ho => ?_⟩
    have hpass : e.PassThrough := hall e (by rw [hone]; exact List.mem_singleton_self e)
    have hraised := Exchange.failAll_passThrough_one (x := { s.begin.exch with
      raised := [{ s.exch.failureRecord s.time.ticks e .timeout with kind := .memoryTimeout, seq := 0 }] }) hone hpass ho s.time.ticks
    rw [hpass.failureRecord ho] at hraised ⊢
    rw [show s.exch.outstanding.length = 1 by rw [hone]; rfl]
    exact State.flush_of_timeout_one { s.begin with
      exch := Exchange.failAll 1 s.time.ticks _, memPort := { s.memPort with state := .fault } } hraised rfl
  · intro y hdue first hfail
    have hkeeps := Exchange.failAll_keeps s.exch.outstanding.length s.time.ticks { s.begin.exch with raised := [first] }
    rw [Exchange.failAll_eq _ _ _ _ hfail] at hkeeps
    obtain ⟨records, hraised⟩ := hkeeps.raised
    obtain ⟨others, choices, hperm, hflush⟩ := State.flush_of_timeout
      { s.begin with exch := y, memPort := { s.memPort with state := .fault } } hraised rfl
    refine ⟨records, others, choices, hraised, hperm, ?_⟩
    rw [State.exec_responseExpiry hr hp he hs hdue, State.timeout_of_quiet (e := e) hs, Exchange.failAll_eq _ _ _ _ hfail]
    exact congrArg Host.Outcome.next hflush

end Sys2Proof.Machine
end

section
/-!
The carry engine (R80 to R87, R95): what it presents, the block it chooses, demands, the end of a block, a cancellation.
-/

namespace Sys2Proof.Machine

/-! ### What it presents (R83, R84, R86) -/

section
variable {x : Exchange} {w : Window} {b : Nat} {ph : Phase} {j : Job}

theorem Exchange.carryOutstanding_iff (x : Exchange) :
    x.carryOutstanding = true ↔ ∃ e, e ∈ x.outstanding ∧ e.mem.origin = .carry := by
  simp only [Exchange.carryOutstanding, List.any_eq_true, decide_eq_true_eq]

theorem Exchange.presented_carry_of_idle (h : x.carry.current = none) : x.presented? .carry = none := by
  simp only [Exchange.presented?, Exchange.carryRequest, h, ite_self]

/-- With nothing of its own outstanding it presents its block's request. -/
theorem Exchange.presented_carry (hnone : ∀ e, e ∈ x.outstanding → e.mem.origin ≠ .carry) :
    x.presented? .carry = x.carryRequest := by
  have hnot : x.carryOutstanding = false := Bool.eq_false_iff.mpr fun h => by
    obtain ⟨e, he, ho⟩ := x.carryOutstanding_iff.mp h
    exact hnone e he ho
  simp only [Exchange.presented?, hnot, Bool.false_eq_true, if_false]

variable (hcurrent : x.carry.current = some { window := w, block := b, phase := ph }) (hj : x.carry.job? w = some j)
include hcurrent hj

theorem Exchange.carryRequest_copy_read {src : SlotId} (hwork : j.work = .copy src) (hph : ph = .read) :
    x.carryRequest = some
      { request := { addr := (x.win w).geom.physical src (32 * b), access := .read (.burst 8) },
        origin := .carry, kind := .carryRead, window := some w, slot := some src } := by
  subst hph
  simp only [Exchange.carryRequest, hcurrent, hj, hwork]
  rfl

theorem Exchange.carryRequest_copy_write {src : SlotId} {words : List Word} (hwork : j.work = .copy src) (hph : ph = .write)
    (hbuffer : x.carry.buffer = some words) :
    x.carryRequest = some
      { request := { addr := (x.win w).geom.physical j.dest (32 * b), access := .write (.burst words) },
        origin := .carry, kind := .carryWrite, window := some w, slot := some j.dest } := by
  subst hph
  simp only [Exchange.carryRequest, hcurrent, hj, hwork, hbuffer]
  rfl

theorem Exchange.carryRequest_fill {v : Word} (hwork : j.work = .fill v) :
    x.carryRequest = some
      { request := { addr := (x.win w).geom.physical j.dest (32 * b), access := .write (.burst (List.replicate 8 v)) },
        origin := .carry, kind := .carryWrite, window := some w, slot := some j.dest } := by
  simp only [Exchange.carryRequest, hcurrent, hj, hwork]
  cases ph <;> rfl

end

/-! ### The block it chooses (R81, R82) -/

section
variable {e : Engine} {w : Window} {b : Nat} {j : Job}

theorem Engine.choose_of_current (h : e.current ≠ none) : e.choose = e := by
  obtain ⟨cur, hcur⟩ := Option.ne_none_iff_exists'.mp h
  simp only [Engine.choose, hcur]

theorem Engine.choose_of_empty (hcur : e.current = none) (hjobs : e.jobs = []) (horder : e.order = []) :
    e.choose = { e with buffer := none } := by
  simp only [Engine.choose, Engine.nextBlock, hcur, hjobs, horder, List.head?_nil, Option.map_none]

theorem Engine.choose_demand {rest : List (Window × Nat)} (hcur : e.current = none) (horder : e.order = (w, b) :: rest)
    (hj : e.job? w = some j) :
    e.choose = { e with current := some { window := w, block := b, phase := j.firstPhase }, buffer := none } := by
  simp only [Engine.choose, Engine.nextBlock, hcur, horder, hj, Option.map_some]

theorem Engine.choose_head {rest : List Job} (hcur : e.current = none) (horder : e.order = []) (hjobs : e.jobs = j :: rest) :
    e.choose = { e with current := some { window := j.window, block := j.pointer, phase := j.firstPhase }, buffer := none } := by
  have hj : e.job? j.window = some j := by simp [Engine.job?, hjobs]
  simp only [Engine.choose, Engine.nextBlock, hcur, horder, hjobs, List.head?_cons, Option.map_some, hj]

/-! ### Demands and cancellation (R87, R95) -/

variable {pre post : List Job} (hjobs : e.jobs = pre ++ j :: post) (hw : j.window = w) (hne : ∀ i, i ∈ pre ++ post → i.window ≠ w)
include hjobs hw hne

/-- A block in progress, a block listed and a full list take no demand. -/
theorem Engine.demand_none (h : (∃ ph, e.current = some { window := w, block := b, phase := ph }) ∨
    (∃ d, d ∈ j.demands ∧ d.block = b) ∨ 4 ≤ j.demands.length) : e.demand w b = e := by
  simp only [Engine.demand, Engine.job?_middle e w hjobs hw hne]
  split
  · rfl
  · next hcur =>
    split
    · rfl
    · next hlisted =>
      refine if_neg fun hroom => ?_
      rcases h with ⟨ph, h⟩ | ⟨d, hd, hb⟩ | h
      · simp [h] at hcur
      · exact hlisted (List.any_eq_true.mpr ⟨d, hd, decide_eq_true hb⟩)
      · exact absurd hroom (Nat.not_lt.mpr h)

/-- Any other block enters the job's list and the order of entry. -/
theorem Engine.demand_enters (hcur : ∀ ph, e.current ≠ some { window := w, block := b, phase := ph })
    (hlisted : ∀ d, d ∈ j.demands → d.block ≠ b) (hroom : j.demands.length < 4) :
    e.demand w b = { e with
      jobs := pre ++ { j with demands := j.demands ++ [{ block := b, done := false }] } :: post, order := e.order ++ [(w, b)] } := by
  have hidle : (e.current.any fun c => c.window = w && c.block = b) = false := by
    cases h : e.current with
    | none => rfl
    | some cur =>
      obtain ⟨window, block, phase⟩ := cur
      refine Bool.eq_false_iff.mpr fun hany => hcur phase ?_
      obtain ⟨rfl, rfl⟩ : window = w ∧ block = b := by simpa using hany
      exact h
  have hnew : (j.demands.any fun d => d.block = b) = false :=
    List.any_eq_false.mpr fun d hd => by simpa using hlisted d hd
  have hother : ∀ l : List Job, (∀ i, i ∈ l → i.window ≠ w) → (l.map fun i =>
      if i.window = w then { i with demands := i.demands ++ [{ block := b, done := false }] } else i) = l := fun l hl =>
    (List.map_congr_left fun i hi => if_neg (hl i hi)).trans l.map_id
  simp only [Engine.demand, Engine.job?_middle e w hjobs hw hne, hidle, hnew, Bool.false_eq_true, if_false]
  rw [if_pos (show j.demands.length < Config.demandRoom from hroom), hjobs, List.map_append, List.map_cons, if_pos hw,
    hother pre fun i hi => hne i (by simp [hi]), hother post fun i hi => hne i (by simp [hi])]

/-- A job leaves the queue alone. -/
theorem Engine.filter_middle : (e.jobs.filter fun i => i.window ≠ w) = pre ++ post := by
  rw [hjobs, List.filter_append, List.filter_cons_of_neg (by simpa using hw), ← List.filter_append]
  exact List.filter_eq_self.mpr fun i hi => by simpa using hne i hi

end

section
variable {e : Engine} {w : Window}

theorem Engine.cancel_order : (e.cancel w).order = e.order.filter fun d => d.1 ≠ w := by
  unfold Engine.cancel
  split
  · exact Engine.choose_order
  · rfl

/-- A cancellation that leaves the current block alone. -/
theorem Engine.cancel_of_not_current (h : ∀ cur, e.current = some cur → cur.window ≠ w) : e.cancel w = e.dropJob w := by
  refine if_neg fun hany => ?_
  cases hcur : e.current with
  | none => simp [hcur] at hany
  | some cur => exact h cur hcur (by simpa [hcur] using hany)

theorem Engine.cancel_of_current {cur : Current} (hcur : e.current = some cur) (hw : cur.window = w) :
    e.cancel w = Engine.choose { e.dropJob w with current := none, buffer := none } :=
  if_pos (by simp [hcur, hw])

end

/-! ### The end of a block (R80, R85) -/

/-- The demand list as the pointer p finds it: nothing below it, and no block twice. -/
structure Listed (p : Nat) (ds : List Demand) : Prop where
  above : ∀ d, d ∈ ds → p ≤ d.block
  nodup : (ds.map Demand.block).Nodup

/-- A block is done by a pointer and a list (R80). -/
def DoneBy (p : Nat) (ds : List Demand) (n : Nat) : Prop := n < p ∨ ({ block := n, done := true } : Demand) ∈ ds

theorem Listed.eq_of_block {p : Nat} {ds : List Demand} (h : Listed p ds) {a b : Demand} (ha : a ∈ ds) (hb : b ∈ ds)
    (hab : a.block = b.block) : a = b := List.inj_on_of_nodup_map h.nodup ha hb hab

/-- Once the entry of the block at the pointer is gone, every entry lies beyond it. -/
theorem Listed.pass {p : Nat} {ds : List Demand} (h : Listed p ds) : Listed (p + 1) (ds.filter fun d => d.block ≠ p) := by
  refine ⟨fun d hd => ?_, h.nodup.sublist (List.filter_sublist.map _)⟩
  obtain ⟨hd, hne⟩ := List.mem_filter.mp hd
  have hle := h.above d hd
  have hne : d.block ≠ p := of_decide_eq_true hne
  omega

/-- What the moves of the pointer keep and reach. -/
structure Advanced (p : Nat) (ds : List Demand) (r : Nat × List Demand) : Prop where
  le : p ≤ r.1
  listed : Listed r.1 r.2
  done_iff : ∀ n, DoneBy r.1 r.2 n ↔ DoneBy p ds n
  stops : ({ block := r.1, done := true } : Demand) ∉ r.2
  pending : (r.2.filter fun d => !d.done) = ds.filter fun d => !d.done

/-- One move over the block at the pointer, which is done. -/
theorem Advanced.step {p : Nat} {ds : List Demand} {r : Nat × List Demand} (hl : Listed p ds)
    (hp : ({ block := p, done := true } : Demand) ∈ ds) (h : Advanced (p + 1) (ds.filter fun d => d.block ≠ p) r) :
    Advanced p ds r := by
  obtain ⟨hle, hlisted, hdone, hstops, hpending⟩ := h
  refine ⟨by omega, hlisted, fun n => (hdone n).trans ?_, hstops, hpending.trans ?_⟩
  · simp only [DoneBy, List.mem_filter, decide_eq_true_eq]
    refine ⟨?_, ?_⟩
    · rintro (hn | ⟨hn, -⟩)
      · rcases Nat.lt_succ_iff_lt_or_eq.mp hn with hn | rfl
        · exact .inl hn
        · exact .inr hp
      · exact .inr hn
    · rintro (hn | hn)
      · exact .inl (by omega)
      · by_cases h : n = p
        · exact .inl (by omega)
        · exact .inr ⟨hn, h⟩
  · rw [List.filter_filter]
    refine List.filter_congr fun d hd => ?_
    by_cases hb : d.block = p
    · rw [hl.eq_of_block hd hp hb]
      rfl
    · simp [hb]

theorem advancePointer_spec (n p : Nat) (ds : List Demand) (hn : ds.length ≤ n) (hl : Listed p ds) :
    Advanced p ds (advancePointer n p ds) := by
  induction n generalizing p ds with
  | zero =>
    obtain rfl := List.length_eq_zero_iff.mp (Nat.le_zero.mp hn)
    exact ⟨Nat.le_refl _, hl, fun _ => .rfl, List.not_mem_nil, rfl⟩
  | succ n ih =>
    unfold advancePointer
    split
    · next hany =>
      obtain ⟨⟨block, done⟩, hd, hboth⟩ := List.any_eq_true.mp hany
      obtain ⟨rfl, rfl⟩ : block = p ∧ done = true := by simpa using hboth
      have hshort : (ds.filter fun d => d.block ≠ block).length < ds.length :=
        List.length_filter_lt_length_iff_exists.mpr ⟨_, hd, by simp⟩
      exact .step hl hd (ih _ _ (by omega) hl.pass)
    · next hany =>
      exact ⟨Nat.le_refl _, hl, fun _ => .rfl, fun h => hany (List.any_eq_true.mpr ⟨_, h, by simp⟩), rfl⟩

/-- The entry of block b marked done. -/
def markDone (b : Nat) (ds : List Demand) : List Demand := ds.map fun d => if d.block = b then { d with done := true } else d

theorem markDone_blocks (b : Nat) (ds : List Demand) : (markDone b ds).map Demand.block = ds.map Demand.block := by
  rw [markDone, List.map_map]
  refine List.map_congr_left fun d _ => ?_
  simp only [Function.comp_apply]
  split <;> rfl

theorem mem_markDone {b n : Nat} {ds : List Demand} : ({ block := n, done := true } : Demand) ∈ markDone b ds ↔
    ({ block := n, done := true } : Demand) ∈ ds ∨ n = b ∧ ∃ d, d ∈ ds ∧ d.block = b := by
  refine List.mem_map.trans ⟨?_, ?_⟩
  · rintro ⟨d, hd, h⟩
    split at h
    · next hb => exact .inr ⟨(congrArg Demand.block h).symm.trans hb, d, hd, hb⟩
    · exact .inl (h ▸ hd)
  · rintro (h | ⟨rfl, d, hd, rfl⟩)
    · exact ⟨_, h, by split <;> rfl⟩
    · exact ⟨d, hd, if_pos rfl⟩

theorem markDone_pending (b : Nat) (ds : List Demand) :
    ((markDone b ds).filter fun d => !d.done) = ds.filter fun d => !d.done && d.block ≠ b := by
  induction ds with
  | nil => rfl
  | cons d ds ih =>
    change List.filter _ ((if d.block = b then { d with done := true } else d) :: markDone b ds) = _
    rw [List.filter_cons, List.filter_cons, ih]
    by_cases hb : d.block = b <;> simp [hb]

theorem Listed.markDone {p : Nat} {ds : List Demand} (h : Listed p ds) (b : Nat) : Listed p (markDone b ds) := by
  refine ⟨fun d hd => ?_, (markDone_blocks b ds).symm ▸ h.nodup⟩
  have hmem : d.block ∈ ds.map Demand.block := markDone_blocks b ds ▸ List.mem_map_of_mem hd
  obtain ⟨d', hd', hblock⟩ := List.mem_map.mp hmem
  exact hblock ▸ h.above d' hd'

/-- A block with an entry is marked, and the pointer moves on from where it stands. -/
theorem Job.blockDone_of_listed {j : Job} {b : Nat} (h : ∃ d, d ∈ j.demands ∧ d.block = b) :
    ((j.blockDone b).pointer, (j.blockDone b).demands) =
      advancePointer (Machine.markDone b j.demands).length j.pointer (Machine.markDone b j.demands) := by
  obtain ⟨d, hd, hb⟩ := h
  have hentered : (j.demands.any fun d => d.block = b) = true := List.any_eq_true.mpr ⟨d, hd, decide_eq_true hb⟩
  simp only [Job.blockDone, hentered, Bool.not_true, Bool.and_false, Bool.false_eq_true, if_false]
  rfl

/-- The block at the pointer, without an entry, moves the pointer. -/
theorem Job.blockDone_of_pointer {j : Job} (h : ∀ d, d ∈ j.demands → d.block ≠ j.pointer) :
    ((j.blockDone j.pointer).pointer, (j.blockDone j.pointer).demands) =
      advancePointer (Machine.markDone j.pointer j.demands).length (j.pointer + 1) (Machine.markDone j.pointer j.demands) := by
  have hentered : (j.demands.any fun d => d.block = j.pointer) = false :=
    List.any_eq_false.mpr fun d hd => by simpa using h d hd
  simp only [Job.blockDone, hentered, Bool.not_false, Bool.and_true, decide_true, if_true]
  rfl

/-- Settles O41: presentation and choice case by case; the end of a block by what the moves of the pointer keep. -/
theorem carryEnginePresents : Obligations.CarryEnginePresents := by
  refine ⟨fun x => ⟨fun h => if_pos (x.carryOutstanding_iff.mpr h), Exchange.presented_carry_of_idle, ?_⟩, fun e => ?_, ?_, ?_⟩
  · intro w b ph j hnone hcur hj
    rw [Exchange.presented_carry hnone]
    exact ⟨fun src hwork hph => Exchange.carryRequest_copy_read hcur hj hwork hph,
      fun src words hwork hph hbuffer => Exchange.carryRequest_copy_write hcur hj hwork hph hbuffer,
      fun v hwork => Exchange.carryRequest_fill hcur hj hwork⟩
  · intro phase
    exact ⟨Engine.choose_of_current, Engine.choose_of_empty, fun w b rest j hcur horder hj => Engine.choose_demand hcur horder hj,
      fun j rest hcur horder hjobs => Engine.choose_head hcur horder hjobs⟩
  · intro e w b j pre post hjobs hw hne
    have hfilter := Engine.filter_middle hjobs hw hne
    refine ⟨Engine.demand_none hjobs hw hne, Engine.demand_enters hjobs hw hne, Engine.cancel_jobs.trans hfilter,
      Engine.cancel_order, fun cur hcur hcw => ?_, fun cur hcur hcw => ?_, fun hcur => ?_⟩
    · rw [Engine.cancel_of_not_current fun c hc => by rw [← Option.some.inj (hcur.symm.trans hc)]; exact hcw]
      exact ⟨hcur, rfl⟩
    · rw [Engine.cancel_of_current hcur hcw, Engine.dropJob, hfilter]
    · rw [Engine.cancel_of_not_current fun c hc => by rw [hcur] at hc; cases hc]
      exact hcur
  · intro j b habove hnodup hb done
    have hlisted : Listed j.pointer j.demands := ⟨habove, hnodup⟩
    by_cases hentry : ∃ d, d ∈ j.demands ∧ d.block = b
    · have hadvanced := Job.blockDone_of_listed hentry ▸ advancePointer_spec _ j.pointer _ (Nat.le_refl _) (hlisted.markDone b)
      obtain ⟨hle, hafter, hdone, hstops, hpending⟩ := hadvanced
      refine ⟨fun n => (hdone n).trans ?_, fun h => ?_, hle, hafter.above, hpending.trans (markDone_pending b j.demands), rfl, rfl, rfl⟩
      · simp only [DoneBy, mem_markDone, hentry, and_true, done, or_assoc]
      · rcases h with h | h
        · exact absurd h (Nat.lt_irrefl _)
        · exact hstops h
    · obtain rfl : b = j.pointer := hb.resolve_right fun h => hentry ⟨_, h, rfl⟩
      have hnot : ∀ d, d ∈ j.demands → d.block ≠ j.pointer := fun d hd h => hentry ⟨d, hd, h⟩
      have hbeyond : Listed (j.pointer + 1) j.demands :=
        ⟨fun d hd => Nat.lt_of_le_of_ne (habove d hd) (Ne.symm (hnot d hd)), hnodup⟩
      have hadvanced := Job.blockDone_of_pointer hnot ▸
        advancePointer_spec _ (j.pointer + 1) _ (Nat.le_refl _) (hbeyond.markDone j.pointer)
      obtain ⟨hle, hafter, hdone, hstops, hpending⟩ := hadvanced
      refine ⟨fun n => (hdone n).trans ?_, fun h => ?_, Nat.le_of_succ_le hle, hafter.above,
        hpending.trans (markDone_pending j.pointer j.demands), rfl, rfl, rfl⟩
      · simp only [DoneBy, mem_markDone, hentry, and_false, or_false, done, Nat.lt_succ_iff_lt_or_eq, or_right_comm]
      · rcases h with h | h
        · exact absurd h (Nat.lt_irrefl _)
        · exact hstops h

end Sys2Proof.Machine
end

section
/-!
The releases (R134, R138, R140): the deassertion of RESET_N and of PRST, and the request taken from a link then.
-/

namespace Sys2Proof.Machine

/-! ### Under RESET_N (R140) -/

/-- The ports as RESET_N leaves them: ACTIVE or IN_RESET by their PRST. -/
def State.released (s : State) : PerPort PortUnit :=
  PerPort.ofFn fun p => { s.exch.port p with state := if (s.exch.port p).prst then .inReset else .active }

section
variable {s : State}

theorem State.released_get (q : Port) :
    s.released.get q = { s.exch.port q with state := if (s.exch.port q).prst then .inReset else .active } :=
  PerPort.get_ofFn _ q

/-- The state in which the event of the deassertion ends. -/
def State.up (s : State) : State := { s.begin with resetAsserted := false, exch := { s.begin.exch with ports := s.released } }

theorem State.pinRelease_eq (hr : s.resetAsserted = true) : s.begin.pinRelease = s.up := by
  rw [State.pinRelease, if_pos (by rw [State.begin_resetAsserted]; exact hr)]
  rfl

theorem State.exec_pinResetRelease (hr : s.resetAsserted = true) : exec .pinResetRelease s = .next s.up.finish :=
  congrArg (fun t : State => Host.Outcome.next t.finish) (State.pinRelease_eq hr)

/-- The ports that take a request then. -/
theorem State.mem_linkPorts_up (q : Port) : q ∈ s.up.linkPorts ↔
    ((s.exch.port q).prst = false ∧ (s.exch.port q).hand = .none) ∧ (s.exch.port q).link ≠ [] := by
  rw [State.mem_linkPorts s.up rfl q]
  have hport : s.up.exch.port q = { s.exch.port q with state := if (s.exch.port q).prst then .inReset else .active } :=
    State.released_get q
  rw [hport]
  cases (s.exch.port q).prst <;> simp

end

/-! ### PRST of one port (R134, R138) -/

/-- A port after the deassertion of its PRST. -/
def PortUnit.afterRelease (u : PortUnit) : PortUnit :=
  { u with prst := false, state := if u.state = .inReset ∧ u.hand = .none then .active else u.state }

section
variable {s : State} {p : Port}

theorem State.deassertPrst_reset (hr : s.resetAsserted = true) :
    s.begin.deassertPrst p = { s.begin with exch := s.begin.exch.modPort p fun u => { u with prst := false } } :=
  if_pos hr

theorem PortUnit.leaveReset_afterRelease (u : PortUnit) : PortUnit.leaveReset { u with prst := false } = u.afterRelease := by
  obtain ⟨prst, state, hand, link⟩ := u
  by_cases hhand : hand = .none <;> cases state <;> simp [PortUnit.leaveReset, PortUnit.afterRelease, hhand]

/-- The state in which the event of the deassertion of PRST ends. -/
def State.afterRelease (s : State) (p : Port) : State := { s.begin with exch := s.begin.exch.modPort p PortUnit.afterRelease }

theorem State.deassertPrst_eq (hr : s.resetAsserted = false) : s.begin.deassertPrst p = s.afterRelease p := by
  have hdeassert : s.begin.deassertPrst p = { s.begin with
      exch := (s.begin.exch.modPort p fun u => { u with prst := false }).modPort p PortUnit.leaveReset } :=
    if_neg (by rw [State.setPrst, State.begin_resetAsserted, hr]; exact Bool.false_ne_true)
  rw [hdeassert, Exchange.modPort_modPort, funext PortUnit.leaveReset_afterRelease]
  rfl

theorem State.exec_portResetRelease (hr : s.resetAsserted = false) :
    exec (.portResetRelease p) s = .next (s.afterRelease p).finish :=
  congrArg (fun t : State => Host.Outcome.next t.finish) (State.deassertPrst_eq hr)

theorem State.port_afterRelease (q : Port) : (s.afterRelease p).exch.port q =
    if q = p then (s.exch.port p).afterRelease else s.exch.port q := by
  split
  · next h => exact h ▸ Exchange.port_modPort_self _ _ _
  · next h => exact Exchange.port_modPort_ne _ _ _ h

/-- A port with nothing in hand takes requests once its PRST is deasserted. -/
theorem PortUnit.afterRelease_active {u : PortUnit} (h : u.hand = .none) : u.afterRelease.state = .active := by
  obtain ⟨prst, state, hand, link⟩ := u
  cases h
  cases state <;> simp [PortUnit.afterRelease]

/-- The released port is the one that takes a request, if it has one on its link and nothing in hand. -/
theorem State.mem_linkPorts_afterRelease (hr : s.resetAsserted = false) (hs : s.Settled) (q : Port) :
    q ∈ (s.afterRelease p).linkPorts ↔
      q = p ∧ (s.exch.port p).hand = .none ∧ (s.exch.port p).link ≠ [] := by
  have hnot : q ∉ s.linkPorts := by rw [hs.2]; exact List.not_mem_nil
  rw [State.mem_linkPorts s hr q] at hnot
  rw [State.mem_linkPorts (s.afterRelease p) hr q, State.port_afterRelease]
  by_cases hq : q = p
  · subst hq
    rw [if_pos rfl]
    exact ⟨fun h => ⟨rfl, h.1.2, h.2⟩, fun h => ⟨⟨PortUnit.afterRelease_active h.2.1, h.2.1⟩, h.2.2⟩⟩
  · rw [if_neg hq]
    exact ⟨fun h => absurd h hnot, fun h => absurd h.1 hq⟩

end

/-- Settles O16: what the levels of RESET_N and PRST do to the ports; the event ends as the ports that take requests then have it. -/
theorem resetReleases : Obligations.ResetReleases := by
  intro s hs
  refine ⟨fun hr => ?_, fun hr p => ?_⟩
  · intro ports takes up
    refine ⟨fun hnone => ?_, ?_, ?_, fun p => ?_⟩
    · rw [State.exec_pinResetRelease hr, State.finish_of_none s.up hs.1]
      · rfl
      · refine List.eq_nil_iff_forall_not_mem.mpr fun q hq => ?_
        obtain ⟨htakes, hlink⟩ := (State.mem_linkPorts_up q).mp hq
        exact hlink (hnone q htakes)
    · rintro ⟨q, htakes, hlink⟩
      obtain ⟨v, vs, hports⟩ := List.exists_cons_of_ne_nil (List.ne_nil_of_mem ((State.mem_linkPorts_up q).mpr ⟨htakes, hlink⟩))
      obtain ⟨q, r, rest, hq, hl, hfinish⟩ := State.finish_of_ports s.up v vs hs.1 hports
      have hport : s.up.exch.port q = _ := State.released_get q
      rw [hport] at hl
      exact ⟨q, r, rest, _, ((State.mem_linkPorts_up q).mp hq).1, hl, (State.exec_pinResetRelease hr).trans (congrArg _ hfinish)⟩
    · intro i q r htakes hl hothers hi hw
      have hport : s.up.exch.port q = _ := State.released_get q
      have hports : s.up.linkPorts = [q] := State.linkPorts_single _ q
        ((State.mem_linkPorts_up q).mpr ⟨htakes, by rw [hl]; exact List.cons_ne_nil _ _⟩) fun v hv h => by
          obtain ⟨hv', hlink⟩ := (State.mem_linkPorts_up v).mp h
          exact hlink (hothers v hv hv')
      rw [State.exec_pinResetRelease hr, State.finish_of_link s.up q r [] hs.1 hports (by rw [hport]; exact hl)]
      refine (State.exec_request_eq i q r { s with
        resetAsserted := false,
        exch := ({ s.exch with ports := ports } : Exchange).modPort q fun u => { u with link := [] } } hi hw ⟨rfl, ?_, ?_⟩ ?_).symm
      all_goals rw [Exchange.port_modPort_self]
      · exact (congrArg PortUnit.state hport).trans (by rw [htakes.1]; rfl)
      · exact (congrArg PortUnit.hand hport).trans htakes.2
    · have hexec : exec (.portResetRelease p) s = .next _ :=
        congrArg (fun t : State => Host.Outcome.next t.finish) (State.deassertPrst_reset (p := p) hr)
      refine hexec.trans (congrArg Host.Outcome.next (State.finish_of_none _ hs.1 ?_))
      exact List.filter_eq_nil_iff.mpr fun q _ => by simp [State.portReady, hr]
  · intro released
    have hmem := State.mem_linkPorts_afterRelease (p := p) hr hs
    have htaken : ∀ r rest, (s.exch.port p).hand = .none → (s.exch.port p).link = r :: rest →
        exec (.portResetRelease p) s = .next ({ s.begin with
          exch := (s.begin.exch.modPort p fun u => { released u with link := rest }).take s.time.ticks p r } : State).finish := by
      intro r rest hhand hl
      have hports : (s.afterRelease p).linkPorts = [p] := State.linkPorts_single _ p
        ((hmem p).mpr ⟨rfl, hhand, by rw [hl]; exact List.cons_ne_nil _ _⟩) fun v hv h => hv ((hmem v).mp h).1
      have hlink : ((s.afterRelease p).exch.port p).link = r :: rest := by rw [State.port_afterRelease, if_pos rfl]; exact hl
      rw [State.exec_portResetRelease hr, State.finish_of_link (s.afterRelease p) p r rest hs.1 hports hlink]
      have hmod := s.begin.exch.modPort_modPort p PortUnit.afterRelease fun u => { u with link := rest }
      exact congrArg (fun x : Exchange => Host.Outcome.next
        (State.finish { s.begin with exch := x.take s.time.ticks p r })) hmod
    refine ⟨fun h => ?_, ?_, ?_⟩
    · rw [State.exec_portResetRelease hr, State.finish_of_none (s.afterRelease p) hs.1]
      · rfl
      · refine List.eq_nil_iff_forall_not_mem.mpr fun q hq => ?_
        obtain ⟨-, hhand, hlink⟩ := (hmem q).mp hq
        exact h.elim (fun h => h hhand) fun h => hlink h
    · intro r rest hhand hl
      exact htaken r rest hhand hl
    · intro i r hhand hl hi hw
      refine (htaken r [] hhand hl).trans (State.exec_request_eq i p r { s with
        exch := s.exch.modPort p fun u => { released u with link := [] } } hi hw ⟨hr, ?_, ?_⟩ ?_).symm
      all_goals rw [Exchange.port_modPort_self]
      · exact PortUnit.afterRelease_active hhand
      · exact hhand

end Sys2Proof.Machine
end

section
/-!
The port reset (R134 to R137): its event, and the resets of one window.
-/

namespace Sys2Proof.Machine

/-! ### Its event -/

section
variable {s : State} {p : Port}

/-- The port as its reset begins: IN_RESET, PRST asserted. -/
def State.atReset (s : State) (p : Port) : Exchange := s.begin.exch.modPort p fun u => { u with prst := true, state := .inReset }

/-- The exchange once the request in hand is ended. -/
def State.handEnded (s : State) (p : Port) : Exchange := (s.atReset p).resetHand s.time.ticks p

/-- The record of the reset. -/
def State.resetRecord (s : State) (p : Port) : EventRecord := portResetRecord s.time.ticks p (s.exch.port p).hand

/-- The windows that the reset treats, in their order (notes/assumptions/6.md). -/
def State.resetOrder (s : State) (p : Port) : List Window :=
  permute ((s.handEnded p).resetWindows p) (Config.freeChoice s.choices)

/-- The exchange once they are treated. -/
def State.rolesEnded (s : State) (p : Port) : Exchange :=
  (s.resetOrder p).foldl (fun y w => y.resetRole s.time.ticks p w) ((s.handEnded p).raise (s.resetRecord p))

/-- Without an ACTIVE port to reset the level alone changes. -/
theorem State.exec_portReset_level (h : s.resetAsserted = true ∨ (s.exch.port p).state ≠ .active) :
    exec (.portReset p) s = .next ({ s.begin with exch := s.begin.exch.modPort p fun u => { u with prst := true } } : State).finish := by
  have hassert : s.begin.assertPrst p = { s.begin with exch := s.begin.exch.modPort p fun u => { u with prst := true } } := by
    rw [State.assertPrst, State.unlessReset]
    split
    · rfl
    · next hr =>
      have hstate : ((s.begin.setPrst p true).exch.port p).state ≠ .active := by
        rw [State.setPrst, Exchange.port_modPort_self]
        exact h.resolve_left hr
      rw [if_neg hstate]
      rfl
  exact congrArg (fun t : State => Host.Outcome.next t.finish) hassert

variable (hr : s.resetAsserted = false) (hactive : (s.exch.port p).state = .active)
include hr hactive

theorem State.exec_portReset : exec (.portReset p) s = .next ({ s.begin with
    exch := s.rolesEnded p, choices := s.choices + choicesUsed ((s.handEnded p).resetWindows p).length } : State).finish := by
  have hstate : ((s.begin.setPrst p true).exch.port p).state = .active := by
    rw [State.setPrst, Exchange.port_modPort_self]
    exact hactive
  have hhand : ((s.begin.setPrst p true).exch.port p).hand = (s.exch.port p).hand := by
    rw [State.setPrst, Exchange.port_modPort_self]
    rfl
  have hport : (s.begin.setPrst p true).exch.modPort p (fun u => { u with state := .inReset }) = s.atReset p :=
    s.begin.exch.modPort_modPort p (fun u => { u with prst := true }) fun u => { u with state := .inReset }
  have hassert : s.begin.assertPrst p = (s.begin.setPrst p true).portReset p := by
    rw [State.assertPrst, State.unlessReset, if_neg (by rw [State.setPrst, State.begin_resetAsserted, hr]; exact Bool.false_ne_true),
      if_pos hstate]
  have hexec : exec (.portReset p) s = .next ((s.begin.setPrst p true).portReset p).finish :=
    congrArg (fun t : State => Host.Outcome.next t.finish) hassert
  rw [hexec, State.portReset, hport, hhand]
  rfl

variable (hs : s.Quiet)
include hs

omit hr hactive in
theorem State.rolesEnded_link (q : Port) : ((s.rolesEnded p).port q).link = [] := by
  have hkeeps := ((s.atReset p).resetHand_keeps s.time.ticks p).trans ((Exchange.raise_keeps _ (s.resetRecord p)).trans
    (Exchange.foldl_keeps _ (fun x w => x.resetRole_keeps s.time.ticks p w) (s.resetOrder p) _))
  refine (hkeeps.ports q).link.trans (Eq.trans ?_ (hs.2 q))
  by_cases hq : q = p
  · subst hq
    rw [State.atReset, Exchange.port_modPort_self]
    rfl
  · rw [State.atReset, Exchange.port_modPort_ne _ _ _ hq]
    rfl

/-- The event ends with its records. -/
theorem State.exec_portReset_flush : exec (.portReset p) s = .next ({ s.begin with
    exch := s.rolesEnded p, choices := s.choices + choicesUsed ((s.handEnded p).resetWindows p).length } : State).flush := by
  rw [State.exec_portReset hr hactive, State.finish, State.takeLinks_of_none _ (State.linkPorts_of_empty _ (State.rolesEnded_link hs))]

theorem State.endsIn_portReset {z : Exchange} (hz : s.rolesEnded p = z) : s.EndsIn (.portReset p) z := by
  subst hz
  obtain ⟨events, choices, hflush, hoffers⟩ := ({ s.begin with
    exch := s.rolesEnded p, choices := s.choices + choicesUsed ((s.handEnded p).resetWindows p).length } : State).flush_eq
  exact ⟨events, choices, (State.exec_portReset_flush hr hactive hs).trans (congrArg _ hflush), hoffers⟩

/-- With no binding to bring to rest, the one record ends the event. -/
theorem State.exec_portReset_one (hws : (s.handEnded p).resetWindows p = []) (hraised : (s.handEnded p).raised = []) :
    exec (.portReset p) s = .next { s.begin with exch := s.handEnded p, events := s.record (s.resetRecord p) } := by
  have hroles : s.rolesEnded p = (s.handEnded p).raise (s.resetRecord p) := by
    rw [State.rolesEnded, State.resetOrder, hws]
    rfl
  have hflush := State.flush_of_one { s.begin with exch := (s.handEnded p).raise (s.resetRecord p) } (s.resetRecord p)
    (by rw [Exchange.raise, hraised]; rfl)
  rw [State.exec_portReset_flush hr hactive hs, hroles, hws]
  refine (congrArg Host.Outcome.next hflush).trans ?_
  rw [← hraised]
  rfl

end

/-! ### The request in hand (R136) -/

section
variable {s : State} {p : Port}

theorem Exchange.resetWindows_congr {x y : Exchange} (h : y.windows = x.windows) (p : Port) : y.resetWindows p = x.resetWindows p := by
  cases x
  cases y
  cases h
  rfl

theorem State.atReset_port : (s.atReset p).port p = { s.exch.port p with prst := true, state := .inReset } :=
  Exchange.port_modPort_self _ _ _

theorem State.handEnded_none (h : (s.exch.port p).hand = .none) : s.handEnded p = s.atReset p := by
  simp only [State.handEnded, Exchange.resetHand, State.atReset_port, h]

theorem State.handEnded_outstanding {r : Request} {b : Bool} (h : (s.exch.port p).hand = .outstanding r b) :
    s.handEnded p = { s.atReset p with
      outstanding := s.exch.outstanding.map fun e => if e.mem.origin = .port p then { e with discarded := true } else e } := by
  simp only [State.handEnded, Exchange.resetHand, State.atReset_port, h]
  rfl

theorem State.handEnded_passThrough {r : Request} {m : MemRequest} {b : Bool} (h : (s.exch.port p).hand = .presented r m b)
    (hw : m.window = none) : s.handEnded p = (s.atReset p).setHand p .none := by
  simp only [State.handEnded, Exchange.resetHand, State.atReset_port, h, hw]

end

/-! ### The binding of one window (R137) -/

section
variable {x : Exchange} {now : Word} {p : Port} {w : Window} {m : LiveMode} {c : Context}

/-- A FILLING frame without a carry job is abandoned, and the drain test follows. -/
theorem Exchange.resetRole_filling {k : SlotId} {sl : Slot} (hl : (x.win w).life = .live m c) (hm : m ≠ .observe)
    (hp : (x.win w).geom.writer = p) (hs : c.writer.state = .filling k) (hk : c.slots.get k = some sl)
    (hj : x.carry.job? w = none) :
    x.resetRole now p w = ({ x.modWin w (fun u => { u with
        counters := { u.counters with abandoned := u.counters.abandoned + 1 }, life := .live m (c.afterAbandon k sl) }) with
      raised := x.raised ++ [{ EventRecord.plain now (.frameAbandoned .portReset) with
        window := some w, port := some p, slot := some k, detail := c.writer.bytesWritten }] } : Exchange).drainTest now w :=
  x.resetRole_eq now p w _ ⟨m, c, hl, hm, .inr (.inl ⟨k, sl, x, c, hp.symm, hs, hk, .inl ⟨hj, rfl, rfl⟩,
    (Exchange.drainTest_iff _ now w _).mpr rfl⟩)⟩

/-- A held slot is given back, where no writer waits, and the drain test follows. -/
theorem Exchange.resetRole_holding {k : SlotId} {b : ReaderBinding} (hl : (x.win w).life = .live m c) (hm : m ≠ .observe)
    (hp : (x.win w).geom.writer ≠ p) (hreader : (x.win w).geom.readers.get p = true) (hb : c.readers.get p = some b)
    (hs : b.state = .holding k) (hwait : c.writer.state ≠ .waiting) :
    x.resetRole now p w = (x.modWin w fun u => { u with
      life := .live m (c.giveBack (x.win w).geom.delivery p .idle) }).drainTest now w :=
  x.resetRole_eq now p w _ ⟨m, c, hl, hm, .inr (.inr ⟨b, hp.symm, hreader, hb, .inl ⟨k, _, hs,
    Exchange.Serves.of_not_waiting (congrArg WindowUnit.life (x.win_modWin_self w fun u => { u with
      life := .live m (c.giveBack (x.win w).geom.delivery p .idle) })) ((c.giveBack_writer _ p .idle).symm ▸ hwait) now,
    (Exchange.drainTest_iff _ now w _).mpr rfl⟩⟩)⟩

end

/-! ### The drain of the one window -/

section
variable {s : State} {p : Port} {w : Window} {c1 : Context} {x : Exchange} {l : List EventRecord}

/-- A part whose reset leaves one window DRAINING, with context c1, and is then tested for its drain. -/
theorem State.EndsIn.drained_or_not {i : Instr}
    (h : s.EndsIn i (({ x.modWin w (fun u => { u with life := .live .draining c1 }) with raised := l } : Exchange).drainTest
      s.time.ticks w)) (hraised : x.raised = []) :
    (¬c1.DrainMet (x.win w).geom.delivery → ∃ events choices,
      exec i s = .next { s.begin with
        exch := x.modWin w fun u => { u with life := .live .draining c1 }, events := events, choices := choices } ∧
      s.Offers l events) ∧
    (c1.DrainMet (x.win w).geom.delivery → ∃ y events choices,
      exec i s = .next { s.begin with exch := y, events := events, choices := choices } ∧
      x.BecomesDisabled y w ∧ s.Offers (l ++ (x.win w).disableRecords s.time.ticks w .drained) events) := by
  let v : Exchange := { x.modWin w (fun u => { u with life := .live .draining c1 }) with raised := l }
  have hwin : v.win w = { x.win w with life := .live .draining c1 } :=
    x.win_modWin_self w fun u => { u with life := .live .draining c1 }
  have hlife : (v.win w).life = .live .draining c1 := congrArg WindowUnit.life hwin
  have hgeom : (v.win w).geom = (x.win w).geom := (congrArg WindowUnit.geom hwin :)
  refine ⟨fun hnot => ?_, fun hmet => ?_⟩
  · rw [Exchange.drainTest_of_not_met hlife (.inr ⟨rfl, hgeom ▸ hnot⟩)] at h
    obtain ⟨events, choices, hexec, hoffers⟩ := h
    refine ⟨events, choices, hexec.trans ?_, hoffers⟩
    rw [← hraised]
    rfl
  · have htested := (v.drainTest_iff s.time.ticks w _).mpr rfl
    simp only [Exchange.DrainTested, hlife] at htested
    obtain ⟨hnot, -⟩ | ⟨-, y, hy, htest⟩ := htested
    · exact absurd (hgeom ▸ hmet) hnot
    · obtain ⟨events, choices, hexec, hoffers⟩ := (htest ▸ h : s.EndsIn i _)
      obtain ⟨-, -, -, -, -, hnone⟩ := id hy
      refine ⟨y, events, choices, hexec.trans ?_, hy.of_life, ?_⟩
      · rw [← hnone]
      · rw [hwin] at hoffers
        exact hoffers

end

end Sys2Proof.Machine
end

section
/-!
The port reset in all windows at once (R135 to R137), where no drain, no job and no other writer's wait takes part.
-/

namespace Sys2Proof.Machine

/-! ### What it leaves of one window -/

/-- The slot whose frame the reset of port p abandons. -/
def Context.abandons (c : Context) (g : Geometry) (p : Port) : Option SlotId :=
  if g.writer = p then
    match c.writer.state with
    | .filling k => some k
    | _ => none
  else none

/-- An ACTIVE window's context after the reset of port p. -/
def Context.afterReset (c : Context) (g : Geometry) (p : Port) : Context :=
  if g.writer = p then
    match c.writer.state with
    | .noSlot => c
    | .waiting => { c with writer := { c.writer with state := .noSlot } }
    | .filling k =>
      match c.slots.get k with
      | some sl => c.afterAbandon k sl
      | none => c
  else if g.readers.get p then
    match c.readers.get p with
    | none => c
    | some b =>
      match b.state with
      | .holding _ => c.giveBack g.delivery p .idle
      | _ => { c with readers := c.readers.set p (some { b with state := .idle }) }
  else c

def WindowUnit.afterReset (u : WindowUnit) (p : Port) : WindowUnit :=
  match u.life with
  | .live .active c =>
    { u with
      counters := if (c.abandons u.geom p).isSome then { u.counters with abandoned := u.counters.abandoned + 1 } else u.counters,
      life := .live .active (c.afterReset u.geom p) }
  | _ => u

/-- The record of the frame that it abandons. -/
def WindowUnit.resetAbandons (u : WindowUnit) (now : Word) (p : Port) (w : Window) : Option EventRecord :=
  match u.life with
  | .live .active c => (c.abandons u.geom p).map fun k =>
      { EventRecord.plain now (.frameAbandoned .portReset) with
        window := some w, port := some p, slot := some k, detail := c.writer.bytesWritten }
  | _ => none

/-- The window does not drain, no other port's writer waits in it, and the frame that port p fills in it has no job. -/
structure Exchange.PlainRole (x : Exchange) (p : Port) (w : Window) : Prop where
  draining : (x.win w).mode? ≠ some .draining
  waiting : ∀ c, x.ctx? w = some c → c.writer.state = .waiting → (x.win w).geom.writer = p
  filling : ∀ c k, (x.win w).life = .live .active c → (x.win w).geom.writer = p → c.writer.state = .filling k →
    x.carry.job? w = none ∧ ∃ sl, c.slots.get k = some sl

section
variable {x : Exchange} {now : Word} {p : Port} {w : Window}

theorem Exchange.PlainRole.congr {y : Exchange} (h : x.PlainRole p w) (hwin : y.win w = x.win w) (hcarry : y.carry = x.carry) :
    y.PlainRole p w := by
  obtain ⟨hdraining, hwaiting, hfilling⟩ := h
  simp only [Exchange.ctx?] at hwaiting
  refine ⟨hwin ▸ hdraining, ?_, ?_⟩
  · simp only [Exchange.ctx?, hwin]
    exact hwaiting
  · simp only [hwin, hcarry]
    exact hfilling

theorem WindowUnit.afterReset_of_active {u : WindowUnit} {c : Context} (hl : u.life = .live .active c)
    (hk : c.abandons u.geom p = none) :
    u.afterReset p = { u with life := .live .active (c.afterReset u.geom p) } := by
  simp only [WindowUnit.afterReset, hl, hk, Option.isSome_none, Bool.false_eq_true, if_false]

theorem WindowUnit.resetAbandons_of_active {u : WindowUnit} {c : Context} (hl : u.life = .live .active c)
    (hk : c.abandons u.geom p = none) : u.resetAbandons now p w = none := by
  simp only [WindowUnit.resetAbandons, hl, hk, Option.map_none]

theorem Context.abandons_eq_some {c : Context} {g : Geometry} {k : SlotId} (h : c.abandons g p = some k) :
    g.writer = p ∧ c.writer.state = .filling k := by
  unfold Context.abandons at h
  split at h
  · next hp =>
    cases hs : c.writer.state with
    | filling i =>
      simp only [hs, Option.some.injEq] at h
      exact ⟨hp, by rw [h]⟩
    | _ => simp only [hs, reduceCtorEq] at h
  · cases h

/-- What the reset does in an ACTIVE window, where it abandons no frame. -/
theorem Exchange.resetRole_quiet {c : Context} (hl : (x.win w).life = .live .active c) (hk : c.abandons (x.win w).geom p = none)
    (hwait : c.writer.state = .waiting → (x.win w).geom.writer = p) :
    x.resetRole now p w = x.modWin w fun u => { u with life := .live .active (c.afterReset (x.win w).geom p) } := by
  have hsame : (x.modWin w fun u => { u with life := .live .active c }) = x := Exchange.modWin_eq_self (WindowUnit.with_life hl)
  by_cases hp : (x.win w).geom.writer = p
  · have hrole : x.resetRole now p w = x.resetWriter now w c := by simp only [Exchange.resetRole, hl, hp, if_true]
    rw [hrole, Context.afterReset, if_pos hp]
    cases hs : c.writer.state with
    | noSlot => simp only [Exchange.resetWriter, hs, hsame]
    | waiting =>
      simp only [Exchange.resetWriter, hs, x.modCtx_of_live w hl]
      rfl
    | filling k => simp only [Context.abandons, hp, if_true, hs, reduceCtorEq] at hk
  · rw [Context.afterReset, if_neg hp]
    by_cases hr : (x.win w).geom.readers.get p = true
    · have hrole : x.resetRole now p w = x.resetReader now w p c := by
        simp only [Exchange.resetRole, hl, Ne.symm hp, if_false, hr, if_true]
      rw [hrole, if_pos hr]
      cases hb : c.readers.get p with
      | none =>
        simp only [Exchange.resetReader, Context.holds, Context.reader?, hb, Bool.false_eq_true, if_false, x.modCtx_of_live w hl,
          Context.modReader, hsame]
      | some b =>
        have hnotWaiting : c.writer.state ≠ .waiting := fun hs => hp (hwait hs)
        cases hs : b.state with
        | holding k =>
          have hlife : ((x.modWin w fun u => { u with life := .live .active (c.giveBack (x.win w).geom.delivery p .idle) }).win w).life =
              .live .active _ := congrArg WindowUnit.life (x.win_modWin_self w _)
          rw [← hrole, Exchange.resetRole_holding hl nofun hp hr hb hs hnotWaiting, Exchange.drainTest_of_active _ now w hlife]
          simp only [hs]
        | _ => simp only [Exchange.resetReader, Context.holds, Context.reader?, hb, hs, Bool.false_eq_true, if_false,
            x.modCtx_of_live w hl, c.modReader_of p hb]
    · have hrole : x.resetRole now p w = x := by simp only [Exchange.resetRole, hl, Ne.symm hp, if_false, hr, Bool.false_eq_true]
      rw [hrole, if_neg hr, hsame]

/-- What it does in any window. -/
theorem Exchange.PlainRole.resetRole (h : x.PlainRole p w) : x.resetRole now p w =
    { x.modWin w (·.afterReset p) with raised := x.raised ++ ((x.win w).resetAbandons now p w).toList } := by
  obtain ⟨hdraining, hwaiting, hfilling⟩ := h
  cases hl : (x.win w).life with
  | disabled =>
    have hsame : (x.modWin w (·.afterReset p)) = x := Exchange.modWin_eq_self (by simp only [WindowUnit.afterReset, hl])
    simp only [Exchange.resetRole, hl, hsame, WindowUnit.resetAbandons, Option.toList_none, List.append_nil]
  | live m c =>
    cases m with
    | observe =>
      have hsame : (x.modWin w (·.afterReset p)) = x := Exchange.modWin_eq_self (by simp only [WindowUnit.afterReset, hl])
      simp only [Exchange.resetRole, hl, hsame, WindowUnit.resetAbandons, Option.toList_none, List.append_nil]
    | draining => exact absurd (by simp only [WindowUnit.mode?, hl]) hdraining
    | active =>
      cases hk : c.abandons (x.win w).geom p with
      | none =>
        rw [Exchange.resetRole_quiet hl hk (hwaiting c (x.ctx?_of_live w hl)), WindowUnit.resetAbandons_of_active hl hk,
          x.modWin_congr (g := (·.afterReset p)) w (WindowUnit.afterReset_of_active hl hk).symm,
          Option.toList_none, List.append_nil]
        rfl
      | some k =>
        obtain ⟨hp, hs⟩ := Context.abandons_eq_some hk
        obtain ⟨hj, sl, hsl⟩ := hfilling c k hl hp hs
        have hafter : (x.win w).afterReset p = { x.win w with
            counters := { (x.win w).counters with abandoned := (x.win w).counters.abandoned + 1 },
            life := .live .active (c.afterAbandon k sl) } := by
          simp only [WindowUnit.afterReset, hl, hk, Option.isSome_some, if_true, Context.afterReset, hp, hs, hsl]
        have hrecord : (x.win w).resetAbandons now p w = some { EventRecord.plain now (.frameAbandoned .portReset) with
            window := some w, port := some p, slot := some k, detail := c.writer.bytesWritten } := by
          simp only [WindowUnit.resetAbandons, hl, hk, Option.map_some]
        rw [Exchange.resetRole_filling hl nofun hp hs hsl hj, hrecord, x.modWin_congr (f := (·.afterReset p)) (g := fun u => { u with
          counters := { u.counters with abandoned := u.counters.abandoned + 1 }, life := .live .active (c.afterAbandon k sl) }) w hafter]
        refine Exchange.drainTest_of_active _ now w (c := c.afterAbandon k sl) ?_
        exact congrArg WindowUnit.life (x.win_modWin_self w fun u => { u with
          counters := { u.counters with abandoned := u.counters.abandoned + 1 }, life := .live .active (c.afterAbandon k sl) })

/-- One window after another, each is as it would be alone. -/
theorem Exchange.foldl_resetRole (ws : List Window) (hn : ws.Nodup) (h : ∀ w, w ∈ ws → x.PlainRole p w) :
    ∃ windows, ws.foldl (fun y w => y.resetRole now p w) x = { x with
        windows := windows, raised := x.raised ++ ws.filterMap fun w => (x.win w).resetAbandons now p w } ∧
      ∀ v, windows.get v = if v ∈ ws then (x.win v).afterReset p else x.win v := by
  induction ws generalizing x with
  | nil => exact ⟨x.windows, by simp, fun v => rfl⟩
  | cons w ws ih =>
    obtain ⟨hw, hn⟩ := List.nodup_cons.mp hn
    have hstep := (h w (by simp)).resetRole (now := now)
    let x1 : Exchange := { x.modWin w (·.afterReset p) with raised := x.raised ++ ((x.win w).resetAbandons now p w).toList }
    have hother : ∀ v, v ≠ w → x1.win v = x.win v := fun v hv => x.win_modWin_ne w (·.afterReset p) hv
    have hself : x1.win w = (x.win w).afterReset p := x.win_modWin_self w (·.afterReset p)
    have hne : ∀ v, v ∈ ws → v ≠ w := fun v hv hvw => hw (hvw ▸ hv)
    obtain ⟨windows, hfold, hwindows⟩ := ih (x := x1) hn fun v hv => (h v (by simp [hv])).congr (hother v (hne v hv)) rfl
    refine ⟨windows, ?_, fun v => ?_⟩
    · have hrecords : (ws.filterMap fun v => (x1.win v).resetAbandons now p v) = ws.filterMap fun v => (x.win v).resetAbandons now p v :=
        List.filterMap_congr fun v hv => by rw [hother v (hne v hv)]
      rw [List.foldl_cons, hstep, hfold, hrecords, List.filterMap_cons]
      cases hrecord : (x.win w).resetAbandons now p w <;> simp [x1, hrecord]
    · rw [hwindows]
      by_cases hv : v = w
      · subst hv
        rw [if_neg hw, if_pos (by simp), hself]
      · rw [hother v hv]
        simp [hv]

/-- A window that the reset does not treat has nothing to change. -/
theorem Exchange.afterReset_of_not_mem (h : w ∉ x.resetWindows p) :
    (x.win w).afterReset p = x.win w ∧ (x.win w).resetAbandons now p w = none := by
  rw [x.mem_resetWindows p w] at h
  cases hl : (x.win w).life with
  | disabled => simp only [WindowUnit.afterReset, WindowUnit.resetAbandons, hl, and_self]
  | live m c =>
    cases m with
    | observe => simp only [WindowUnit.afterReset, WindowUnit.resetAbandons, hl, and_self]
    | draining => simp only [WindowUnit.afterReset, WindowUnit.resetAbandons, hl, and_self]
    | active =>
      have hwriter : (x.win w).geom.writer = p → c.writer.state = .noSlot := fun hp => by
        by_contra hs
        exact h ⟨.active, c, hl, nofun, .inl ⟨hp.symm, hs⟩⟩
      have hreader : ∀ b, (x.win w).geom.writer ≠ p → c.readers.get p = some b → b.state = .idle := fun b hp hb => by
        by_contra hs
        exact h ⟨.active, c, hl, nofun, .inr ⟨Ne.symm hp, b, hb, hs⟩⟩
      have hk : c.abandons (x.win w).geom p = none := by
        unfold Context.abandons
        split
        · next hp => simp only [hwriter hp]
        · rfl
      have hsame : c.afterReset (x.win w).geom p = c := by
        unfold Context.afterReset
        split
        · next hp => simp only [hwriter hp]
        · next hp =>
          split
          · cases hb : c.readers.get p with
            | none => rfl
            | some b =>
              have hs := hreader b hp hb
              simp only [hs]
              rw [← hs, PerPort.set_of_get hb]
          · rfl
      exact ⟨(WindowUnit.afterReset_of_active hl hk).trans (by rw [hsame]; exact WindowUnit.with_life hl),
        WindowUnit.resetAbandons_of_active hl hk⟩

end

end Sys2Proof.Machine
end

section
/-!
The port reset (R134 to R137): the request in hand with its slot, and the statement.
-/

namespace Sys2Proof.Machine

/-! ### The fall of a count that serves nobody (R136) -/

/-- A slot whose in-flight count falls. -/
def Slot.fallen (sl : Slot) : Slot :=
  { sl with
    inFlight := sl.inFlight - 1, state := if sl.state = .releasing ∧ sl.inFlight - 1 = 0 then .free else sl.state }

/-- A window's context once the request that the port presents is withdrawn. -/
def Hand.fallen (hand : Hand) (w : Window) (c : Context) : Context :=
  match hand with
  | .presented _ m _ =>
    match m.slot with
    | some k => if m.window = some w then c.modSlot k Slot.fallen else c
    | Option.none => c
  | _ => c

theorem Hand.fallen_writer (hand : Hand) (w : Window) (c : Context) : (hand.fallen w c).writer = c.writer := by
  unfold Hand.fallen
  repeat' split
  all_goals simp

theorem Hand.fallen_readers (hand : Hand) (w : Window) (c : Context) : (hand.fallen w c).readers = c.readers := by
  unfold Hand.fallen
  repeat' split
  all_goals simp

theorem WindowUnit.mapCtx_self {u : WindowUnit} {f : Context → Context} (h : ∀ c, f c = c) : u.mapCtx f = u := by
  cases hl : u.life with
  | disabled => simp only [WindowUnit.mapCtx, hl]
  | live m c => simp only [WindowUnit.mapCtx, hl, h, WindowUnit.with_life hl]

/-- A slot that becomes FREE serves no writer whose port holds no access. -/
theorem Exchange.serveWriter_of_no_hold {x : Exchange} {w : Window} (h : ∀ a, (x.port (x.win w).geom.writer).hand ≠ .held a)
    (now : Word) : x.serveWriter now w = x := by
  have hnone : (x.port (x.win w).geom.writer).heldRequest w .slot = none := by
    unfold PortUnit.heldRequest
    split
    · next a hhand => exact absurd hhand (h a)
    · rfl
  simp only [Exchange.serveWriter, hnone]
  cases x.ctx? w <;> rfl

/-- The fall in a window whose writer, if it waits, holds no access. -/
theorem Exchange.lowerInFlight_alone {x : Exchange} {w : Window}
    (h : ∀ c, x.ctx? w = some c → c.writer.state = .waiting → ∀ a, (x.port (x.win w).geom.writer).hand ≠ .held a) (now : Word)
    (k : SlotId) : x.lowerInFlight now w k = x.modCtx w fun c => c.modSlot k Slot.fallen := by
  cases hl : (x.win w).life with
  | disabled =>
    have hsame : x.modCtx w (fun c => c.modSlot k Slot.fallen) = x :=
      Exchange.modWin_eq_self (by simp only [WindowUnit.mapCtx, hl])
    simp only [Exchange.lowerInFlight, Exchange.ctx?_of_disabled hl, Option.bind_none, hsame]
  | live m c =>
    have hc := x.ctx?_of_live w hl
    rw [x.modCtx_of_live w hl]
    cases hsl : c.slots.get k with
    | none =>
      have hsame : c.modSlot k Slot.fallen = c := by simp only [Context.modSlot, Context.slot?, hsl]
      simp only [Exchange.lowerInFlight, hc, Option.bind_some, Context.slot?, hsl, hsame]
      exact (Exchange.modWin_eq_self (WindowUnit.with_life hl)).symm
    | some sl =>
      simp only [Exchange.lowerInFlight, hc, Option.bind_some, Context.slot?, hsl, x.modCtx_of_live w hl, c.modSlot_of k hsl,
        Bool.and_eq_true, decide_eq_true_eq]
      by_cases hfree : sl.state = .releasing ∧ sl.inFlight - 1 = 0
      · rw [if_pos hfree, show sl.fallen = { sl with inFlight := sl.inFlight - 1, state := .free } by
          rw [Slot.fallen, if_pos hfree]]
        let c1 : Context := { c with slots := c.slots.set k (some { sl with inFlight := sl.inFlight - 1, state := .free }) }
        have hwin := x.win_modWin_self w fun u => { u with life := .live m c1 }
        by_cases hwait : c.writer.state = .waiting
        · exact Exchange.serveWriter_of_no_hold (by rw [hwin]; exact h c hc hwait) now
        · exact Exchange.serveWriter_eq _ now w _ (Exchange.Serves.of_not_waiting (congrArg WindowUnit.life hwin) hwait now)
      · rw [if_neg hfree, show sl.fallen = { sl with inFlight := sl.inFlight - 1 } by rw [Slot.fallen, if_neg hfree]]

section
variable {s : State} {p : Port}

/-- What the port has in hand after its reset. -/
def Hand.afterReset : Hand → Hand
  | .outstanding r b => .outstanding r b
  | _ => .none

/-- The exchange once the request in hand is ended, but for the windows. -/
theorem State.handEnded_eq
    (h : ∀ w c, s.exch.ctx? w = some c → c.writer.state = .waiting → (s.exch.win w).geom.writer = p) :
    ∃ windows, s.handEnded p = { s.begin.exch with
        windows := windows,
        ports := s.exch.ports.set p { s.exch.port p with
          prst := true, state := .inReset, hand := (s.exch.port p).hand.afterReset },
        outstanding := match (s.exch.port p).hand with
          | .outstanding _ _ =>
            s.exch.outstanding.map fun e => if e.mem.origin = .port p then { e with discarded := true } else e
          | _ => s.exch.outstanding } ∧
      ∀ w, windows.get w = (s.exch.win w).mapCtx ((s.exch.port p).hand.fallen w) := by
  have hsame : ∀ {hand : Hand}, (∀ w c, hand.fallen w c = c) → ∀ w, s.exch.windows.get w = (s.exch.win w).mapCtx (hand.fallen w) :=
    fun hf w => (WindowUnit.mapCtx_self (hf w)).symm
  cases hhand : (s.exch.port p).hand with
  | none =>
    refine ⟨s.exch.windows, (State.handEnded_none hhand).trans ?_, hsame fun _ _ => rfl⟩
    simp only [State.atReset, Exchange.modPort, Hand.afterReset, ← hhand]
    rfl
  | held a =>
    refine ⟨s.exch.windows, ?_, hsame fun _ _ => rfl⟩
    simp only [State.handEnded, Exchange.resetHand, State.atReset_port, hhand]
    exact s.begin.exch.modPort_modPort p (fun u => { u with prst := true, state := .inReset }) fun u => { u with hand := .none }
  | outstanding r b =>
    refine ⟨s.exch.windows, (State.handEnded_outstanding hhand).trans ?_, hsame fun _ _ => rfl⟩
    simp only [State.atReset, Exchange.modPort, Hand.afterReset, ← hhand]
    rfl
  | presented r m b =>
    have hport : (s.atReset p).setHand p .none = s.begin.exch.modPort p fun u =>
      { u with prst := true, state := .inReset, hand := .none } :=
      s.begin.exch.modPort_modPort p (fun u => { u with prst := true, state := .inReset }) fun u => { u with hand := .none }
    have hended : s.handEnded p = match m.window, m.slot with
        | some w, some k => ((s.atReset p).setHand p .none).lowerInFlight s.time.ticks w k
        | _, _ => (s.atReset p).setHand p .none := by
      simp only [State.handEnded, Exchange.resetHand, State.atReset_port, hhand] <;> rfl
    cases hslot : m.slot with
    | none =>
      refine ⟨s.exch.windows, ?_, hsame fun w c => by simp only [Hand.fallen, hslot]⟩
      rw [hended, hslot, hport]
      cases m.window <;> rfl
    | some k =>
      cases hw : m.window with
      | none =>
        refine ⟨s.exch.windows, ?_, hsame fun w c => by simp [Hand.fallen, hslot, hw]⟩
        rw [hended, hslot, hw, hport]
        rfl
      | some v =>
        let x : Exchange := s.begin.exch.modPort p fun u => { u with prst := true, state := .inReset, hand := .none }
        have halone : ∀ c, x.ctx? v = some c → c.writer.state = .waiting → ∀ a, (x.port (x.win v).geom.writer).hand ≠ .held a := by
          intro c hc hwait a
          have hwriter : (x.win v).geom.writer = p := h v c hc hwait
          rw [hwriter, Exchange.port_modPort_self]
          exact nofun
        refine ⟨(x.modCtx v fun c => c.modSlot k Slot.fallen).windows, ?_, fun w => ?_⟩
        · rw [hended, hslot, hw, hport]
          exact Exchange.lowerInFlight_alone halone s.time.ticks k
        · by_cases hwv : w = v
          · subst hwv
            have hfallen : (Hand.presented r m b).fallen w = fun c => c.modSlot k Slot.fallen :=
              funext fun c => by simp only [Hand.fallen, hslot, hw, if_true]
            rw [hfallen]
            exact x.win_modCtx_self _ _
          · have hfallen : ∀ c, (Hand.presented r m b).fallen w c = c := fun c => by
              simp only [Hand.fallen, hslot, hw, Option.some.injEq, Ne.symm hwv, if_false]
            rw [WindowUnit.mapCtx_self hfallen]
            exact x.win_modCtx_ne _ _ hwv

end

end Sys2Proof.Machine
end

section
/-!
The port reset (R134 to R137), settled.
-/

namespace Sys2Proof.Machine

theorem filterMap_filter_of_none {α β : Type} {l : List α} {q : α → Bool} {f : α → Option β}
    (h : ∀ a, a ∈ l → q a = false → f a = none) : (l.filter q).filterMap f = l.filterMap f := by
  rw [List.filterMap_filter]
  refine List.filterMap_congr fun a ha => ?_
  cases hq : q a with
  | true => rfl
  | false => exact (h a ha hq).symm

/-- The records of the abandoned frames, whatever the order of the windows. -/
theorem Exchange.resetAbandons_perm (x : Exchange) (now : Word) (p : Port) {ws : List Window} (h : ws.Perm (x.resetWindows p)) :
    (ws.filterMap fun w => (x.win w).resetAbandons now p w).Perm
      (Window.all.filterMap fun w => (x.win w).resetAbandons now p w) := by
  refine (h.filterMap _).trans (List.Perm.of_eq (filterMap_filter_of_none fun w hw hq => ?_))
  refine (x.afterReset_of_not_mem fun hmem => ?_).2
  rw [Exchange.resetWindows, List.mem_filter] at hmem
  exact Bool.false_ne_true (hq.symm.trans hmem.2)

theorem Hand.fallen_slot {hand : Hand} {w : Window} {c : Context} {k : SlotId} {sl : Slot} (h : c.slots.get k = some sl) :
    ∃ sl', (hand.fallen w c).slots.get k = some sl' := by
  have hmod : ∀ i, ∃ sl', (c.modSlot i Slot.fallen).slots.get k = some sl' := fun i => by
    by_cases hik : i = k
    · subst hik
      exact ⟨sl.fallen, by rw [c.modSlot_of i h]; exact PerSlot.get_set_self ..⟩
    · refine ⟨sl, ?_⟩
      unfold Context.modSlot
      split
      · exact (PerSlot.get_set_ne _ _ (Ne.symm hik)).trans h
      · exact h
  unfold Hand.fallen
  split
  · split
    · split
      · exact hmod _
      · exact ⟨sl, h⟩
    · exact ⟨sl, h⟩
  · exact ⟨sl, h⟩

section
variable {s : State} {p : Port}

/-- Where no window drains, no other port's writer waits and no abandoned frame has a job, each window is as the fall and the reset
leave it alone. -/
theorem State.rolesEnded_plain (hdraining : ∀ w, (s.exch.win w).mode? ≠ some .draining)
    (hwaiting : ∀ w c, s.exch.ctx? w = some c → c.writer.state = .waiting → (s.exch.win w).geom.writer = p)
    (hfilling : ∀ w c k, (s.exch.win w).life = .live .active c → (s.exch.win w).geom.writer = p → c.writer.state = .filling k →
      s.exch.carry.job? w = none ∧ ∃ sl, c.slots.get k = some sl) (hraised : s.exch.raised = []) :
    ∃ windows records, s.rolesEnded p = { s.begin.exch with
        windows := windows,
        ports := s.exch.ports.set p { s.exch.port p with
          prst := true, state := .inReset, hand := (s.exch.port p).hand.afterReset },
        outstanding := match (s.exch.port p).hand with
          | .outstanding _ _ =>
            s.exch.outstanding.map fun e => if e.mem.origin = .port p then { e with discarded := true } else e
          | _ => s.exch.outstanding,
        raised := s.resetRecord p :: records } ∧
      (∀ w, windows.get w = ((s.exch.win w).mapCtx ((s.exch.port p).hand.fallen w)).afterReset p) ∧
      records.Perm (Window.all.filterMap fun w =>
        ((s.exch.win w).mapCtx ((s.exch.port p).hand.fallen w)).resetAbandons s.time.ticks p w) := by
  obtain ⟨windows, hended, hwindows⟩ := State.handEnded_eq hwaiting
  let x : Exchange := (s.handEnded p).raise (s.resetRecord p)
  have hwin : ∀ w, x.win w = (s.exch.win w).mapCtx ((s.exch.port p).hand.fallen w) := fun w => by
    rw [← hwindows w]
    exact congrArg (fun y : Exchange => y.win w) hended
  have hcarry : x.carry = s.exch.carry := (congrArg Exchange.carry hended :)
  have hplain : ∀ w, x.PlainRole p w := fun w => by
    refine ⟨?_, fun c hc hs => ?_, fun c k hl hp hs => ?_⟩
    · rw [hwin, WindowUnit.mode?_mapCtx]
      exact hdraining w
    · rw [Exchange.ctx?, hwin, WindowUnit.ctx?_mapCtx] at hc
      obtain ⟨d, hd, rfl⟩ := Option.map_eq_some_iff.mp hc
      rw [Hand.fallen_writer] at hs
      rw [hwin, WindowUnit.mapCtx_geom]
      exact hwaiting w d hd hs
    · rw [hwin] at hl hp
      rw [WindowUnit.mapCtx_geom] at hp
      cases hlife : (s.exch.win w).life with
      | disabled => simp only [WindowUnit.mapCtx, hlife, reduceCtorEq] at hl
      | live m d =>
        simp only [WindowUnit.mapCtx, hlife, Life.live.injEq] at hl
        obtain ⟨rfl, rfl⟩ := hl
        rw [Hand.fallen_writer] at hs
        obtain ⟨hj, sl, hsl⟩ := hfilling w d k hlife hp hs
        exact ⟨hcarry ▸ hj, Hand.fallen_slot hsl⟩
  have horder : (s.resetOrder p).Perm (x.resetWindows p) := permute_perm _ _
  obtain ⟨hnodup, hmem⟩ := (s.handEnded p).resetOrder p (Config.freeChoice s.choices)
  obtain ⟨final, hfold, hfinal⟩ := Exchange.foldl_resetRole (x := x) (now := s.time.ticks) (s.resetOrder p) hnodup fun w _ => hplain w
  refine ⟨final, (s.resetOrder p).filterMap fun w => (x.win w).resetAbandons s.time.ticks p w, ?_, fun w => ?_, ?_⟩
  · rw [State.rolesEnded]
    refine hfold.trans ?_
    simp only [x, Exchange.raise, hended, State.begin_raised, hraised, List.nil_append, List.singleton_append] <;> rfl
  · rw [hfinal, ← hwin]
    split
    · rfl
    · next hnot => exact (x.afterReset_of_not_mem (now := s.time.ticks) fun h => hnot (horder.mem_iff.mpr h)).1.symm
  · simp only [← hwin]
    exact x.resetAbandons_perm s.time.ticks p horder

end

theorem Exchange.modPort_congr {x : Exchange} {p : Port} {f g : PortUnit → PortUnit} (h : f (x.port p) = g (x.port p)) :
    x.modPort p f = x.modPort p g := congrArg (fun u => { x with ports := x.ports.set p u }) h

/-- A request in hand that is no window's. -/
theorem State.handEnded_of_passThrough {s : State} {p : Port} (h : (s.exch.port p).hand = .none ∨
    (∃ r b, (s.exch.port p).hand = .outstanding r b) ∨ ∃ r m b, (s.exch.port p).hand = .presented r m b ∧ m.window = none) :
    s.handEnded p = { s.begin.exch.modPort p fun u =>
        { u with prst := true, state := .inReset, hand := u.hand.afterReset } with
      outstanding := match (s.exch.port p).hand with
        | .outstanding _ _ =>
          s.exch.outstanding.map fun e => if e.mem.origin = .port p then { e with discarded := true } else e
        | _ => s.exch.outstanding } := by
  let after : PortUnit → PortUnit := fun u => { u with prst := true, state := .inReset, hand := u.hand.afterReset }
  rcases h with hhand | ⟨r, b, hhand⟩ | ⟨r, m, b, hhand, hm⟩
  · have hport : s.atReset p = s.begin.exch.modPort p after :=
      Exchange.modPort_congr (by simp only [after, State.begin_port, hhand, Hand.afterReset])
    rw [State.handEnded_none hhand, hhand, hport]
    rfl
  · have hport : s.atReset p = s.begin.exch.modPort p after :=
      Exchange.modPort_congr (by simp only [after, State.begin_port, hhand, Hand.afterReset])
    rw [State.handEnded_outstanding hhand, hhand, hport]
  · have hport : (s.atReset p).setHand p .none = s.begin.exch.modPort p after :=
      (s.begin.exch.modPort_modPort p (fun u => { u with prst := true, state := .inReset }) fun u => { u with hand := .none }).trans
        (Exchange.modPort_congr (by simp only [after, State.begin_port, hhand, Hand.afterReset]))
    rw [State.handEnded_passThrough hhand hm, hhand, hport]
    rfl

/-- Settles O15: the request in hand is ended first, then each window's binding is brought to rest, alone or with what it serves. -/
theorem portResetResult : Obligations.PortResetResult := by
  refine ⟨fun s p hs h => ?_, fun s p hr hs hactive => ⟨fun hws hhand => ?_, ?_, ?_, fun x hx => ?_⟩⟩
  · refine (State.exec_portReset_level h).trans (congrArg Host.Outcome.next (hs.finish_of_none (fun q => ?_) hs.1))
    by_cases hq : q = p
    · subst hq
      exact (congrArg PortUnit.link (s.begin.exch.port_modPort_self q fun u => { u with prst := true }) :)
    · exact (congrArg PortUnit.link (s.begin.exch.port_modPort_ne p (fun u => { u with prst := true }) hq) :)
  · have hwindows : (s.handEnded p).windows = s.exch.windows ∧ (s.handEnded p).raised = [] := by
      rcases hhand with hhand | ⟨r, b, hhand⟩ | ⟨r, m, b, hhand, hm⟩
      · rw [State.handEnded_none hhand]
        exact ⟨rfl, hs.1⟩
      · rw [State.handEnded_outstanding hhand]
        exact ⟨rfl, hs.1⟩
      · rw [State.handEnded_passThrough hhand hm]
        exact ⟨rfl, hs.1⟩
    have hexec := State.exec_portReset_one hr hactive hs ((Exchange.resetWindows_congr hwindows.1 p).trans hws) hwindows.2
    rw [State.handEnded_of_passThrough hhand] at hexec
    exact hexec
  · intro hdraining hwaiting hfilling fallen abandoned
    obtain ⟨windows, records, hroles, hwindows, hrecords⟩ := State.rolesEnded_plain hdraining hwaiting hfilling hs.1
    refine ⟨_, State.exec_portReset_flush hr hactive hs, ?_⟩
    rw [hroles]
    refine ⟨PerPort.get_set_self .., fun q hq => PerPort.get_set_ne _ _ hq, fun w => ?_, rfl, ?_, rfl, rfl, rfl, rfl, rfl, rfl, rfl, rfl, rfl⟩
    · refine (hwindows w).trans ?_
      have hfallen : ∀ c, fallen w c = (s.exch.port p).hand.fallen w c := fun c => rfl
      simp only [hfallen]
      generalize (s.exch.port p).hand = hand
      cases hl : (s.exch.win w).life with
      | disabled => simp only [WindowUnit.mapCtx, hl, WindowUnit.afterReset]
      | live m c =>
        cases m with
        | observe => simp only [WindowUnit.mapCtx, hl, WindowUnit.afterReset]
        | draining => exact absurd (by simp only [WindowUnit.mode?, hl]) (hdraining w)
        | active =>
          simp only [WindowUnit.mapCtx, hl, WindowUnit.afterReset, Context.abandons, Context.afterReset, Hand.fallen_writer,
            Hand.fallen_readers]
          by_cases hp : (s.exch.win w).geom.writer = p
          · simp only [if_pos hp]
            cases hwriter : c.writer.state with
            | noSlot => simp
            | waiting => simp
            | filling k =>
              obtain ⟨-, sl, hsl⟩ := hfilling w c k hl hp hwriter
              obtain ⟨sl', hsl'⟩ := Hand.fallen_slot (hand := hand) (w := w) hsl
              simp [hsl']
          · simp only [if_neg hp]
            by_cases hreader : (s.exch.win w).geom.readers.get p = true
            · simp only [if_pos hreader]
              cases hb : c.readers.get p with
              | none => simp
              | some b =>
                simp only [Option.isSome_none, Bool.false_eq_true, if_false] <;> rfl
            · simp [hreader]
    · obtain ⟨l, hperm, hevents⟩ := ({ s.begin with
        exch := s.rolesEnded p, choices := s.choices + choicesUsed ((s.handEnded p).resetWindows p).length } : State).flush_offers
      rw [hroles] at hperm hevents
      refine ⟨l, hperm.trans ((hrecords.trans (List.Perm.of_eq (List.filterMap_congr fun w _ => ?_))).cons _), hevents⟩
      simp only [abandoned]
      cases hl : (s.exch.win w).life with
      | disabled => simp only [WindowUnit.mapCtx, hl, WindowUnit.resetAbandons, Option.map_none]
      | live m c =>
        cases m with
        | observe => simp only [WindowUnit.mapCtx, hl, WindowUnit.resetAbandons, Option.map_none]
        | draining => simp only [WindowUnit.mapCtx, hl, WindowUnit.resetAbandons, Option.map_none]
        | active =>
          simp only [WindowUnit.mapCtx, hl, WindowUnit.resetAbandons, Context.abandons, Hand.fallen_writer]
          split
          · cases c.writer.state <;> rfl
          · rfl
  · intro w c hws hl hhand g atReset record leaves
    have hended := State.handEnded_none hhand
    have hrecord : s.resetRecord p = record := by simp only [State.resetRecord, portResetRecord, hhand, if_true, record]; rfl
    have hwindow : s.rolesEnded p = (atReset.raise record).resetRole s.time.ticks p w := by
      have hone : (s.handEnded p).resetWindows p = [w] := by rw [hended]; exact hws
      rw [State.rolesEnded, State.resetOrder, hone, hended, hrecord]
      rfl
    have hlife : ((atReset.raise record).win w).life = .live .draining c := hl
    have hraised : (atReset.raise record).raised = [record] := by rw [Exchange.raise, show atReset.raised = [] from hs.1]; rfl
    refine ⟨fun k sl hp hf hsl hj => ?_, fun k b hp hreader hb hhold hwait => ?_⟩
    · have hrole := Exchange.resetRole_filling (x := atReset.raise record) (now := s.time.ticks) hlife nofun hp hf hsl hj
      rw [hraised] at hrole
      let counted : Exchange := atReset.modWin w fun u => { u with
        counters := { u.counters with abandoned := u.counters.abandoned + 1 } }
      have hcounted : counted.win w = { s.exch.win w with
          counters := { (s.exch.win w).counters with abandoned := (s.exch.win w).counters.abandoned + 1 } } :=
        atReset.win_modWin_self w _
      have hmod := atReset.modWin_modWin w (fun u => { u with
        counters := { u.counters with abandoned := u.counters.abandoned + 1 } }) fun u => { u with
        life := .live .draining (c.afterAbandon k sl) }
      let abandoned : EventRecord := { EventRecord.plain s.time.ticks (.frameAbandoned .portReset) with
        window := some w, port := some p, slot := some k, detail := c.writer.bytesWritten }
      have hform := congrArg (fun x : Exchange => ({ x with raised := [record, abandoned] } : Exchange).drainTest s.time.ticks w) hmod
      have hdrained := State.EndsIn.drained_or_not (x := counted) (c1 := c.afterAbandon k sl) (l := [record, abandoned])
        (State.endsIn_portReset hr hactive hs ((hwindow.trans hrole).trans hform.symm)) hs.1
      rw [hcounted] at hdrained
      exact hdrained
    · have hrole := Exchange.resetRole_holding (x := atReset.raise record) (now := s.time.ticks) hlife nofun hp hreader hb hhold hwait
      have hends := State.endsIn_portReset hr hactive hs (hwindow.trans hrole)
      have hform : (atReset.raise record).modWin w (fun u => { u with life := .live .draining (c.giveBack g.delivery p .idle) }) =
          { atReset.modWin w (fun u => { u with life := .live .draining (c.giveBack g.delivery p .idle) }) with
            raised := [record] } := by
        rw [← hraised]
        rfl
      exact State.EndsIn.drained_or_not (x := atReset) (l := [record]) (hform ▸ hends) hs.1
  · have hended : s.handEnded p = x := Exchange.resetHand_eq _ _ _ _ hx
    obtain ⟨hnodup, hmem⟩ := x.resetOrder p (Config.freeChoice s.choices)
    refine ⟨s.resetOrder p, by rw [State.resetOrder, hended]; exact hnodup, by rw [State.resetOrder, hended]; exact hmem, fun z hz => ?_⟩
    refine State.endsIn_portReset hr hactive hs ?_
    rw [State.rolesEnded, hended]
    exact Exchange.resetRoles_eq s.time.ticks p _ _ z hz

end Sys2Proof.Machine
end

section
/-!
The class enables and the event queue govern records alone (R175): two parts that differ in them, and in what a frame sends of
them, stay so through every event.
-/

namespace Sys2Proof.Machine

/-! ### A part without its records -/

/-- The part without its class enables, its event queue and the frame in progress. -/
def State.blind (s : State) : State :=
  { s with eventEnable := 0, events := { queue := [], lost := 0 }, mgmt := { s.mgmt with frame := .closed } }

/-- What the effect does to the rest does not look at them. -/
def BlindTo (f : State → State) : Prop := ∀ s, (f s).blind = (f s.blind).blind

section
variable {s t : State}

theorem BlindTo.alike {f : State → State} (hf : BlindTo f) (h : s.blind = t.blind) : (f s).blind = (f t).blind := by
  rw [hf s, h, ← hf t]

theorem BlindTo.comp {f g : State → State} (hg : BlindTo g) (hf : BlindTo f) : BlindTo fun s => g (f s) :=
  fun s => hg.alike (hf s)

theorem State.blind_setFrame (s : State) (f : Frame) : (s.setFrame f).blind = s.blind := rfl

/-! ### The effects of the commands -/

theorem State.unlessReset_blind {f : State → State} (hf : BlindTo f) : BlindTo fun s => s.unlessReset f := by
  intro s
  simp only [State.unlessReset, show s.blind.resetAsserted = s.resetAsserted from rfl]
  split
  · rfl
  · exact hf s

theorem State.onExchange_blind (f : Word → Exchange → Exchange) : BlindTo fun s => s.onExchange f := fun _ => rfl

theorem State.pinReset_blind : BlindTo State.pinReset := fun _ => rfl

theorem State.pinRelease_blind : BlindTo State.pinRelease := by
  intro s
  simp only [State.pinRelease, show s.blind.resetAsserted = s.resetAsserted from rfl]
  split <;> rfl

theorem State.setPrst_blind (p : Port) (b : Bool) : BlindTo fun s => s.setPrst p b := fun _ => rfl

theorem State.portReset_blind (p : Port) : BlindTo fun s => s.portReset p := fun _ => rfl

theorem State.assertPrst_blind (p : Port) : BlindTo fun s => s.assertPrst p := by
  refine BlindTo.comp (State.unlessReset_blind fun s => ?_) (State.setPrst_blind p true)
  simp only [show s.blind.exch = s.exch from rfl]
  split
  · exact State.portReset_blind p s
  · rfl

theorem State.deassertPrst_blind (p : Port) : BlindTo fun s => s.deassertPrst p :=
  BlindTo.comp (State.unlessReset_blind fun _ => rfl) (State.setPrst_blind p false)

theorem State.tickBoundary_blind : BlindTo State.tickBoundary := fun _ => rfl

theorem State.frameStart_blind : BlindTo State.frameStart := by
  intro s
  refine Eq.trans ?_ (s.blind_setFrame (if s.resetAsserted then .ignored else .running .start)).symm
  unfold State.frameStart
  split <;> rfl

theorem State.frameEnd_blind : BlindTo State.frameEnd := fun _ => rfl

theorem State.arrive_blind (p : Port) (r : Request) : BlindTo fun s => s.arrive p r := by
  intro s
  simp only [State.arrive, show s.blind.portReady p = s.portReady p from rfl, show s.blind.exch = s.exch from rfl]
  split <;> rfl

theorem State.grant_blind : BlindTo State.grant := by
  intro s
  unfold State.grant
  simp only [show s.blind.exch = s.exch from rfl, show s.blind.memPort = s.memPort from rfl]
  split
  · rfl
  · split
    · split <;> rfl
    · rfl

theorem State.respond_blind (a : Response) : BlindTo fun s => s.respond a := by
  intro s
  simp only [State.respond, show s.blind.exch = s.exch from rfl, show s.blind.memPort = s.memPort from rfl]
  split <;> rfl

theorem State.responseExpiry_blind (place : Fin 4) : BlindTo fun s => s.responseExpiry place := by
  intro s
  simp only [State.responseExpiry, show s.blind.exch = s.exch from rfl, show s.blind.memPort = s.memPort from rfl]
  split
  · split <;> rfl
  · rfl

theorem State.pulseExpiry_blind : BlindTo State.pulseExpiry := by
  intro s
  simp only [State.pulseExpiry, show s.blind.memPort = s.memPort from rfl]
  split <;> rfl

/-! ### The end of an event -/

theorem State.flush_blind : BlindTo State.flush := fun _ => rfl

theorem State.takeFront_blind (p : Port) : BlindTo fun s => s.takeFront p := by
  intro s
  simp only [State.takeFront, show s.blind.exch = s.exch from rfl]
  split <;> rfl

theorem State.takeLinked_alike (n : Nat) (h : s.blind = t.blind) :
    (State.takeLinked n s).blind = (State.takeLinked n t).blind := by
  induction n generalizing s t with
  | zero => exact h
  | succ n ih =>
    have hports : s.linkPorts = t.linkPorts := (congrArg State.linkPorts h : s.blind.linkPorts = t.blind.linkPorts)
    have hchoices : s.choices = t.choices := (congrArg State.choices h : s.blind.choices = t.blind.choices)
    unfold State.takeLinked
    rw [hports]
    split
    · exact h
    · next p ps _ =>
      rw [hchoices]
      exact ih ((State.takeFront_blind _).alike
        (congrArg (fun u : State => { u with choices := t.choices + choicesUsed (ps.length + 1) }) h :))

theorem State.finish_alike (h : s.blind = t.blind) : s.finish.blind = t.finish.blind := by
  have hflush := State.flush_blind.alike h
  have hcount : s.flush.linkCount = t.flush.linkCount :=
    (congrArg State.linkCount hflush : s.flush.blind.linkCount = t.flush.blind.linkCount)
  rw [State.finish, State.finish, State.takeLinks, State.takeLinks, hcount]
  exact State.takeLinked_alike _ hflush

end


/-! ### What a command does when it is taken -/

section
variable {s t : State}

/-- Two answers that are equal, or neither of which sends the snapshot. -/
def Reply.Alike (a b : Reply) : Prop := a = b ∨ a.todo ≠ .snapshot ∧ b.todo ≠ .snapshot

/-- What a command does in the event of its taking, and whether it answers with the snapshot, does not look at the records. -/
def Oblivious (act : State → State × Reply) : Prop :=
  ∀ s t : State, s.blind = t.blind → (act s).1.blind = (act t).1.blind ∧ (act s).2.Alike (act t).2

theorem Oblivious.of_blind {act : State → State × Reply} (hstate : BlindTo fun s => (act s).1)
    (hreply : ∀ s : State, (act s).2 = (act s.blind).2) : Oblivious act := fun s t h =>
  ⟨hstate.alike h, .inl (by rw [hreply s, h, ← hreply t])⟩

theorem State.enableWindow_oblivious (w m : Byte) : Oblivious fun s => s.enableWindow w m := by
  refine .of_blind (fun s => ?_) fun s => ?_
  all_goals
    simp only [State.enableWindow, show s.blind.exch = s.exch from rfl]
    repeat' split
    all_goals rfl

theorem State.drainWindow_oblivious (w : Byte) : Oblivious fun s => s.drainWindow w := by
  refine .of_blind (fun s => ?_) fun s => ?_
  all_goals
    simp only [State.drainWindow, show s.blind.exch = s.exch from rfl]
    repeat' split
    all_goals rfl

theorem State.disableWindow_oblivious (w : Byte) : Oblivious fun s => s.disableWindow w := by
  refine .of_blind (fun s => ?_) fun s => ?_
  all_goals
    unfold State.disableWindow
    cases windowOfNat w.toNat <;> rfl

theorem State.takeSnapshot_oblivious (w : Byte) : Oblivious fun s => s.takeSnapshot w := by
  refine .of_blind (fun s => ?_) fun s => ?_
  all_goals
    simp only [State.takeSnapshot, show s.blind.mgmt.snapshot = s.mgmt.snapshot from rfl]
    repeat' split
    all_goals rfl

theorem State.clearCounters_oblivious (w : Byte) : Oblivious fun s => s.clearCounters w := by
  refine .of_blind (fun s => ?_) fun s => ?_
  all_goals
    simp only [State.clearCounters]
    repeat' split
    all_goals rfl

theorem State.discardSnapshot_oblivious : Oblivious State.discardSnapshot := .of_blind (fun _ => rfl) fun _ => rfl

theorem State.restart_oblivious : Oblivious State.restart := .of_blind (fun _ => rfl) fun _ => rfl

theorem State.recover_oblivious : Oblivious State.recover := by
  refine .of_blind (fun s => ?_) fun s => ?_
  all_goals
    simp only [State.recover, show s.blind.memPort = s.memPort from rfl]
    split <;> rfl

/-- A command that answers the same whatever the part holds but its records. -/
theorem oblivious_of_reply {reply : State → Reply} (h : ∀ s : State, reply s = reply s.blind) :
    Oblivious fun s => (s, reply s) :=
  .of_blind (fun _ => rfl) h

theorem State.eventsReply_todo (s : State) (n : Byte) : (s.eventsReply n).todo ≠ .snapshot := by
  simp only [State.eventsReply]
  repeat' split
  all_goals nofun

theorem State.eventsReply_oblivious (n : Byte) : Oblivious fun s => (s, s.eventsReply n) := fun s t h =>
  ⟨h, .inr ⟨s.eventsReply_todo n, t.eventsReply_todo n⟩⟩

theorem State.writeRegister_blind (r : Register) (v : Word) (h : s.blind = t.blind) :
    (s.writeRegister r v).1.blind = (t.writeRegister r v).1.blind ∧ (s.writeRegister r v).2 = (t.writeRegister r v).2 := by
  suffices key : ∀ s : State, (s.writeRegister r v).1.blind = (s.blind.writeRegister r v).1.blind ∧
      (s.writeRegister r v).2 = (s.blind.writeRegister r v).2 by
    obtain ⟨hs, hs'⟩ := key s
    obtain ⟨ht, ht'⟩ := key t
    exact ⟨by rw [hs, h, ← ht], by rw [hs', h, ← ht']⟩
  intro s
  cases r with
  | locked w reg =>
    simp only [State.writeRegister, State.writeLocked, show s.blind.exch = s.exch from rfl]
    split <;> exact ⟨rfl, rfl⟩
  | _ => exact ⟨rfl, rfl⟩

/-! ### The frame in progress -/

/-- A response is going out that is not the snapshot: what is sent, and how far, touches nothing of the part but its records. -/
def Frame.Sends : Frame → Prop
  | .closed => False
  | .ignored => False
  | .running f => f.taken = true ∧ f.todo ≠ .snapshot

/-- Two parts that differ in their records, and in a response that goes out of both. -/
structure State.Twin (s t : State) : Prop where
  blind : s.blind = t.blind
  frame : s.mgmt.frame = t.mgmt.frame ∨ s.mgmt.frame.Sends ∧ t.mgmt.frame.Sends

theorem State.Twin.setFrame (f : Frame) (h : s.blind = t.blind) : (s.setFrame f).Twin (t.setFrame f) := ⟨h, .inl rfl⟩

theorem State.Twin.take (f : FrameState) {a b : State × Reply} (hstate : a.1.blind = b.1.blind) (hreply : a.2.Alike b.2) :
    (f.take a).Twin (f.take b) := by
  refine ⟨hstate, ?_⟩
  obtain he | ⟨ha, hb⟩ := hreply
  · exact .inl (congrArg (fun r => Frame.running (f.answered r)) he)
  · exact .inr ⟨⟨rfl, ha⟩, rfl, hb⟩

theorem Oblivious.twin {act : State → State × Reply} (hact : Oblivious act) (f : FrameState) (h : s.blind = t.blind) :
    (f.take (act s)).Twin (f.take (act t)) := by
  obtain ⟨hstate, hreply⟩ := hact s t h
  exact .take f hstate hreply

theorem State.Twin.withOne {act : State → Byte → State × Reply} (hact : ∀ a, Oblivious fun s => act s a) (f : FrameState)
    (h : s.blind = t.blind) : (s.withOne f (act s)).Twin (t.withOne f (act t)) := by
  unfold State.withOne
  split
  · exact (hact _).twin f h
  · exact .setFrame _ h

theorem State.Twin.withTwo {act : State → Byte → Byte → State × Reply} (hact : ∀ a b, Oblivious fun s => act s a b)
    (f : FrameState) (h : s.blind = t.blind) : (s.withTwo f (act s)).Twin (t.withTwo f (act t)) := by
  unfold State.withTwo
  split
  · exact (hact _ _).twin f h
  · exact .setFrame _ h

theorem State.Twin.writeByte (f : FrameState) (h : s.blind = t.blind) : (s.writeByte f).Twin (t.writeByte f) := by
  unfold State.writeByte
  split
  · next _ _ next left locked _ =>
    obtain ⟨hstate, hflag⟩ :=
      State.writeRegister_blind (registerAt next) (wordOfBytes (f.args.drop (f.args.length - 4))) h
    simp only [State.writeData, hflag]
    split
    · split
      · exact .take f hstate (.inl rfl)
      · exact .setFrame _ hstate
    · exact .setFrame _ h
  · unfold State.writeCount
    split
    · exact .setFrame _ h
    · exact .take f h (.inl rfl)
  · exact .setFrame _ h

theorem State.Twin.arrived (f : FrameState) (c : MgmtCommand) (h : s.blind = t.blind) : (s.arrived f c).Twin (t.arrived f c) := by
  cases c with
  | readRegisters => exact .withTwo (fun a n => oblivious_of_reply (reply := fun _ => readRegistersReply a n) fun _ => rfl) f h
  | writeRegisters => exact .writeByte f h
  | enable => exact .withTwo State.enableWindow_oblivious f h
  | drain => exact .withOne State.drainWindow_oblivious f h
  | disable => exact .withOne State.disableWindow_oblivious f h
  | snapshot => exact .withOne State.takeSnapshot_oblivious f h
  | readSnapshot => exact (oblivious_of_reply (reply := State.snapshotReply) fun _ => rfl).twin f h
  | discardSnapshot => exact State.discardSnapshot_oblivious.twin f h
  | readEvents => exact .withOne State.eventsReply_oblivious f h
  | clearCounters => exact .withOne State.clearCounters_oblivious f h
  | restart => exact State.restart_oblivious.twin f h
  | recoverMemoryPort => exact State.recover_oblivious.twin f h
  | readTime => exact (oblivious_of_reply (reply := State.timeReply) fun _ => rfl).twin f h

theorem State.Twin.mosiByte (f : FrameState) (b : Byte) (h : s.blind = t.blind) : (s.mosiByte f b).Twin (t.mosiByte f b) := by
  unfold State.mosiByte
  dsimp only
  split
  · exact .arrived _ _ h
  · exact .take _ h (.inl rfl)

/-! ### Bytes of a response -/

/-- The first bit of a byte touches nothing but the frame. -/
theorem State.beginByte_blind (s : State) : s.beginByte.blind = s.blind := by
  unfold State.beginByte
  repeat' split
  all_goals rfl

theorem State.beginByte_sends (h : s.mgmt.frame.Sends) : s.beginByte.mgmt.frame.Sends := by
  unfold State.beginByte
  split
  · next f hframe =>
    obtain ⟨htaken, -⟩ : f.taken = true ∧ f.todo ≠ .snapshot := by rwa [hframe] at h
    split
    · split
      · next _ left _ =>
        refine ⟨htaken, ?_⟩
        show (if left = 0 then Todo.nothing else _) ≠ _
        split <;> nofun
      · exact ⟨htaken, nofun⟩
      · exact h
    · exact h
  · exact h
  · exact h

/-- Unless a response goes out that is not the snapshot, the first bit of a byte does nothing. -/
theorem State.beginByte_of_not_sends (h : ¬ s.mgmt.frame.Sends) : s.beginByte = s := by
  unfold State.beginByte
  split
  · next f hframe =>
    split
    · next hnext =>
      have hsnapshot : f.todo = .snapshot := by
        by_contra htodo
        exact h (hframe ▸ ⟨(Bool.and_eq_true_iff.mp hnext).1, htodo⟩)
      rw [hsnapshot]
    · rfl
  · rfl
  · rfl

/-- The last bit of a byte of such a response touches the records and the frame. -/
theorem State.byteOut_of_sends (s : State) (f : FrameState) (htaken : f.taken = true) (htodo : f.todo ≠ .snapshot) :
    (s.byteOut f).blind = s.blind ∧ (s.byteOut f).mgmt.frame.Sends := by
  unfold State.byteOut
  dsimp only
  split
  · next _ hsnapshot => exact absurd hsnapshot htodo
  · next left _ _ =>
    refine ⟨rfl, htaken, ?_⟩
    show (if left = 0 then Todo.nothing else _) ≠ _
    split <;> nofun
  · exact ⟨rfl, htaken, htodo⟩

theorem State.clockByte_of_sends (b : Byte) (h : s.mgmt.frame.Sends) :
    (s.clockByte b).blind = s.blind ∧ (s.clockByte b).mgmt.frame.Sends := by
  have hbegin := State.beginByte_sends h
  cases hframe : s.beginByte.mgmt.frame with
  | closed => exact absurd (hframe ▸ hbegin) nofun
  | ignored => exact absurd (hframe ▸ hbegin) nofun
  | running f =>
    obtain ⟨htaken, htodo⟩ : f.taken = true ∧ f.todo ≠ .snapshot := by rwa [hframe] at hbegin
    obtain ⟨hblind, hsends⟩ := s.beginByte.byteOut_of_sends f htaken htodo
    have hbyte : s.clockByte b = s.beginByte.byteOut f := by simp only [State.clockByte, hframe, htaken, if_true]
    rw [hbyte]
    exact ⟨hblind.trans s.beginByte_blind, hsends⟩

theorem State.clock_of_sends (bytes : List Byte) (h : s.mgmt.frame.Sends) : (s.clock bytes).blind = s.blind := by
  induction bytes generalizing s with
  | nil => rfl
  | cons b bytes ih =>
    obtain ⟨hblind, hsends⟩ := State.clockByte_of_sends b h
    exact (ih hsends).trans hblind

theorem State.Twin.byteOut (f : FrameState) (hsnapshot : f.todo = .snapshot) (h : s.blind = t.blind) :
    (s.byteOut f).Twin (t.byteOut f) := by
  unfold State.byteOut
  dsimp only
  rw [hsnapshot]
  cases decide (f.position + 1 = f.response.length) with
  | true =>
    have hempty : s.emptySnapshot.blind = t.emptySnapshot.blind := congrArg State.emptySnapshot h
    exact .setFrame _ hempty
  | false => exact .setFrame _ h

/-! ### The bytes of a frame -/

theorem State.Twin.clockByte (b : Byte) (h : s.Twin t) : (s.clockByte b).Twin (t.clockByte b) := by
  obtain ⟨hblind, hframe⟩ := h
  have hsend (hs : s.mgmt.frame.Sends) (ht : t.mgmt.frame.Sends) : (s.clockByte b).Twin (t.clockByte b) := by
    obtain ⟨hsb, hss⟩ := State.clockByte_of_sends b hs
    obtain ⟨htb, hts⟩ := State.clockByte_of_sends b ht
    exact ⟨hsb.trans (hblind.trans htb.symm), .inr ⟨hss, hts⟩⟩
  obtain he | ⟨hs, ht⟩ := hframe
  · by_cases hs : s.mgmt.frame.Sends
    · exact hsend hs (he ▸ hs)
    · unfold State.clockByte
      simp only [State.beginByte_of_not_sends hs, State.beginByte_of_not_sends (he ▸ hs), ← he]
      cases hf : s.mgmt.frame with
      | closed => exact ⟨hblind, .inl he⟩
      | ignored => exact ⟨hblind, .inl he⟩
      | running f =>
        by_cases htaken : f.taken = true
        · simp only [htaken, if_true]
          exact .byteOut f (Decidable.not_not.mp fun htodo => hs (hf ▸ ⟨htaken, htodo⟩)) hblind
        · simp only [htaken, Bool.false_eq_true, if_false]
          exact .mosiByte f b hblind
  · exact hsend hs ht

theorem State.Twin.clock (bytes : List Byte) (h : s.Twin t) : (s.clock bytes).Twin (t.clock bytes) := by
  induction bytes generalizing s t with
  | nil => exact h
  | cons b bytes ih => exact ih (h.clockByte b)

theorem State.send_alike (bytes : List Byte) (h : s.blind = t.blind) (hframe : s.mgmt.frame = t.mgmt.frame) :
    (s.send bytes).blind = (t.send bytes).blind := by
  unfold State.send
  rw [← hframe]
  split
  · split
    · exact (State.Twin.clock _ ⟨h, .inl hframe⟩).blind
    · exact h
  · exact h
  · exact h

theorem State.sendWord_alike (a : Nat) (v : Word) (h : s.blind = t.blind) (hframe : s.mgmt.frame = t.mgmt.frame) :
    (s.sendWord a v).blind = (t.sendWord a v).blind := by
  unfold State.sendWord
  rw [← hframe]
  split
  · split
    · dsimp only
      split
      · exact (State.Twin.clock _ ⟨h, .inl hframe⟩).blind
      · exact h
    · exact h
  · exact h
  · exact h

theorem State.restOfSnapshot_alike (h : s.blind = t.blind) (hframe : s.mgmt.frame = t.mgmt.frame) :
    s.restOfSnapshot.blind = t.restOfSnapshot.blind := by
  unfold State.restOfSnapshot
  rw [← hframe]
  split
  · split
    · unfold State.clockOut
      split
      · exact (State.Twin.clock _ ⟨h, .inl hframe⟩).blind
      · exact h
    · exact h
  · exact h
  · exact h

/-- What goes out of a response that is not the snapshot touches nothing but the records. -/
theorem State.clockOut_blind (s : State) (f : FrameState) (more : Nat) (hframe : s.mgmt.frame = .running f)
    (htodo : f.todo ≠ .snapshot) : (s.clockOut f more).blind = s.blind := by
  unfold State.clockOut
  split
  · next htaken => exact State.clock_of_sends _ (hframe ▸ ⟨htaken, htodo⟩)
  · rfl

theorem State.nextRegister_blind (s : State) : s.nextRegister.blind = s.blind := by
  unfold State.nextRegister
  split
  · next f hframe =>
    split
    · next htodo =>
      exact (s.clockOut f 0).beginByte_blind.trans (s.clockOut_blind f 0 hframe (by rw [htodo]; nofun))
    · rfl
  · rfl
  · rfl

theorem State.restOfRecord_blind (s : State) : s.restOfRecord.blind = s.blind := by
  unfold State.restOfRecord
  split
  · next f hframe =>
    split
    · next htodo => exact s.clockOut_blind f _ hframe (by rw [htodo]; nofun)
    · rfl
  · rfl
  · rfl

/-! ### Every command -/

theorem effect_alike (i : Instr) (h : s.blind = t.blind) (hframe : s.mgmt.frame = t.mgmt.frame) :
    (effect i s).blind = (effect i t).blind := by
  have harrive (p : Port) (r : Request) := (State.arrive_blind p r).alike h
  have hsend (bytes : List Byte) := State.send_alike bytes h hframe
  have hword (a : Nat) (v : Word) := State.sendWord_alike a v h hframe
  have hexchange (f : Word → Exchange → Exchange) :=
    (State.unlessReset_blind (State.onExchange_blind f)).alike h
  cases i
  case pinReset => exact State.pinReset_blind.alike h
  case pinResetRelease => exact State.pinRelease_blind.alike h
  case tick => exact (State.unlessReset_blind State.tickBoundary_blind).alike h
  case portReset p => exact (State.assertPrst_blind p).alike h
  case portResetRelease p => exact (State.deassertPrst_blind p).alike h
  case passThrough p r => exact harrive p r
  case writerPayloadAccess p r => exact harrive p r
  case writerHeaderRead p a => exact harrive p _
  case explicitCommit p a v => exact harrive p _
  case explicitAbandon p a v => exact harrive p _
  case explicitAcquire p a => exact harrive p _
  case explicitRelease p a => exact harrive p _
  case readerPayloadRead p a z => exact harrive p _
  case classifierRefusal p r => exact harrive p r
  case arbiterGrant => exact (State.unlessReset_blind State.grant_blind).alike h
  case memoryResponse a => exact (State.unlessReset_blind (State.respond_blind a)).alike h
  case responseTimerExpiry place => exact (State.unlessReset_blind (State.responseExpiry_blind place)).alike h
  case recoveryPulseExpiry => exact (State.unlessReset_blind State.pulseExpiry_blind).alike h
  case fillTimerExpiry => exact hexchange _
  case holdTimerExpiry => exact hexchange _
  case stallTimerExpiry => exact hexchange _
  case spiFrameStart e =>
    cases e with
    | edge => exact State.frameStart_blind.alike h
    | firstBit => exact s.beginByte_blind.trans (h.trans t.beginByte_blind.symm)
    | byte b => exact (State.Twin.clockByte b ⟨h, .inl hframe⟩).blind
  case spiFrameEnd => exact h
  case readRegisters e =>
    cases e with
    | taken a n => exact hsend _
    | nextRegister => exact s.nextRegister_blind.trans (h.trans t.nextRegister_blind.symm)
  case registerWrite a v => exact hword _ v
  case lockedRegisterWrite w r v => exact hword _ v
  case stagedRegisterWrite w r v => exact hword _ v
  case tbDivWrite v => exact hword _ v
  case memTimeoutWrite v => exact hword _ v
  case eventEnableWrite v => exact hword _ v
  case snapshotConsumed => exact State.restOfSnapshot_alike h hframe
  case eventRecordRemoval => exact s.restOfRecord_blind.trans (h.trans t.restOfRecord_blind.symm)
  all_goals exact hsend _

end

/-- Settles O10: the end of an event looks at the records no more than the command itself. -/
theorem enablesGovernRecordsAlone : Obligations.EnablesGovernRecordsAlone := by
  intro i s t enables unit hexec
  have hwell : i.wellFormed = true := by
    by_contra hill
    exact nomatch hexec.symm.trans ((exec_next_or_refused i s).2 (Bool.eq_false_iff.mpr hill))
  obtain ⟨t', ht'⟩ := (exec_next_or_refused i { s with eventEnable := enables, events := unit }).1 hwell
  have hblind : t'.blind = t.blind := by
    rw [exec_next hexec, exec_next ht']
    exact State.finish_alike (effect_alike i rfl rfl)
  exact ⟨t', ht', (congrArg State.exch hblind :), (congrArg State.issued hblind :), (congrArg State.memPort hblind :),
    (congrArg State.time hblind :), (congrArg State.memTimeout hblind :), (congrArg (fun u => u.mgmt.snapshot) hblind :)⟩

end Sys2Proof.Machine
end
